-- ==== Sys2Proof/Word.lean ====
section
/-! DEFINITION. The word types of the block: 8-bit bytes and colour channels, 16-bit coordinates, 32-bit burst
registers, counts, lengths and clock values (spec/00_scope.md R9, R10). -/

namespace Sys2Proof

/-- A byte, and one colour channel (R9, R10). -/
abbrev Byte := BitVec 8

/-- A coordinate or a panel dimension: unsigned, 16 bits (R9). -/
abbrev Half := BitVec 16

/-- A burst register, a descriptor word, a count, a length, an address or a clock value in Hz: 32 bits (R9, R101). -/
abbrev Word := BitVec 32

end Sys2Proof
end

