-- ==== Sys2Proof/Machine/Registers.lean ====
section
/-! DEFINITION. The configuration register space (spec/10_state.md R35): the ten registers, their numbers, which the
host may write, and which values a write may hold (spec/46_config_access.md R280). -/

namespace Sys2Proof.Machine

/-- The ten configuration registers of R35. -/
inductive CfgReg where
  | ctrl
  | status
  | clock
  | maxRdclock
  | width
  | height
  | result
  | cntDirect
  | cntDma
  | cntBurst
  deriving DecidableEq, Repr

/-- The register a number names; numbers `0x0A` to `0xFF` are reserved and name none (R35). -/
def cfgRegOf (n : Byte) : Option CfgReg :=
  match n.toNat with
  | 0x00 => some .ctrl
  | 0x01 => some .status
  | 0x02 => some .clock
  | 0x03 => some .maxRdclock
  | 0x04 => some .width
  | 0x05 => some .height
  | 0x06 => some .result
  | 0x07 => some .cntDirect
  | 0x08 => some .cntDma
  | 0x09 => some .cntBurst
  | _ => none

/-- The values `CFG_WR` may write to a register (table of R280): `none` of them for a read-only register (R35). -/
def cfgValueLegal (r : CfgReg) (value : Word) : Bool :=
  match r with
  | .ctrl => value.extractLsb' 2 30 == 0
  | .clock => value != 0
  | .maxRdclock => value != 0
  | .width => value.extractLsb' 16 16 == 0 && value.extractLsb' 0 16 != 0
  | .height => value.extractLsb' 16 16 == 0 && value.extractLsb' 0 16 != 0
  | .status => false
  | .result => false
  | .cntDirect => false
  | .cntDma => false
  | .cntBurst => false

/-- `CFG_WR reg, value` is legal (R118, R280): the register exists, is writable, and the value is one of its legal
values. The answer is the register, or none where the access is rejected with `ST_ILLEGAL`. -/
def cfgWriteTarget (reg : Byte) (value : Word) : Option CfgReg :=
  match cfgRegOf reg with
  | some r => if cfgValueLegal r value then some r else none
  | none => none

end Sys2Proof.Machine
end

