-- ==== Sys2Proof/Syntax.lean ====
section
/-! DEFINITION. The thirteen operations of the block with their operands (spec/30_encoding.md R100 to R116), one
constructor for each row of spec/opcode_table.json. Operands are typed as the encoding types them: no operand is
sign-extended, scaled or shifted (R116). -/

namespace Sys2Proof

/-- The two endpoints on the bus (R16, R103): `dev` 0 is the display, 1 the touch endpoint. -/
inductive Dev where
  | display
  | touch
  deriving DecidableEq, Repr

/-- Three independent 8-bit channels, no alpha (R10). -/
structure Color where
  r : Byte
  g : Byte
  b : Byte
  deriving DecidableEq, Repr

/-- An inclusive rectangular region: column start and end, row start and end (R10). -/
structure Window where
  cs : Half
  ce : Half
  rs : Half
  re : Half
  deriving DecidableEq, Repr

/-- One operation of the host (R100). The register number of `cfgWr` and `cfgRd` and the value of `cfgWr` stand as
the descriptor holds them; which of them are legal is R118's, see `Instr.wf`. -/
inductive Instr where
  /-- `SELECT dev` (R103, R140). -/
  | select (dev : Dev)
  /-- `DESELECT dev` (R104, R142). -/
  | deselect (dev : Dev)
  /-- `SEND_CMD cmd` (R105, R161). -/
  | sendCmd (cmd : Byte)
  /-- `SEND_CMD_DATA cmd, addr, length` (R106, R163). -/
  | sendCmdData (cmd : Byte) (addr length : Word)
  /-- `SET_WINDOW cs, ce, rs, re` (R107, R184). -/
  | setWindow (w : Window)
  /-- `PUSH_REP color, count, wait` (R108, R210). -/
  | pushRep (color : Color) (count : Word) (wait : Bool)
  /-- `PUSH_BUF addr, count, wait` (R109, R211). -/
  | pushBuf (addr count : Word) (wait : Bool)
  /-- `READ_PIXELS cs, ce, rs, re, count, addr, adapt` (R110, R240). -/
  | readPixels (w : Window) (count addr : Word) (adapt : Bool)
  /-- `READ_PIXEL x, y` (R111, R250). -/
  | readPixel (x y : Half)
  /-- `FIND_MAX_RDCLK` (R112, R260). -/
  | findMaxRdclk
  /-- `WAIT` (R113, R166). -/
  | wait
  /-- `CFG_WR reg, value` (R114, R280). -/
  | cfgWr (reg : Byte) (value : Word)
  /-- `CFG_RD reg` (R115, R282). -/
  | cfgRd (reg : Byte)
  deriving DecidableEq, Repr

end Sys2Proof
end

