-- ==== Sys2Proof/WellFormed.lean ====
section
/-! DEFINITION. Which operations are legal by spec/30_encoding.md R118 beyond the bits of their encoding: the register
number of `CFG_RD`, and the register number and value of `CFG_WR`. Every other operand is legal at every value the
encoding admits (R116, R119: a broken precondition is no encoding error). -/

namespace Sys2Proof

/-- R118: the `reg` of `CFG_RD` names a register; the `reg` of `CFG_WR` names a writable one and the value is legal
for it. -/
def Instr.wf : Instr → Bool
  | .cfgWr reg value => (Machine.cfgWriteTarget reg value).isSome
  | .cfgRd reg => (Machine.cfgRegOf reg).isSome
  | .select _ => true
  | .deselect _ => true
  | .sendCmd _ => true
  | .sendCmdData _ _ _ => true
  | .setWindow _ => true
  | .pushRep _ _ _ => true
  | .pushBuf _ _ _ => true
  | .readPixels _ _ _ _ => true
  | .readPixel _ _ => true
  | .findMaxRdclk => true
  | .wait => true

end Sys2Proof
end

