-- ==== Sys2Proof/Decode.lean ====
section
/-! DEFINITION. Descriptors and operations (spec/30_encoding.md R101 to R119, R128): the opcode table with its match
and mask over word 0, a total decoder that rejects by name, and the encoder. -/

namespace Sys2Proof

/-- The thirteen opcodes of R100. -/
inductive Opcode where
  | select
  | deselect
  | sendCmd
  | sendCmdData
  | setWindow
  | pushRep
  | pushBuf
  | readPixels
  | readPixel
  | findMaxRdclk
  | wait
  | cfgWr
  | cfgRd
  deriving DecidableEq, Repr

/-- Why a sequence of words is no operation. -/
inductive DecodeError where
  /-- Fewer words than the opcode's length (R101): no whole descriptor was handed over. -/
  | truncated
  /-- The opcode is `0x00` or in `0x0E..0xFF` (R118). -/
  | badOpcode (opc : Byte)
  /-- A bit of word 0 that the operation does not name is 1 (R102, R118). -/
  | reservedBit (opc : Byte)
  /-- Word 1 of `PUSH_REP` has a bit of `[31:24]` set (R108, R118). -/
  | reservedColorBits
  deriving DecidableEq, Repr

/-- All opcodes, in the table's order (R100). -/
def opcodes : List Opcode :=
  [.select, .deselect, .sendCmd, .sendCmdData, .setWindow, .pushRep, .pushBuf, .readPixels, .readPixel,
    .findMaxRdclk, .wait, .cfgWr, .cfgRd]

/-- The opcode byte (R100). -/
def opcodeByte : Opcode → Byte
  | .select => 0x01
  | .deselect => 0x02
  | .sendCmd => 0x03
  | .sendCmdData => 0x04
  | .setWindow => 0x05
  | .pushRep => 0x06
  | .pushBuf => 0x07
  | .readPixels => 0x08
  | .readPixel => 0x09
  | .findMaxRdclk => 0x0A
  | .wait => 0x0B
  | .cfgWr => 0x0C
  | .cfgRd => 0x0D

/-- The `match` column of the table: word 0 with every field bit 0 (R103 to R115). -/
def opcodeMatch (o : Opcode) : Word := (opcodeByte o).zeroExtend 32

/-- The `mask` column of the table (R103 to R115). -/
def opcodeMask : Opcode → Word
  | .select => 0xFFFFFEFF
  | .deselect => 0xFFFFFEFF
  | .sendCmd => 0xFFFF00FF
  | .sendCmdData => 0xFFFF00FF
  | .setWindow => 0xFFFFFFFF
  | .pushRep => 0xFFFFFEFF
  | .pushBuf => 0xFFFFFEFF
  | .readPixels => 0xFFFFFEFF
  | .readPixel => 0xFFFFFFFF
  | .findMaxRdclk => 0xFFFFFFFF
  | .wait => 0xFFFFFFFF
  | .cfgWr => 0xFFFF00FF
  | .cfgRd => 0xFFFF00FF

/-- The descriptor length in words (R100). -/
def opcodeWords : Opcode → Nat
  | .select => 1
  | .deselect => 1
  | .sendCmd => 1
  | .sendCmdData => 3
  | .setWindow => 3
  | .pushRep => 3
  | .pushBuf => 3
  | .readPixels => 5
  | .readPixel => 2
  | .findMaxRdclk => 1
  | .wait => 1
  | .cfgWr => 2
  | .cfgRd => 1

/-- The opcode a byte names, none for `0x00` and `0x0E..0xFF` (R100, R118). -/
def opcodeOf (b : Byte) : Option Opcode :=
  match b.toNat with
  | 0x01 => some .select
  | 0x02 => some .deselect
  | 0x03 => some .sendCmd
  | 0x04 => some .sendCmdData
  | 0x05 => some .setWindow
  | 0x06 => some .pushRep
  | 0x07 => some .pushBuf
  | 0x08 => some .readPixels
  | 0x09 => some .readPixel
  | 0x0A => some .findMaxRdclk
  | 0x0B => some .wait
  | 0x0C => some .cfgWr
  | 0x0D => some .cfgRd
  | _ => none

/-! ## Fields (R102, R103 to R115) -/

/-- Bits `[7:0]` of word 0: the opcode. -/
def fieldOpc (w : Word) : Byte := w.extractLsb' 0 8

/-- Bit `[8]` of word 0: the one-bit operand `F`. -/
def fieldF (w : Word) : Bool := w.getLsbD 8

/-- Bits `[15:8]` of word 0: the eight-bit operand `IMM8`. -/
def fieldImm8 (w : Word) : Byte := w.extractLsb' 8 8

/-- Bits `[15:0]` of an operand word. -/
def fieldLow (w : Word) : Half := w.extractLsb' 0 16

/-- Bits `[31:16]` of an operand word. -/
def fieldHigh (w : Word) : Half := w.extractLsb' 16 16

/-- `dev`: 0 is the display, 1 the touch endpoint (R103, R116). -/
def devOfBit : Bool → Dev
  | false => .display
  | true => .touch

/-- The bit that names an endpoint (R103). -/
def bitOfDev : Dev → Bool
  | .display => false
  | .touch => true

/-- A Color in word 1 of `PUSH_REP` (R108). -/
def fieldColor (w : Word) : Color := ⟨w.extractLsb' 0 8, w.extractLsb' 8 8, w.extractLsb' 16 8⟩

/-- A window in two operand words, columns first (R107, R110). -/
def fieldWindow (w1 w2 : Word) : Window := ⟨fieldLow w1, fieldHigh w1, fieldLow w2, fieldHigh w2⟩

/-! ## The decoder -/

/-- The opcode word 0 selects: `w & mask = match` for its row (R102, R128). -/
def word0Opcode (w0 : Word) : Except DecodeError Opcode :=
  match opcodeOf (fieldOpc w0) with
  | none => .error (.badOpcode (fieldOpc w0))
  | some o => if w0 &&& opcodeMask o = opcodeMatch o then .ok o else .error (.reservedBit (fieldOpc w0))

/-- The operation of opcode `o` with word 0 `w0` and the words after it. Words beyond the opcode's length are not
read (R101). Too few words are `truncated`, and that comes before the checks of R118 on what the opcode and the reserved
bits of word 0 do not show: `CFG_WR` without its value is `truncated` whatever its register, and `PUSH_REP` without its
count is `truncated` whatever its word 1. No rule orders the two: DESIGN CHOICE (log 18). -/
def decodeOperands (o : Opcode) (w0 : Word) (ops : List Word) : Except DecodeError Instr :=
  match o, ops with
  | .select, _ => .ok (.select (devOfBit (fieldF w0)))
  | .deselect, _ => .ok (.deselect (devOfBit (fieldF w0)))
  | .sendCmd, _ => .ok (.sendCmd (fieldImm8 w0))
  | .sendCmdData, addr :: length :: _ => .ok (.sendCmdData (fieldImm8 w0) addr length)
  | .setWindow, w1 :: w2 :: _ => .ok (.setWindow (fieldWindow w1 w2))
  | .pushRep, w1 :: count :: _ =>
    if w1.extractLsb' 24 8 = 0 then .ok (.pushRep (fieldColor w1) count (fieldF w0)) else .error .reservedColorBits
  | .pushBuf, addr :: count :: _ => .ok (.pushBuf addr count (fieldF w0))
  | .readPixels, w1 :: w2 :: count :: addr :: _ => .ok (.readPixels (fieldWindow w1 w2) count addr (fieldF w0))
  | .readPixel, w1 :: _ => .ok (.readPixel (fieldLow w1) (fieldHigh w1))
  | .findMaxRdclk, _ => .ok .findMaxRdclk
  | .wait, _ => .ok .wait
  | .cfgWr, value :: _ => .ok (.cfgWr (fieldImm8 w0) value)
  | .cfgRd, _ => .ok (.cfgRd (fieldImm8 w0))
  | _, _ => .error .truncated

/-- The operation a descriptor holds, or why it holds none (R101, R118, R128). The register checks of R118 for
`CFG_WR` and `CFG_RD` are made by the operations themselves, as R280 and R282 write them: with the same rejection. -/
def decode (d : List Word) : Except DecodeError Instr :=
  match d with
  | [] => .error .truncated
  | w0 :: ops =>
    match word0Opcode w0 with
    | .error e => .error e
    | .ok o => decodeOperands o w0 ops

/-! ## The encoder -/

/-- Word 0 with the one-bit operand at bit 8 (R102). -/
def word0F (o : Opcode) (f : Bool) : Word := opcodeMatch o ||| (BitVec.ofBool f).zeroExtend 32 <<< 8

/-- Word 0 with the eight-bit operand at bits 15:8 (R102). -/
def word0Imm8 (o : Opcode) (v : Byte) : Word := opcodeMatch o ||| v.zeroExtend 32 <<< 8

/-- Word 0 of an operation without a short operand (R102). -/
def word0Plain (o : Opcode) : Word := opcodeMatch o

/-- Two 16-bit operands in one word: bits `[15:0]` and `[31:16]`. -/
def halvesWord (low high : Half) : Word := low.zeroExtend 32 ||| high.zeroExtend 32 <<< 16

/-- A Color in an operand word, bits `[31:24]` zero (R108). -/
def colorWord (c : Color) : Word := c.r.zeroExtend 32 ||| c.g.zeroExtend 32 <<< 8 ||| c.b.zeroExtend 32 <<< 16

/-- The two words of a window (R107, R110). -/
def windowWords (w : Window) : List Word := [halvesWord w.cs w.ce, halvesWord w.rs w.re]

/-- The words of an operation (R103 to R115). -/
def encode : Instr → List Word
  | .select dev => [word0F .select (bitOfDev dev)]
  | .deselect dev => [word0F .deselect (bitOfDev dev)]
  | .sendCmd cmd => [word0Imm8 .sendCmd cmd]
  | .sendCmdData cmd addr length => [word0Imm8 .sendCmdData cmd, addr, length]
  | .setWindow w => word0Plain .setWindow :: windowWords w
  | .pushRep c count wait => [word0F .pushRep wait, colorWord c, count]
  | .pushBuf addr count wait => [word0F .pushBuf wait, addr, count]
  | .readPixels w count addr adapt => word0F .readPixels adapt :: (windowWords w ++ [count, addr])
  | .readPixel x y => [word0Plain .readPixel, halvesWord x y]
  | .findMaxRdclk => [word0Plain .findMaxRdclk]
  | .wait => [word0Plain .wait]
  | .cfgWr reg value => [word0Imm8 .cfgWr reg, value]
  | .cfgRd reg => [word0Imm8 .cfgRd reg]

/-- The opcode of an operation (R100). -/
def opcodeFor : Instr → Opcode
  | .select _ => .select
  | .deselect _ => .deselect
  | .sendCmd _ => .sendCmd
  | .sendCmdData _ _ _ => .sendCmdData
  | .setWindow _ => .setWindow
  | .pushRep _ _ _ => .pushRep
  | .pushBuf _ _ _ => .pushBuf
  | .readPixels _ _ _ _ => .readPixels
  | .readPixel _ _ => .readPixel
  | .findMaxRdclk => .findMaxRdclk
  | .wait => .wait
  | .cfgWr _ _ => .cfgWr
  | .cfgRd _ => .cfgRd

/-! ## Words by number -/

/-- The five descriptor words of a number, bit 0 the least significant bit of word 0; bits from `nbits` up are 0. -/
def wordsOfNat (nbits w : Nat) : List Word :=
  (List.range 5).map fun k => BitVec.ofNat 32 ((w % 2 ^ nbits) >>> (32 * k))

/-- The operation the decoder reads from a descriptor given as one number. -/
def decodeTableWord (nbits w : Nat) : Option Instr :=
  match decode (wordsOfNat nbits w) with
  | .ok i => some i
  | .error _ => none

end Sys2Proof
end

