-- ==== Sys2Proof/Config.lean ====
section
/-! DEFINITION. What an implementation fixes: the parameters of spec/00_scope.md R8, the constants the spec decides,
and the free values, which no proof can evaluate. -/

namespace Sys2Proof.Config

/-- Bits per channel a panel keeps in 3-byte mode, `PANEL_SIG_BITS_3B`: 6 or 8 (R8, D34). -/
inductive SigBits where
  | six
  | eight
  deriving DecidableEq, Repr

/-- The OPEN parameters of R8. They are an argument of the model: State holds them, no step changes them, and a
statement about every state is a statement about every choice of them (DESIGN CHOICE, log 1).
`DMA_TIMEOUT` and `SEL_TIMEOUT` are no numbers here: R304 makes each an outcome of the environment.
`clockQuant` lists the clocks the generator does not take as requested; every other clock is taken as it is, which
is the spec's default (D31; log 3). -/
structure Params where
  nwords : Nat
  cmdCaset : Byte
  cmdPaset : Byte
  cmdRamwr : Byte
  cmdRamrd : Byte
  addrBits : Nat
  calFloorHz : Word
  calStepHz : Word
  calCeilHz : Word
  calDefaultHz : Word
  rspExt : Nat
  preemptGuard : Bool
  clockQuant : List (Word × Word)
  panelSigBits : SigBits
  deriving DecidableEq, Repr

/-- The defaults R8 suggests. DESIGN CHOICE (log 1): the suggestions are the spec's, their use at reset is the
model's. `CAL_CEIL_HZ` has no default: DESIGN CHOICE (log 2), the value of the worked example R274. -/
def defaultParams : Params where
  nwords := 16
  cmdCaset := 0x2A
  cmdPaset := 0x2B
  cmdRamwr := 0x2C
  cmdRamrd := 0x2E
  addrBits := 32
  calFloorHz := 2000000
  calStepHz := 1000000
  calCeilHz := 40000000
  calDefaultHz := 1000000
  rspExt := 1
  preemptGuard := true
  clockQuant := []
  panelSigBits := .six

/-- Grayscale weights over `grayDen` (R8, R190). -/
def grayWr : Nat := 2989
def grayWg : Nat := 4870
def grayWb : Nat := 2140
def grayDen : Nat := 10000

/-- Rows' worth of pixels in the repeated-fill buffer (R8, R218). -/
def fillRows : Nat := 2

/-- The calibration's sample colour (R8, R262). -/
def calColor : Color := ⟨0xEC, 0xA8, 0x74⟩

/-! ## Free values

Each is applied to a counter of State that the draw advances (log 6). Nothing in Lean can evaluate one. -/

/-- Whether a select or deselect is acknowledged in time (U13; R141, R143). -/
opaque freeAck : Nat → Bool

/-- Whether DMA-capable scratch memory is obtained (U14; R218, R262). -/
opaque freeAlloc : Nat → Bool

/-- Whether the DMA engine completes its transfer before the host's next action (R69, R156). -/
opaque freeTurn : Nat → Bool

/-- Whether an operation that waits for a DMA transfer is still waiting when other agents next act (R146, R158). -/
opaque freeHold : Nat → Bool

/-- How a wait for an outstanding DMA transfer ends (U15, U16; R156, R157): `none` by completion, `some k` by the
timeout after `k` bytes. -/
opaque freeEnd : Nat → Option Nat

/-- A received byte, the discarded bits of one, or a byte of a buffer whose read failed (U9 to U12, U18). -/
opaque freeByte : Nat → Byte

/-- The panel's last command after a reset that left it in the middle of a frame (U20; R321). -/
opaque freePanelCmd : Nat → Option Byte

/-- The panel's argument bytes after such a reset (U20; R321). -/
opaque freePanelArg : Nat → List Byte

/-- The panel's position after such a reset (U20; R321). -/
opaque freePanelCur : Nat → Option (Nat × Nat)

end Sys2Proof.Config
end

