-- ==== Sys2Proof/Machine/State.lean ====
section
/-! DEFINITION. The state of the block (spec/10_state.md R20 to R45) and of what stands around it: host memory
(20_memory.md R60), the reference panel (R81), the trace (00_scope.md R14), the environment's answers and the host's
actions. Plain data throughout; with it the reasons a step can stop, and the state after reset (R44). -/

namespace Sys2Proof.Machine

/-! ## The block -/

/-- Level of the command/data line (10 R27): the line is 0 for `command` and 1 for `data` (D7). -/
inductive DcLevel where
  | command
  | data
  deriving DecidableEq, Repr

/-- Colour-depth mode (10 R29): `d16` is 2 bytes a pixel, `d24` is 3. -/
inductive Depth where
  | d16
  | d24
  deriving DecidableEq, Repr

/-- Whose bytes a DMA transfer carries (10 R36). -/
inductive DmaOwner where
  | caller
  | scratch
  deriving DecidableEq, Repr

/-- The outstanding DMA transfer (10 R36). -/
inductive Dma where
  | idle
  | inFlight (bytes : List Byte) (owner : DmaOwner)
  deriving DecidableEq, Repr

/-- Status codes (60 R291); the codes 5 to 7 are never produced and have no constructor. -/
inductive Status where
  | ok
  | deselectFail
  | selectFail
  | dmaTimeout
  | illegal
  deriving DecidableEq, Repr

/-- The four sticky error flags (10 R39). -/
structure ErrFlags where
  sel : Bool
  dmaTo : Bool
  alloc : Bool
  illegal : Bool
  deriving DecidableEq, Repr

/-- The three counters, modulo 2^32 (10 R34). -/
structure Counters where
  direct : Word
  dma : Word
  burst : Word
  deriving DecidableEq, Repr

/-- The configuration fields (10 R29, R30, R31). `none` is the spec's "no value" (R43; log 4). -/
structure Cfg where
  depth : Option Depth
  gray : Option Bool
  maxRdclock : Option Word
  width : Option Half
  height : Option Half
  deriving DecidableEq, Repr

/-! ## The trace -/

/-- The events of 00_scope.md R14. -/
inductive Event where
  | sel (d : Dev)
  | desel (d : Dev)
  | clk (hz : Word)
  | tx (v : DcLevel) (b : Byte)
  | rx (b : Byte)
  | burstTx (bits : Nat)
  | burstRx (bits : Nat)
  | dmaQ (bytes : Nat)
  | dmaDone
  | dmaAbort (bytes : Nat)
  | inh (v : Bool)
  deriving DecidableEq, Repr

/-! ## Host memory -/

/-- Host memory as address and byte pairs, addresses strictly rising, no byte equal to `unlistedByte`. -/
abbrev Memory := List Host.Cell

/-- What an unlisted address reads as. DESIGN CHOICE (log 15): the spec gives host memory no contents. -/
def unlistedByte : Byte := 0

/-- A range of host memory the host owns (20 R61); `dmaCapable` says whether the DMA engine reaches it (20 R64). -/
structure Region where
  base : Nat
  size : Nat
  dmaCapable : Bool
  deriving DecidableEq, Repr

/-! ## The reference panel (environment) -/

/-- The panel's pixel format, `p.fmt` (20 R81). -/
inductive PanelFmt where
  | f16
  | f3b
  deriving DecidableEq, Repr

/-- The panel's read phase, `p.rd` (20 R81): the dummy byte, or channel red, green or blue of a pixel. -/
inductive ReadPhase where
  | dummy
  | red
  | green
  | blue
  deriving DecidableEq, Repr

/-- A stored pixel: each channel's significant bits, right justified, and the format it was stored in, which says how
many they are (20 R81, R84; log 34). -/
structure Pixel where
  r : Byte
  g : Byte
  b : Byte
  fmt : PanelFmt
  deriving DecidableEq, Repr

/-- The reference panel's state (20 R81). `p.win` has a value when both `cols` and `rows` have (R83); `cur = none`
is `Overrun`. `gram` is sparse, keyed by `Machine.gramKey`, and a pixel nothing has written is not listed.
`bench` selects the deterministic test bench of R91. -/
structure Panel where
  cols : Option (Half × Half)
  rows : Option (Half × Half)
  cur : Option (Nat × Nat)
  cmd : Option Byte
  arg : List Byte
  fmt : PanelFmt
  gram : List (Nat × Pixel)
  rd : ReadPhase
  rdMaxHz : Word
  bench : Bool
  deriving DecidableEq, Repr

/-! ## The environment's answers and the host's actions -/

/-- What the host does (00 R7; log 12). -/
inductive HostAct where
  /-- Hand over one descriptor (30 R101). -/
  | issue (words : List Word)
  /-- Store bytes to its own memory (20 R70). -/
  | store (addr : Word) (bytes : List Byte)
  /-- Free a range of its memory, which it then owns no longer (70 R332). -/
  | free (addr len : Word)
  /-- Take a range of memory for an object of its own, which reuses whatever held it (70 R332). -/
  | claim (addr len : Word) (dmaCapable : Bool)
  /-- Reprogram the panel's pixel format (70 R334). The command that does it is out of scope (70 R324), so the action
  stands for its effect: DESIGN CHOICE (log 34). -/
  | panelFormat (fmt : PanelFmt)
  /-- Reset the block (70 R320). -/
  | reset
  deriving DecidableEq, Repr

/-- The answers the environment has still to give (00 R12), each kind in order; a draw takes the next one of its kind.
When a list is empty the answer is the free value of Config applied to `frees`, which the draw advances (log 6).
`urgent` says what comes from the host in each step that an operation is still waiting (70 R321, R330, R340; log 11),
nothing when it is empty. -/
structure Env where
  acks : List Bool
  allocs : List Bool
  turns : List Bool
  ends : List (Option Nat)
  bytes : List Byte
  frees : Nat
  holds : List Bool
  urgent : List (Option HostAct)
  deriving DecidableEq, Repr

/-! ## The operation in progress -/

/-- What a calibration scan works with: depth mode, panel width in pixels and test window (45 R261, R262, R264). -/
structure CalPlan where
  depth : Depth
  width : Nat
  window : Window
  deriving DecidableEq, Repr

/-- Where an operation in progress stands between steps (10 R24): at one of its blocking waits on the DMA engine
(10 R36; 40 R146, R158), with the transient values it holds there (10 R40). -/
inductive Phase where
  /-- The opening drain (40 R145). -/
  | drain
  /-- The final wait of `PUSH_BUF` (43 R216). -/
  | pushWait
  /-- A wait of `PUSH_REP` (43 R220, R221): the fill buffer, the wire bytes of a pixel and the pixel counts of the
  transfers to come. -/
  | fill (buffer : List Byte) (pixelBytes : Nat) (rest : List Nat)
  /-- The wait of `FIND_MAX_RDCLK` for its test line (45 R265): the saved clock and grayscale flag, the plan, the
  candidate, the candidates to come and the best one so far. -/
  | scan (clock : Word) (gray : Bool) (plan : CalPlan) (candidate : Nat) (rest : List Nat) (best : Option Word)
  deriving DecidableEq, Repr

/-! ## The state -/

/-- The state: the block's fields of 10 R20, then the objects of R41 around it. -/
structure State where
  /-- The burst data registers `W[0..NWORDS-1]` (10 R21). -/
  w : List Word
  /-- Bit count of the last burst (10 R23). -/
  bitlen : Nat
  /-- The selected endpoint (10 R26). -/
  sel : Option Dev
  /-- Level of the command/data line, or no value (10 R27). -/
  dc : Option DcLevel
  /-- Bus clock in Hz, or no value (10 R28). -/
  clock : Option Word
  /-- Configuration (10 R29 to R31). -/
  cfg : Cfg
  /-- The outstanding DMA transfer (10 R36). -/
  dma : Dma
  /-- The repeated-fill buffer: its byte count when allocated (10 R37). -/
  scratch : Option Nat
  /-- The preemption-inhibit output (10 R38). -/
  inhibit : Bool
  /-- Status of the last finished operation (10 R39). -/
  last : Status
  /-- The sticky error flags (10 R39). -/
  ef : ErrFlags
  /-- Result of the last result-producing operation, or no value (10 R33). -/
  result : Option Word
  /-- Path and burst counters (10 R34). -/
  cnt : Counters
  /-- The operation in progress and its phase, `none` when the block is `Ready` (10 R24; log 11). -/
  op : Option (Instr × Phase)
  /-- The trace (00 R14). -/
  trace : List Event
  /-- Host memory (20 R60). -/
  mem : Memory
  /-- What the host owns of it (20 R61, R64; log 16). -/
  regions : List Region
  /-- The caller buffer, address and length, that the DMA agent owns (20 R70; log 17). -/
  loan : Option (Nat × Nat)
  /-- The reference panel, when one is attached (20 R80; log 8). -/
  panel : Option Panel
  /-- The parameters (00 R8; log 1). No step changes them. -/
  par : Config.Params
  /-- The environment's answers (log 6). -/
  env : Env
  /-- The host's actions to come (log 12). -/
  host : List HostAct
  deriving DecidableEq, Repr

/-! ## Why a step can stop -/

/-- The fields that may hold no value and that a rule reads (10 R43). -/
inductive Field where
  | ctrl
  | clock
  | maxRdclock
  | width
  | height
  | result
  deriving DecidableEq, Repr

/-- Faults. -/
inductive Fault where
  /-- A host access to an address outside the address space (20 R60), raised by the host's `store`, `free` and `claim`
  actions and by no operation. Safe: nothing is claimed of such an access. -/
  | noSuchAddress (addr : Nat)
  deriving DecidableEq, Repr

/-- Refusals: the `refuse` of 00 R12, a contract violation the hardware does not detect and gives no defined behaviour
(60 R302; 93 U1 to U8). Each is safe: no theorem is provable of a run that meets one. -/
inductive Refusal where
  /-- The operation has no meaning in this model. Safe. -/
  | notModelled (mnemonic : String)
  /-- A rule reads a field that holds no value (10 R43; R302 item 1). Safe. -/
  | noValue (f : Field)
  /-- The selection is not the one the operation needs (R140, R142, R147, R244, R271, R284; R302 item 2). Safe. -/
  | wrongSelection
  /-- A buffer range that wraps past the top of the address space (20 R61; R302 item 3). Safe. -/
  | bufferWraps
  /-- A buffer range the host does not own (20 R61; R302 item 3). Safe. -/
  | bufferNotOwned
  /-- A DMA-path buffer that is not `DmaCapable` (20 R64; R302 item 3). Safe. -/
  | bufferNotDmaCapable
  /-- A host store into a buffer the DMA agent owns, or its freeing or reuse (20 R70; 70 R332; R302 item 4). Safe. -/
  | bufferOnLoan
  /-- A host store, freeing or reuse while an operation is in progress, which blocks the host (20 R74; 70 R332; log 11).
  Safe. -/
  | hostBlocked
  /-- A window with start above end (41 R182; R302 item 5). Safe. -/
  | windowReversed
  /-- A window that reaches outside the panel (41 R182; R302 item 5). Safe. -/
  | windowOutsidePanel
  /-- A single-pixel read whose window would end past 0xFFFF (44 R250). Safe. -/
  | pixelOutOfRange
  /-- The panel holds no window (20 R82; R302 item 6), raised with a panel attached. Safe. -/
  | panelHoldsNoWindow
  /-- More pixels than the panel's window holds (20 R84, R86; R302 item 6), raised with a panel attached. Safe. -/
  | windowTooSmall
  /-- The panel's pixel format differs from `cfg.depth` (70 R324; R302 item 7), raised with a panel attached. Safe. -/
  | panelFormatDiffers
  /-- An operation issued while another is in progress (70 R330; R302 item 8), or the panel's format reprogrammed while
  the bus is taken (log 34). Safe. -/
  | busy
  /-- Fewer words than the opcode's descriptor has (30 R101): no operation was handed over (log 18). Safe. -/
  | truncatedDescriptor
  /-- `cfg.width` is 0, which no register write can make it (10 R31), where the fill buffer is sized by it. Safe. -/
  | zeroWidth
  deriving DecidableEq, Repr

/-! ## Reset -/

/-- The machine right after reset (10 R44). What the block does not hold stands as the log says: memory with nothing
listed (log 15), the host owning its whole address space (log 16), no panel attached (log 8), default parameters
(log 1, log 2), no scripted answers (log 6), no host action (log 12). The burst registers are 0: DESIGN CHOICE
(log 5). -/
def State.reset : State where
  w := List.replicate Config.defaultParams.nwords 0
  bitlen := 0
  sel := none
  dc := none
  clock := none
  cfg := ⟨none, none, none, none, none⟩
  dma := .idle
  scratch := none
  inhibit := false
  last := .ok
  ef := ⟨false, false, false, false⟩
  result := none
  cnt := ⟨0, 0, 0⟩
  op := none
  trace := []
  mem := []
  regions := [⟨0, 2 ^ 32, true⟩]
  loan := none
  panel := none
  par := Config.defaultParams
  env := ⟨[], [], [], [], [], 0, [], []⟩
  host := []

end Sys2Proof.Machine
end

