-- ==== Sys2Proof/Machine/Convert.lean ====
section
/-! DEFINITION. The colour-space converter (spec/42_color_convert.md): pure functions from a Color and the two
configuration fields to wire bytes, and the masks and views a read-back is compared under. -/

namespace Sys2Proof.Machine

/-- `Gray` (R190): the weighted sum in natural numbers, floor division, the clamp kept though it never acts (R191). -/
def gray (c : Color) : Color :=
  let s := Config.grayWr * c.r.toNat + Config.grayWg * c.g.toNat + Config.grayWb * c.b.toNat
  let lum : Byte := BitVec.ofNat 8 (min (s / Config.grayDen) 255)
  ⟨lum, lum, lum⟩

/-- `Convert` (R192): grayscale where the flag is set. -/
def convert (g : Bool) (c : Color) : Color := if g then gray c else c

/-- `Pack565` (R193): red in bits 15:11, green 10:5, blue 4:0, high byte first. -/
def pack565 (c : Color) : List Byte :=
  let v : Half :=
    (c.r.extractLsb' 3 5).zeroExtend 16 <<< 11 ||| (c.g.extractLsb' 2 6).zeroExtend 16 <<< 5
      ||| (c.b.extractLsb' 3 5).zeroExtend 16
  [v.extractLsb' 8 8, v.extractLsb' 0 8]

/-- `Pack888` (R194): one byte per channel, red, green, blue. -/
def pack888 (c : Color) : List Byte := [c.r, c.g, c.b]

/-- `Bpp` (R195): wire bytes of a pixel. -/
def depthBytes : Depth → Nat
  | .d16 => 2
  | .d24 => 3

/-- `bpp` (R195): wire bits of a pixel. -/
def depthBits (m : Depth) : Nat := 8 * depthBytes m

/-- `WireBytes` (R196): grayscale first, then packing. -/
def wireBytes (m : Depth) (g : Bool) (c : Color) : List Byte :=
  match m with
  | .d16 => pack565 (convert g c)
  | .d24 => pack888 (convert g c)

/-- `WireStream` (R196). -/
def wireStream (m : Depth) (g : Bool) (cs : List Color) : List Byte := cs.flatMap (wireBytes m g)

/-- `rep(px, n)` joined: `n` copies of a pixel's wire bytes (R210, R218). -/
def repeatBytes (px : List Byte) (n : Nat) : List Byte := (List.replicate n px).flatten

/-- `RD_MASK` (R197). -/
def rdMask : Depth → Color
  | .d16 => ⟨0xF8, 0xFC, 0xF8⟩
  | .d24 => ⟨0xFC, 0xFC, 0xFC⟩

/-- A Color under a mask, channel by channel (R197). -/
def maskColor (k c : Color) : Color := ⟨c.r &&& k.r, c.g &&& k.g, c.b &&& k.b⟩

/-- `MaskEq` (R197). -/
def maskEq (m : Depth) (a b : Color) : Bool := maskColor (rdMask m) a == maskColor (rdMask m) b

/-- `Unpack565` (R198), the discarded bits as zero. -/
def unpack565 (h l : Byte) : Color :=
  ⟨h &&& 0xF8, ((h &&& 0x07) <<< 5) ||| ((l &&& 0xE0) >>> 3), (l &&& 0x1F) <<< 3⟩

/-- `Unpack888` (R198). -/
def unpack888 (r g b : Byte) : Color := ⟨r, g, b⟩

/-- The Colors of a byte sequence, three bytes each in the order red, green, blue (20 R62). -/
def colorsOf : List Byte → List Color
  | r :: g :: b :: rest => ⟨r, g, b⟩ :: colorsOf rest
  | _ => []

/-- The stripped view of a raw read buffer (44 R247): pixel `i` at `1 + 3*i`, the dummy byte dropped. -/
def strippedPixels (buf : List Byte) : List Color := colorsOf (buf.drop 1)

end Sys2Proof.Machine
end

