-- ==== Sys2Proof/Machine/Flags.lean ====
section
/-! DEFINITION. Status codes, the sticky flags each sets (spec/60_exceptions.md R291), the STATUS word
(10_state.md R32), the counters (R34), and the value each configuration register reads as (R35, 46 R283). -/

namespace Sys2Proof.Machine

/-- The number of a status (R291). -/
def statusCode : Status → BitVec 3
  | .ok => 0
  | .deselectFail => 1
  | .selectFail => 2
  | .dmaTimeout => 3
  | .illegal => 4

/-- The sticky flags after an operation ends with a status (R291): `ST_OK` sets none, and none is ever cleared. -/
def flagsAfter (st : Status) (ef : ErrFlags) : ErrFlags :=
  match st with
  | .ok => ef
  | .deselectFail => { ef with sel := true }
  | .selectFail => { ef with sel := true }
  | .dmaTimeout => { ef with dmaTo := true }
  | .illegal => { ef with illegal := true }

/-- `EF_ALLOC` (R294): the one flag a silent abort leaves. -/
def flagAlloc (ef : ErrFlags) : ErrFlags := { ef with alloc := true }

/-- The level of the line: 0, the command state, when `dc` holds no value (10 R32; log 26). -/
def dcLine (s : State) : DcLevel := s.dc.getD .command

/-- The line level as a bit (D7). -/
def dcBit : DcLevel → Bool
  | .command => false
  | .data => true

/-- `DMA_BUSY` (10 R32). -/
def dmaBusy (s : State) : Bool :=
  match s.dma with
  | .idle => false
  | .inFlight _ _ => true

/-- A word with one bit at a position, set when a condition holds. -/
def flagBit (c : Bool) (pos : Nat) : Word := (BitVec.ofBool c).zeroExtend 32 <<< pos

/-- The STATUS word, bit by bit (10 R32). -/
def statusWord (s : State) : Word :=
  flagBit (dmaBusy s) 0 ||| flagBit (s.sel == some .display) 1 ||| flagBit (s.sel == some .touch) 2
    ||| flagBit (dcBit (dcLine s)) 3 ||| flagBit s.inhibit 4 ||| (statusCode s.last).zeroExtend 32 <<< 8
    ||| flagBit s.ef.sel 16 ||| flagBit s.ef.dmaTo 17 ||| flagBit s.ef.alloc 18 ||| flagBit s.ef.illegal 19

/-- CTRL as read (46 R283). -/
def ctrlWord (m : Depth) (g : Bool) : Word :=
  flagBit (m == .d24) 0 ||| flagBit g 1

/-- The value of a register, or the field that holds none (10 R29 to R35, R43; 46 R283). -/
def registerValue (r : CfgReg) (s : State) : Except Field Word :=
  match r with
  | .ctrl =>
    match s.cfg.depth, s.cfg.gray with
    | some m, some g => .ok (ctrlWord m g)
    | _, _ => .error .ctrl
  | .status => .ok (statusWord s)
  | .clock => s.clock.elim (.error .clock) .ok
  | .maxRdclock => s.cfg.maxRdclock.elim (.error .maxRdclock) .ok
  | .width => s.cfg.width.elim (.error .width) fun v => .ok (v.zeroExtend 32)
  | .height => s.cfg.height.elim (.error .height) fun v => .ok (v.zeroExtend 32)
  | .result => s.result.elim (.error .result) .ok
  | .cntDirect => .ok s.cnt.direct
  | .cntDma => .ok s.cnt.dma
  | .cntBurst => .ok s.cnt.burst

/-- One more push on the direct path (10 R34). -/
def countDirect (c : Counters) : Counters := { c with direct := c.direct + 1 }

/-- One more DMA transfer queued (10 R34). -/
def countDma (c : Counters) : Counters := { c with dma := c.dma + 1 }

/-- One more direct burst started (10 R34). -/
def countBurst (c : Counters) : Counters := { c with burst := c.burst + 1 }

end Sys2Proof.Machine
end

