-- ==== Sys2Proof/Machine/Panel.lean ====
section
/-! DEFINITION. The reference panel (spec/20_memory.md R80 to R92): what a byte on the bus does to it and what it
returns. The panel is environment: it acts only when State holds one (log 8). The runs R82 and R84 give no meaning
(no window, a write past the window) are refused before an operation starts (Operands.lean, log 10), so the functions
here are total. -/

namespace Sys2Proof.Machine

/-! ## Sparse maps: keys strictly rising -/

/-- The entry at a key. -/
def sparseFind {α : Type} (k : Nat) : List (Nat × α) → Option α
  | [] => none
  | (k', v) :: rest => if k = k' then some v else sparseFind k rest

/-- The map with the entry at a key put in place. -/
def sparseInsert {α : Type} (k : Nat) (v : α) : List (Nat × α) → List (Nat × α)
  | [] => [(k, v)]
  | (k', v') :: rest =>
    if k < k' then (k, v) :: (k', v') :: rest
    else if k = k' then (k, v) :: rest
    else (k', v') :: sparseInsert k v rest

/-- The map without an entry at a key. -/
def sparseErase {α : Type} (k : Nat) : List (Nat × α) → List (Nat × α)
  | [] => []
  | (k', v') :: rest => if k = k' then rest else (k', v') :: sparseErase k rest

/-! ## The panel -/

/-- The key of the pixel at column `x`, row `y`; coordinates have 16 bits. -/
def gramKey (x y : Nat) : Nat := y * 65536 + x

/-- The number of pixels of the retained window, none when the panel holds no window (R83, R86). A range received with
its start above its end holds no pixel. -/
def panelArea (p : Panel) : Option Nat :=
  match p.cols, p.rows with
  | some (xs, xe), some (ys, ye) => some ((xe.toNat + 1 - xs.toNat) * (ye.toNat + 1 - ys.toNat))
  | _, _ => none

/-- The window's first column and row, where a memory write or read starts (R82). -/
def panelStart (p : Panel) : Option (Nat × Nat) :=
  match p.cols, p.rows with
  | some (xs, _), some (ys, _) => some (xs.toNat, ys.toNat)
  | _, _ => none

/-- Advance (R86): along the row, then to the next row; past the last pixel the position is `Overrun` and the panel
holds no window. -/
def panelAdvance (p : Panel) : Panel :=
  match p.cur, p.cols, p.rows with
  | some (x, y), some (xs, xe), some (_, ye) =>
    if x + 1 ≤ xe.toNat then { p with cur := some (x + 1, y) }
    else if y + 1 ≤ ye.toNat then { p with cur := some (xs.toNat, y + 1) }
    else { p with cur := none, cols := none, rows := none }
  | _, _, _ => p

/-- Wire bytes of one pixel in a panel's format (R84). -/
def fmtBytes : PanelFmt → Nat
  | .f16 => 2
  | .f3b => 3

/-- Bits per channel kept in 3-byte mode. -/
def sigBits : Config.SigBits → Nat
  | .six => 6
  | .eight => 8

/-- `(h << 8) | l` (R83, R84): two bytes as they come, the high one first. -/
def joinBytes (h l : Byte) : Half := h.zeroExtend 16 <<< 8 ||| l.zeroExtend 16

/-- The pixel a full argument list stores (R84), none while the list is not full. -/
def pixelOf (fmt : PanelFmt) (sig : Config.SigBits) (arg : List Byte) : Option Pixel :=
  match fmt, arg with
  | .f16, [h, l] =>
    let v := joinBytes h l
    some ⟨(v.extractLsb' 11 5).zeroExtend 8, (v.extractLsb' 5 6).zeroExtend 8, (v.extractLsb' 0 5).zeroExtend 8, .f16⟩
  | .f3b, [r, g, b] => some ⟨r >>> (8 - sigBits sig), g >>> (8 - sigBits sig), b >>> (8 - sigBits sig), .f3b⟩
  | _, _ => none

/-- A command byte (R82, R85): any partial pixel or range is dropped; a memory command goes to the window's start. -/
def panelCommand (par : Config.Params) (b : Byte) (p : Panel) : Panel :=
  let p := { p with cmd := some b, arg := [] }
  if b = par.cmdRamwr then { p with cur := panelStart p }
  else if b = par.cmdRamrd then { p with cur := panelStart p, rd := .dummy }
  else p

/-- The range a full argument list names (R83): the inverse of the big-endian packing. -/
def rangeOf (arg : List Byte) : Option (Half × Half) :=
  match arg with
  | [a, b, c, d] => some (joinBytes a b, joinBytes c d)
  | _ => none

/-- A data byte after a memory-write command (R84). -/
def panelPixelByte (par : Config.Params) (b : Byte) (p : Panel) : Panel :=
  let arg := p.arg ++ [b]
  match pixelOf p.fmt par.panelSigBits arg, p.cur with
  | some px, some (x, y) => panelAdvance { p with arg := [], gram := sparseInsert (gramKey x y) px p.gram }
  | some _, none => { p with arg := [] }
  | none, _ => { p with arg := arg }

/-- A data byte (R83, R84, R89, R90): it belongs to the command last received; with none it is lost. No byte changes
the pixel format, whose command is out of scope (70 R324): DESIGN CHOICE (log 34). -/
def panelData (par : Config.Params) (b : Byte) (p : Panel) : Panel :=
  match p.cmd with
  | none => p
  | some c =>
    let arg := p.arg ++ [b]
    if c = par.cmdCaset then
      { p with arg := arg, cols := if arg.length = 4 then rangeOf arg else p.cols }
    else if c = par.cmdPaset then
      { p with arg := arg, rows := if arg.length = 4 then rangeOf arg else p.rows }
    else if c = par.cmdRamwr then panelPixelByte par b p
    else { p with arg := arg }

/-- A byte shifted out with the line at a level (R82 to R84). -/
def panelTx (par : Config.Params) (v : DcLevel) (b : Byte) (p : Panel) : Panel :=
  match v with
  | .command => panelCommand par b p
  | .data => panelData par b p

/-- The display is deselected (R85, R90). -/
def panelDeselect (p : Panel) : Panel := { p with cmd := none, arg := [] }

/-- The channel a read phase returns. -/
def pixelChannel (px : Pixel) : ReadPhase → Byte
  | .dummy => 0
  | .red => px.r
  | .green => px.g
  | .blue => px.b

/-- Significant bits of a channel in a format (R81). -/
def channelBits (fmt : PanelFmt) (sig : Config.SigBits) (ph : ReadPhase) : Nat :=
  match fmt, ph with
  | .f16, .green => 6
  | .f16, _ => 5
  | .f3b, _ => sigBits sig

/-- The byte for a stored channel of `n` bits (R88): the kept bits on top, the discarded bits from the draw `d`. -/
def channelByte (n : Nat) (v d : Byte) : Byte := (v <<< (8 - n)) ||| (d &&& (0xFF >>> n))

/-- The byte a receive returns below the clock limit, `d` being the draw (R87): the draw for the dummy byte, for any
other command, and for a pixel nothing has written (log 9). A stored channel returns with the bits it was stored with
(R88), also when the panel's format has changed since: DEDUCED (log 34). -/
def panelByte (par : Config.Params) (d : Byte) (p : Panel) : Byte :=
  if p.cmd = some par.cmdRamrd ∧ p.rd ≠ .dummy then
    match p.cur with
    | some (x, y) =>
      match sparseFind (gramKey x y) p.gram with
      | some px => channelByte (channelBits px.fmt par.panelSigBits p.rd) (pixelChannel px p.rd) d
      | none => d
    | none => d
  else d

/-- The read position after a receive (R87). -/
def panelReadAdvance (par : Config.Params) (p : Panel) : Panel :=
  if p.cmd = some par.cmdRamrd then
    match p.rd with
    | .dummy => { p with rd := .red }
    | .red => { p with rd := .green }
    | .green => { p with rd := .blue }
    | .blue => panelAdvance { p with rd := .red }
  else p

/-- The byte a receive returns at a clock (R91): above the limit the draw, or 0 on the test bench. -/
def panelReceive (par : Config.Params) (clock : Option Word) (d : Byte) (p : Panel) : Byte :=
  match clock with
  | some hz => if p.rdMaxHz < hz then (if p.bench then 0 else d) else panelByte par d p
  | none => d

end Sys2Proof.Machine
end

