-- ==== Sys2Proof/Machine/Ops.lean ====
section
/-! DEFINITION. The named operations every meaning is built from: host memory (spec/20_memory.md R60 to R65), the
environment's draws (00_scope.md R12), the bus (40_bus_transport.md R141 to R160), the DMA engine (R155 to R158), the
clock (46 R284), and the one way an operation ends or fails (00 R12; 60 R299, R300). -/

namespace Sys2Proof.Machine

/-! ## Host memory (R60 to R65) -/

/-- One byte of memory. -/
def readByte (m : Memory) (a : Nat) : Byte := (sparseFind a m).getD unlistedByte

/-- Memory with one byte written; a byte equal to what an unlisted address reads as is not listed. -/
def writeByte (m : Memory) (a : Nat) (b : Byte) : Memory :=
  if b = unlistedByte then sparseErase a m else sparseInsert a b m

/-- `MemRead(addr, n)` (00 R11), single bytes in ascending order (R65). -/
def memRead (m : Memory) (a n : Nat) : List Byte := (List.range n).map fun k => readByte m (a + k)

/-- `MemWrite` (00 R11), single bytes in ascending order (R65). -/
def memWrite (m : Memory) (a : Nat) : List Byte → Memory
  | [] => m
  | b :: bs => memWrite (writeByte m a b) (a + 1) bs

/-- Bytes written in ascending order in an address space of `top` bytes, addresses wrapping at its top. -/
def memWriteWrapped (top : Nat) (m : Memory) (a : Nat) : List Byte → Memory
  | [] => m
  | b :: bs => memWriteWrapped top (writeByte m (a % top) b) (a + 1) bs

/-- The canonical form of memory: addresses strictly rising, no byte equal to what an unlisted address reads as. -/
def Memory.wf (m : Memory) : Bool :=
  decide (m.Pairwise fun c d => c.1 < d.1) && m.all fun c => c.2 != unlistedByte

/-! ## Draws (00 R12; log 6) -/

/-- The next acknowledge (R141, R143). -/
def nextAck (e : Env) : Bool :=
  match e.acks with
  | a :: _ => a
  | [] => Config.freeAck e.frees

/-- The environment after an acknowledge was drawn. -/
def popAck (e : Env) : Env :=
  match e.acks with
  | _ :: rest => { e with acks := rest }
  | [] => { e with frees := e.frees + 1 }

/-- The allocator's next answer (R218, R262). -/
def nextAlloc (e : Env) : Bool :=
  match e.allocs with
  | a :: _ => a
  | [] => Config.freeAlloc e.frees

/-- The environment after an allocation was drawn. -/
def popAlloc (e : Env) : Env :=
  match e.allocs with
  | _ :: rest => { e with allocs := rest }
  | [] => { e with frees := e.frees + 1 }

/-- Whether the DMA engine moves before the host's next action (R156). -/
def nextTurn (e : Env) : Bool :=
  match e.turns with
  | a :: _ => a
  | [] => Config.freeTurn e.frees

/-- The environment after a turn was drawn. -/
def popTurn (e : Env) : Env :=
  match e.turns with
  | _ :: rest => { e with turns := rest }
  | [] => { e with frees := e.frees + 1 }

/-- How the next wait for a transfer ends (R146): `none` completion, `some k` timeout after `k` bytes. -/
def nextEnd (e : Env) : Option Nat :=
  match e.ends with
  | a :: _ => a
  | [] => Config.freeEnd e.frees

/-- The environment after the end of a wait was drawn. -/
def popEnd (e : Env) : Env :=
  match e.ends with
  | _ :: rest => { e with ends := rest }
  | [] => { e with frees := e.frees + 1 }

/-- Whether a wait is still a wait when other agents next act (R146). -/
def nextHold (e : Env) : Bool :=
  match e.holds with
  | a :: _ => a
  | [] => Config.freeHold e.frees

/-- The environment after that was drawn. -/
def popHold (e : Env) : Env :=
  match e.holds with
  | _ :: rest => { e with holds := rest }
  | [] => { e with frees := e.frees + 1 }

/-- The next drawn byte (R151). -/
def nextByte (e : Env) : Byte :=
  match e.bytes with
  | b :: _ => b
  | [] => Config.freeByte e.frees

/-- The environment after a byte was drawn. -/
def popByte (e : Env) : Env :=
  match e.bytes with
  | _ :: rest => { e with bytes := rest }
  | [] => { e with frees := e.frees + 1 }

/-- `n` drawn bytes. -/
def drawBytes : Nat → Env → List Byte × Env
  | 0, e => ([], e)
  | n + 1, e => let r := drawBytes n (popByte e); (nextByte e :: r.1, r.2)

/-! ## The trace and the end of an operation -/

/-- `emit e` (00 R12). -/
def emit (e : Event) (s : State) : State := { s with trace := s.trace ++ [e] }

/-- `fail st` (00 R12; 60 R299, R300), the one way an operation ends other than well: the code goes to `last`, its
sticky flag is set, and the block is `Ready` again. Nothing else is recorded. -/
def fail (st : Status) (s : State) : State := { s with last := st, ef := flagsAfter st s.ef, op := none }

/-- `return st` (00 R12): an operation ends with a status. -/
def finish (st : Status) (s : State) : State :=
  match st with
  | .ok => { s with last := .ok, op := none }
  | st => fail st s

/-! ## Burst registers (10 R21, R22; 40 R152) -/

/-- Four bytes as a register, the first the least significant (R22). -/
def packWord (a b c d : Byte) : Word :=
  a.zeroExtend 32 ||| b.zeroExtend 32 <<< 8 ||| c.zeroExtend 32 <<< 16 ||| d.zeroExtend 32 <<< 24

/-- A byte stream as registers (R22, R152): the upper bytes of a partly filled last register are zero. -/
def packWords : List Byte → List Word
  | [] => []
  | [a] => [packWord a 0 0 0]
  | [a, b] => [packWord a b 0 0]
  | [a, b, c] => [packWord a b c 0]
  | a :: b :: c :: d :: rest => packWord a b c d :: packWords rest

/-- The register file with a stream loaded: registers beyond the stream keep their values (R152). -/
def loadWords (w : List Word) (bs : List Byte) : List Word := packWords bs ++ w.drop (packWords bs).length

/-- `ByteOf(W, k)` (R22). -/
def byteOf (w : List Word) (k : Nat) : Byte := (w.getD (k / 4) 0).extractLsb' (8 * (k % 4)) 8

/-- The first `n` bytes of the register file. -/
def burstBytes (w : List Word) (n : Nat) : List Byte := (List.range n).map (byteOf w)

/-- `BURST_MAX_BITS / 8`: bytes of a full burst (00 R8). -/
def burstMaxBytes (p : Config.Params) : Nat := 4 * p.nwords

/-- `DIRECT_MAX_BITS` (00 R8, D5): the capacity of one burst in bits. -/
def directMaxBits (p : Config.Params) : Nat := 32 * p.nwords

/-- A sequence cut into runs of `n`, the last one shorter; `fuel` bounds the number of runs. -/
def chunksOf {α : Type} (n : Nat) : Nat → List α → List (List α)
  | 0, _ => []
  | _ + 1, [] => []
  | fuel + 1, l => l.take n :: chunksOf n fuel (l.drop n)

/-- The runs of a payload that fit one burst each (R152). -/
def burstChunks (p : Config.Params) (bs : List Byte) : List (List Byte) :=
  chunksOf (burstMaxBytes p) bs.length bs

/-! ## The command/data line and the direct burst (R148 to R153, R160) -/

/-- `SetDC(v)` (R148). -/
def setDC (v : DcLevel) (s : State) : State := { s with dc := some v }

/-- One byte shifted out with the line at a level: `TX(v, b)` (00 R14), which a selected display receives. -/
def shiftOut (v : DcLevel) (s : State) (b : Byte) : State :=
  { s with
    trace := s.trace ++ [.tx v b]
    panel := if s.sel = some .display then s.panel.map (panelTx s.par v b) else s.panel }

/-- A run of bytes shifted out at one level. -/
def shiftAll (v : DcLevel) (bs : List Byte) (s : State) : State := bs.foldl (shiftOut v) s

/-- `StartBurstTx(n)` (R150): start, shifting and completion are one step. -/
def startBurstTx (n : Nat) (s : State) : State :=
  emit (.burstTx n)
    (shiftAll (dcLine s) (burstBytes s.w (n / 8)) { s with bitlen := n, cnt := countBurst s.cnt })

/-- One burst of `SendBytes` (R152): the bytes are loaded and the burst is started and awaited. -/
def sendBurst (s : State) (bs : List Byte) : State :=
  startBurstTx (8 * bs.length) { s with w := loadWords s.w bs }

/-- `SendBytes(s)` (R152). -/
def sendBytes (bs : List Byte) (s : State) : State := (burstChunks s.par bs).foldl sendBurst s

/-- `SendCmd(b)` (R160). -/
def sendCommand (b : Byte) (s : State) : State :=
  startBurstTx 8 { setDC .command s with w := loadWords s.w [b] }

/-- One byte shifted in: `RX(b)` from the selected device (R151). The reference panel answers while the display is
selected (20 R87); any other byte is the draw itself (U12). -/
def shiftIn (s : State) : Byte × State :=
  let d := nextByte s.env
  let s := { s with env := popByte s.env }
  match s.panel, s.sel with
  | some p, some .display =>
    let b := panelReceive s.par s.clock d p
    (b, emit (.rx b) { s with panel := some (panelReadAdvance s.par p) })
  | _, _ => (d, emit (.rx d) s)

/-- A run of bytes shifted in. -/
def shiftInAll : Nat → State → List Byte × State
  | 0, s => ([], s)
  | n + 1, s => let r := shiftInAll n (shiftIn s).2; ((shiftIn s).1 :: r.1, r.2)

/-- `StartBurstRx(8 * n)` (R151): received bytes are placed as transmitted ones would be, the upper bytes of the last
register zero. -/
def startBurstRx (n : Nat) (s : State) : State :=
  let r := shiftInAll n { s with bitlen := 8 * n, cnt := countBurst s.cnt }
  emit (.burstRx (8 * n)) { r.2 with w := loadWords r.2.w r.1 }

/-- The byte counts of the bursts that receive `n` bytes (R153). -/
def burstSizes (p : Config.Params) (n : Nat) : List Nat :=
  (burstChunks p (List.replicate n 0)).map List.length

/-- The receive bursts of `RecvBytes`, one for each size. -/
def recvBursts : List Nat → State → List Byte × State
  | [], s => ([], s)
  | n :: ns, s =>
    let s1 := startBurstRx n s
    let r := recvBursts ns s1
    (burstBytes s1.w n ++ r.1, r.2)

/-- `RecvBytes(n)` (R153). -/
def recvBytes (n : Nat) (s : State) : List Byte × State := recvBursts (burstSizes s.par n) s

/-! ## Selection (R141, R143) -/

/-- `Select(d)` (R141). The precondition `sel = None` is checked before the operation starts. -/
def select (d : Dev) (s : State) : Status × State :=
  if s.sel = some d then (.ok, s)
  else if nextAck s.env then (.ok, emit (.sel d) { s with env := popAck s.env, sel := some d })
  else (.selectFail, { s with env := popAck s.env, ef := { s.ef with sel := true } })

/-- `Deselect(d)` (R143); a deselected display drops its command (20 R90). -/
def deselect (d : Dev) (s : State) : Status × State :=
  if s.sel = none then (.ok, s)
  else if nextAck s.env then
    (.ok, emit (.desel d)
      { s with
        env := popAck s.env
        sel := none
        panel := if d = .display then s.panel.map panelDeselect else s.panel })
  else (.deselectFail, { s with env := popAck s.env, ef := { s.ef with sel := true } })

/-! ## The DMA engine (R155 to R158) -/

/-- `DmaQueue(s, owner)` (R155): the bytes are fixed here. -/
def dmaQueue (bs : List Byte) (owner : DmaOwner) (s : State) : State :=
  emit (.dmaQ bs.length) { s with dma := .inFlight bs owner, cnt := countDma s.cnt }

/-- `DmaComplete` (R156): the bytes enter the trace in one run. -/
def dmaComplete (bs : List Byte) (s : State) : State :=
  { emit .dmaDone (shiftAll .data bs s) with dma := .idle }

/-- `DmaTimeout` (R157) with the prefix length drawn: at most the whole transfer. The caller sets the flag. -/
def dmaAbort (k : Nat) (bs : List Byte) (s : State) : State :=
  { emit (.dmaAbort (min k bs.length)) (shiftAll .data (bs.take k) s) with dma := .idle }

/-- `Drain()` and `DmaWait()` (R146, R158): the wait ends by completion or by the timeout, as the environment draws.
The caller buffer is back with the host when it returns (20 R70). -/
def awaitDma (s : State) : Status × State :=
  match s.dma with
  | .idle => (.ok, { s with loan := none })
  | .inFlight bs _ =>
    match nextEnd s.env with
    | none => (.ok, dmaComplete bs { s with env := popEnd s.env, loan := none })
    | some k =>
      (.dmaTimeout,
        { dmaAbort k bs { s with env := popEnd s.env, loan := none } with ef := { s.ef with dmaTo := true } })

/-! ## The clock (46 R284) -/

/-- `ClockQuant` (R284, D31): a listed clock is taken as listed, where the listed value keeps
`0 < ClockQuant(hz) <= hz`; every other clock is taken as requested (log 3). -/
def quantise (p : Config.Params) (hz : Word) : Word :=
  match p.clockQuant.find? fun e => e.1 == hz with
  | some e => if e.2 ≠ 0 ∧ e.2 ≤ hz then e.2 else hz
  | none => hz

/-- `SetClock(hz)` (R284). The precondition `sel = None` is the caller's. -/
def setClock (hz : Word) (s : State) : State :=
  emit (.clk (quantise s.par hz)) { s with clock := some (quantise s.par hz) }

/-! ## The address window (41 R180, R181) -/

/-- `AxisBytes(s, e)` (R181): each bound big-endian, start before end. -/
def axisBytes (s e : Half) : List Byte :=
  [s.extractLsb' 8 8, s.extractLsb' 0 8, e.extractLsb' 8 8, e.extractLsb' 0 8]

/-- The preemption guard (R183): where the variant needs it, `inhibit` takes a level and `INH` is emitted. -/
def guardTo (v : Bool) (s : State) : State :=
  if s.par.preemptGuard then emit (.inh v) { s with inhibit := v } else s

/-- One axis of the window: a command frame and a 4-byte data frame (R180). -/
def sendAxis (cmd : Byte) (a b : Half) (s : State) : State :=
  sendBytes (axisBytes a b) (setDC .data (sendCommand cmd s))

/-- `SetWindow(w)` (R180): columns, then rows, between the two changes of the guard. -/
def windowFrame (w : Window) (s : State) : State :=
  guardTo false
    (sendAxis s.par.cmdPaset w.rs w.re (sendAxis s.par.cmdCaset w.cs w.ce (guardTo true s)))

/-! ## The common opening (40 R145; 60 R298) -/

/-- A check of a precondition: pass, or refuse with a reason. -/
def require (c : Bool) (r : Refusal) : Except Refusal Unit := if c then .ok () else .error r

/-- The value of a field that may hold none (10 R43). -/
def valueOf {α : Type} (v : Option α) (f : Field) : Except Refusal α :=
  match v with
  | some a => .ok a
  | none => .error (.noValue f)

/-- The opening of every operation that drains (R145 steps 2 to 5): drain, and on its failure `late` and
`ST_DMA_TIMEOUT`; then the preconditions, which give the body the values it reads, or a refusal; then the body and the
status it returns. -/
def opening {α : Type} (late : State → State) (pre : State → Except Refusal α) (body : α → State → Status × State)
    (s : State) : Host.Outcome State Fault Refusal :=
  match awaitDma s with
  | (.ok, s1) =>
    match pre s1 with
    | .ok v => .next (finish (body v s1).1 (body v s1).2)
    | .error r => .refused r
  | (st, s1) => .next (fail st (late s1))

end Sys2Proof.Machine
end

