-- ==== Sys2Proof/Machine/Operands.lean ====
section
/-! DEFINITION. What the operations read and require of their operands: buffers (spec/20_memory.md R61, R64), Colors in
memory (R62), windows (41 R182), the selection (40 R147), and what an attached reference panel requires (R82, R84,
R86; 70 R324). The block checks none of this in hardware; a violation is a `refuse` (60 R302). -/

namespace Sys2Proof.Machine

/-! ## Buffers -/

/-- A region holds the whole of a range. -/
def regionHolds (addr len : Nat) (r : Region) : Bool := r.base ≤ addr && addr + len ≤ r.base + r.size

/-- The host owns a range and it does not wrap (R61); an empty range needs nothing. -/
def requireBuffer (addr len : Nat) (s : State) : Except Refusal Unit := do
  require (len == 0 || addr + len ≤ 2 ^ s.par.addrBits) .bufferWraps
  require (len == 0 || s.regions.any (regionHolds addr len)) .bufferNotOwned

/-- `DmaCapable(addr, len)` (R64). -/
def requireDmaCapable (addr len : Nat) (s : State) : Except Refusal Unit :=
  require (s.regions.any fun r => r.dmaCapable && regionHolds addr len r) .bufferNotDmaCapable

/-- The Colors of a buffer (R62; 43 R211). -/
def readColors (addr count : Nat) (s : State) : List Color := colorsOf (memRead s.mem addr (3 * count))

/-! ## Selection and windows -/

/-- Bus-using operations need the display selected (40 R147). -/
def requireDisplay (s : State) : Except Refusal Unit := require (s.sel == some .display) .wrongSelection

/-- A window's bounds lie inside the panel's dimension on one axis, when that dimension is set (41 R182). -/
def insidePanel (e : Half) (dim : Option Half) : Bool :=
  match dim with
  | some d => e < d
  | none => true

/-- The preconditions on a window (41 R182). -/
def requireWindow (w : Window) (s : State) : Except Refusal Unit := do
  require (w.cs ≤ w.ce && w.rs ≤ w.re) .windowReversed
  require (insidePanel w.ce s.cfg.width && insidePanel w.re s.cfg.height) .windowOutsidePanel

/-- The number of pixels of a window (20 R86). -/
def windowArea (w : Window) : Nat := (w.ce.toNat + 1 - w.cs.toNat) * (w.re.toNat + 1 - w.rs.toNat)

/-! ## What an attached panel requires -/

/-- A command byte with `n` data bytes after it: a memory command needs a window (R82), and a memory write no more
pixels than it holds (R84, R86). -/
def requirePanelTakes (cmd : Byte) (n : Nat) (s : State) : Except Refusal Unit :=
  match s.panel with
  | none => .ok ()
  | some p =>
    if cmd = s.par.cmdRamwr ∨ cmd = s.par.cmdRamrd then
      match panelArea p with
      | none => .error .panelHoldsNoWindow
      | some area => require (cmd != s.par.cmdRamwr || n / fmtBytes p.fmt ≤ area) .windowTooSmall
    else .ok ()

/-- The format a depth mode needs of the panel (70 R324). -/
def fmtOfDepth : Depth → PanelFmt
  | .d16 => .f16
  | .d24 => .f3b

/-- The panel's pixel format matches the depth mode (70 R324). -/
def requirePanelFormat (m : Depth) (s : State) : Except Refusal Unit :=
  match s.panel with
  | none => .ok ()
  | some p => require (p.fmt == fmtOfDepth m) .panelFormatDiffers

/-- A push of `count` pixels: the format matches and the retained window holds them (43 R223 items 5 and 6). -/
def requirePanelPush (m : Depth) (count : Nat) (s : State) : Except Refusal Unit := do
  requirePanelFormat m s
  requirePanelTakes s.par.cmdRamwr (count * depthBytes m) s

/-- A read of `count` pixels of a window: it holds them (44 R244 item 5), and the clock, which the panel reads on every
byte, has a value (46 R285). -/
def requirePanelRead (w : Window) (count : Nat) (s : State) : Except Refusal Unit :=
  match s.panel with
  | none => .ok ()
  | some _ => do
    require (count ≤ windowArea w) .windowTooSmall
    require s.clock.isSome (.noValue .clock)

end Sys2Proof.Machine
end

