-- ==== Sys2Proof/Machine/Push.lean ====
section
/-! DEFINITION. Pixel push (spec/43_pixel_push.md): PUSH_REP and PUSH_BUF, strategy selection, the direct path, the
DMA path and the repeated-fill path. -/

namespace Sys2Proof.Machine

/-- Strategy selection (R213): `count` pixels go direct when their bits fit one burst. -/
def goesDirect (p : Config.Params) (m : Depth) (count : Nat) : Bool := count * depthBits m ≤ directMaxBits p

/-- The opening of every pixel payload (R210, R211): the memory-write command frame, then the line in the data state. -/
def openWrite (s : State) : State := setDC .data (sendCommand s.par.cmdRamwr s)

/-- `PushDirect(s)` (R214). -/
def pushDirect (bs : List Byte) (s : State) : State := sendBytes bs { s with cnt := countDirect s.cnt }

/-- `PUSH_BUF` from its command frame on (R211), for a payload already converted. `loan` is the caller buffer the DMA
agent owns from the queue step on (20 R70), none where the host has no part in the buffer (45 R265). -/
def pushStream (direct : Bool) (bs : List Byte) (loan : Option (Nat × Nat)) (wait : Bool) (s : State) :
    Status × State :=
  let s := openWrite s
  if direct then (.ok, pushDirect bs s)
  else
    let s := dmaQueue bs .caller { s with loan := loan }
    if wait then awaitDma s else (.ok, s)

/-- The values a push reads: depth mode and grayscale flag (R223 items 1 and 2). -/
def pushMode (s : State) : Except Refusal (Depth × Bool) := do
  requireDisplay s
  let m ← valueOf s.cfg.depth .ctrl
  let g ← valueOf s.cfg.gray .ctrl
  .ok (m, g)

/-- The preconditions of `PUSH_BUF` with `count > 0` (R223, R224). -/
def pushBufPre (addr count : Nat) (s : State) : Except Refusal (Depth × Bool) := do
  let mg ← pushMode s
  requireBuffer addr (3 * count) s
  if goesDirect s.par mg.1 count then .ok () else requireDmaCapable addr (3 * count) s
  requirePanelPush mg.1 count s
  .ok mg

/-- `PUSH_BUF addr, count, wait` (R211; a zero count is a no-op, R217). -/
def execPushBuf (addr count : Word) (wait : Bool) (s : State) : Host.Outcome State Fault Refusal :=
  if count = 0 then .next (finish .ok s)
  else
    opening id (pushBufPre addr.toNat count.toNat)
      (fun mg s =>
        pushStream (goesDirect s.par mg.1 count.toNat)
          (wireStream mg.1 mg.2 (readColors addr.toNat count.toNat s))
          (some (addr.toNat, 3 * count.toNat)) wait s) s

/-! ## The repeated fill (R218 to R221) -/

/-- Pixels the fill buffer holds (R218). -/
def fillPixels (count width : Nat) : Nat := min count (Config.fillRows * width)

/-- The pixel counts of the transfers (R220): full buffers, then what remains. -/
def fillSizes (count p : Nat) : List Nat :=
  List.replicate (count / p) p ++ if count % p = 0 then [] else [count % p]

/-- The chunk loop and the last wait (R220, R221): each transfer waits for the one before it, every transfer is a
prefix of the same buffer, and the buffer is released on every exit. `b` is the wire bytes of a pixel. -/
def fillLoop (fill : List Byte) (b : Nat) : List Nat → State → Status × State
  | [], s => let r := awaitDma s; (r.1, { r.2 with scratch := none })
  | n :: ns, s =>
    match awaitDma s with
    | (.ok, s1) => fillLoop fill b ns (dmaQueue (fill.take (n * b)) .scratch s1)
    | (st, s1) => (st, { s1 with scratch := none })

/-- `PushFill(px, count)` (R218 to R221); an allocation failure aborts silently (R219). -/
def pushFill (px : List Byte) (count width : Nat) (s : State) : Status × State :=
  let p := fillPixels count width
  if nextAlloc s.env then
    fillLoop (repeatBytes px p) px.length (fillSizes count p)
      { s with env := popAlloc s.env, scratch := some (p * px.length) }
  else (.ok, { s with env := popAlloc s.env, ef := flagAlloc s.ef })

/-- The panel's width, which sizes the fill buffer (R223 item 4). -/
def fillWidth (s : State) : Except Refusal Nat := do
  let w ← valueOf s.cfg.width .width
  require (w != 0) .zeroWidth
  .ok w.toNat

/-- The preconditions of `PUSH_REP` with `count > 0` (R223): on the direct path no width is read. -/
def pushRepPre (count : Nat) (s : State) : Except Refusal (Depth × Bool × Nat) := do
  let mg ← pushMode s
  let width ← if goesDirect s.par mg.1 count then .ok 0 else fillWidth s
  requirePanelPush mg.1 count s
  .ok (mg.1, mg.2, width)

/-- `PUSH_REP` from its command frame on (R210). -/
def pushRepBody (color : Color) (count : Nat) (v : Depth × Bool × Nat) (s : State) : Status × State :=
  let px := wireBytes v.1 v.2.1 color
  if goesDirect s.par v.1 count then (.ok, pushDirect (repeatBytes px count) (openWrite s))
  else pushFill px count v.2.2 (openWrite s)

/-- `PUSH_REP color, count, wait` (R210; a zero count is a no-op, R217). The `wait` operand has no effect: the direct
path is synchronous and the fill path waits for its last chunk (R210, R221). -/
def execPushRep (color : Color) (count : Word) (_wait : Bool) (s : State) : Host.Outcome State Fault Refusal :=
  if count = 0 then .next (finish .ok s)
  else opening id (pushRepPre count.toNat) (pushRepBody color count.toNat) s

end Sys2Proof.Machine
end

