-- ==== Sys2Proof/Machine/Read.lean ====
section
/-! DEFINITION. Pixel read with the clock-rate adapter and the dummy-byte stripper (spec/44_pixel_read.md):
READ_PIXELS and READ_PIXEL. -/

namespace Sys2Proof.Machine

/-- The window, the memory-read command and the receive of `n` bytes (R240). -/
def receiveFrame (w : Window) (n : Nat) (s : State) : List Byte × State :=
  recvBytes n (sendCommand s.par.cmdRamrd (windowFrame w s))

/-- The opening of the clock-rate adapter (R240, R242): `clocks` holds the current and the configured maximum clock,
none with `adapt = 0` (R248). The answer holds the clock to restore, when it was lowered. -/
def openAdapter (clocks : Option (Word × Word)) (s : State) : Status × Option Word × State :=
  match clocks with
  | none => (.ok, none, s)
  | some (cur, top) =>
    match deselect .display s with
    | (.ok, s1) => if top < cur then (.ok, some cur, setClock top s1) else (.ok, none, s1)
    | (st, s1) => (st, none, s1)

/-- The clock restored where it was lowered (R243). -/
def restoreClock (saved : Option Word) (s : State) : State :=
  match saved with
  | some hz => setClock hz s
  | none => s

/-- The sequence of `READ_PIXELS` up to its status (R240): the received bytes are there when the receive took place. -/
def readSequence (w : Window) (n : Nat) (clocks : Option (Word × Word)) (s : State) :
    Status × Option (List Byte) × State :=
  match openAdapter clocks s with
  | (.ok, saved, s1) =>
    match select .display s1 with
    | (.ok, s2) =>
      let r := receiveFrame w n s2
      let d := deselect .display r.2
      (d.1, some r.1, restoreClock saved d.2)
    | (st, s2) => (st, none, restoreClock saved s2)
  | (st, _, s1) => (st, none, s1)

/-- The clocks the adapter reads (R244 item 2), none with `adapt = 0`. -/
def adapterClocks (adapt : Bool) (s : State) : Except Refusal (Option (Word × Word)) :=
  if adapt then do
    let cur ← valueOf s.clock .clock
    let top ← valueOf s.cfg.maxRdclock .maxRdclock
    .ok (some (cur, top))
  else .ok none

/-- The preconditions of a read but for the host buffer (R244 items 1, 2, 3 and 5). -/
def readPre (w : Window) (count : Nat) (adapt : Bool) (s : State) : Except Refusal (Option (Word × Word)) := do
  require (s.sel != some .touch) .wrongSelection
  let clocks ← adapterClocks adapt s
  requireWindow w s
  requirePanelRead w count s
  .ok clocks

/-- The bytes a read of `count` pixels receives: the dummy byte and three bytes a pixel (R240, R247). -/
def rawBytes (count : Nat) : Nat := 3 * count + 1

/-- The read buffer after a failure before the receive (R246): every byte is a draw, whoever owns the range, since the
opening drain fails before the preconditions are checked (40 R145). A range that then passes the top of the address
space goes on at address 0: DESIGN CHOICE (log 20). -/
def scrambleBuffer (addr n : Nat) (s : State) : State :=
  { s with
    mem := memWriteWrapped (2 ^ s.par.addrBits) s.mem addr (drawBytes n s.env).1
    env := (drawBytes n s.env).2 }

/-- The preconditions of `READ_PIXELS` (R244). -/
def readPixelsPre (w : Window) (count addr : Nat) (adapt : Bool) (s : State) :
    Except Refusal (Option (Word × Word)) := do
  requireBuffer addr (rawBytes count) s
  readPre w count adapt s

/-- The body of `READ_PIXELS` (R240): the received bytes go to host memory, whatever the final deselect answers
(R245). The store and the final deselect touch nothing in common. -/
def readPixelsBody (w : Window) (count addr : Nat) (clocks : Option (Word × Word)) (s : State) : Status × State :=
  match readSequence w (rawBytes count) clocks s with
  | (st, some bytes, s1) => (st, { s1 with mem := memWrite s1.mem addr bytes })
  | (st, none, s1) => (st, scrambleBuffer addr (rawBytes count) s1)

/-- `READ_PIXELS cs, ce, rs, re, count, addr, adapt` (R240). -/
def execReadPixels (w : Window) (count addr : Word) (adapt : Bool) (s : State) : Host.Outcome State Fault Refusal :=
  opening (scrambleBuffer addr.toNat (rawBytes count.toNat)) (readPixelsPre w count.toNat addr.toNat adapt)
    (readPixelsBody w count.toNat addr.toNat) s

/-! ## READ_PIXEL (R250) -/

/-- The window of a single-pixel read: `RSP_EXT` beyond the pixel on each axis (R250). -/
def pixelWindow (x y : Half) (s : State) : Window :=
  ⟨x, x + BitVec.ofNat 16 s.par.rspExt, y, y + BitVec.ofNat 16 s.par.rspExt⟩

/-- The preconditions of `READ_PIXEL` (R250). -/
def readPixelPre (x y : Half) (s : State) : Except Refusal (Option (Word × Word)) := do
  require (x.toNat + s.par.rspExt ≤ 0xFFFF && y.toNat + s.par.rspExt ≤ 0xFFFF) .pixelOutOfRange
  readPre (pixelWindow x y s) 1 true s

/-- `r | (g << 8) | (b << 16)` of the one pixel, the dummy byte dropped (R250). -/
def pixelResult (buf : List Byte) : Option Word :=
  match buf with
  | [_, r, g, b] => some (r.zeroExtend 32 ||| g.zeroExtend 32 <<< 8 ||| b.zeroExtend 32 <<< 16)
  | _ => none

/-- The body of `READ_PIXEL` (R250): a result with `ST_OK`, no value with any other status. -/
def readPixelBody (x y : Half) (clocks : Option (Word × Word)) (s : State) : Status × State :=
  match readSequence (pixelWindow x y s) (rawBytes 1) clocks s with
  | (.ok, some bytes, s1) => (.ok, { s1 with result := pixelResult bytes })
  | (st, _, s1) => (st, { s1 with result := none })

/-- `READ_PIXEL x, y` (R250). -/
def execReadPixel (x y : Half) (s : State) : Host.Outcome State Fault Refusal :=
  opening (fun s => { s with result := none }) (readPixelPre x y) (readPixelBody x y) s

end Sys2Proof.Machine
end

