-- ==== Sys2Proof/Machine/Calibrate.lean ====
section
/-! DEFINITION. Speed calibration (spec/45_calibration.md): FIND_MAX_RDCLK. -/

namespace Sys2Proof.Machine

/-- The test window (R264): the whole of the middle row. -/
def calWindow (width height : Half) : Window :=
  ⟨0, width - 1, BitVec.ofNat 16 (height.toNat / 2), BitVec.ofNat 16 (height.toNat / 2)⟩

/-- The wire bytes of the test line (R262, R265): grayscale is off for the scan. -/
def calLine (p : CalPlan) : List Byte := wireStream p.depth false (List.replicate p.width Config.calColor)

/-- `WriteLine()` (R265). The line buffer is the block's own, so nothing is lent. -/
def writeLine (p : CalPlan) (s : State) : Status × State :=
  match select .display s with
  | (.ok, s1) =>
    match pushStream (goesDirect s1.par p.depth p.width) (calLine p) none true (windowFrame p.window s1) with
    | (.ok, s2) => deselect .display s2
    | (st, s2) => (st, s2)
  | (st, s1) => (st, s1)

/-- `ReadLine()` (R266): the sequence of `READ_PIXELS` with `adapt = 0`, into the block's own buffer. -/
def readLine (p : CalPlan) (s : State) : Status × Option (List Byte) × State :=
  readSequence p.window (rawBytes p.width) none s

/-- `Mismatch()` (R267): some pixel of the stripped view differs from the sample colour under the mode's mask. -/
def mismatch (p : CalPlan) (buf : List Byte) : Bool :=
  (strippedPixels buf).any fun c => !maskEq p.depth Config.calColor c

/-- The candidate clocks (R263): floor, floor plus step, and on while at most the limit. -/
def candidates (par : Config.Params) (limit : Nat) : List Nat :=
  if par.calFloorHz.toNat ≤ limit then
    (List.range ((limit - par.calFloorHz.toNat) / par.calStepHz.toNat + 1)).map fun k =>
      par.calFloorHz.toNat + k * par.calStepHz.toNat
  else []

/-- The scan (R260 step 3, R268): each candidate in turn, until one fails; the answer holds the scan's status and the
best candidate. -/
def scan (p : CalPlan) : List Nat → Option Word → State → Status × Option Word × State
  | [], best, s => (.ok, best, s)
  | f :: fs, best, s =>
    match writeLine p (setClock (BitVec.ofNat 32 f) s) with
    | (.ok, s1) =>
      match readLine p s1 with
      | (.ok, buf, s2) =>
        if mismatch p (buf.getD []) then (.ok, best, s2) else scan p fs (some (BitVec.ofNat 32 f)) s2
      | (st, _, s2) => (st, best, s2)
    | (st, s1) => (st, best, s1)

/-- The exit (R269): nothing selected where the deselect is acknowledged, clock and grayscale flag as they were. The
clock is set again also where that deselect failed and the display is still selected, as R269 and 60 R301 (2) say,
though 46 R284 and 10 R45 (4) name only the exception of 44 R245: DEDUCED (log 32). -/
def calRestore (clock : Word) (g : Bool) (s : State) : State :=
  let s := if s.sel = some .display then (deselect .display s).2 else s
  let s := setClock clock s
  { s with cfg := { s.cfg with gray := some g } }

/-- The result (R270): the best candidate, or the default. -/
def calResult (best : Option Word) (s : State) : State :=
  { s with result := some (best.getD s.par.calDefaultHz) }

/-- The limit of the scan (R263): the ceiling or the current clock, whichever is lower. -/
def calLimit (par : Config.Params) (clock : Word) : Nat := min par.calCeilHz.toNat clock.toNat

/-- The values `FIND_MAX_RDCLK` reads (R271): clock, grayscale flag and the scan's inputs. -/
def findMaxPre (s : State) : Except Refusal (Word × Bool × CalPlan) := do
  require (s.sel == none) .wrongSelection
  let clock ← valueOf s.clock .clock
  let m ← valueOf s.cfg.depth .ctrl
  let g ← valueOf s.cfg.gray .ctrl
  let width ← valueOf s.cfg.width .width
  let height ← valueOf s.cfg.height .height
  requireWindow (calWindow width height) s
  requirePanelFormat m s
  .ok (clock, g, ⟨m, width.toNat, calWindow width height⟩)

/-- The scan where its buffers are obtained, else `EF_ALLOC` and no scan (R262). -/
def calScan (clock : Word) (p : CalPlan) (s : State) : Status × Option Word × State :=
  if nextAlloc s.env then scan p (candidates s.par (calLimit s.par clock)) none { s with env := popAlloc s.env }
  else (.ok, none, { s with env := popAlloc s.env, ef := flagAlloc s.ef })

/-- The body of `FIND_MAX_RDCLK` (R260): grayscale off, the scan, the restore, the result. -/
def findMaxBody (v : Word × Bool × CalPlan) (s : State) : Status × State :=
  let r := calScan v.1 v.2.2 { s with cfg := { s.cfg with gray := some false } }
  (r.1, calResult r.2.1 (calRestore v.1 v.2.1 r.2.2))

/-- `FIND_MAX_RDCLK` (R260). -/
def execFindMaxRdclk (s : State) : Host.Outcome State Fault Refusal := opening id findMaxPre findMaxBody s

end Sys2Proof.Machine
end

