-- ==== Sys2Proof/Machine/ConfigAccess.lean ====
section
/-! DEFINITION. Configuration access (spec/46_config_access.md): CFG_WR and CFG_RD. -/

namespace Sys2Proof.Machine

/-- The effect of a legal write (R280): the whole register is replaced. A read-only register is never the target
(`cfgWriteTarget`). -/
def cfgWrite (r : CfgReg) (value : Word) (s : State) : State :=
  match r with
  | .ctrl =>
    { s with
      cfg := { s.cfg with
        depth := some (if value.getLsbD 0 then .d24 else .d16)
        gray := some (value.getLsbD 1) } }
  | .clock => setClock value s
  | .maxRdclock => { s with cfg := { s.cfg with maxRdclock := some value } }
  | .width => { s with cfg := { s.cfg with width := some (value.extractLsb' 0 16) } }
  | .height => { s with cfg := { s.cfg with height := some (value.extractLsb' 0 16) } }
  | .status => s
  | .result => s
  | .cntDirect => s
  | .cntDma => s
  | .cntBurst => s

/-- The clock is written only while nothing is selected (R284). -/
def cfgWrPre (r : CfgReg) (s : State) : Except Refusal Unit :=
  require (r != .clock || s.sel == none) .wrongSelection

/-- `CFG_WR reg, value` (R280): an illegal access is rejected before the drain. -/
def execCfgWr (reg : Byte) (value : Word) (s : State) : Host.Outcome State Fault Refusal :=
  match cfgWriteTarget reg value with
  | none => .next (fail .illegal s)
  | some r => opening id (cfgWrPre r) (fun _ s => (.ok, cfgWrite r value s)) s

/-- A read of STATUS that shows `DMA_BUSY = 0` is the host's observation that its buffer is back (70 R332). -/
def observeIdle (r : CfgReg) (s : State) : Option (Nat × Nat) :=
  if r = .status ∧ dmaBusy s = false then none else s.loan

/-- `CFG_RD reg` (R282): no drain, no event; the value goes to `result`. -/
def execCfgRd (reg : Byte) (s : State) : Host.Outcome State Fault Refusal :=
  match cfgRegOf reg with
  | none => .next (fail .illegal s)
  | some r =>
    match registerValue r s with
    | .ok v => .next (finish .ok { s with result := some v, loan := observeIdle r s })
    | .error f => .refused (.noValue f)

end Sys2Proof.Machine
end

