-- ==== Sys2Proof/Machine/Transport.lean ====
section
/-! DEFINITION. Bus transport (spec/40_bus_transport.md) and the address window (41_address_window.md): SELECT,
DESELECT, SEND_CMD, SEND_CMD_DATA, WAIT and SET_WINDOW. -/

namespace Sys2Proof.Machine

/-- The precondition of `SELECT` and `DESELECT`: the other endpoint is not selected (R140, R142). -/
def endpointPre (d : Dev) (s : State) : Except Refusal Unit :=
  require (s.sel == none || s.sel == some d) .wrongSelection

/-- `SELECT dev` (R140). -/
def execSelect (d : Dev) (s : State) : Host.Outcome State Fault Refusal :=
  opening id (endpointPre d) (fun _ => select d) s

/-- `DESELECT dev` (R142). -/
def execDeselect (d : Dev) (s : State) : Host.Outcome State Fault Refusal :=
  opening id (endpointPre d) (fun _ => deselect d) s

/-- The preconditions of `SEND_CMD` (R147, R161; with a panel attached 20 R82). -/
def sendCmdPre (cmd : Byte) (s : State) : Except Refusal Unit := do
  requireDisplay s
  requirePanelTakes cmd 0 s

/-- `SEND_CMD cmd` (R161). -/
def execSendCmd (cmd : Byte) (s : State) : Host.Outcome State Fault Refusal :=
  opening id (sendCmdPre cmd) (fun _ s => (.ok, sendCommand cmd s)) s

/-- The preconditions of `SEND_CMD_DATA` (R147, R163; with a panel attached 20 R82, R84). -/
def sendCmdDataPre (cmd : Byte) (addr length : Nat) (s : State) : Except Refusal Unit := do
  requireDisplay s
  requireBuffer addr length s
  requirePanelTakes cmd length s

/-- The frames of `SEND_CMD_DATA` (R163): the command alone when the payload is empty. -/
def sendCmdDataBody (cmd : Byte) (addr length : Nat) (s : State) : State :=
  if length = 0 then sendCommand cmd s
  else sendBytes (memRead s.mem addr length) (setDC .data (sendCommand cmd s))

/-- `SEND_CMD_DATA cmd, addr, length` (R163). -/
def execSendCmdData (cmd : Byte) (addr length : Word) (s : State) : Host.Outcome State Fault Refusal :=
  opening id (sendCmdDataPre cmd addr.toNat length.toNat)
    (fun _ s => (.ok, sendCmdDataBody cmd addr.toNat length.toNat s)) s

/-- `WAIT` (R166): the drain and nothing else. -/
def execWait (s : State) : Host.Outcome State Fault Refusal :=
  opening id (fun _ => .ok ()) (fun _ s => (.ok, s)) s

/-- The preconditions of `SET_WINDOW` (41 R184, R182). -/
def setWindowPre (w : Window) (s : State) : Except Refusal Unit := do
  requireDisplay s
  requireWindow w s

/-- `SET_WINDOW cs, ce, rs, re` (41 R184). -/
def execSetWindow (w : Window) (s : State) : Host.Outcome State Fault Refusal :=
  opening id (setWindowPre w) (fun _ s => (.ok, windowFrame w s)) s

end Sys2Proof.Machine
end

