-- ==== Sys2Proof/Machine/Dispatch.lean ====
section
/-! DEFINITION. The meaning of each operation, one arm for each constructor of `Instr`. -/

namespace Sys2Proof.Machine

def exec (i : Instr) (s : State) : Host.Outcome State Fault Refusal :=
  match i with
  | .select dev => Sys2Proof.Machine.execSelect dev s
  | .deselect dev => Sys2Proof.Machine.execDeselect dev s
  | .sendCmd cmd => Sys2Proof.Machine.execSendCmd cmd s
  | .sendCmdData cmd addr length => Sys2Proof.Machine.execSendCmdData cmd addr length s
  | .setWindow w => Sys2Proof.Machine.execSetWindow w s
  | .pushRep color count wait => Sys2Proof.Machine.execPushRep color count wait s
  | .pushBuf addr count wait => Sys2Proof.Machine.execPushBuf addr count wait s
  | .readPixels w count addr adapt => Sys2Proof.Machine.execReadPixels w count addr adapt s
  | .readPixel x y => Sys2Proof.Machine.execReadPixel x y s
  | .findMaxRdclk => Sys2Proof.Machine.execFindMaxRdclk s
  | .wait => Sys2Proof.Machine.execWait s
  | .cfgWr reg value => Sys2Proof.Machine.execCfgWr reg value s
  | .cfgRd reg => Sys2Proof.Machine.execCfgRd reg s

end Sys2Proof.Machine
end

