-- ==== Sys2Proof/Machine/Phases.lean ====
section
/-! DEFINITION. The phases of an operation (spec/10_state.md R24, R36, R40): where it waits for the DMA engine, and how
it goes on from there. `exec` runs an operation to its end; the functions here stop it at its blocking waits and take
it up again, with the same effect. -/

namespace Sys2Proof.Machine

/-- The operations that open with the drain (40 R145): all but `CFG_RD`, a zero-count push, and an illegal access. -/
def drains : Instr → Bool
  | .select _ => true
  | .deselect _ => true
  | .sendCmd _ => true
  | .sendCmdData _ _ _ => true
  | .setWindow _ => true
  | .pushRep _ count _ => count != 0
  | .pushBuf _ count _ => count != 0
  | .readPixels _ _ _ _ => true
  | .readPixel _ _ => true
  | .findMaxRdclk => true
  | .wait => true
  | .cfgWr reg value => (cfgWriteTarget reg value).isSome
  | .cfgRd _ => false

/-! ## Going on to the end -/

/-- What follows the wait for the test line (45 R265): the end of `WriteLine`. -/
def lineRest (s : State) : Status × State :=
  match awaitDma s with
  | (.ok, s1) => deselect .display s1
  | (st, s1) => (st, s1)

/-- What follows `WriteLine` for a candidate (45 R260 steps 3c to 3f): the read, the comparison, and the scan of the
candidates to come. -/
def scanRest (p : CalPlan) (f : Nat) (fs : List Nat) (best : Option Word) (w : Status × State) :
    Status × Option Word × State :=
  match w with
  | (.ok, s1) =>
    match readLine p s1 with
    | (.ok, buf, s2) =>
      if mismatch p (buf.getD []) then (.ok, best, s2) else scan p fs (some (BitVec.ofNat 32 f)) s2
    | (st, _, s2) => (st, best, s2)
  | (st, s1) => (st, best, s1)

/-- An operation taken up at a wait and run to its end. -/
def resume (i : Instr) (p : Phase) (s : State) : Host.Outcome State Fault Refusal :=
  match p with
  | .drain => exec i s
  | .pushWait => .next (finish (awaitDma s).1 (awaitDma s).2)
  | .fill buffer b rest => .next (finish (fillLoop buffer b rest s).1 (fillLoop buffer b rest s).2)
  | .scan clock g plan f fs best =>
    let r := scanRest plan f fs best (lineRest s)
    .next (finish r.1 (calResult r.2.1 (calRestore clock g r.2.2)))

/-! ## Going on to the next wait -/

/-- The next transfer of a repeated fill is queued and waited for (43 R220). -/
def fillWait (buffer : List Byte) (b : Nat) (rest : List Nat) (s : State) : Option (Phase × State) :=
  match rest with
  | [] => none
  | n :: ns => some (.fill buffer b ns, dmaQueue (buffer.take (n * b)) .scratch (awaitDma s).2)

/-- The test line of the next candidate is queued and waited for, where it goes by DMA (45 R265). -/
def lineWait (clock : Word) (g : Bool) (p : CalPlan) (fs : List Nat) (best : Option Word) (s : State) :
    Option (Phase × State) :=
  match fs with
  | [] => none
  | f :: fs =>
    match select .display (setClock (BitVec.ofNat 32 f) s) with
    | (.ok, s1) =>
      if goesDirect s1.par p.depth p.width then none
      else some (.scan clock g p f fs best, (pushStream false (calLine p) none false (windowFrame p.window s1)).2)
    | (_, _) => none

/-- The final wait of `PUSH_BUF`, where its payload goes by DMA (43 R216). -/
def pushBufWait (addr count : Nat) (s : State) : Option (Phase × State) :=
  match pushBufPre addr count s with
  | .ok mg =>
    if goesDirect s.par mg.1 count then none
    else
      some (.pushWait,
        (pushStream false (wireStream mg.1 mg.2 (readColors addr count s)) (some (addr, 3 * count)) false s).2)
  | .error _ => none

/-- The wait of `PUSH_REP` for its first transfer, where it fills by DMA (43 R218, R220). -/
def pushRepWait (color : Color) (count : Nat) (s : State) : Option (Phase × State) :=
  match pushRepPre count s with
  | .ok v =>
    let p := fillPixels count v.2.2
    let px := wireBytes v.1 v.2.1 color
    if goesDirect s.par v.1 count || !nextAlloc s.env then none
    else
      fillWait (repeatBytes px p) px.length (fillSizes count p)
        { openWrite s with env := popAlloc s.env, scratch := some (p * px.length) }
  | .error _ => none

/-- The wait of `FIND_MAX_RDCLK` for its first test line (45 R262, R265). -/
def findMaxWait (s : State) : Option (Phase × State) :=
  match findMaxPre s with
  | .ok v =>
    if nextAlloc s.env then
      lineWait v.1 v.2.1 v.2.2 (candidates s.par (calLimit s.par v.1)) none
        { s with cfg := { s.cfg with gray := some false }, env := popAlloc s.env }
    else none
  | .error _ => none

/-- The first wait an operation meets after its opening, with its state there. -/
def bodyWait (i : Instr) (s : State) : Option (Phase × State) :=
  match i with
  | .pushBuf addr count wait => if wait && count != 0 then pushBufWait addr.toNat count.toNat s else none
  | .pushRep color count _ => if count != 0 then pushRepWait color count.toNat s else none
  | .findMaxRdclk => findMaxWait s
  | .select _ => none
  | .deselect _ => none
  | .sendCmd _ => none
  | .sendCmdData _ _ _ => none
  | .setWindow _ => none
  | .readPixels _ _ _ _ => none
  | .readPixel _ _ => none
  | .wait => none
  | .cfgWr _ _ => none
  | .cfgRd _ => none

/-- The wait an operation meets next from a phase on, with its state there: the one it stands at while the transfer is
in flight, else the one after it. -/
def nextWait (i : Instr) (p : Phase) (s : State) : Option (Phase × State) :=
  match p with
  | .drain =>
    if drains i then
      if dmaBusy s then some (.drain, s) else bodyWait i (awaitDma s).2
    else none
  | .pushWait => if dmaBusy s then some (.pushWait, s) else none
  | .fill buffer b rest => if dmaBusy s then some (.fill buffer b rest, s) else fillWait buffer b rest s
  | .scan clock g plan f fs best =>
    if dmaBusy s then some (.scan clock g plan f fs best, s)
    else
      match lineRest s with
      | (.ok, s1) =>
        match readLine plan s1 with
        | (.ok, buf, s2) =>
          if mismatch plan (buf.getD []) then none else lineWait clock g plan fs (some (BitVec.ofNat 32 f)) s2
        | (_, _, _) => none
      | (_, _) => none

/-- An operation goes on from a phase: where it meets a wait the environment says whether other agents act while it
waits, and then it stands at that wait with the block not `Ready`; else it runs to its end. -/
def proceed (i : Instr) (p : Phase) (s : State) : Host.Outcome State Fault Refusal :=
  match nextWait i p { s with env := popHold s.env } with
  | none => resume i p s
  | some (q, s1) =>
    if nextHold s.env then .next { s1 with op := some (i, q) } else resume i p { s with env := popHold s.env }

end Sys2Proof.Machine
end

