-- ==== Sys2Proof/Machine/Fetch.lean ====
section
/-! DEFINITION. What the agents other than the sequencer do, and how a descriptor reaches it: the DMA engine's turn
(spec/40_bus_transport.md R156), the host's actions (00_scope.md R7; 20 R70; 70 R320, R330, R332) and the opening
decode (40 R145 step 1). -/

namespace Sys2Proof.Machine

/-- The DMA engine's turn (R156): while a transfer is in flight the environment says whether it completes now. The
host has observed nothing yet, so the buffer stays lent (20 R70). -/
def dmaTurn (s : State) : State :=
  match s.dma with
  | .idle => s
  | .inFlight bs _ =>
    if nextTurn s.env then dmaComplete bs { s with env := popTurn s.env } else { s with env := popTurn s.env }

/-- A descriptor handed to the block (R145 step 1; 30 R118): an operation runs, an illegal descriptor is rejected with
`ST_ILLEGAL` and no other effect. A second operation while one is in progress is a `refuse` (70 R330). -/
def runDescriptor (d : List Word) (s : State) : Host.Outcome State Fault Refusal :=
  if s.op.isSome then .refused .busy
  else
    match decode d with
    | .ok i => proceed i .drain { s with op := some (i, .drain) }
    | .error .truncated => .refused .truncatedDescriptor
    | .error _ => .next (fail .illegal s)

/-- Two ranges of addresses share a byte; an empty range shares none. -/
def rangesMeet (a n b m : Nat) : Bool := decide (max a b < min (a + n) (b + m))

/-- A host access to a range of memory: refused while an operation is in progress, which blocks the host (20 R74; log
11) and has not returned (70 R332), and where it shares a byte with the buffer the DMA agent owns (20 R70); a fault
outside the address space (20 R60). An access of no bytes is no host write and shares none: DESIGN CHOICE (log 17). No
rule says what a host access to bytes the host does not own (R61) means: it has its effect as any other, DESIGN CHOICE
(log 16). -/
def hostAccess (addr len : Nat) (act : State → State) (s : State) : Host.Outcome State Fault Refusal :=
  if s.op.isSome then .refused .hostBlocked
  else if 2 ^ s.par.addrBits < addr + len then .fault (.noSuchAddress (2 ^ s.par.addrBits))
  else
    match s.loan with
    | some (a, n) => if rangesMeet a n addr len then .refused .bufferOnLoan else .next (act s)
    | none => .next (act s)

/-- A host store (20 R70). -/
def hostStore (addr : Nat) (bytes : List Byte) (s : State) : Host.Outcome State Fault Refusal :=
  hostAccess addr bytes.length (fun s => { s with mem := memWrite s.mem addr bytes }) s

/-- What remains of a region without a range. -/
def cutRegion (addr len : Nat) (r : Region) : List Region :=
  if rangesMeet addr len r.base r.size then
    [⟨r.base, addr - r.base, r.dmaCapable⟩,
      ⟨addr + len, r.base + r.size - (addr + len), r.dmaCapable⟩].filter fun q => q.size != 0
  else [r]

/-- The host frees a range (70 R332: freeing counts as writing): it owns it no longer (log 35). -/
def hostFree (addr len : Nat) (s : State) : Host.Outcome State Fault Refusal :=
  hostAccess addr len (fun s => { s with regions := s.regions.flatMap (cutRegion addr len) }) s

/-- The host takes a range for an object of its own (70 R332: reuse counts as writing; log 35). -/
def hostClaim (addr len : Nat) (dmaCapable : Bool) (s : State) : Host.Outcome State Fault Refusal :=
  hostAccess addr len (fun s => { s with regions := ⟨addr, len, dmaCapable⟩ :: s.regions }) s

/-- The block's fields after reset (10 R44; 70 R320); memory, panel and everything else outside the block stand as
they were (70 R322). A lent buffer is the host's again, since no transfer is in flight: DESIGN CHOICE (log 33). -/
def clearBlock (s : State) : State :=
  { s with
    w := List.replicate s.par.nwords 0
    bitlen := 0
    sel := none
    dc := none
    clock := none
    cfg := ⟨none, none, none, none, none⟩
    dma := .idle
    scratch := none
    inhibit := false
    last := .ok
    ef := ⟨false, false, false, false⟩
    result := none
    cnt := ⟨0, 0, 0⟩
    op := none
    trace := []
    loan := none }

/-- A transfer in flight at reset is abandoned with an unknown prefix sent (70 R321). -/
def resetDma (s : State) : State :=
  match s.dma with
  | .idle => s
  | .inFlight bs _ => dmaAbort ((nextEnd s.env).getD bs.length) bs { s with env := popEnd s.env }

/-- A display selected at reset is left in the middle of a frame: its command, arguments and position are unknown
(70 R321; U20). -/
def resetPanel (s : State) : State :=
  if s.sel = some .display then
    { s with
      panel := s.panel.map fun p =>
        { p with
          cmd := Config.freePanelCmd s.env.frees
          arg := Config.freePanelArg s.env.frees
          cur := Config.freePanelCur s.env.frees }
      env := { s.env with frees := s.env.frees + 1 } }
  else s

/-- The one reset of the block (70 R320 to R322). -/
def blockReset (s : State) : State := clearBlock (resetPanel (resetDma s))

/-- The panel's pixel format is reprogrammed (70 R334; log 34). The command that does it drains like every other, so it
comes on a `Ready` block with nothing in flight; it drops a partial pixel as a command does (20 R85). A command reaches
the panel only while the display is selected (20 R82, R90), but no rule says how the host sends this one, so the action
asks for no selection and takes effect whatever `sel` is, a DESIGN CHOICE (log 34). The spec does not say what a pixel
stored under the old format reads back as: it keeps its bits and their number (20 R88), DEDUCED (log 34). -/
def setPanelFormat (fmt : PanelFmt) (s : State) : Host.Outcome State Fault Refusal :=
  if s.op.isSome || dmaBusy s then .refused .busy
  else .next { s with panel := s.panel.map fun p => { p with fmt := fmt, arg := [] } }

/-- One action of the host. -/
def hostAct (a : HostAct) (s : State) : Host.Outcome State Fault Refusal :=
  match a with
  | .issue d => runDescriptor d s
  | .store addr bytes => hostStore addr.toNat bytes s
  | .free addr len => hostFree addr.toNat len.toNat s
  | .claim addr len dmaCapable => hostClaim addr.toNat len.toNat dmaCapable s
  | .panelFormat fmt => setPanelFormat fmt s
  | .reset => .next (blockReset s)

/-- The host's next action on a `Ready` block; with none the block waits (10 R44). -/
def hostTurn (s : State) : Host.Outcome State Fault Refusal :=
  match s.host with
  | [] => .next s
  | a :: rest => hostAct a { s with host := rest }

/-- A step while an operation waits: what comes from the host meanwhile, a reset (70 R321) or what a blocked host must
not do (20 R74; 70 R330, R340), else the operation goes on. -/
def waitTurn (i : Instr) (p : Phase) (s : State) : Host.Outcome State Fault Refusal :=
  match s.env.urgent with
  | [] => proceed i p s
  | none :: rest => proceed i p { s with env := { s.env with urgent := rest } }
  | some a :: rest => hostAct a { s with env := { s.env with urgent := rest } }

/-- The state in which a descriptor of a given number is the host's next action and the block is `Ready`. -/
def placeDescriptor (nbits w : Nat) (s : State) : State :=
  { s with host := .issue (wordsOfNat nbits w) :: s.host, op := none }

end Sys2Proof.Machine
end

