-- ==== Sys2Proof/Machine/Step.lean ====
section
/-! DEFINITION. One step: the DMA engine's turn, then the host's next action, or the operation that waits going on
(spec/00_scope.md R7; 10_state.md R24; logs 11, 12 and 13). -/

namespace Sys2Proof.Machine

/-- One step of the machine. -/
def step (s : State) : Host.Outcome State Fault Refusal :=
  match s.op with
  | none => hostTurn (dmaTurn s)
  | some (i, p) => waitTurn i p (dmaTurn s)

/-- `s` with a descriptor, given as a number, as the host's next action. -/
def State.withFetchWord (s : State) (nbits w : Nat) : State := placeDescriptor nbits w s

end Sys2Proof.Machine
end

