-- ==== Sys2Proof/Safety.lean ====
section
/-! DEFINITION. The terms claims are made in: the wire projection of a trace (spec/00_scope.md R14), final states
(R19), the named premises of 60_exceptions.md R296, the preconditions on operands as propositions, and the invariant
of 10_state.md R45. -/

namespace Sys2Proof.Machine

/-! ## Traces -/

/-- A wire event (00 R14): what the panel can tell. -/
def isWire : Event → Bool
  | .sel _ => true
  | .desel _ => true
  | .clk _ => true
  | .tx _ _ => true
  | .rx _ => true
  | .burstTx _ => false
  | .burstRx _ => false
  | .dmaQ _ => false
  | .dmaDone => false
  | .dmaAbort _ => false
  | .inh _ => false

/-- The wire projection of a trace (00 R14). -/
def wireProjection (tr : List Event) : List Event := tr.filter isWire

/-- A command frame in a trace (30 R120). -/
def commandFrame (b : Byte) : List Event := [.tx .command b, .burstTx 8]

/-- A run of bytes in the data state. -/
def dataRun (bs : List Byte) : List Event := bs.map (.tx .data)

/-- One direct data burst in a trace. -/
def dataBurst (bs : List Byte) : List Event := dataRun bs ++ [.burstTx (8 * bs.length)]

/-- A data frame carried by direct bursts (30 R121). -/
def dataFrame (p : Config.Params) (bs : List Byte) : List Event := (burstChunks p bs).flatMap dataBurst

/-- A DMA transfer that completed (40 R155, R156). -/
def dmaFrame (bs : List Byte) : List Event := .dmaQ bs.length :: (dataRun bs ++ [.dmaDone])

/-- What a panel has become after bytes at given levels (20 R82 to R84). -/
def panelHears (par : Config.Params) (bytes : List (DcLevel × Byte)) (p : Panel) : Panel :=
  bytes.foldl (fun p x => panelTx par x.1 x.2 p) p

/-- Bytes at the data level. -/
def atData (bs : List Byte) : List (DcLevel × Byte) := bs.map fun b => (.data, b)

/-- The panel behind the bus after bytes: it hears them while the display is selected (20 R82, R90). -/
def panelAfter (s : State) (bytes : List (DcLevel × Byte)) : Option Panel :=
  if s.sel = some .display then s.panel.map (panelHears s.par bytes) else s.panel

/-- Bytes received one after another from a panel, each from its draw (R87, R91). -/
def panelGives (par : Config.Params) (clock : Option Word) : List Byte → Panel → List Byte × Panel
  | [], p => ([], p)
  | d :: ds, p =>
    let r := panelGives par clock ds (panelReadAdvance par p)
    (panelReceive par clock d p :: r.1, r.2)

/-- The four-byte bursts and the commands of a window frame, as bytes at levels (30 R122). -/
def windowBytes (par : Config.Params) (w : Window) : List (DcLevel × Byte) :=
  (.command, par.cmdCaset) :: atData (axisBytes w.cs w.ce) ++
    (.command, par.cmdPaset) :: atData (axisBytes w.rs w.re)

/-- The trace of a window frame (41 R180, R183). -/
def windowTrace (par : Config.Params) (w : Window) : List Event :=
  (if par.preemptGuard then [.inh true] else []) ++ commandFrame par.cmdCaset ++ dataBurst (axisBytes w.cs w.ce) ++
    commandFrame par.cmdPaset ++ dataBurst (axisBytes w.rs w.re) ++ (if par.preemptGuard then [.inh false] else [])

/-- The events of receive bursts that deliver the runs `cs` (40 R151, R153). -/
def receiveRun (cs : List (List Byte)) : List Event :=
  cs.flatMap fun c => c.map .rx ++ [.burstRx (8 * c.length)]

/-- The clocks the adapter works with (44 R242): the current and the maximum one, none with `adapt = 0`. -/
def readClocks (adapt : Bool) (s : State) : Option (Word × Word) :=
  match adapt, s.clock, s.cfg.maxRdclock with
  | true, some cur, some top => some (cur, top)
  | _, _, _ => none

/-- The events of a read before its window (44 R240, R242); `clocks` holds the current and the maximum clock where the
adapter is used. -/
def readOpening (par : Config.Params) (clocks : Option (Word × Word)) (sel : Option Dev) : List Event :=
  match clocks with
  | none => if sel = some .display then [] else [.sel .display]
  | some (cur, top) =>
    (if sel = some .display then [.desel .display] else []) ++
      (if top < cur then [.clk (quantise par top)] else []) ++ [.sel .display]

/-- The events of a read after its receive (44 R240, R243): the deselect, and the restore of a lowered clock. -/
def readClosing (par : Config.Params) (clocks : Option (Word × Word)) : List Event :=
  .desel .display ::
    match clocks with
    | none => []
    | some (cur, top) => if top < cur then [.clk (quantise par cur)] else []

/-- The clock after a read (44 R243): where it was lowered, the entry clock was requested again. -/
def readClock (clocks : Option (Word × Word)) (s : State) : Option Word :=
  match clocks with
  | none => s.clock
  | some (cur, top) => if top < cur then some (quantise s.par cur) else s.clock

/-- The clock a read works at (44 R242): the current one, lowered to the maximum one where that is below it. -/
def readingClock (clocks : Option (Word × Word)) (s : State) : Option Word :=
  match clocks with
  | none => s.clock
  | some (cur, top) => if top < cur then some (quantise s.par top) else s.clock

/-! ## The drain (40 R146, R156, R157) -/

/-- The wait for the outstanding transfer, if there is one, ends by completion. -/
abbrev WaitCompletes (s : State) : Prop := s.dma = .idle ∨ nextEnd s.env = none

/-- The state after a drain that ended well: the transfer's bytes and `DMA_DONE` are in the trace, and the caller
buffer is the host's again (20 R70). -/
def drained (s : State) : State :=
  match s.dma with
  | .idle => { s with loan := none }
  | .inFlight bs _ =>
    { s with
      dma := .idle
      loan := none
      env := popEnd s.env
      trace := s.trace ++ (dataRun bs ++ [.dmaDone])
      panel := panelAfter s (atData bs) }

/-- The state after a drain that timed out after `k` bytes: a prefix is in the trace, the transfer is abandoned and
`EF_DMA_TO` is set. -/
def abandoned (k : Nat) (s : State) : State :=
  match s.dma with
  | .idle => s
  | .inFlight bs _ =>
    { s with
      dma := .idle
      loan := none
      env := popEnd s.env
      ef := { s.ef with dmaTo := true }
      trace := s.trace ++ (dataRun (bs.take k) ++ [.dmaAbort (min k bs.length)])
      panel := panelAfter s (atData (bs.take k)) }

/-! ## Premises a claim may take (60 R296)

Each says what the environment answers to the next draws of a kind, through the scripts of State. -/

/-- `AckAlways` for the next `n` acknowledges. -/
abbrev AcksNext (n : Nat) (s : State) : Prop := s.env.acks.take n = List.replicate n true

/-- `NoTimeout` for the next `n` waits on a transfer. -/
abbrev NoTimeouts (n : Nat) (s : State) : Prop := s.env.ends.take n = List.replicate n none

/-! ## Preconditions, as propositions -/

/-- The panel, where one is attached, takes a command with `n` data bytes (20 R82, R84, R86). -/
def PanelTakes (cmd : Byte) (n : Nat) (s : State) : Prop :=
  ∀ p, s.panel = some p → cmd = s.par.cmdRamwr ∨ cmd = s.par.cmdRamrd →
    ∃ area, panelArea p = some area ∧ (cmd = s.par.cmdRamwr → n / fmtBytes p.fmt ≤ area)

/-- The panel, where one is attached, has the format of a depth mode and room for `count` pixels (43 R223). -/
def PanelTakesPush (m : Depth) (count : Nat) (s : State) : Prop :=
  (∀ p, s.panel = some p → p.fmt = fmtOfDepth m) ∧ PanelTakes s.par.cmdRamwr (count * depthBytes m) s

/-- A range does not wrap and lies in a region the host owns (20 R61); an empty range needs nothing. -/
def BufferOwned (addr len : Nat) (s : State) : Prop :=
  len = 0 ∨ addr + len ≤ 2 ^ s.par.addrBits ∧
    ∃ r ∈ s.regions, r.base ≤ addr ∧ addr + len ≤ r.base + r.size

/-- The DMA engine reaches the whole of a range (20 R64). -/
def BufferDmaCapable (addr len : Nat) (s : State) : Prop :=
  ∃ r ∈ s.regions, r.dmaCapable = true ∧ r.base ≤ addr ∧ addr + len ≤ r.base + r.size

/-- A window meets 41 R182. -/
def WindowFits (w : Window) (s : State) : Prop :=
  w.cs ≤ w.ce ∧ w.rs ≤ w.re ∧ (∀ d, s.cfg.width = some d → w.ce < d) ∧ (∀ d, s.cfg.height = some d → w.re < d)

/-- The panel, where one is attached, gives `count` pixels of a window at a known clock (20 R86; 46 R285). -/
def PanelGives (w : Window) (count : Nat) (s : State) : Prop :=
  s.panel ≠ none → count ≤ windowArea w ∧ s.clock ≠ none

/-! ## Final states (00 R19) -/

/-- A state a claim may end in: no transfer in flight, and no DMA timeout taken since reset (00 R19). Nor is an
operation in progress: R19 does not name it, but speaks of returned statuses, and such an operation has returned none:
DEDUCED (log 7). -/
def isFinal (s : State) : Bool := s.op.isNone && !dmaBusy s && !s.ef.dmaTo

/-! ## Operations and their ends (10 R24, R36; log 11) -/

/-- The waits an operation has (10 R36; 40 R146, R158): the opening drain of one that drains, the final wait of
`PUSH_BUF`, the waits of a fill and of a calibration scan. -/
def standsAt (i : Instr) (p : Phase) : Bool :=
  drains i &&
    match p, i with
    | .drain, _ => true
    | .pushWait, .pushBuf _ _ wait => wait
    | .fill _ _ _, .pushRep _ _ _ => true
    | .scan _ _ _ _ _ _, .findMaxRdclk => true
    | _, _ => false

/-- An operation ends: run from its start, or taken up at one of its waits. -/
abbrev Ends (i : Instr) (p : Phase) (s t : State) : Prop :=
  (p = .drain ∧ exec i s = .next t) ∨ (standsAt i p = true ∧ resume i p s = .next t)

/-- What the host does in this step: its next action on a `Ready` block, or what comes from it during a wait. -/
abbrev HostDoes (a : HostAct) (s : State) : Prop :=
  (s.op = none ∧ s.host.head? = some a) ∨ (s.op ≠ none ∧ s.env.urgent.head? = some (some a))

/-- The configuration an operation found: in a calibration scan the grayscale flag is the saved one (45 R260). -/
def foundCfg (p : Phase) (s : State) : Cfg :=
  match p with
  | .scan _ g _ _ _ _ => { s.cfg with gray := some g }
  | .drain => s.cfg
  | .pushWait => s.cfg
  | .fill _ _ _ => s.cfg

/-! ## The invariant (10 R45 and the rules its parts name) -/

/-- Parameters the rules presume: a register, a step, four distinct command bytes (00 R8, D6). -/
abbrev ParamsOk (p : Config.Params) : Prop :=
  0 < p.nwords ∧ p.calStepHz ≠ 0 ∧ [p.cmdCaset, p.cmdPaset, p.cmdRamwr, p.cmdRamrd].Nodup

/-- The burst registers are NWORDS many, and the last burst was whole bytes within their capacity (R20, R21, R149). -/
abbrev RegsOk (s : State) : Prop :=
  s.w.length = s.par.nwords ∧ s.bitlen ≤ 32 * s.par.nwords ∧ s.bitlen % 8 = 0

/-- R45 (2): under a transfer in flight the display is selected and the line is in the data state. -/
def dmaOk (s : State) : Bool :=
  match s.dma with
  | .idle => true
  | .inFlight _ _ => s.sel == some .display && s.dc == some .data

/-- What is in flight, if anything is, is a caller's with its buffer lent (20 R70), and there is no fill buffer
(10 R37). -/
def lentOnly (s : State) : Bool :=
  s.scratch.isNone &&
    match s.dma with
    | .idle => true
    | .inFlight _ o => o == .caller && s.loan.isSome

/-- What is in flight, if anything is, carries bytes of the block's own, and nothing is lent. -/
def ownOnly (owner : DmaOwner) (s : State) : Bool :=
  s.loan.isNone &&
    match s.dma with
    | .idle => true
    | .inFlight _ o => o == owner

/-- What holds while an operation stands at a wait: the transfer is its own, or at the opening drain an earlier
caller's; a fill keeps the display selected and the line in the data state. -/
def waitOk (p : Phase) (s : State) : Bool :=
  match p with
  | .drain => lentOnly s
  | .pushWait => lentOnly s
  | .fill _ _ _ => s.scratch.isSome && ownOnly .scratch s && s.sel == some .display && s.dc == some .data
  | .scan clock _ _ _ _ _ => s.scratch.isNone && ownOnly .caller s && clock != 0 && s.cfg.depth.isSome

/-- R45 (3) and where a block that is not `Ready` can stand (10 R24, R37, R40): a `Ready` block holds no fill buffer,
and what is in flight is a caller's; an operation in progress stands at one of its waits. -/
def phaseOk (s : State) : Bool :=
  match s.op with
  | none => lentOnly s
  | some (i, p) => standsAt i p && waitOk p s

/-- The block stands inside a calibration scan, whose candidate clock is the host's only in passing (45 R260). -/
def scanning (s : State) : Bool :=
  match s.op with
  | some (_, .scan _ _ _ _ _ _) => true
  | _ => false

/-- Configuration fields hold no value or a legal one (R30, R31, R33); depth and grayscale are written together
(R29). -/
abbrev CfgOk (s : State) : Prop :=
  (scanning s = false → s.clock ≠ some 0) ∧ s.cfg.maxRdclock ≠ some 0 ∧ s.cfg.width ≠ some 0 ∧
    s.cfg.height ≠ some 0 ∧ s.cfg.depth.isSome = s.cfg.gray.isSome

/-- The panel's pixel map has its keys strictly rising. -/
def gramOk (s : State) : Bool :=
  match s.panel with
  | none => true
  | some p => decide (p.gram.Pairwise fun c d => c.1 < d.1)

/-- The invariant every step keeps. -/
abbrev Inv (s : State) : Prop :=
  ParamsOk s.par ∧ RegsOk s ∧ dmaOk s = true ∧ phaseOk s = true ∧ s.inhibit = false ∧ CfgOk s ∧
    Memory.wf s.mem = true ∧ gramOk s = true

/-! ## Reset (10 R44) -/

/-- The block is as a reset leaves it, but for the burst registers, which the spec gives no value. -/
abbrev BlockAtReset (t : State) : Prop :=
  t.bitlen = 0 ∧ t.sel = none ∧ t.dc = none ∧ t.clock = none ∧ t.cfg = ⟨none, none, none, none, none⟩ ∧ t.dma = .idle ∧
    t.scratch = none ∧ t.inhibit = false ∧ t.last = .ok ∧ t.ef = ⟨false, false, false, false⟩ ∧ t.result = none ∧
    t.cnt = ⟨0, 0, 0⟩ ∧ t.op = none ∧ t.trace = []

/-! ## Ranges of host memory -/

/-- The ranges share a byte. -/
abbrev Share (a n b m : Nat) : Prop := ∃ k < m, a ≤ b + k ∧ b + k < a + n

/-- The host owns the byte at an address (20 R61). -/
abbrev OwnsByte (s : State) (x : Nat) : Prop := ∃ r ∈ s.regions, r.base ≤ x ∧ x < r.base + r.size

/-! ## Illegal descriptors (30 R118) -/

/-- The word selects the operation: `w & mask = match` (30 R103 to R115). -/
abbrev Selects (o : Opcode) (w : Word) : Prop := w &&& opcodeMask o = opcodeMatch o

/-- A write the register does not take (10 R29 to R35; 46 R280), by number and bits. -/
abbrev IllegalWrite (reg : Byte) (value : Word) : Prop :=
  0x0A ≤ reg ∨ reg ∈ [(0x01 : Byte), 0x06, 0x07, 0x08, 0x09] ∨
    (reg = 0x00 ∧ value.extractLsb' 2 30 ≠ 0) ∨ ((reg = 0x02 ∨ reg = 0x03) ∧ value = 0) ∨
    ((reg = 0x04 ∨ reg = 0x05) ∧ (value.extractLsb' 16 16 ≠ 0 ∨ value.extractLsb' 0 16 = 0))

/-- A descriptor of its opcode's length is illegal (30 R118): no row of the table is selected by word 0 (an opcode that
names none, or a reserved bit that is 1), or a reserved bit of `PUSH_REP`'s Color word is 1, or a register access that
the register does not take. -/
def IllegalDescriptor (d : List Word) : Prop :=
  (∃ w0 rest, d = w0 :: rest ∧ ∀ o ∈ opcodes, ¬ Selects o w0) ∨
  (∃ w0 w1 w2 rest, d = w0 :: w1 :: w2 :: rest ∧ Selects .pushRep w0 ∧ w1.extractLsb' 24 8 ≠ 0) ∨
  (∃ w0 value rest, d = w0 :: value :: rest ∧ Selects .cfgWr w0 ∧ IllegalWrite (w0.extractLsb' 8 8) value) ∨
  (∃ w0 rest, d = w0 :: rest ∧ Selects .cfgRd w0 ∧ 0x0A ≤ w0.extractLsb' 8 8)

/-! ## What an operation writes -/

/-- Parts of the state an operation's rule may list under "Writes". -/
inductive Part where
  | regs
  | line
  | selection
  | clock
  | config
  | result
  | direct
  | queued
  | bursts
  | memory
  | flagSel
  | flagAlloc
  | flagIllegal
  deriving DecidableEq, Repr

/-- The "Writes" sentences of the operation rules (40 R140, R142, R161, R163, R166; 41 R184; 43 R210, R211, R217;
44 R240, R250; 45 R260; 46 R280, R282). `FIND_MAX_RDCLK` writes the grayscale flag transiently only, so the
configuration is not among the parts it leaves changed (45 R269). -/
def writes : Instr → Part → Bool
  | .select _, p => p ∈ [Part.selection, .flagSel]
  | .deselect _, p => p ∈ [Part.selection, .flagSel]
  | .sendCmd _, p => p ∈ [Part.regs, .line, .bursts]
  | .sendCmdData _ _ _, p => p ∈ [Part.regs, .line, .bursts]
  | .setWindow _, p => p ∈ [Part.regs, .line, .bursts]
  | .pushRep _ count _, p => count ≠ 0 ∧ p ∈ [Part.regs, .line, .bursts, .direct, .queued, .flagAlloc]
  | .pushBuf _ count _, p => count ≠ 0 ∧ p ∈ [Part.regs, .line, .bursts, .direct, .queued]
  | .readPixels _ _ _ _, p => p ∈ [Part.regs, .line, .bursts, .selection, .clock, .memory, .flagSel]
  | .readPixel _ _, p => p ∈ [Part.regs, .line, .bursts, .selection, .clock, .result, .flagSel]
  | .findMaxRdclk, p =>
    p ∈ [Part.regs, .line, .bursts, .direct, .queued, .selection, .clock, .result, .flagSel, .flagAlloc]
  | .wait, _ => false
  | .cfgWr reg _, p => (reg = 0x02 ∧ p = .clock) ∨ (reg ≠ 0x02 ∧ p = .config) ∨ p = .flagIllegal
  | .cfgRd _, p => p ∈ [Part.result, .flagIllegal]

/-- The statuses an operation can end with (60 R297). -/
def statusAllowed : Instr → Status → Bool
  | .select _, st => st != .deselectFail
  | .deselect _, st => st != .selectFail
  | .sendCmd _, st => st != .deselectFail && st != .selectFail
  | .sendCmdData _ _ _, st => st != .deselectFail && st != .selectFail
  | .setWindow _, st => st != .deselectFail && st != .selectFail
  | .pushRep _ _ _, st => st != .deselectFail && st != .selectFail
  | .pushBuf _ _ _, st => st != .deselectFail && st != .selectFail
  | .readPixels _ _ _ _, _ => true
  | .readPixel _ _, _ => true
  | .findMaxRdclk, _ => true
  | .wait, st => st != .deselectFail && st != .selectFail
  | .cfgWr _ _, st => st != .deselectFail && st != .selectFail
  | .cfgRd _, st => st == .ok || st == .illegal

end Sys2Proof.Machine
end

