-- ==== Sys2Proof/Certificates/Slice0/Obligations.lean ====
section
/-! DEFINITION. The statements for the provers. `drained s` is `s` after a drain that ended well (40 R146, R156), the
state every operation but `CFG_RD` and a zero-count push starts from; it is `s` itself, no buffer on loan, when no
transfer is in flight. -/

open Sys2Proof Sys2Proof.Machine

/-! ## Encoding -/

/-- R103, R105, R107, R108, R110, R114 and R118 on written-out descriptors. -/
def Obligations.WrittenDescriptorsDecode : Prop :=
  decode [0x00000101] = .ok (.select .touch) ∧
  decode [0x00002903] = .ok (.sendCmd 0x29) ∧
  decode [0x00000005, 0x012F0010, 0x00EF0000] = .ok (.setWindow ⟨0x0010, 0x012F, 0x0000, 0x00EF⟩) ∧
  decode [0x00000106, 0x0074A8EC, 0x00000002] = .ok (.pushRep ⟨0xEC, 0xA8, 0x74⟩ 2 true) ∧
  decode [0x00000108, 0x00030000, 0x00070004, 0x00000010, 0x00001000] =
    .ok (.readPixels ⟨0, 3, 4, 7⟩ 16 0x1000 true) ∧
  decode [0x0000040C, 0x000000F0] = .ok (.cfgWr 0x04 0xF0) ∧
  decode [0x00010003] = .error (.reservedBit 0x03) ∧
  decode [0x0000000E] = .error (.badOpcode 0x0E)

/-- R102 to R115: every operation, with every operand at every value its field admits, is read back from its own
descriptor, whatever words follow it (R101). -/
def Obligations.DecodeInvertsEncode : Prop :=
  ∀ (i : Instr) (extra : List Word), decode (encode i ++ extra) = .ok i

/-- R101, R102, R119: an operation has one descriptor. No bit of a descriptor that decodes is free. -/
def Obligations.OperationHasOneDescriptor : Prop :=
  ∀ (d : List Word) (i : Instr), decode d = .ok i → ∃ extra, d = encode i ++ extra

/-- R118: an illegal descriptor is rejected, and nothing changes but `last` and `EF_ILLEGAL`. -/
def Obligations.IllegalDescriptorRejected : Prop :=
  ∀ (d : List Word) (s : State), IllegalDescriptor d → s.op = none →
    runDescriptor d s =
      .next { s with last := .illegal, ef := { s.ef with illegal := true } }

/-! ## Reset and the step -/

/-- 10 R44 but for the burst registers (which the spec gives no value): what reset leaves. -/
def Obligations.ResetLeavesSpecValues : Prop :=
  State.reset.bitlen = 0 ∧ State.reset.sel = none ∧ State.reset.dc = none ∧ State.reset.clock = none ∧
  State.reset.cfg = ⟨none, none, none, none, none⟩ ∧ State.reset.dma = .idle ∧ State.reset.scratch = none ∧
  State.reset.inhibit = false ∧ State.reset.last = .ok ∧ State.reset.ef = ⟨false, false, false, false⟩ ∧
  State.reset.result = none ∧ State.reset.cnt = ⟨0, 0, 0⟩ ∧ State.reset.op = none ∧ State.reset.trace = [] ∧
  statusWord State.reset = 0

/-- The invariant holds after reset. Its clauses on memory and parameters are about the model's choices (logs 1, 15). -/
def Obligations.ResetSatisfiesInvariant : Prop := Inv State.reset

/-- 10 R45 and R20, R21, R29 to R33, R37, R38 on every step: whatever the host does and the environment answers, a step
from a state with the invariant gives a state with the invariant. Where an operation can stand between steps, that the
transfer of a `Ready` block is a caller's with its buffer lent, and the canonical form of memory are the model's (logs
11, 15, 17). -/
def Obligations.StepKeepsInvariant : Prop :=
  ∀ s t : State, Inv s → step s = .next t → Inv t

/-- 10 R24, 40 R145: where the host's next action is a descriptor of operation `i` and the block is `Ready`, the step is
`i`, after the DMA engine's turn; or, where `i` meets a wait on the DMA engine and the environment says that others act
meanwhile, `i` up to that wait (`nextWait`). The host's list, the turn and that draw are the model's (logs 11, 12,
13). -/
def Obligations.StepRunsDecodedOperation : Prop :=
  ∀ (s s1 : State) (d : List Word) (rest : List HostAct) (i : Instr),
    s.host = .issue d :: rest → s.op = none → decode d = .ok i →
    s1 = { dmaTurn s with host := rest, op := some (i, .drain) } →
      (nextWait i .drain { s1 with env := popHold s1.env } = none → step s = exec i s1) ∧
      ∀ q t, nextWait i .drain { s1 with env := popHold s1.env } = some (q, t) →
        (nextHold s1.env = false → step s = exec i { s1 with env := popHold s1.env }) ∧
        (nextHold s1.env = true → step s = .next { t with op := some (i, q) })

/-- The steps whose action is no legal descriptor, on a `Ready` block: with nothing to do the block waits; a store, a
freeing and a claim are the host's own, and so is a new format of the panel with nothing in flight; an illegal
descriptor is rejected (30 R118). The list of actions and the turn are the model's (logs 12, 13), and so are the format
and the claim (logs 34, 35). -/
def Obligations.OtherHostActions : Prop :=
  ∀ (s s1 : State) (rest : List HostAct), s.op = none → s1 = { dmaTurn s with host := rest } →
    (s.host = [] → step s = .next (dmaTurn s)) ∧
    (∀ addr bytes, s.host = .store addr bytes :: rest → step s = hostStore addr.toNat bytes s1) ∧
    (∀ addr len, s.host = .free addr len :: rest → step s = hostFree addr.toNat len.toNat s1) ∧
    (∀ addr len dma, s.host = .claim addr len dma :: rest → step s = hostClaim addr.toNat len.toNat dma s1) ∧
    (∀ fmt, s.host = .panelFormat fmt :: rest → (dmaTurn s).dma = .idle → step s =
      .next { s1 with panel := (dmaTurn s).panel.map fun p => { p with fmt := fmt, arg := [] } }) ∧
    ∀ d, s.host = .issue d :: rest → IllegalDescriptor d → step s =
      .next { s1 with last := .illegal, ef := { s.ef with illegal := true } }

/-- 40 R156: in its turn the DMA engine completes the transfer, all bytes in one run, or leaves everything to a later
step; with none in flight it does nothing. That it has one turn in each step is the model's (log 13). -/
def Obligations.DmaTurnCompletesOrWaits : Prop :=
  ∀ s : State,
    (s.dma = .idle → dmaTurn s = s) ∧
    ∀ bs o, s.dma = .inFlight bs o →
      (nextTurn s.env = true → dmaTurn s =
        { s with
          dma := .idle
          env := popTurn s.env
          trace := s.trace ++ (dataRun bs ++ [.dmaDone])
          panel := panelAfter s (atData bs) }) ∧
      (nextTurn s.env = false → dmaTurn s = { s with env := popTurn s.env })

/-- 20 R70, R74; 70 R332: a host store, freeing or claim has no meaning while an operation is in progress, nor where it
shares a byte with the buffer the DMA agent owns; any other inside the address space has its effect: a store writes its
bytes and no other byte, a freeing takes its bytes, and no other, from what the host owns, a claim adds its bytes.
Ownership as a list of regions, and that an access to bytes the host does not own has its effect, are the model's (logs
16, 17, 35). -/
def Obligations.HostStoreRespectsLoan : Prop :=
  ∀ (addr len : Nat) (bytes : List Byte) (dma : Bool) (s : State), Memory.wf s.mem = true →
    addr + len ≤ 2 ^ s.par.addrBits → len = bytes.length →
    (s.op ≠ none → hostStore addr bytes s = .refused .hostBlocked ∧ hostFree addr len s = .refused .hostBlocked ∧
      hostClaim addr len dma s = .refused .hostBlocked) ∧
    (∀ a n, s.op = none → s.loan = some (a, n) → Share a n addr len →
      hostStore addr bytes s = .refused .bufferOnLoan ∧ hostFree addr len s = .refused .bufferOnLoan ∧
        hostClaim addr len dma s = .refused .bufferOnLoan) ∧
    (s.op = none → (∀ a n, s.loan = some (a, n) → ¬ Share a n addr len) →
      (∃ m, hostStore addr bytes s = .next { s with mem := m } ∧
        (∀ k < len, readByte m (addr + k) = bytes.getD k 0) ∧
        ∀ c, c < addr ∨ addr + len ≤ c → readByte m c = readByte s.mem c) ∧
      (∃ r, hostFree addr len s = .next { s with regions := r } ∧
        ∀ x, OwnsByte { s with regions := r } x ↔ OwnsByte s x ∧ ¬ (addr ≤ x ∧ x < addr + len)) ∧
      ∃ r, hostClaim addr len dma s = .next { s with regions := r } ∧
        ∀ x, OwnsByte { s with regions := r } x ↔ OwnsByte s x ∨ addr ≤ x ∧ x < addr + len)

/-- 70 R320, R322: a reset puts the block's fields at their reset values, and does not touch host memory, nor, with no
transfer in flight, the panel's memory, window and format. The burst registers' value is the model's (log 5), and so is
that a lent buffer is the host's again (log 33). -/
def Obligations.BlockResetTouchesTheBlockOnly : Prop :=
  ∀ (s : State) (rest : List HostAct), s.host = .reset :: rest → s.op = none →
    ∃ t, step s = .next t ∧ BlockAtReset t ∧ t.host = rest ∧ t.mem = s.mem ∧ t.par = s.par ∧ t.loan = none ∧
      (s.dma = .idle → t.panel.map Panel.gram = s.panel.map Panel.gram ∧
        t.panel.map Panel.cols = s.panel.map Panel.cols ∧ t.panel.map Panel.rows = s.panel.map Panel.rows ∧
        t.panel.map Panel.fmt = s.panel.map Panel.fmt)

/-! ## Selection -/

/-- 40 R141: the four cases of `Select`. -/
def Obligations.SelectOutcomes : Prop :=
  ∀ (d : Dev) (s : State), WaitCompletes s →
    (s.sel = some d → exec (.select d) s = .next { drained s with last := .ok, op := none }) ∧
    (s.sel = none → nextAck (drained s).env = true →
      exec (.select d) s = .next
        { drained s with
          env := popAck (drained s).env
          sel := some d
          trace := (drained s).trace ++ [.sel d]
          last := .ok
          op := none }) ∧
    (s.sel = none → nextAck (drained s).env = false →
      exec (.select d) s = .next
        { drained s with
          env := popAck (drained s).env
          ef := { s.ef with sel := true }
          last := .selectFail
          op := none }) ∧
    (∀ e, s.sel = some e → e ≠ d → exec (.select d) s = .refused .wrongSelection)

/-- 40 R142, R143: the four cases of `Deselect`; a deselected panel forgets its command and arguments and keeps the rest
(20 R85, R90, over the panel of log 8). -/
def Obligations.DeselectOutcomes : Prop :=
  ∀ (d : Dev) (s : State), WaitCompletes s →
    (s.sel = none → exec (.deselect d) s = .next { drained s with last := .ok, op := none }) ∧
    (s.sel = some d → nextAck (drained s).env = true →
      exec (.deselect d) s = .next
        { drained s with
          env := popAck (drained s).env
          sel := none
          trace := (drained s).trace ++ [.desel d]
          panel := if d = .display then (drained s).panel.map (fun p => { p with cmd := none, arg := [] })
            else (drained s).panel
          last := .ok
          op := none }) ∧
    (s.sel = some d → nextAck (drained s).env = false →
      exec (.deselect d) s = .next
        { drained s with
          env := popAck (drained s).env
          ef := { s.ef with sel := true }
          last := .deselectFail
          op := none }) ∧
    (∀ e, s.sel = some e → e ≠ d → exec (.deselect d) s = .refused .wrongSelection)

/-- 40 R147: the five bus-using operations have no meaning unless the display is selected. A push of no pixels is none
of them (43 R217). -/
def Obligations.BusOperationsNeedDisplay : Prop :=
  ∀ s : State, WaitCompletes s → s.sel ≠ some .display →
    (∀ cmd, exec (.sendCmd cmd) s = .refused .wrongSelection) ∧
    (∀ cmd addr length, exec (.sendCmdData cmd addr length) s = .refused .wrongSelection) ∧
    (∀ w, exec (.setWindow w) s = .refused .wrongSelection) ∧
    (∀ color count wait, count ≠ 0 → exec (.pushRep color count wait) s = .refused .wrongSelection) ∧
    (∀ addr count wait, count ≠ 0 → exec (.pushBuf addr count wait) s = .refused .wrongSelection)

/-! ## The drain -/

/-- 40 R166: `WAIT` is the drain and nothing else. -/
def Obligations.WaitIsTheDrain : Prop :=
  ∀ s : State, WaitCompletes s → exec .wait s = .next { drained s with last := .ok, op := none }

/-- 40 R145 (2), R157; 60 R293: in every operation that drains, a drain that times out ends the operation: a prefix of
the transfer is on the wire, the transfer is abandoned, the flag and the status are set, and of the rest of the block
nothing changes. A drawn length is at most the transfer's (log 14). -/
def Obligations.DrainTimeoutEndsOperation : Prop :=
  ∀ (i : Instr) (s : State) (bs : List Byte) (o : DmaOwner) (k : Nat),
    drains i = true → s.dma = .inFlight bs o → nextEnd s.env = some k →
      ∃ t, exec i s = .next t ∧ t.last = .dmaTimeout ∧ t.ef = { s.ef with dmaTo := true } ∧ t.dma = .idle ∧
        t.loan = none ∧ t.op = none ∧
        t.trace = s.trace ++ (dataRun (bs.take k) ++ [.dmaAbort (min k bs.length)]) ∧
        t.w = s.w ∧ t.bitlen = s.bitlen ∧ t.sel = s.sel ∧ t.dc = s.dc ∧ t.clock = s.clock ∧ t.cfg = s.cfg ∧
        t.cnt = s.cnt ∧ t.scratch = s.scratch ∧ t.inhibit = s.inhibit

/-- 20 R72, 40 R146: an operation that drains, run from its start or taken up at a wait (log 11), ends with no transfer
in flight, but for a `PUSH_BUF` that does not wait; an operation that does not drain leaves the transfer as it is. -/
def Obligations.DrainingOperationsEndIdle : Prop :=
  ∀ (i : Instr) (p : Phase) (s t : State), 0 < s.par.nwords → Ends i p s t →
    (drains i = true → t.dma = .idle ∨ ∃ addr count, i = .pushBuf addr count false) ∧
    (drains i = false → t.dma = s.dma ∧ t.trace = s.trace)

/-! ## Commands, data and windows -/

/-- 20 R63 (a), (b); 10 R22; 40 R152: the bytes of a loaded stream stand in the registers in stream order from the least
significant byte of `W[0]` up, the bytes after them in a partly filled register are zero, and registers beyond keep
their values. -/
def Obligations.PackingIsLittleEndianFirst : Prop :=
  ∀ (w : List Word) (bs : List Byte), bs.length ≤ 4 * w.length →
    (loadWords w bs).length = w.length ∧
    (∀ k < bs.length, byteOf (loadWords w bs) k = bs.getD k 0) ∧
    (∀ k, bs.length ≤ k → k < 4 * ((bs.length + 3) / 4) → byteOf (loadWords w bs) k = 0) ∧
    ∀ j, (bs.length + 3) / 4 ≤ j → (loadWords w bs)[j]? = w[j]?

/-- 30 R121, 40 R152: the bursts of a payload carry it in order, all full but the last, as many as the quotient rounded
up. -/
def Obligations.BurstsCutThePayload : Prop :=
  ∀ (p : Config.Params) (bs : List Byte), 0 < p.nwords →
    (burstChunks p bs).flatten = bs ∧
    (burstChunks p bs).length = (8 * bs.length + directMaxBits p - 1) / directMaxBits p ∧
    (∀ c ∈ burstChunks p bs, c ≠ [] ∧ 8 * c.length ≤ directMaxBits p) ∧
    ∀ c ∈ (burstChunks p bs).dropLast, 8 * c.length = directMaxBits p

/-- 40 R161, R160: `SEND_CMD` sends one command frame, whole state. -/
def Obligations.SendCmdSendsOneFrame : Prop :=
  ∀ (cmd : Byte) (s : State), WaitCompletes s → s.sel = some .display → PanelTakes cmd 0 (drained s) →
    exec (.sendCmd cmd) s = .next
      { drained s with
        dc := some .command
        w := cmd.zeroExtend 32 :: s.w.drop 1
        bitlen := 8
        cnt := { s.cnt with burst := s.cnt.burst + 1 }
        trace := (drained s).trace ++ [.tx .command cmd, .burstTx 8]
        panel := panelAfter (drained s) [(.command, cmd)]
        last := .ok
        op := none }

/-- 40 R164 (1): an empty payload makes `SEND_CMD_DATA` the same as `SEND_CMD`. -/
def Obligations.EmptyPayloadIsSendCmd : Prop :=
  ∀ (cmd : Byte) (addr : Word) (s : State), exec (.sendCmdData cmd addr 0) s = exec (.sendCmd cmd) s

/-- 40 R163: `SEND_CMD_DATA` sends the command frame and the payload's data frame, whole state. -/
def Obligations.SendCmdDataSendsFrames : Prop :=
  ∀ (cmd : Byte) (addr length : Word) (s : State), 0 < s.par.nwords → WaitCompletes s → s.sel = some .display →
    length ≠ 0 → BufferOwned addr.toNat length.toNat s → PanelTakes cmd length.toNat (drained s) →
    exec (.sendCmdData cmd addr length) s = .next
      { drained s with
        dc := some .data
        w := (burstChunks s.par (memRead s.mem addr.toNat length.toNat)).foldl loadWords
          (cmd.zeroExtend 32 :: s.w.drop 1)
        bitlen := (burstChunks s.par (memRead s.mem addr.toNat length.toNat)).foldl (fun _ c => 8 * c.length) 8
        cnt :=
          { s.cnt with
            burst := s.cnt.burst + 1 +
              BitVec.ofNat 32 (burstChunks s.par (memRead s.mem addr.toNat length.toNat)).length }
        trace := (drained s).trace ++ ([.tx .command cmd, .burstTx 8] ++
          dataFrame s.par (memRead s.mem addr.toNat length.toNat))
        panel := panelAfter (drained s) ((.command, cmd) :: atData (memRead s.mem addr.toNat length.toNat))
        last := .ok
        op := none }

/-- 41 R184, R180, R181, R183: `SET_WINDOW` sends the window frame, whole state. -/
def Obligations.SetWindowSendsFrame : Prop :=
  ∀ (w : Window) (s : State), 0 < s.par.nwords → WaitCompletes s → s.sel = some .display → WindowFits w s →
    exec (.setWindow w) s = .next
      { drained s with
        dc := some .data
        w := packWord (w.rs.extractLsb' 8 8) (w.rs.extractLsb' 0 8) (w.re.extractLsb' 8 8) (w.re.extractLsb' 0 8) ::
          s.w.drop 1
        bitlen := 32
        cnt := { s.cnt with burst := s.cnt.burst + 4 }
        inhibit := if s.par.preemptGuard then false else s.inhibit
        trace := (drained s).trace ++ windowTrace s.par w
        panel := panelAfter (drained s) (windowBytes s.par w)
        last := .ok
        op := none }

/-- 41 R182: a window with a start above its end, or one that reaches outside the set dimensions, has no meaning, in
`SET_WINDOW` and in `READ_PIXELS`. -/
def Obligations.BadWindowHasNoMeaning : Prop :=
  ∀ (w : Window) (s t : State), ¬ WindowFits w s → WaitCompletes s →
    exec (.setWindow w) s ≠ .next t ∧ ∀ count addr adapt, exec (.readPixels w count addr adapt) s ≠ .next t

/-! ## Colours -/

/-- 42 R190, R191: the luminance is the floor of the weighted sum, the same on all channels, never above 254; a grey
that is already grey loses one level, black excepted. -/
def Obligations.GrayscaleFacts : Prop :=
  ∀ c : Color,
    (gray c).r.toNat = (2989 * c.r.toNat + 4870 * c.g.toNat + 2140 * c.b.toNat) / 10000 ∧
    (gray c).g = (gray c).r ∧ (gray c).b = (gray c).r ∧ (gray c).r.toNat ≤ 254 ∧
    ∀ l : Byte, gray ⟨l, l, l⟩ = ⟨l - BitVec.ofNat 8 (min 1 l.toNat), l - BitVec.ofNat 8 (min 1 l.toNat),
      l - BitVec.ofNat 8 (min 1 l.toNat)⟩

/-- 42 R198: the round trip of both packings, up to the bits the mode discards. -/
def Obligations.PackingRoundTrips : Prop :=
  ∀ c : Color,
    (∃ h l, pack565 c = [h, l] ∧ maskEq .d16 (unpack565 h l) c = true) ∧
    ∃ r g b, pack888 c = [r, g, b] ∧ unpack888 r g b = c

/-! ## Pushes -/

/-- 43 R217: a push of no pixels does nothing at all, in every state. -/
def Obligations.ZeroCountPushDoesNothing : Prop :=
  ∀ (s : State) (color : Color) (addr : Word) (wait : Bool),
    exec (.pushRep color 0 wait) s = .next { s with last := .ok, op := none } ∧
    exec (.pushBuf addr 0 wait) s = .next { s with last := .ok, op := none }

/-- 43 R210, R214: `PUSH_REP` on the direct path, whole state. -/
def Obligations.PushRepGoesDirect : Prop :=
  ∀ (color : Color) (count : Word) (wait : Bool) (s : State) (m : Depth) (g : Bool),
    WaitCompletes s → s.sel = some .display → s.cfg.depth = some m → s.cfg.gray = some g → count ≠ 0 →
    count.toNat * depthBits m ≤ directMaxBits s.par → PanelTakesPush m count.toNat (drained s) →
    exec (.pushRep color count wait) s = .next
      { drained s with
        dc := some .data
        w := loadWords (s.par.cmdRamwr.zeroExtend 32 :: s.w.drop 1) (repeatBytes (wireBytes m g color) count.toNat)
        bitlen := count.toNat * depthBits m
        cnt := { s.cnt with direct := s.cnt.direct + 1, burst := s.cnt.burst + 2 }
        trace := (drained s).trace ++ ([.tx .command s.par.cmdRamwr, .burstTx 8] ++
          dataRun (repeatBytes (wireBytes m g color) count.toNat) ++ [.burstTx (count.toNat * depthBits m)])
        panel := panelAfter (drained s)
          ((.command, s.par.cmdRamwr) :: atData (repeatBytes (wireBytes m g color) count.toNat))
        last := .ok
        op := none }

/-- 43 R211, R214: `PUSH_BUF` on the direct path, whole state. -/
def Obligations.PushBufGoesDirect : Prop :=
  ∀ (addr count : Word) (wait : Bool) (s : State) (m : Depth) (g : Bool),
    WaitCompletes s → s.sel = some .display → s.cfg.depth = some m → s.cfg.gray = some g → count ≠ 0 →
    count.toNat * depthBits m ≤ directMaxBits s.par → BufferOwned addr.toNat (3 * count.toNat) s →
    PanelTakesPush m count.toNat (drained s) →
    exec (.pushBuf addr count wait) s = .next
      { drained s with
        dc := some .data
        w := loadWords (s.par.cmdRamwr.zeroExtend 32 :: s.w.drop 1)
          (wireStream m g (readColors addr.toNat count.toNat s))
        bitlen := count.toNat * depthBits m
        cnt := { s.cnt with direct := s.cnt.direct + 1, burst := s.cnt.burst + 2 }
        trace := (drained s).trace ++ ([.tx .command s.par.cmdRamwr, .burstTx 8] ++
          dataRun (wireStream m g (readColors addr.toNat count.toNat s)) ++ [.burstTx (count.toNat * depthBits m)])
        panel := panelAfter (drained s)
          ((.command, s.par.cmdRamwr) :: atData (wireStream m g (readColors addr.toNat count.toNat s)))
        last := .ok
        op := none }

/-- 43 R215, R216: `PUSH_BUF` without `wait` on the DMA path returns with the transfer queued and the buffer lent
(20 R70), whole state. The loan is the model's record of the ownership (log 17). -/
def Obligations.PushBufQueuesTransfer : Prop :=
  ∀ (addr count : Word) (s : State) (m : Depth) (g : Bool),
    WaitCompletes s → s.sel = some .display → s.cfg.depth = some m → s.cfg.gray = some g → count ≠ 0 →
    directMaxBits s.par < count.toNat * depthBits m → BufferOwned addr.toNat (3 * count.toNat) s →
    BufferDmaCapable addr.toNat (3 * count.toNat) s → PanelTakesPush m count.toNat (drained s) →
    exec (.pushBuf addr count false) s = .next
      { drained s with
        dc := some .data
        w := s.par.cmdRamwr.zeroExtend 32 :: s.w.drop 1
        bitlen := 8
        cnt := { s.cnt with dma := s.cnt.dma + 1, burst := s.cnt.burst + 1 }
        trace := (drained s).trace ++ [.tx .command s.par.cmdRamwr, .burstTx 8, .dmaQ (count.toNat * depthBytes m)]
        panel := panelAfter (drained s) [(.command, s.par.cmdRamwr)]
        dma := .inFlight (wireStream m g (readColors addr.toNat count.toNat s)) .caller
        loan := some (addr.toNat, 3 * count.toNat)
        last := .ok
        op := none }

/-- 43 R211, R216; 40 R157, R158: `PUSH_BUF` with `wait` on the DMA path ends with the transfer complete, or with the
timeout and a prefix of the payload on the wire. A drawn length is at most the transfer's (log 14). -/
def Obligations.PushBufAwaitsTransfer : Prop :=
  ∀ (addr count : Word) (s : State) (m : Depth) (g : Bool) (payload : List Byte),
    WaitCompletes s → s.sel = some .display → s.cfg.depth = some m → s.cfg.gray = some g → count ≠ 0 →
    directMaxBits s.par < count.toNat * depthBits m → BufferOwned addr.toNat (3 * count.toNat) s →
    BufferDmaCapable addr.toNat (3 * count.toNat) s → PanelTakesPush m count.toNat (drained s) →
    payload = wireStream m g (readColors addr.toNat count.toNat s) →
    (nextEnd (drained s).env = none →
      exec (.pushBuf addr count true) s = .next
        { drained s with
          dc := some .data
          w := s.par.cmdRamwr.zeroExtend 32 :: s.w.drop 1
          bitlen := 8
          cnt := { s.cnt with dma := s.cnt.dma + 1, burst := s.cnt.burst + 1 }
          env := popEnd (drained s).env
          trace := (drained s).trace ++ ([.tx .command s.par.cmdRamwr, .burstTx 8, .dmaQ payload.length] ++
            dataRun payload ++ [.dmaDone])
          panel := panelAfter (drained s) ((.command, s.par.cmdRamwr) :: atData payload)
          last := .ok
          op := none }) ∧
    ∀ k, nextEnd (drained s).env = some k →
      exec (.pushBuf addr count true) s = .next
        { drained s with
          dc := some .data
          w := s.par.cmdRamwr.zeroExtend 32 :: s.w.drop 1
          bitlen := 8
          cnt := { s.cnt with dma := s.cnt.dma + 1, burst := s.cnt.burst + 1 }
          env := popEnd (drained s).env
          ef := { s.ef with dmaTo := true }
          trace := (drained s).trace ++ ([.tx .command s.par.cmdRamwr, .burstTx 8, .dmaQ payload.length] ++
            dataRun (payload.take k) ++ [.dmaAbort (min k payload.length)])
          panel := panelAfter (drained s) ((.command, s.par.cmdRamwr) :: atData (payload.take k))
          last := .dmaTimeout
          op := none }

/-- 43 R218, R220, R221: `PUSH_REP` above the threshold, the buffer obtained and no wait timed out: as many transfers as
the pixels fill buffers of `P = min(count, 2 * width)` pixels, all full but the last, and the buffer released. -/
def Obligations.PushRepFillsByDma : Prop :=
  ∀ (color : Color) (count : Word) (wait : Bool) (s : State) (m : Depth) (g : Bool) (width : Half) (P N : Nat),
    WaitCompletes s → s.sel = some .display → s.cfg.depth = some m → s.cfg.gray = some g → s.cfg.width = some width →
    width ≠ 0 → directMaxBits s.par < count.toNat * depthBits m → PanelTakesPush m count.toNat (drained s) →
    nextAlloc (drained s).env = true → P = min count.toNat (2 * width.toNat) → N = (count.toNat + P - 1) / P →
    NoTimeouts N (drained s) →
    ∃ e, exec (.pushRep color count wait) s = .next
      { drained s with
        dc := some .data
        w := s.par.cmdRamwr.zeroExtend 32 :: s.w.drop 1
        bitlen := 8
        cnt := { s.cnt with dma := s.cnt.dma + BitVec.ofNat 32 N, burst := s.cnt.burst + 1 }
        env := e
        scratch := none
        trace := (drained s).trace ++ ([.tx .command s.par.cmdRamwr, .burstTx 8] ++
          (List.replicate (N - 1) (dmaFrame (repeatBytes (wireBytes m g color) P))).flatten ++
          dmaFrame (repeatBytes (wireBytes m g color) (count.toNat - P * (N - 1))))
        panel := panelAfter (drained s)
          ((.command, s.par.cmdRamwr) :: atData (repeatBytes (wireBytes m g color) count.toNat))
        last := .ok
        op := none }

/-- 43 R219, 60 R294: where the fill buffer is not obtained the push ends with `ST_OK`, the command frame sent, no pixel
sent and `EF_ALLOC` set. -/
def Obligations.PushRepAbortsSilently : Prop :=
  ∀ (color : Color) (count : Word) (wait : Bool) (s : State) (m : Depth) (g : Bool) (width : Half),
    WaitCompletes s → s.sel = some .display → s.cfg.depth = some m → s.cfg.gray = some g → s.cfg.width = some width →
    width ≠ 0 → directMaxBits s.par < count.toNat * depthBits m → PanelTakesPush m count.toNat (drained s) →
    nextAlloc (drained s).env = false →
    exec (.pushRep color count wait) s = .next
      { drained s with
        dc := some .data
        w := s.par.cmdRamwr.zeroExtend 32 :: s.w.drop 1
        bitlen := 8
        cnt := { s.cnt with burst := s.cnt.burst + 1 }
        env := popAlloc (drained s).env
        ef := { s.ef with alloc := true }
        trace := (drained s).trace ++ [.tx .command s.par.cmdRamwr, .burstTx 8]
        panel := panelAfter (drained s) [(.command, s.par.cmdRamwr)]
        last := .ok
        op := none }

/-- 43 R213, R225; 60 R306: which path a push takes shows in the counters: the direct counter goes up by one exactly at
or below the threshold, where no transfer is queued; above it `PUSH_BUF` queues one transfer. -/
def Obligations.PathShowsInCounters : Prop :=
  ∀ (s t : State) (m : Depth), WaitCompletes s → s.cfg.depth = some m →
    (∀ color count wait, count ≠ 0 → exec (.pushRep color count wait) s = .next t →
      (count.toNat * depthBits m ≤ directMaxBits s.par →
        t.cnt.direct = s.cnt.direct + 1 ∧ t.cnt.dma = s.cnt.dma ∧ t.cnt.burst = s.cnt.burst + 2) ∧
      (directMaxBits s.par < count.toNat * depthBits m →
        t.cnt.direct = s.cnt.direct ∧ t.cnt.burst = s.cnt.burst + 1)) ∧
    ∀ addr count wait, count ≠ 0 → exec (.pushBuf addr count wait) s = .next t →
      (count.toNat * depthBits m ≤ directMaxBits s.par →
        t.cnt.direct = s.cnt.direct + 1 ∧ t.cnt.dma = s.cnt.dma ∧ t.cnt.burst = s.cnt.burst + 2) ∧
      (directMaxBits s.par < count.toNat * depthBits m →
        t.cnt.direct = s.cnt.direct ∧ t.cnt.dma = s.cnt.dma + 1 ∧ t.cnt.burst = s.cnt.burst + 1)

/-- 43 R212, 30 R123: on every path, direct, DMA or fill, a push that completed has put the same bytes on the wire: the
memory-write command, then the wire bytes of its Colors in order. -/
def Obligations.WireIsTheSameOnEveryPath : Prop :=
  ∀ (s t : State) (m : Depth) (g : Bool), WaitCompletes s → s.cfg.depth = some m → s.cfg.gray = some g → t.last = .ok →
    t.dma = .idle →
    (∀ color count wait, count ≠ 0 → exec (.pushRep color count wait) s = .next t →
      (count.toNat * depthBits m ≤ directMaxBits s.par ∨ nextAlloc (drained s).env = true) →
      wireProjection t.trace = wireProjection (drained s).trace ++
        .tx .command s.par.cmdRamwr :: dataRun (wireStream m g (List.replicate count.toNat color))) ∧
    ∀ addr count wait, count ≠ 0 → exec (.pushBuf addr count wait) s = .next t →
      wireProjection t.trace = wireProjection (drained s).trace ++
        .tx .command s.par.cmdRamwr :: dataRun (wireStream m g (readColors addr.toNat count.toNat s))

/-- 10 R37; 43 R221, R222: on every exit of `PUSH_REP`, run from its start or taken up at a wait (log 11), the fill
buffer is released and no transfer is in flight. -/
def Obligations.PushRepReleasesItsBuffer : Prop :=
  ∀ (color : Color) (count : Word) (wait : Bool) (p : Phase) (s t : State), count ≠ 0 →
    s.scratch = none ∨ (∃ buffer b rest, p = .fill buffer b rest) → Ends (.pushRep color count wait) p s t →
      t.scratch = none ∧ t.dma = .idle ∧ t.loan = none ∧ (t.last = .ok ∨ t.last = .dmaTimeout)

/-! ## Reads -/

/-- 44 R240, R242, R245, R247, R248: `READ_PIXELS` where every acknowledge comes: the events in order, the received
bytes in host memory, dummy byte first, the display deselected. -/
def Obligations.ReadPixelsStoresReceivedBytes : Prop :=
  ∀ (w : Window) (count addr : Word) (adapt : Bool) (s : State), 0 < s.par.nwords → WaitCompletes s →
    AcksNext 3 (drained s) → s.sel ≠ some .touch → (adapt = true → s.clock ≠ none ∧ s.cfg.maxRdclock ≠ none) →
    WindowFits w s → BufferOwned addr.toNat (3 * count.toNat + 1) s → PanelGives w count.toNat (drained s) →
    ∃ cs t, exec (.readPixels w count addr adapt) s = .next t ∧
      cs.map List.length = burstSizes s.par (3 * count.toNat + 1) ∧ cs.flatten.length = 3 * count.toNat + 1 ∧
      t.mem = memWrite s.mem addr.toNat cs.flatten ∧
      t.trace = (drained s).trace ++ (readOpening s.par (readClocks adapt s) s.sel ++ windowTrace s.par w ++
        commandFrame s.par.cmdRamrd ++ receiveRun cs ++ readClosing s.par (readClocks adapt s)) ∧
      t.last = .ok ∧ t.op = none ∧ t.sel = none ∧ t.dc = some .command ∧ t.clock = readClock (readClocks adapt s) s ∧
      t.cnt = { s.cnt with burst := s.cnt.burst + (5 + BitVec.ofNat 32 cs.length) } ∧
      t.ef = s.ef ∧ t.dma = .idle ∧ t.cfg = s.cfg ∧ t.result = s.result ∧ t.scratch = s.scratch ∧
      t.regions = s.regions ∧ t.par = s.par ∧ t.host = s.host

/-- 44 R243: `READ_PIXELS` and `READ_PIXEL` leave the clock as they found it on every path, where the clock generator
gives the entry clock back when asked for it (the restore is a `SetClock`, R240; log 3). -/
def Obligations.ReadsRestoreTheClock : Prop :=
  ∀ s t : State, 0 < s.par.nwords → (∀ hz, s.clock = some hz → quantise s.par hz = hz) →
    (∀ w count addr adapt, exec (.readPixels w count addr adapt) s = .next t → t.clock = s.clock) ∧
    ∀ x y, exec (.readPixel x y) s = .next t → t.clock = s.clock

/-- 44 R241, R245; 60 R301 (1): how a read ends and what is selected then. -/
def Obligations.ReadsEndDeselected : Prop :=
  ∀ (i : Instr) (s t : State), 0 < s.par.nwords →
    ((∃ w count addr adapt, i = .readPixels w count addr adapt) ∨ ∃ x y, i = .readPixel x y) →
    exec i s = .next t → WaitCompletes s →
      (t.last = .ok → t.sel = none ∧ t.ef = s.ef) ∧
      (t.last = .selectFail → t.sel = none ∧ t.ef = { s.ef with sel := true }) ∧
      (t.last = .deselectFail → t.sel = some .display ∧ t.ef = { s.ef with sel := true }) ∧
      (t.last = .ok ∨ t.last = .selectFail ∨ t.last = .deselectFail)

/-- 44 R250: `READ_PIXEL` where every acknowledge comes: four bytes received, the first dropped, the others in
`result`, and host memory untouched. -/
def Obligations.ReadPixelReturnsColor : Prop :=
  ∀ (x y : Half) (s : State), 0 < s.par.nwords → WaitCompletes s → AcksNext 3 (drained s) → s.sel ≠ some .touch →
    s.clock ≠ none → s.cfg.maxRdclock ≠ none → x.toNat + s.par.rspExt ≤ 0xFFFF → y.toNat + s.par.rspExt ≤ 0xFFFF →
    WindowFits (pixelWindow x y s) s → PanelGives (pixelWindow x y s) 1 (drained s) →
    ∃ (dummy r g b : Byte) (t : State), exec (.readPixel x y) s = .next t ∧
      t.result = some (r.zeroExtend 32 ||| g.zeroExtend 32 <<< 8 ||| b.zeroExtend 32 <<< 16) ∧
      t.trace = (drained s).trace ++ (readOpening s.par (readClocks true s) s.sel ++
        windowTrace s.par (pixelWindow x y s) ++ commandFrame s.par.cmdRamrd ++
        [.rx dummy, .rx r, .rx g, .rx b, .burstRx 32] ++ readClosing s.par (readClocks true s)) ∧
      t.last = .ok ∧ t.op = none ∧ t.sel = none ∧ t.dc = some .command ∧ t.clock = readClock (readClocks true s) s ∧
      t.cnt = { s.cnt with burst := s.cnt.burst + 6 } ∧ t.ef = s.ef ∧ t.dma = .idle ∧ t.mem = s.mem ∧ t.cfg = s.cfg

/-- 44 R250: `result` holds a value after `READ_PIXEL` exactly when its status is `ST_OK`. -/
def Obligations.ReadPixelResultMeansOk : Prop :=
  ∀ (x y : Half) (s t : State), 0 < s.par.nwords → exec (.readPixel x y) s = .next t →
    (t.result.isSome = true ↔ t.last = .ok)

/-! ## The reference panel -/

/-- 20 R82, R83: the window frame sets the panel's window, and the memory-write command goes to its first pixel. The
four command bytes differ, as 00 R8's parameters must. -/
def Obligations.PanelTakesTheWindow : Prop :=
  ∀ (par : Config.Params) (w : Window) (p : Panel), ParamsOk par →
    ∃ q, panelHears par (windowBytes par w ++ [(.command, par.cmdRamwr)]) p = q ∧
      q.cols = some (w.cs, w.ce) ∧ q.rows = some (w.rs, w.re) ∧ q.cur = some (w.cs.toNat, w.rs.toNat) ∧
      q.cmd = some par.cmdRamwr ∧ q.arg = [] ∧ q.gram = p.gram ∧ q.fmt = p.fmt

/-- 20 R92: what any panel must give back, and the reference panel does: after a window, the memory-write command and
pixels that fit the window, then the window, the memory-read command and a receive at a clock the panel reads reliably,
every pixel agrees with the one written on the bits of the mode's mask. -/
def Obligations.PanelReturnsWhatWasWritten : Prop :=
  ∀ (par : Config.Params) (w : Window) (m : Depth) (colors : List Color) (p : Panel) (hz : Word) (draws : List Byte),
    ParamsOk par → w.cs ≤ w.ce → w.rs ≤ w.re → colors.length ≤ windowArea w → p.fmt = fmtOfDepth m →
    hz ≤ p.rdMaxHz → draws.length = 3 * colors.length + 1 →
    List.Forall₂ (fun c b => maskEq m c b = true) colors
      (strippedPixels (panelGives par (some hz) draws
        (panelHears par (windowBytes par w ++ [(.command, par.cmdRamrd)])
          (panelHears par (windowBytes par w ++ (.command, par.cmdRamwr) :: atData (wireStream m false colors))
            p))).1)

/-- 44 R251, 20 R92, 95 T2: pixels pushed into a window, from a buffer or as repetitions of one Color (no pixels among
them), and read back from it, with or without the clock-rate adapter, at a clock the panel reads reliably, are in host
memory, after the dummy byte, equal to the pushed ones (grey where the flag is set) on the bits of the mode's mask. A
repetition above the threshold must obtain its fill buffer (43 R219). -/
def Obligations.PushedPixelsReadBack : Prop :=
  ∀ (s s1 s2 s3 : State) (p : Panel) (w : Window) (i : Instr) (colors : List Color) (count dst : Word) (adapt : Bool)
    (m : Depth) (g : Bool) (hz : Word),
    ParamsOk s.par → Memory.wf s.mem = true → s.panel = some p → s.cfg.depth = some m → s.cfg.gray = some g →
    readingClock (readClocks adapt s) s = some hz → hz ≤ p.rdMaxHz →
    exec (.setWindow w) s = .next s1 → s1.last = .ok →
    ((∃ addr wait, i = .pushBuf addr count wait ∧ colors = readColors addr.toNat count.toNat s) ∨
      ∃ color wait, i = .pushRep color count wait ∧ colors = List.replicate count.toNat color ∧
        (count.toNat * depthBits m ≤ directMaxBits s.par ∨ nextAlloc s1.env = true)) →
    exec i s1 = .next s2 → s2.last = .ok →
    exec (.readPixels w count dst adapt) s2 = .next s3 → s3.last = .ok →
    List.Forall₂ (fun c b => maskEq m (convert g c) b = true) colors
      (strippedPixels (memRead s3.mem dst.toNat (3 * count.toNat + 1)))

/-! ## Calibration -/

/-- 45 R260, R263, R269, R270: under its preconditions `FIND_MAX_RDCLK` ends, whatever the environment answers: clock
requested again (also after a failed exit deselect: log 32) and configuration as at entry, a result that is a candidate
or the default, nothing selected unless a deselect failed. Taken up at a wait for its test line (log 11) it ends so as
well, with the clock and the grayscale flag it saved. -/
def Obligations.FindMaxEndsRestored : Prop :=
  (∀ (s : State) (clock : Word) (g : Bool) (plan : CalPlan) (f : Nat) (fs : List Nat) (best : Option Word),
    0 < s.par.nwords → s.sel ≠ some .touch →
    ∃ t r, resume .findMaxRdclk (.scan clock g plan f fs best) s = .next t ∧ t.cfg = { s.cfg with gray := some g } ∧
      t.clock = some (quantise s.par clock) ∧ t.result = some r ∧
      (r = s.par.calDefaultHz ∨ best = some r ∨ ∃ k ∈ f :: fs, r = BitVec.ofNat 32 k) ∧
      (t.sel = none ∨ t.sel = some .display ∧ t.ef.sel = true) ∧ t.dma = .idle ∧ t.op = none ∧ t.mem = s.mem) ∧
  ∀ (s : State) (clock : Word) (m : Depth) (g : Bool) (width height : Half), 0 < s.par.nwords → s.par.calStepHz ≠ 0 →
    WaitCompletes s → s.sel = none → s.clock = some clock → s.cfg.depth = some m → s.cfg.gray = some g →
    s.cfg.width = some width → s.cfg.height = some height → width ≠ 0 → height ≠ 0 →
    (∀ p, s.panel = some p → p.fmt = fmtOfDepth m) →
    ∃ t r, exec .findMaxRdclk s = .next t ∧ t.cfg = s.cfg ∧ t.clock = some (quantise s.par clock) ∧
      t.result = some r ∧
      (r = s.par.calDefaultHz ∨
        ∃ k : Nat, r.toNat = s.par.calFloorHz.toNat + k * s.par.calStepHz.toNat ∧
          r.toNat ≤ min s.par.calCeilHz.toNat clock.toNat) ∧
      (t.sel = none ∨ t.sel = some .display ∧ t.ef.sel = true) ∧ t.dma = .idle ∧ t.op = none ∧ t.mem = s.mem

/-- 45 R262, 60 R294: where the line or read buffer is not obtained the scan is skipped: nothing is sent, `EF_ALLOC` is
set, the result is the default and the status `ST_OK`. -/
def Obligations.FindMaxWithoutBuffers : Prop :=
  ∀ (s : State) (clock : Word) (m : Depth) (g : Bool) (width height : Half),
    WaitCompletes s → s.sel = none → s.clock = some clock → s.cfg.depth = some m → s.cfg.gray = some g →
    s.cfg.width = some width → s.cfg.height = some height → width ≠ 0 → height ≠ 0 →
    (∀ p, s.panel = some p → p.fmt = fmtOfDepth m) → nextAlloc (drained s).env = false →
    exec .findMaxRdclk s = .next
      { drained s with
        env := popAlloc (drained s).env
        ef := { s.ef with alloc := true }
        clock := some (quantise s.par clock)
        trace := (drained s).trace ++ [.clk (quantise s.par clock)]
        result := some s.par.calDefaultHz
        last := .ok
        op := none }

/-- 45 R263: where the floor lies above the limit there is no candidate: nothing is sent and the result is the
default. -/
def Obligations.FindMaxWithoutCandidates : Prop :=
  ∀ (s : State) (clock : Word) (m : Depth) (g : Bool) (width height : Half),
    WaitCompletes s → s.sel = none → s.clock = some clock → s.cfg.depth = some m → s.cfg.gray = some g →
    s.cfg.width = some width → s.cfg.height = some height → width ≠ 0 → height ≠ 0 →
    (∀ p, s.panel = some p → p.fmt = fmtOfDepth m) → nextAlloc (drained s).env = true →
    min s.par.calCeilHz.toNat clock.toNat < s.par.calFloorHz.toNat →
    exec .findMaxRdclk s = .next
      { drained s with
        env := popAlloc (drained s).env
        clock := some (quantise s.par clock)
        trace := (drained s).trace ++ [.clk (quantise s.par clock)]
        result := some s.par.calDefaultHz
        last := .ok
        op := none }

/-- 45 R272: over the test bench, which returns zeros above its limit `K`, with a clock generator that takes every
clock, and where each of up to `n` candidates finds its four acknowledges given and no timeout, the result is the
largest candidate at most `K`, the ceiling and the entry clock, or the default if there is none; clock and
configuration are as at entry and nothing is selected. -/
def Obligations.FindMaxFindsLargestReliableClock : Prop :=
  ∀ (s : State) (p : Panel) (clock : Word) (m : Depth) (g : Bool) (width height : Half) (top n : Nat),
    ParamsOk s.par → (∀ hz, quantise s.par hz = hz) → WaitCompletes s → s.sel = none → s.clock = some clock →
    s.cfg.depth = some m → s.cfg.gray = some g → s.cfg.width = some width → s.cfg.height = some height →
    width ≠ 0 → height ≠ 0 → s.panel = some p → p.bench = true → p.fmt = fmtOfDepth m →
    nextAlloc (drained s).env = true →
    min s.par.calCeilHz.toNat clock.toNat < s.par.calFloorHz.toNat + n * s.par.calStepHz.toNat →
    AcksNext (4 * n) (drained s) → NoTimeouts n (drained s) →
    top = min p.rdMaxHz.toNat (min s.par.calCeilHz.toNat clock.toNat) →
    ∃ t r, exec .findMaxRdclk s = .next t ∧ t.last = .ok ∧ t.result = some r ∧ t.clock = some clock ∧
      t.cfg = s.cfg ∧ t.sel = none ∧
      (s.par.calFloorHz.toNat ≤ top →
        r.toNat ≤ top ∧ top < r.toNat + s.par.calStepHz.toNat ∧
          ∃ k : Nat, r.toNat = s.par.calFloorHz.toNat + k * s.par.calStepHz.toNat) ∧
      (top < s.par.calFloorHz.toNat → r = s.par.calDefaultHz)

/-! ## Configuration -/

/-- 46 R280, R284; 10 R29 to R31, R33: a legal write replaces the whole register and changes nothing else; the clock,
which needs nothing selected, goes through the clock generator. A write the register does not take is rejected, without
a drain. -/
def Obligations.CfgWrReplacesRegister : Prop :=
  ∀ (value : Word) (s : State),
    (∀ reg, IllegalWrite reg value → exec (.cfgWr reg value) s =
      .next { s with last := .illegal, ef := { s.ef with illegal := true }, op := none }) ∧
    (WaitCompletes s →
    (value.extractLsb' 2 30 = 0 → exec (.cfgWr 0x00 value) s = .next
      { drained s with
        cfg := { s.cfg with
          depth := some (if value.getLsbD 0 then .d24 else .d16)
          gray := some (value.getLsbD 1) }
        last := .ok
        op := none }) ∧
    (value ≠ 0 → s.sel = none → exec (.cfgWr 0x02 value) s = .next
      { drained s with
        clock := some (quantise s.par value)
        trace := (drained s).trace ++ [.clk (quantise s.par value)]
        last := .ok
        op := none }) ∧
    (value ≠ 0 → s.sel ≠ none → exec (.cfgWr 0x02 value) s = .refused .wrongSelection) ∧
    (value ≠ 0 → exec (.cfgWr 0x03 value) s = .next
      { drained s with cfg := { s.cfg with maxRdclock := some value }, last := .ok, op := none }) ∧
    (value.extractLsb' 16 16 = 0 → value.extractLsb' 0 16 ≠ 0 → exec (.cfgWr 0x04 value) s = .next
      { drained s with cfg := { s.cfg with width := some (value.extractLsb' 0 16) }, last := .ok, op := none }) ∧
    (value.extractLsb' 16 16 = 0 → value.extractLsb' 0 16 ≠ 0 → exec (.cfgWr 0x05 value) s = .next
      { drained s with cfg := { s.cfg with height := some (value.extractLsb' 0 16) }, last := .ok, op := none }))

/-- 46 R282, R283; 10 R43: `CFG_RD` of a register with a value puts it into `result` and changes nothing else but
`last`, in flight or not; of a field with no value it has no meaning; of a reserved number it is rejected. A read of
STATUS that shows no transfer gives the buffer back (70 R332; log 17). -/
def Obligations.CfgRdReturnsRegister : Prop :=
  ∀ s : State,
    (∀ n v loan,
      (n = 0x00 ∧ (∃ m g, s.cfg.depth = some m ∧ s.cfg.gray = some g ∧ v = flagBit (m == .d24) 0 ||| flagBit g 1) ∨
        n = 0x01 ∧ v = statusWord s ∨ n = 0x02 ∧ s.clock = some v ∨ n = 0x03 ∧ s.cfg.maxRdclock = some v ∨
        n = 0x04 ∧ (∃ x, s.cfg.width = some x ∧ v = x.zeroExtend 32) ∨
        n = 0x05 ∧ (∃ x, s.cfg.height = some x ∧ v = x.zeroExtend 32) ∨ n = 0x06 ∧ s.result = some v ∨
        n = 0x07 ∧ v = s.cnt.direct ∨ n = 0x08 ∧ v = s.cnt.dma ∨ n = 0x09 ∧ v = s.cnt.burst) →
      loan = (if n = 0x01 ∧ s.dma = .idle then none else s.loan) →
      exec (.cfgRd n) s = .next { s with result := some v, loan := loan, last := .ok, op := none }) ∧
    (s.cfg.depth = none → exec (.cfgRd 0x00) s = .refused (.noValue .ctrl)) ∧
    (s.clock = none → exec (.cfgRd 0x02) s = .refused (.noValue .clock)) ∧
    (s.cfg.maxRdclock = none → exec (.cfgRd 0x03) s = .refused (.noValue .maxRdclock)) ∧
    (s.cfg.width = none → exec (.cfgRd 0x04) s = .refused (.noValue .width)) ∧
    (s.cfg.height = none → exec (.cfgRd 0x05) s = .refused (.noValue .height)) ∧
    (s.result = none → exec (.cfgRd 0x06) s = .refused (.noValue .result)) ∧
    ∀ n, 0x0A ≤ n → exec (.cfgRd n) s =
      .next { s with last := .illegal, ef := { s.ef with illegal := true }, op := none }

/-- 10 R32, 60 R291: STATUS bit by bit, with the numbers of the five status codes; a write to it is rejected. -/
def Obligations.StatusWordLayout : Prop :=
  ∀ s : State,
    ((statusWord s).getLsbD 0 = true ↔ s.dma ≠ .idle) ∧
    ((statusWord s).getLsbD 1 = true ↔ s.sel = some .display) ∧
    ((statusWord s).getLsbD 2 = true ↔ s.sel = some .touch) ∧
    ((statusWord s).getLsbD 3 = true ↔ s.dc = some .data) ∧
    (statusWord s).getLsbD 4 = s.inhibit ∧
    (statusWord s).extractLsb' 5 3 = 0 ∧
    (statusWord s).extractLsb' 8 3 = statusCode s.last ∧
    statusCode .ok = 0 ∧ statusCode .deselectFail = 1 ∧ statusCode .selectFail = 2 ∧ statusCode .dmaTimeout = 3 ∧
    statusCode .illegal = 4 ∧
    (statusWord s).extractLsb' 11 5 = 0 ∧
    (statusWord s).getLsbD 16 = s.ef.sel ∧ (statusWord s).getLsbD 17 = s.ef.dmaTo ∧
    (statusWord s).getLsbD 18 = s.ef.alloc ∧ (statusWord s).getLsbD 19 = s.ef.illegal ∧
    (statusWord s).extractLsb' 20 12 = 0 ∧
    ∀ v, exec (.cfgWr 0x01 v) s =
      .next { s with last := .illegal, ef := { s.ef with illegal := true }, op := none }

/-! ## Statuses and flags -/

/-- 60 R297, R291: an operation, run from its start or taken up at a wait (log 11), ends with a status its row of the
table allows, and with `ST_ILLEGAL` exactly when it is a register access that the register does not take. -/
def Obligations.StatusesAreTheTables : Prop :=
  ∀ (i : Instr) (p : Phase) (s t : State), 0 < s.par.nwords → Ends i p s t →
    statusAllowed i t.last = true ∧ (t.last = .illegal ↔ i.wf = false)

/-- 60 R291, R299; 10 R39, R45 (5): no operation, run from its start or taken up at a wait (log 11), clears a sticky
flag, and a status other than `ST_OK` has set its own; and no step but one in which the host resets clears one. -/
def Obligations.FlagsAreSticky : Prop :=
  ∀ (s t : State), 0 < s.par.nwords →
    (∀ i p, Ends i p s t →
      (t.last = .deselectFail ∨ t.last = .selectFail → t.ef.sel = true) ∧
      (t.last = .dmaTimeout → t.ef.dmaTo = true) ∧ (t.last = .illegal → t.ef.illegal = true)) ∧
    ((∃ i p, Ends i p s t) ∨ step s = .next t ∧ ¬ HostDoes .reset s →
      (s.ef.sel = true → t.ef.sel = true) ∧ (s.ef.dmaTo = true → t.ef.dmaTo = true) ∧
      (s.ef.alloc = true → t.ef.alloc = true) ∧ (s.ef.illegal = true → t.ef.illegal = true))

/-! ## Frames -/

/-- The frame of every operation over the block (the "Writes" sentences of 40 R140, R142, R161, R163, R166; 41 R184;
43 R210, R211; 44 R240, R250; 45 R260; 46 R280, R282), run from its start or taken up at a wait (log 11): a part the
operation's rule does not list is unchanged. A calibration scan gives back the grayscale flag it saved. -/
def Obligations.OperationsWriteOnlyWhatTheyList : Prop :=
  ∀ (i : Instr) (p : Phase) (s t : State), 0 < s.par.nwords → Ends i p s t →
    (writes i .regs = false → t.w = s.w ∧ t.bitlen = s.bitlen) ∧
    (writes i .line = false → t.dc = s.dc) ∧
    (writes i .selection = false → t.sel = s.sel) ∧
    (writes i .clock = false → t.clock = s.clock) ∧
    (writes i .config = false → t.cfg = foundCfg p s) ∧
    (writes i .result = false → t.result = s.result) ∧
    (writes i .direct = false → t.cnt.direct = s.cnt.direct) ∧
    (writes i .queued = false → t.cnt.dma = s.cnt.dma) ∧
    (writes i .bursts = false → t.cnt.burst = s.cnt.burst) ∧
    (writes i .flagSel = false → t.ef.sel = s.ef.sel) ∧
    (writes i .flagAlloc = false → t.ef.alloc = s.ef.alloc) ∧
    (writes i .flagIllegal = false → t.ef.illegal = s.ef.illegal) ∧
    (s.scratch = none ∨ (∃ buffer b rest, p = .fill buffer b rest) → t.scratch = none) ∧
    (s.inhibit = false → t.inhibit = false) ∧
    t.op = none ∧ t.par = s.par ∧ t.regions = s.regions ∧ t.host = s.host

/-- 20 R65; 43 R224: no operation but `READ_PIXELS` writes host memory, and `READ_PIXELS`, however it ends, writes only
its buffer of `3 * count + 1` bytes at `addr`; run from its start or taken up at a wait (log 11), and up to a wait none
writes any. After a failed drain the buffer has not been checked, and one that passes the top of the address space wraps
there (log 20). -/
def Obligations.OnlyReadsWriteHostMemory : Prop :=
  ∀ (i : Instr) (p q : Phase) (s t : State), 0 < s.par.nwords →
    (nextWait i p s = some (q, t) → t.mem = s.mem) ∧
    (Ends i p s t →
      (writes i .memory = false → t.mem = s.mem) ∧
      ∀ w count addr adapt, i = .readPixels w count addr adapt →
        ∀ a : Nat, (∀ k < 3 * count.toNat + 1, a ≠ (addr.toNat + k) % 2 ^ s.par.addrBits) →
          readByte t.mem a = readByte s.mem a)

/-- 00 R14, 20 R68: an operation, run from its start or taken up at a wait (log 11), only appends to the trace, and so
does every step but one in which the host resets. -/
def Obligations.TraceOnlyGrows : Prop :=
  ∀ (s t : State), 0 < s.par.nwords →
    (∃ i p, Ends i p s t) ∨ step s = .next t ∧ ¬ HostDoes .reset s → ∃ events, t.trace = s.trace ++ events

/-! ## Operations that wait -/

/-- 10 R24, R36; 40 R146, R156: while an operation waits and nothing comes from the host, a step, after the DMA engine's
turn, leaves it at its wait or takes it to its next one, or runs it to its end. That the environment says which is the
model's (log 11). -/
def Obligations.WaitingOperationGoesOn : Prop :=
  ∀ (s s1 : State) (i : Instr) (p : Phase), s.op = some (i, p) → s1 = dmaTurn s → s.env.urgent = [] →
    (nextWait i p { s1 with env := popHold s1.env } = none → step s = resume i p s1) ∧
    (∀ q t, nextWait i p { s1 with env := popHold s1.env } = some (q, t) →
      (nextHold s1.env = false → step s = resume i p { s1 with env := popHold s1.env }) ∧
      (nextHold s1.env = true → step s = .next { t with op := some (i, q) })) ∧
    (∀ bs o, s1.dma = .inFlight bs o → drains i = true →
      nextWait i p { s1 with env := popHold s1.env } = some (p, { s1 with env := popHold s1.env }))

/-- 10 R24, R36; 20 R69; 40 R146, R156: an operation that stood at a wait ends, whole state, as if it had been run in
one go, where its transfer completes at the wait, and as well where it completes in the DMA engine's turn while the
operation stands there, the environment `e` then telling that turn what it would have told the wait; and a turn that
leaves the transfer in flight changes nothing. Which waits there are is the model's reading of R24 (log 11), and the
one turn in a step is its choice (log 13). -/
def Obligations.WaitingChangesNothing : Prop :=
  ∀ (i : Instr) (p q : Phase) (s t : State) (e : Env), nextWait i p s = some (q, t) →
    resume i q t = resume i p s ∧
    ∀ bs o, t.dma = .inFlight bs o →
      (nextEnd t.env = none → nextTurn e = true → popTurn e = popEnd t.env →
        resume i q (dmaTurn { t with env := e }) = resume i p s) ∧
      (nextTurn e = false → popTurn e = t.env → resume i q (dmaTurn { t with env := e }) = resume i p s)

/-- 70 R321, R330, R332, R340; 20 R74: what comes from the host while an operation waits: a descriptor has no meaning,
nor has a store, a freeing or a claim, since the operation blocks the host; a reset drops the operation without a
status, whatever the phase. That it comes at all is said by `env.urgent` (log 11), and the claim (log 35), the panel's
format, which waits for a `Ready` block (log 34), and that a reset gives a lent buffer back (log 33) are the model's. -/
def Obligations.HostActsWhileAnOperationWaits : Prop :=
  ∀ (s : State) (i : Instr) (p : Phase) (a : HostAct) (rest : List (Option HostAct)), s.op = some (i, p) →
    s.env.urgent = some a :: rest →
    (∀ d, a = .issue d → step s = .refused .busy) ∧
    (∀ addr bytes, a = .store addr bytes → step s = .refused .hostBlocked) ∧
    (∀ addr len, a = .free addr len → step s = .refused .hostBlocked) ∧
    (∀ addr len dma, a = .claim addr len dma → step s = .refused .hostBlocked) ∧
    (∀ fmt, a = .panelFormat fmt → step s = .refused .busy) ∧
    (a = .reset → ∃ t, step s = .next t ∧ BlockAtReset t ∧ t.host = s.host ∧ t.mem = s.mem ∧ t.loan = none)
end

