-- ==== Sys2Proof/Laws/State.lean ====
section
/-! SUPPORT. The fields of State after each named update, one lemma for each field and update, all by rfl; and the
fields after an operation ends. -/

namespace Sys2Proof.Machine

/-! ## emit -/

@[simp] theorem emit_w (e : Event) (s : State) : (emit e s).w = s.w := rfl
@[simp] theorem emit_bitlen (e : Event) (s : State) : (emit e s).bitlen = s.bitlen := rfl
@[simp] theorem emit_sel (e : Event) (s : State) : (emit e s).sel = s.sel := rfl
@[simp] theorem emit_dc (e : Event) (s : State) : (emit e s).dc = s.dc := rfl
@[simp] theorem emit_clock (e : Event) (s : State) : (emit e s).clock = s.clock := rfl
@[simp] theorem emit_cfg (e : Event) (s : State) : (emit e s).cfg = s.cfg := rfl
@[simp] theorem emit_dma (e : Event) (s : State) : (emit e s).dma = s.dma := rfl
@[simp] theorem emit_scratch (e : Event) (s : State) : (emit e s).scratch = s.scratch := rfl
@[simp] theorem emit_inhibit (e : Event) (s : State) : (emit e s).inhibit = s.inhibit := rfl
@[simp] theorem emit_last (e : Event) (s : State) : (emit e s).last = s.last := rfl
@[simp] theorem emit_ef (e : Event) (s : State) : (emit e s).ef = s.ef := rfl
@[simp] theorem emit_result (e : Event) (s : State) : (emit e s).result = s.result := rfl
@[simp] theorem emit_cnt (e : Event) (s : State) : (emit e s).cnt = s.cnt := rfl
@[simp] theorem emit_op (e : Event) (s : State) : (emit e s).op = s.op := rfl
@[simp] theorem emit_trace (e : Event) (s : State) : (emit e s).trace = s.trace ++ [e] := rfl
@[simp] theorem emit_mem (e : Event) (s : State) : (emit e s).mem = s.mem := rfl
@[simp] theorem emit_regions (e : Event) (s : State) : (emit e s).regions = s.regions := rfl
@[simp] theorem emit_loan (e : Event) (s : State) : (emit e s).loan = s.loan := rfl
@[simp] theorem emit_panel (e : Event) (s : State) : (emit e s).panel = s.panel := rfl
@[simp] theorem emit_par (e : Event) (s : State) : (emit e s).par = s.par := rfl
@[simp] theorem emit_env (e : Event) (s : State) : (emit e s).env = s.env := rfl
@[simp] theorem emit_host (e : Event) (s : State) : (emit e s).host = s.host := rfl

/-! ## setDC -/

@[simp] theorem setDC_w (v : DcLevel) (s : State) : (setDC v s).w = s.w := rfl
@[simp] theorem setDC_bitlen (v : DcLevel) (s : State) : (setDC v s).bitlen = s.bitlen := rfl
@[simp] theorem setDC_sel (v : DcLevel) (s : State) : (setDC v s).sel = s.sel := rfl
@[simp] theorem setDC_dc (v : DcLevel) (s : State) : (setDC v s).dc = some v := rfl
@[simp] theorem setDC_clock (v : DcLevel) (s : State) : (setDC v s).clock = s.clock := rfl
@[simp] theorem setDC_cfg (v : DcLevel) (s : State) : (setDC v s).cfg = s.cfg := rfl
@[simp] theorem setDC_dma (v : DcLevel) (s : State) : (setDC v s).dma = s.dma := rfl
@[simp] theorem setDC_scratch (v : DcLevel) (s : State) : (setDC v s).scratch = s.scratch := rfl
@[simp] theorem setDC_inhibit (v : DcLevel) (s : State) : (setDC v s).inhibit = s.inhibit := rfl
@[simp] theorem setDC_last (v : DcLevel) (s : State) : (setDC v s).last = s.last := rfl
@[simp] theorem setDC_ef (v : DcLevel) (s : State) : (setDC v s).ef = s.ef := rfl
@[simp] theorem setDC_result (v : DcLevel) (s : State) : (setDC v s).result = s.result := rfl
@[simp] theorem setDC_cnt (v : DcLevel) (s : State) : (setDC v s).cnt = s.cnt := rfl
@[simp] theorem setDC_op (v : DcLevel) (s : State) : (setDC v s).op = s.op := rfl
@[simp] theorem setDC_trace (v : DcLevel) (s : State) : (setDC v s).trace = s.trace := rfl
@[simp] theorem setDC_mem (v : DcLevel) (s : State) : (setDC v s).mem = s.mem := rfl
@[simp] theorem setDC_regions (v : DcLevel) (s : State) : (setDC v s).regions = s.regions := rfl
@[simp] theorem setDC_loan (v : DcLevel) (s : State) : (setDC v s).loan = s.loan := rfl
@[simp] theorem setDC_panel (v : DcLevel) (s : State) : (setDC v s).panel = s.panel := rfl
@[simp] theorem setDC_par (v : DcLevel) (s : State) : (setDC v s).par = s.par := rfl
@[simp] theorem setDC_env (v : DcLevel) (s : State) : (setDC v s).env = s.env := rfl
@[simp] theorem setDC_host (v : DcLevel) (s : State) : (setDC v s).host = s.host := rfl

/-! ## fail -/

@[simp] theorem fail_w (st : Status) (s : State) : (fail st s).w = s.w := rfl
@[simp] theorem fail_bitlen (st : Status) (s : State) : (fail st s).bitlen = s.bitlen := rfl
@[simp] theorem fail_sel (st : Status) (s : State) : (fail st s).sel = s.sel := rfl
@[simp] theorem fail_dc (st : Status) (s : State) : (fail st s).dc = s.dc := rfl
@[simp] theorem fail_clock (st : Status) (s : State) : (fail st s).clock = s.clock := rfl
@[simp] theorem fail_cfg (st : Status) (s : State) : (fail st s).cfg = s.cfg := rfl
@[simp] theorem fail_dma (st : Status) (s : State) : (fail st s).dma = s.dma := rfl
@[simp] theorem fail_scratch (st : Status) (s : State) : (fail st s).scratch = s.scratch := rfl
@[simp] theorem fail_inhibit (st : Status) (s : State) : (fail st s).inhibit = s.inhibit := rfl
@[simp] theorem fail_last (st : Status) (s : State) : (fail st s).last = st := rfl
@[simp] theorem fail_ef (st : Status) (s : State) : (fail st s).ef = flagsAfter st s.ef := rfl
@[simp] theorem fail_result (st : Status) (s : State) : (fail st s).result = s.result := rfl
@[simp] theorem fail_cnt (st : Status) (s : State) : (fail st s).cnt = s.cnt := rfl
@[simp] theorem fail_op (st : Status) (s : State) : (fail st s).op = none := rfl
@[simp] theorem fail_trace (st : Status) (s : State) : (fail st s).trace = s.trace := rfl
@[simp] theorem fail_mem (st : Status) (s : State) : (fail st s).mem = s.mem := rfl
@[simp] theorem fail_regions (st : Status) (s : State) : (fail st s).regions = s.regions := rfl
@[simp] theorem fail_loan (st : Status) (s : State) : (fail st s).loan = s.loan := rfl
@[simp] theorem fail_panel (st : Status) (s : State) : (fail st s).panel = s.panel := rfl
@[simp] theorem fail_par (st : Status) (s : State) : (fail st s).par = s.par := rfl
@[simp] theorem fail_env (st : Status) (s : State) : (fail st s).env = s.env := rfl
@[simp] theorem fail_host (st : Status) (s : State) : (fail st s).host = s.host := rfl

/-! ## shiftOut -/

@[simp] theorem shiftOut_w (v : DcLevel) (s : State) (b : Byte) : (shiftOut v s b).w = s.w := rfl
@[simp] theorem shiftOut_bitlen (v : DcLevel) (s : State) (b : Byte) : (shiftOut v s b).bitlen = s.bitlen := rfl
@[simp] theorem shiftOut_sel (v : DcLevel) (s : State) (b : Byte) : (shiftOut v s b).sel = s.sel := rfl
@[simp] theorem shiftOut_dc (v : DcLevel) (s : State) (b : Byte) : (shiftOut v s b).dc = s.dc := rfl
@[simp] theorem shiftOut_clock (v : DcLevel) (s : State) (b : Byte) : (shiftOut v s b).clock = s.clock := rfl
@[simp] theorem shiftOut_cfg (v : DcLevel) (s : State) (b : Byte) : (shiftOut v s b).cfg = s.cfg := rfl
@[simp] theorem shiftOut_dma (v : DcLevel) (s : State) (b : Byte) : (shiftOut v s b).dma = s.dma := rfl
@[simp] theorem shiftOut_scratch (v : DcLevel) (s : State) (b : Byte) : (shiftOut v s b).scratch = s.scratch := rfl
@[simp] theorem shiftOut_inhibit (v : DcLevel) (s : State) (b : Byte) : (shiftOut v s b).inhibit = s.inhibit := rfl
@[simp] theorem shiftOut_last (v : DcLevel) (s : State) (b : Byte) : (shiftOut v s b).last = s.last := rfl
@[simp] theorem shiftOut_ef (v : DcLevel) (s : State) (b : Byte) : (shiftOut v s b).ef = s.ef := rfl
@[simp] theorem shiftOut_result (v : DcLevel) (s : State) (b : Byte) : (shiftOut v s b).result = s.result := rfl
@[simp] theorem shiftOut_cnt (v : DcLevel) (s : State) (b : Byte) : (shiftOut v s b).cnt = s.cnt := rfl
@[simp] theorem shiftOut_op (v : DcLevel) (s : State) (b : Byte) : (shiftOut v s b).op = s.op := rfl
@[simp] theorem shiftOut_trace (v : DcLevel) (s : State) (b : Byte) :
    (shiftOut v s b).trace = s.trace ++ [.tx v b] := rfl
@[simp] theorem shiftOut_mem (v : DcLevel) (s : State) (b : Byte) : (shiftOut v s b).mem = s.mem := rfl
@[simp] theorem shiftOut_regions (v : DcLevel) (s : State) (b : Byte) : (shiftOut v s b).regions = s.regions := rfl
@[simp] theorem shiftOut_loan (v : DcLevel) (s : State) (b : Byte) : (shiftOut v s b).loan = s.loan := rfl
@[simp] theorem shiftOut_panel (v : DcLevel) (s : State) (b : Byte) :
    (shiftOut v s b).panel = if s.sel = some .display then s.panel.map (panelTx s.par v b) else s.panel := rfl
@[simp] theorem shiftOut_par (v : DcLevel) (s : State) (b : Byte) : (shiftOut v s b).par = s.par := rfl
@[simp] theorem shiftOut_env (v : DcLevel) (s : State) (b : Byte) : (shiftOut v s b).env = s.env := rfl
@[simp] theorem shiftOut_host (v : DcLevel) (s : State) (b : Byte) : (shiftOut v s b).host = s.host := rfl

/-! ## setClock -/

@[simp] theorem setClock_w (hz : Word) (s : State) : (setClock hz s).w = s.w := rfl
@[simp] theorem setClock_bitlen (hz : Word) (s : State) : (setClock hz s).bitlen = s.bitlen := rfl
@[simp] theorem setClock_sel (hz : Word) (s : State) : (setClock hz s).sel = s.sel := rfl
@[simp] theorem setClock_dc (hz : Word) (s : State) : (setClock hz s).dc = s.dc := rfl
@[simp] theorem setClock_clock (hz : Word) (s : State) : (setClock hz s).clock = some (quantise s.par hz) := rfl
@[simp] theorem setClock_cfg (hz : Word) (s : State) : (setClock hz s).cfg = s.cfg := rfl
@[simp] theorem setClock_dma (hz : Word) (s : State) : (setClock hz s).dma = s.dma := rfl
@[simp] theorem setClock_scratch (hz : Word) (s : State) : (setClock hz s).scratch = s.scratch := rfl
@[simp] theorem setClock_inhibit (hz : Word) (s : State) : (setClock hz s).inhibit = s.inhibit := rfl
@[simp] theorem setClock_last (hz : Word) (s : State) : (setClock hz s).last = s.last := rfl
@[simp] theorem setClock_ef (hz : Word) (s : State) : (setClock hz s).ef = s.ef := rfl
@[simp] theorem setClock_result (hz : Word) (s : State) : (setClock hz s).result = s.result := rfl
@[simp] theorem setClock_cnt (hz : Word) (s : State) : (setClock hz s).cnt = s.cnt := rfl
@[simp] theorem setClock_op (hz : Word) (s : State) : (setClock hz s).op = s.op := rfl
@[simp] theorem setClock_trace (hz : Word) (s : State) :
    (setClock hz s).trace = s.trace ++ [.clk (quantise s.par hz)] := rfl
@[simp] theorem setClock_mem (hz : Word) (s : State) : (setClock hz s).mem = s.mem := rfl
@[simp] theorem setClock_regions (hz : Word) (s : State) : (setClock hz s).regions = s.regions := rfl
@[simp] theorem setClock_loan (hz : Word) (s : State) : (setClock hz s).loan = s.loan := rfl
@[simp] theorem setClock_panel (hz : Word) (s : State) : (setClock hz s).panel = s.panel := rfl
@[simp] theorem setClock_par (hz : Word) (s : State) : (setClock hz s).par = s.par := rfl
@[simp] theorem setClock_env (hz : Word) (s : State) : (setClock hz s).env = s.env := rfl
@[simp] theorem setClock_host (hz : Word) (s : State) : (setClock hz s).host = s.host := rfl

/-! ## dmaQueue -/

@[simp] theorem dmaQueue_w (bs : List Byte) (o : DmaOwner) (s : State) : (dmaQueue bs o s).w = s.w := rfl
@[simp] theorem dmaQueue_bitlen (bs : List Byte) (o : DmaOwner) (s : State) : (dmaQueue bs o s).bitlen = s.bitlen := rfl
@[simp] theorem dmaQueue_sel (bs : List Byte) (o : DmaOwner) (s : State) : (dmaQueue bs o s).sel = s.sel := rfl
@[simp] theorem dmaQueue_dc (bs : List Byte) (o : DmaOwner) (s : State) : (dmaQueue bs o s).dc = s.dc := rfl
@[simp] theorem dmaQueue_clock (bs : List Byte) (o : DmaOwner) (s : State) : (dmaQueue bs o s).clock = s.clock := rfl
@[simp] theorem dmaQueue_cfg (bs : List Byte) (o : DmaOwner) (s : State) : (dmaQueue bs o s).cfg = s.cfg := rfl
@[simp] theorem dmaQueue_dma (bs : List Byte) (o : DmaOwner) (s : State) : (dmaQueue bs o s).dma = .inFlight bs o := rfl
@[simp] theorem dmaQueue_scratch (bs : List Byte) (o : DmaOwner) (s : State) :
    (dmaQueue bs o s).scratch = s.scratch := rfl
@[simp] theorem dmaQueue_inhibit (bs : List Byte) (o : DmaOwner) (s : State) :
    (dmaQueue bs o s).inhibit = s.inhibit := rfl
@[simp] theorem dmaQueue_last (bs : List Byte) (o : DmaOwner) (s : State) : (dmaQueue bs o s).last = s.last := rfl
@[simp] theorem dmaQueue_ef (bs : List Byte) (o : DmaOwner) (s : State) : (dmaQueue bs o s).ef = s.ef := rfl
@[simp] theorem dmaQueue_result (bs : List Byte) (o : DmaOwner) (s : State) : (dmaQueue bs o s).result = s.result := rfl
@[simp] theorem dmaQueue_cnt (bs : List Byte) (o : DmaOwner) (s : State) : (dmaQueue bs o s).cnt = countDma s.cnt := rfl
@[simp] theorem dmaQueue_op (bs : List Byte) (o : DmaOwner) (s : State) : (dmaQueue bs o s).op = s.op := rfl
@[simp] theorem dmaQueue_trace (bs : List Byte) (o : DmaOwner) (s : State) :
    (dmaQueue bs o s).trace = s.trace ++ [.dmaQ bs.length] := rfl
@[simp] theorem dmaQueue_mem (bs : List Byte) (o : DmaOwner) (s : State) : (dmaQueue bs o s).mem = s.mem := rfl
@[simp] theorem dmaQueue_regions (bs : List Byte) (o : DmaOwner) (s : State) :
    (dmaQueue bs o s).regions = s.regions := rfl
@[simp] theorem dmaQueue_loan (bs : List Byte) (o : DmaOwner) (s : State) : (dmaQueue bs o s).loan = s.loan := rfl
@[simp] theorem dmaQueue_panel (bs : List Byte) (o : DmaOwner) (s : State) : (dmaQueue bs o s).panel = s.panel := rfl
@[simp] theorem dmaQueue_par (bs : List Byte) (o : DmaOwner) (s : State) : (dmaQueue bs o s).par = s.par := rfl
@[simp] theorem dmaQueue_env (bs : List Byte) (o : DmaOwner) (s : State) : (dmaQueue bs o s).env = s.env := rfl
@[simp] theorem dmaQueue_host (bs : List Byte) (o : DmaOwner) (s : State) : (dmaQueue bs o s).host = s.host := rfl

/-! ## finish -/

@[simp] theorem finish_w (st : Status) (s : State) : (finish st s).w = s.w := by cases st <;> rfl
@[simp] theorem finish_bitlen (st : Status) (s : State) : (finish st s).bitlen = s.bitlen := by cases st <;> rfl
@[simp] theorem finish_sel (st : Status) (s : State) : (finish st s).sel = s.sel := by cases st <;> rfl
@[simp] theorem finish_dc (st : Status) (s : State) : (finish st s).dc = s.dc := by cases st <;> rfl
@[simp] theorem finish_clock (st : Status) (s : State) : (finish st s).clock = s.clock := by cases st <;> rfl
@[simp] theorem finish_cfg (st : Status) (s : State) : (finish st s).cfg = s.cfg := by cases st <;> rfl
@[simp] theorem finish_dma (st : Status) (s : State) : (finish st s).dma = s.dma := by cases st <;> rfl
@[simp] theorem finish_scratch (st : Status) (s : State) : (finish st s).scratch = s.scratch := by cases st <;> rfl
@[simp] theorem finish_inhibit (st : Status) (s : State) : (finish st s).inhibit = s.inhibit := by cases st <;> rfl
@[simp] theorem finish_result (st : Status) (s : State) : (finish st s).result = s.result := by cases st <;> rfl
@[simp] theorem finish_cnt (st : Status) (s : State) : (finish st s).cnt = s.cnt := by cases st <;> rfl
@[simp] theorem finish_trace (st : Status) (s : State) : (finish st s).trace = s.trace := by cases st <;> rfl
@[simp] theorem finish_mem (st : Status) (s : State) : (finish st s).mem = s.mem := by cases st <;> rfl
@[simp] theorem finish_regions (st : Status) (s : State) : (finish st s).regions = s.regions := by cases st <;> rfl
@[simp] theorem finish_loan (st : Status) (s : State) : (finish st s).loan = s.loan := by cases st <;> rfl
@[simp] theorem finish_panel (st : Status) (s : State) : (finish st s).panel = s.panel := by cases st <;> rfl
@[simp] theorem finish_par (st : Status) (s : State) : (finish st s).par = s.par := by cases st <;> rfl
@[simp] theorem finish_env (st : Status) (s : State) : (finish st s).env = s.env := by cases st <;> rfl
@[simp] theorem finish_host (st : Status) (s : State) : (finish st s).host = s.host := by cases st <;> rfl
@[simp] theorem finish_last (st : Status) (s : State) : (finish st s).last = st := by cases st <;> rfl
@[simp] theorem finish_ef (st : Status) (s : State) : (finish st s).ef = flagsAfter st s.ef := by cases st <;> rfl
@[simp] theorem finish_op (st : Status) (s : State) : (finish st s).op = none := by cases st <;> rfl

/-! ## Counters -/

@[simp] theorem countDirect_direct (c : Counters) : (countDirect c).direct = c.direct + 1 := rfl
@[simp] theorem countDirect_dma (c : Counters) : (countDirect c).dma = c.dma := rfl
@[simp] theorem countDirect_burst (c : Counters) : (countDirect c).burst = c.burst := rfl
@[simp] theorem countDma_direct (c : Counters) : (countDma c).direct = c.direct := rfl
@[simp] theorem countDma_dma (c : Counters) : (countDma c).dma = c.dma + 1 := rfl
@[simp] theorem countDma_burst (c : Counters) : (countDma c).burst = c.burst := rfl
@[simp] theorem countBurst_direct (c : Counters) : (countBurst c).direct = c.direct := rfl
@[simp] theorem countBurst_dma (c : Counters) : (countBurst c).dma = c.dma := rfl
@[simp] theorem countBurst_burst (c : Counters) : (countBurst c).burst = c.burst + 1 := rfl

end Sys2Proof.Machine
end

