-- ==== Sys2Proof/Laws/Burst.lean ====
section
/-! SUPPORT. Burst registers and transmit bursts: what is loaded is what goes out, and what a transmit operation does,
said once as an equation of states (spec/40_bus_transport.md R150, R152, R160). -/

namespace Sys2Proof.Machine

/-! ## Registers -/

theorem byteOf_packWord_cons (a b c d : Byte) (w : List Word) (k : Nat) (hk : k < 4) :
    byteOf (packWord a b c d :: w) k = [a, b, c, d].getD k 0 := by
  have h : k = 0 ∨ k = 1 ∨ k = 2 ∨ k = 3 := by omega
  rcases h with rfl | rfl | rfl | rfl <;>
    · simp only [byteOf, packWord]
      apply BitVec.eq_of_getLsbD_eq
      intro i hi
      have : i = 0 ∨ i = 1 ∨ i = 2 ∨ i = 3 ∨ i = 4 ∨ i = 5 ∨ i = 6 ∨ i = 7 := by omega
      rcases this with rfl | rfl | rfl | rfl | rfl | rfl | rfl | rfl <;>
        simp

theorem byteOf_cons_add (x : Word) (w : List Word) (k : Nat) : byteOf (x :: w) (k + 4) = byteOf w k := by
  have h : (k + 4) / 4 = k / 4 + 1 := by omega
  simp [byteOf, h]

/-- Each byte of a loaded stream is read back where it stands in the stream (R22). -/
theorem byteOf_loaded (bs : List Byte) (w : List Word) (k : Nat) (hk : k < bs.length) :
    byteOf (packWords bs ++ w) k = bs.getD k 0 := by
  induction bs using packWords.induct generalizing k with
  | case1 => simp at hk
  | case2 a =>
    have : k = 0 := by simpa using hk
    subst this
    exact byteOf_packWord_cons a 0 0 0 w 0 (by omega)
  | case3 a b =>
    have h : k < 2 := by simpa using hk
    rw [packWords, List.singleton_append, byteOf_packWord_cons a b 0 0 w k (by omega)]
    have : k = 0 ∨ k = 1 := by omega
    rcases this with rfl | rfl <;> rfl
  | case4 a b c =>
    have h : k < 3 := by simpa using hk
    rw [packWords, List.singleton_append, byteOf_packWord_cons a b c 0 w k (by omega)]
    have : k = 0 ∨ k = 1 ∨ k = 2 := by omega
    rcases this with rfl | rfl | rfl <;> rfl
  | case5 a b c d rest ih =>
    rw [packWords, List.cons_append]
    by_cases h : k < 4
    · rw [byteOf_packWord_cons a b c d _ k h]
      have : k = 0 ∨ k = 1 ∨ k = 2 ∨ k = 3 := by omega
      rcases this with rfl | rfl | rfl | rfl <;> rfl
    · obtain ⟨j, rfl⟩ : ∃ j, k = j + 4 := ⟨k - 4, by omega⟩
      rw [byteOf_cons_add, ih j (by simpa using hk)]
      rfl

/-- What a burst sends is what was loaded (R152). -/
theorem burstBytes_loadWords (w : List Word) (bs : List Byte) : burstBytes (loadWords w bs) bs.length = bs := by
  apply List.ext_getElem
  · simp [burstBytes]
  · intro k h1 h2
    simp only [burstBytes, loadWords, List.getElem_map, List.getElem_range]
    rw [byteOf_loaded bs _ k h2]
    simp [List.getD_eq_getElem?_getD, h2]

theorem packWords_length (bs : List Byte) : (packWords bs).length = (bs.length + 3) / 4 := by
  induction bs using packWords.induct with
  | case1 => rfl
  | case2 => simp [packWords]
  | case3 => simp [packWords]
  | case4 => simp [packWords]
  | case5 a b c d rest ih => simp only [packWords, List.length_cons, ih]; omega

/-- Loading a stream that fits keeps the number of registers. -/
theorem loadWords_length (w : List Word) (bs : List Byte) (h : bs.length ≤ 4 * w.length) :
    (loadWords w bs).length = w.length := by
  simp only [loadWords, List.length_append, List.length_drop, packWords_length]
  omega

/-! ## Cutting a payload into bursts -/

theorem chunksOf_flatten {α : Type} (n : Nat) (hn : 0 < n) (fuel : Nat) (l : List α) (h : l.length ≤ fuel) :
    (chunksOf n fuel l).flatten = l := by
  induction fuel generalizing l with
  | zero => simp only [Nat.le_zero, List.length_eq_zero_iff] at h; simp [chunksOf, h]
  | succ f ih =>
    match l with
    | [] => rfl
    | x :: xs =>
      have hd : ((x :: xs).drop n).length ≤ f := by
        simp only [List.length_drop, List.length_cons] at h ⊢; omega
      simp [chunksOf, ih _ hd]

theorem chunksOf_length_le {α : Type} (n fuel : Nat) (l c : List α) (h : c ∈ chunksOf n fuel l) : c.length ≤ n := by
  induction fuel generalizing l with
  | zero => simp [chunksOf] at h
  | succ f ih =>
    match l with
    | [] => simp [chunksOf] at h
    | x :: xs =>
      rcases List.mem_cons.mp h with rfl | h
      · simp only [List.length_take]; omega
      · exact ih _ h

/-- A run that fits one burst is one burst. -/
theorem chunksOf_small {α : Type} (n fuel : Nat) (l : List α) (hl : l ≠ []) (h : l.length ≤ n) (hf : 0 < fuel) :
    chunksOf n fuel l = [l] := by
  obtain ⟨f, rfl⟩ : ∃ f, fuel = f + 1 := ⟨fuel - 1, by omega⟩
  match l with
  | [] => exact absurd rfl hl
  | x :: xs =>
    simp only [chunksOf, List.take_of_length_le h, List.drop_of_length_le h]
    cases f <;> rfl

theorem chunksOf_count {α : Type} (n : Nat) (hn : 0 < n) (fuel : Nat) (l : List α) (h : l.length ≤ fuel) :
    (chunksOf n fuel l).length = (l.length + n - 1) / n := by
  induction fuel generalizing l with
  | zero =>
    simp only [Nat.le_zero, List.length_eq_zero_iff] at h
    subst h
    simp only [chunksOf, List.length_nil]
    rw [Nat.div_eq_of_lt (by omega)]
  | succ f ih =>
    match l with
    | [] =>
      simp only [chunksOf, List.length_nil]
      rw [Nat.div_eq_of_lt (by omega)]
    | x :: xs =>
      have hd : ((x :: xs).drop n).length ≤ f := by
        simp only [List.length_drop, List.length_cons] at h ⊢; omega
      simp only [chunksOf]
      rw [List.length_cons, ih _ hd, List.length_drop]
      generalize hm : (x :: xs).length = m
      have hm1 : 1 ≤ m := by simp [← hm]
      by_cases hle : m ≤ n
      · rw [Nat.sub_eq_zero_of_le hle, Nat.div_eq_of_lt (by omega)]
        rw [show m + n - 1 = (m - 1) + n by omega, Nat.add_div_right _ hn, Nat.div_eq_of_lt (by omega)]
      · rw [show m + n - 1 = (m - n + n - 1) + n by omega, Nat.add_div_right _ hn]

/-- The bursts carry the payload, in order (R121). -/
theorem burstChunks_flatten (p : Config.Params) (hp : 0 < p.nwords) (bs : List Byte) :
    (burstChunks p bs).flatten = bs :=
  chunksOf_flatten _ (by simp only [burstMaxBytes]; omega) _ _ (Nat.le_refl _)

/-- No burst is larger than the register file (R149). -/
theorem burstChunks_length_le (p : Config.Params) (bs c : List Byte) (h : c ∈ burstChunks p bs) :
    c.length ≤ 4 * p.nwords := chunksOf_length_le _ _ _ _ h

/-- The number of bursts of a payload (R121). -/
theorem burstChunks_count (p : Config.Params) (hp : 0 < p.nwords) (bs : List Byte) :
    (burstChunks p bs).length = (bs.length + burstMaxBytes p - 1) / burstMaxBytes p :=
  chunksOf_count _ (by simp only [burstMaxBytes]; omega) _ _ (Nat.le_refl _)

/-- A payload that fits one burst goes out as one. -/
theorem burstChunks_small (p : Config.Params) (bs : List Byte) (h : bs ≠ []) (hl : bs.length ≤ 4 * p.nwords) :
    burstChunks p bs = [bs] :=
  chunksOf_small _ _ _ h hl (List.length_pos_iff.mpr h)

@[simp] theorem burstChunks_nil (p : Config.Params) : burstChunks p [] = [] := rfl

/-! ## Transmit -/

theorem panelHears_append (par : Config.Params) (xs ys : List (DcLevel × Byte)) (p : Panel) :
    panelHears par (xs ++ ys) p = panelHears par ys (panelHears par xs p) := by
  simp [panelHears]

@[simp] theorem panelHears_nil (par : Config.Params) (p : Panel) : panelHears par [] p = p := rfl

@[simp] theorem panelAfter_nil (s : State) : panelAfter s [] = s.panel := by
  simp only [panelAfter]
  split
  · cases s.panel <;> rfl
  · rfl

/-- A run of bytes shifted out changes the trace and the panel, nothing else. -/
theorem shiftAll_eq (v : DcLevel) (bs : List Byte) (s : State) :
    shiftAll v bs s =
      { s with
        trace := s.trace ++ bs.map (.tx v)
        panel := panelAfter s (bs.map fun b => (v, b)) } := by
  induction bs generalizing s with
  | nil => simp [shiftAll]
  | cons b bs ih =>
    have h : shiftAll v (b :: bs) s = shiftAll v bs (shiftOut v s b) := rfl
    rw [h, ih]
    by_cases hs : s.sel = some .display
    · cases hp : s.panel <;> simp [shiftOut, panelAfter, hs, hp, panelHears]
    · simp [shiftOut, panelAfter, hs]

/-- One burst of a stream (R150, R152). -/
theorem sendBurst_eq (s : State) (bs : List Byte) :
    sendBurst s bs =
      { s with
        w := loadWords s.w bs
        bitlen := 8 * bs.length
        cnt := countBurst s.cnt
        trace := s.trace ++ (bs.map (.tx (dcLine s)) ++ [.burstTx (8 * bs.length)])
        panel := panelAfter s (bs.map fun b => (dcLine s, b)) } := by
  simp only [sendBurst, startBurstTx, emit, shiftAll_eq, Nat.mul_div_cancel_left _ (by decide : 0 < 8),
    burstBytes_loadWords, List.append_assoc]
  rfl

/-- The command frame (R160). -/
theorem sendCommand_eq (b : Byte) (s : State) :
    sendCommand b s =
      { s with
        dc := some .command
        w := b.zeroExtend 32 :: s.w.drop 1
        bitlen := 8
        cnt := countBurst s.cnt
        trace := s.trace ++ commandFrame b
        panel := panelAfter s [(.command, b)] } := by
  have hp : packWord b 0 0 0 = b.zeroExtend 32 := by simp [packWord]
  have h := sendBurst_eq (setDC .command s) [b]
  simp only [sendBurst, loadWords, packWords, hp] at h
  simp only [sendCommand, loadWords, packWords, hp]
  exact h

/-- The counters after a number of direct bursts. -/
def addBursts (n : Nat) (c : Counters) : Counters := { c with burst := c.burst + BitVec.ofNat 32 n }

theorem addBursts_succ (n : Nat) (c : Counters) : addBursts n (countBurst c) = addBursts (n + 1) c := by
  simp only [addBursts, countBurst, Counters.mk.injEq, true_and]
  rw [BitVec.ofNat_add, BitVec.add_assoc, BitVec.add_comm (BitVec.ofNat 32 n)]
  rfl

@[simp] theorem addBursts_zero (c : Counters) : addBursts 0 c = c := by simp [addBursts]

/-- What `SendBytes` does, whole (R152): nothing outside registers, bit count, burst counter, trace and panel. -/
theorem sendBytes_eq (bs : List Byte) (s : State) :
    sendBytes bs s =
      { s with
        w := (burstChunks s.par bs).foldl loadWords s.w
        bitlen := (burstChunks s.par bs).foldl (fun _ c => 8 * c.length) s.bitlen
        cnt := addBursts (burstChunks s.par bs).length s.cnt
        trace := s.trace ++
          (burstChunks s.par bs).flatMap fun c => c.map (.tx (dcLine s)) ++ [.burstTx (8 * c.length)]
        panel := panelAfter s ((burstChunks s.par bs).flatten.map fun b => (dcLine s, b)) } := by
  unfold sendBytes
  generalize burstChunks s.par bs = cs
  induction cs generalizing s with
  | nil => simp
  | cons c cs ih =>
    rw [List.foldl_cons, ih, sendBurst_eq]
    by_cases hs : s.sel = some .display
    · cases hp : s.panel <;>
        simp [panelAfter, hs, hp, addBursts_succ, dcLine, panelHears_append, List.append_assoc]
    · simp [panelAfter, hs, addBursts_succ, dcLine, List.append_assoc]

end Sys2Proof.Machine
end

