-- ==== Sys2Proof/Laws/Drain.lean ====
section
/-! SUPPORT. The common opening, said once (spec/40_bus_transport.md R145, R146, R155 to R158): how a wait for the
outstanding transfer ends, and what an operation that opens with a drain can do. -/

namespace Sys2Proof.Machine

/-! ## The wait -/

/-- A wait that ends by completion. -/
theorem awaitDma_done (s : State) (h : WaitCompletes s) : awaitDma s = (.ok, drained s) := by
  unfold awaitDma drained
  cases hd : s.dma with
  | idle => rfl
  | inFlight bs o =>
    have he : nextEnd s.env = none := by simpa [WaitCompletes, hd] using h
    simp only [he, dmaComplete, shiftAll_eq, emit, Prod.mk.injEq, true_and, dataRun, atData, List.append_assoc]
    rfl

/-- A wait that ends by the timeout. -/
theorem awaitDma_timeout (s : State) (bs : List Byte) (o : DmaOwner) (k : Nat) (hd : s.dma = .inFlight bs o)
    (he : nextEnd s.env = some k) : awaitDma s = (.dmaTimeout, abandoned k s) := by
  simp only [awaitDma, abandoned, hd, he, dmaAbort, shiftAll_eq, emit, dataRun, atData, List.append_assoc]
  rfl

/-- A wait ends one of two ways. -/
theorem awaitDma_cases (s : State) : (WaitCompletes s ∧ awaitDma s = (.ok, drained s)) ∨
    ∃ bs o k, s.dma = .inFlight bs o ∧ nextEnd s.env = some k ∧ awaitDma s = (.dmaTimeout, abandoned k s) := by
  cases hd : s.dma with
  | idle => exact .inl ⟨.inl hd, awaitDma_done s (.inl hd)⟩
  | inFlight bs o =>
    cases he : nextEnd s.env with
    | none => exact .inl ⟨.inr he, awaitDma_done s (.inr he)⟩
    | some k => exact .inr ⟨bs, o, k, rfl, rfl, awaitDma_timeout s bs o k hd he⟩

theorem drained_idle (s : State) (h : s.dma = .idle) : drained s = { s with loan := none } := by
  simp [drained, h]

theorem drained_inFlight (s : State) (bs : List Byte) (o : DmaOwner) (h : s.dma = .inFlight bs o) :
    drained s =
      { s with
        dma := .idle
        loan := none
        env := popEnd s.env
        trace := s.trace ++ (dataRun bs ++ [.dmaDone])
        panel := panelAfter s (atData bs) } := by
  simp [drained, h]

@[simp] theorem drained_w (s : State) : (drained s).w = s.w := by unfold drained; split <;> rfl
@[simp] theorem drained_bitlen (s : State) : (drained s).bitlen = s.bitlen := by unfold drained; split <;> rfl
@[simp] theorem drained_sel (s : State) : (drained s).sel = s.sel := by unfold drained; split <;> rfl
@[simp] theorem drained_dc (s : State) : (drained s).dc = s.dc := by unfold drained; split <;> rfl
@[simp] theorem drained_clock (s : State) : (drained s).clock = s.clock := by unfold drained; split <;> rfl
@[simp] theorem drained_cfg (s : State) : (drained s).cfg = s.cfg := by unfold drained; split <;> rfl
@[simp] theorem drained_dma (s : State) : (drained s).dma = .idle := by
  unfold drained
  split
  · assumption
  · rfl
@[simp] theorem drained_scratch (s : State) : (drained s).scratch = s.scratch := by unfold drained; split <;> rfl
@[simp] theorem drained_inhibit (s : State) : (drained s).inhibit = s.inhibit := by unfold drained; split <;> rfl
@[simp] theorem drained_last (s : State) : (drained s).last = s.last := by unfold drained; split <;> rfl
@[simp] theorem drained_ef (s : State) : (drained s).ef = s.ef := by unfold drained; split <;> rfl
@[simp] theorem drained_result (s : State) : (drained s).result = s.result := by unfold drained; split <;> rfl
@[simp] theorem drained_cnt (s : State) : (drained s).cnt = s.cnt := by unfold drained; split <;> rfl
@[simp] theorem drained_op (s : State) : (drained s).op = s.op := by unfold drained; split <;> rfl
@[simp] theorem drained_mem (s : State) : (drained s).mem = s.mem := by unfold drained; split <;> rfl
@[simp] theorem drained_regions (s : State) : (drained s).regions = s.regions := by unfold drained; split <;> rfl
@[simp] theorem drained_loan (s : State) : (drained s).loan = none := by unfold drained; split <;> rfl
@[simp] theorem drained_par (s : State) : (drained s).par = s.par := by unfold drained; split <;> rfl
@[simp] theorem drained_host (s : State) : (drained s).host = s.host := by unfold drained; split <;> rfl

@[simp] theorem abandoned_w (k : Nat) (s : State) : (abandoned k s).w = s.w := by unfold abandoned; split <;> rfl
@[simp] theorem abandoned_bitlen (k : Nat) (s : State) : (abandoned k s).bitlen = s.bitlen := by
  unfold abandoned; split <;> rfl
@[simp] theorem abandoned_sel (k : Nat) (s : State) : (abandoned k s).sel = s.sel := by unfold abandoned; split <;> rfl
@[simp] theorem abandoned_dc (k : Nat) (s : State) : (abandoned k s).dc = s.dc := by unfold abandoned; split <;> rfl
@[simp] theorem abandoned_clock (k : Nat) (s : State) : (abandoned k s).clock = s.clock := by
  unfold abandoned; split <;> rfl
@[simp] theorem abandoned_cfg (k : Nat) (s : State) : (abandoned k s).cfg = s.cfg := by unfold abandoned; split <;> rfl
@[simp] theorem abandoned_dma (k : Nat) (s : State) : (abandoned k s).dma = .idle := by
  unfold abandoned
  split
  · assumption
  · rfl
@[simp] theorem abandoned_scratch (k : Nat) (s : State) : (abandoned k s).scratch = s.scratch := by
  unfold abandoned; split <;> rfl
@[simp] theorem abandoned_inhibit (k : Nat) (s : State) : (abandoned k s).inhibit = s.inhibit := by
  unfold abandoned; split <;> rfl
@[simp] theorem abandoned_last (k : Nat) (s : State) : (abandoned k s).last = s.last := by
  unfold abandoned; split <;> rfl
@[simp] theorem abandoned_result (k : Nat) (s : State) : (abandoned k s).result = s.result := by
  unfold abandoned; split <;> rfl
@[simp] theorem abandoned_cnt (k : Nat) (s : State) : (abandoned k s).cnt = s.cnt := by unfold abandoned; split <;> rfl
@[simp] theorem abandoned_op (k : Nat) (s : State) : (abandoned k s).op = s.op := by unfold abandoned; split <;> rfl
@[simp] theorem abandoned_mem (k : Nat) (s : State) : (abandoned k s).mem = s.mem := by unfold abandoned; split <;> rfl
@[simp] theorem abandoned_regions (k : Nat) (s : State) : (abandoned k s).regions = s.regions := by
  unfold abandoned; split <;> rfl
@[simp] theorem abandoned_par (k : Nat) (s : State) : (abandoned k s).par = s.par := by unfold abandoned; split <;> rfl
@[simp] theorem abandoned_host (k : Nat) (s : State) : (abandoned k s).host = s.host := by
  unfold abandoned; split <;> rfl

/-! ## The opening -/

section
variable {α : Type} {late : State → State} {pre : State → Except Refusal α} {body : α → State → Status × State}
  {s t : State}

/-- The drain ends well and the preconditions hold: the body runs. -/
theorem opening_run (v : α) (h : WaitCompletes s) (hp : pre (drained s) = .ok v) :
    opening late pre body s = .next (finish (body v (drained s)).1 (body v (drained s)).2) := by
  simp only [opening, awaitDma_done s h, hp]

/-- The drain ends well and a precondition fails: no meaning. -/
theorem opening_refused (r : Refusal) (h : WaitCompletes s) (hp : pre (drained s) = .error r) :
    opening late pre body s = .refused r := by
  simp only [opening, awaitDma_done s h, hp]

/-- The drain times out: nothing but the failure. -/
theorem opening_timeout (bs : List Byte) (o : DmaOwner) (k : Nat) (hd : s.dma = .inFlight bs o)
    (he : nextEnd s.env = some k) : opening late pre body s = .next (fail .dmaTimeout (late (abandoned k s))) := by
  simp only [opening, awaitDma_timeout s bs o k hd he]

/-- What an operation that answers a next state has done. -/
theorem opening_next (h : opening late pre body s = .next t) :
    (WaitCompletes s ∧ ∃ v, pre (drained s) = .ok v ∧
        t = finish (body v (drained s)).1 (body v (drained s)).2) ∨
      ∃ bs o k, s.dma = .inFlight bs o ∧ nextEnd s.env = some k ∧ t = fail .dmaTimeout (late (abandoned k s)) := by
  rcases awaitDma_cases s with ⟨hw, -⟩ | ⟨bs, o, k, hd, he, -⟩
  · cases hp : pre (drained s) with
    | ok v =>
      rw [opening_run v hw hp] at h
      exact .inl ⟨hw, v, rfl, (Host.Outcome.next.inj h).symm⟩
    | error r =>
      rw [opening_refused r hw hp] at h
      cases h
  · rw [opening_timeout bs o k hd he] at h
    exact .inr ⟨bs, o, k, hd, he, (Host.Outcome.next.inj h).symm⟩

/-- An opening never faults. -/
theorem opening_no_fault (f : Fault) : opening late pre body s ≠ .fault f := by
  intro h
  rcases awaitDma_cases s with ⟨hw, -⟩ | ⟨bs, o, k, hd, he, -⟩
  · cases hp : pre (drained s) with
    | ok v => rw [opening_run v hw hp] at h; cases h
    | error r => rw [opening_refused r hw hp] at h; cases h
  · rw [opening_timeout bs o k hd he] at h; cases h

end

/-! ## Preconditions -/

@[simp] theorem require_ok_iff (c : Bool) (r : Refusal) : require c r = .ok () ↔ c = true := by
  cases c <;> simp [require]

theorem bind_ok_iff {α β : Type} (x : Except Refusal α) (f : α → Except Refusal β) (b : β) :
    (x >>= f) = .ok b ↔ ∃ a, x = .ok a ∧ f a = .ok b := by
  cases x with
  | ok a => exact ⟨fun h => ⟨a, rfl, h⟩, fun ⟨_, h, hf⟩ => by cases h; exact hf⟩
  | error e => exact ⟨fun h => (by cases h), fun ⟨_, h, _⟩ => (by cases h)⟩

theorem bind_unit_ok_iff {β : Type} (x : Except Refusal Unit) (f : Unit → Except Refusal β) (b : β) :
    (x >>= f) = .ok b ↔ x = .ok () ∧ f () = .ok b := by
  rw [bind_ok_iff]
  exact ⟨fun ⟨_, h⟩ => h, fun h => ⟨(), h⟩⟩

@[simp] theorem valueOf_ok_iff {α : Type} (v : Option α) (f : Field) (a : α) : valueOf v f = .ok a ↔ v = some a := by
  cases v <;> simp [valueOf]

theorem requireDisplay_iff (s : State) : requireDisplay s = .ok () ↔ s.sel = some .display := by
  simp [requireDisplay]

theorem requireBuffer_iff (addr len : Nat) (s : State) :
    requireBuffer addr len s = .ok () ↔ BufferOwned addr len s := by
  simp only [requireBuffer, bind_unit_ok_iff, require_ok_iff, BufferOwned]
  by_cases h : len = 0
  · simp [h]
  · simp [h, regionHolds]

theorem requireDmaCapable_iff (addr len : Nat) (s : State) :
    requireDmaCapable addr len s = .ok () ↔ BufferDmaCapable addr len s := by
  simp [requireDmaCapable, BufferDmaCapable, regionHolds]

theorem insidePanel_iff (e : Half) (dim : Option Half) : insidePanel e dim = true ↔ ∀ d, dim = some d → e < d := by
  cases dim <;> simp [insidePanel]

theorem requireWindow_iff (w : Window) (s : State) : requireWindow w s = .ok () ↔ WindowFits w s := by
  simp only [requireWindow, bind_unit_ok_iff, require_ok_iff, WindowFits, Bool.and_eq_true, decide_eq_true_eq,
    insidePanel_iff, and_assoc]

theorem requirePanelTakes_iff (cmd : Byte) (n : Nat) (s : State) :
    requirePanelTakes cmd n s = .ok () ↔ PanelTakes cmd n s := by
  unfold requirePanelTakes PanelTakes
  cases hp : s.panel with
  | none => simp
  | some p =>
    by_cases hc : cmd = s.par.cmdRamwr ∨ cmd = s.par.cmdRamrd
    · cases ha : panelArea p with
      | none => simp [hc, ha]
      | some area =>
        simp only [hc, if_true, ha, require_ok_iff, Bool.or_eq_true, bne_iff_ne, decide_eq_true_eq]
        constructor
        · rintro h q hq -
          cases hq
          exact ⟨area, ha, fun he => h.resolve_left fun hn => hn he⟩
        · intro h
          obtain ⟨a, h1, h2⟩ := h p rfl trivial
          rw [ha] at h1
          cases h1
          by_cases he : cmd = s.par.cmdRamwr
          · exact .inr (h2 he)
          · exact .inl he
    · simp [hc]

theorem requirePanelFormat_iff (m : Depth) (s : State) :
    requirePanelFormat m s = .ok () ↔ ∀ p, s.panel = some p → p.fmt = fmtOfDepth m := by
  unfold requirePanelFormat
  cases s.panel <;> simp

theorem requirePanelPush_iff (m : Depth) (count : Nat) (s : State) :
    requirePanelPush m count s = .ok () ↔ PanelTakesPush m count s := by
  simp only [requirePanelPush, bind_unit_ok_iff, requirePanelFormat_iff, requirePanelTakes_iff, PanelTakesPush]

theorem requirePanelRead_iff (w : Window) (count : Nat) (s : State) :
    requirePanelRead w count s = .ok () ↔ PanelGives w count s := by
  unfold requirePanelRead PanelGives
  cases s.panel with
  | none => simp
  | some p =>
    simp only [bind_unit_ok_iff, require_ok_iff, decide_eq_true_eq, Option.isSome_iff_ne_none, ne_eq, reduceCtorEq,
      not_false_eq_true, forall_const]

theorem pushMode_iff (s : State) (m : Depth) (g : Bool) :
    pushMode s = .ok (m, g) ↔ s.sel = some .display ∧ s.cfg.depth = some m ∧ s.cfg.gray = some g := by
  simp only [pushMode, bind_unit_ok_iff, requireDisplay_iff]
  simp only [bind_ok_iff, valueOf_ok_iff, Except.ok.injEq, Prod.mk.injEq]
  constructor
  · rintro ⟨h, m', hm, g', hg, rfl, rfl⟩
    exact ⟨h, hm, hg⟩
  · rintro ⟨h, hm, hg⟩
    exact ⟨h, m, hm, g, hg, rfl, rfl⟩

end Sys2Proof.Machine
end

