-- ==== Sys2Proof/Laws/Memory.lean ====
section
/-! SUPPORT. Sparse maps and host memory (spec/20_memory.md R60, R65): a read after a write, and the canonical form. -/

namespace Sys2Proof.Machine

/-- The keys of a sparse map rise strictly. -/
abbrev Rising {α : Type} (m : List (Nat × α)) : Prop := m.Pairwise fun c d => c.1 < d.1

theorem sparseInsert_mem {α : Type} (k : Nat) (v : α) (m : List (Nat × α)) (x : Nat × α)
    (h : x ∈ sparseInsert k v m) : x = (k, v) ∨ x ∈ m := by
  induction m with
  | nil => simpa [sparseInsert] using h
  | cons y ys ih =>
    simp only [sparseInsert] at h
    split at h
    · simpa using h
    · split at h
      · rcases List.mem_cons.mp h with h | h
        · exact .inl h
        · exact .inr (List.mem_cons_of_mem _ h)
      · rcases List.mem_cons.mp h with h | h
        · exact .inr (h ▸ List.mem_cons_self)
        · exact (ih h).imp_right (List.mem_cons_of_mem _)

theorem sparseErase_mem {α : Type} (k : Nat) (m : List (Nat × α)) (x : Nat × α) (h : x ∈ sparseErase k m) :
    x ∈ m := by
  induction m with
  | nil => simp [sparseErase] at h
  | cons y ys ih =>
    simp only [sparseErase] at h
    split at h
    · exact List.mem_cons_of_mem _ h
    · rcases List.mem_cons.mp h with h | h
      · exact h ▸ List.mem_cons_self
      · exact List.mem_cons_of_mem _ (ih h)

theorem sparseInsert_rising {α : Type} (k : Nat) (v : α) (m : List (Nat × α)) (h : Rising m) :
    Rising (sparseInsert k v m) := by
  induction m with
  | nil => simp [sparseInsert, Rising]
  | cons y ys ih =>
    have hy := List.pairwise_cons.mp h
    simp only [sparseInsert]
    split
    · rename_i hlt
      refine List.pairwise_cons.mpr ⟨fun x hx => ?_, h⟩
      rcases List.mem_cons.mp hx with rfl | hx
      · exact hlt
      · exact Nat.lt_trans hlt (hy.1 x hx)
    · split
      · rename_i heq
        exact List.pairwise_cons.mpr ⟨fun x hx => heq ▸ hy.1 x hx, hy.2⟩
      · refine List.pairwise_cons.mpr ⟨fun x hx => ?_, ih hy.2⟩
        rcases sparseInsert_mem _ _ _ _ hx with rfl | hx
        · show y.1 < k
          omega
        · exact hy.1 x hx

theorem sparseErase_rising {α : Type} (k : Nat) (m : List (Nat × α)) (h : Rising m) : Rising (sparseErase k m) := by
  induction m with
  | nil => simp [sparseErase, Rising]
  | cons y ys ih =>
    have hy := List.pairwise_cons.mp h
    simp only [sparseErase]
    split
    · exact hy.2
    · exact List.pairwise_cons.mpr ⟨fun x hx => hy.1 x (sparseErase_mem _ _ _ hx), ih hy.2⟩

theorem sparseFind_insert_same {α : Type} (k : Nat) (v : α) (m : List (Nat × α)) :
    sparseFind k (sparseInsert k v m) = some v := by
  induction m with
  | nil => simp [sparseInsert, sparseFind]
  | cons y ys ih =>
    simp only [sparseInsert]
    split
    · simp [sparseFind]
    · split
      · simp [sparseFind]
      · rename_i hne
        simp [sparseFind, hne, ih]

theorem sparseFind_insert_other {α : Type} (k j : Nat) (v : α) (m : List (Nat × α)) (h : j ≠ k) :
    sparseFind j (sparseInsert k v m) = sparseFind j m := by
  induction m with
  | nil => simp [sparseInsert, sparseFind, h]
  | cons y ys ih =>
    simp only [sparseInsert]
    split
    · simp [sparseFind, h]
    · split
      · rename_i heq
        simp [sparseFind, h, ← heq]
      · simp only [sparseFind, ih]

theorem sparseFind_none {α : Type} (k : Nat) (m : List (Nat × α)) (h : ∀ x ∈ m, k < x.1) : sparseFind k m = none := by
  induction m with
  | nil => rfl
  | cons y ys ih =>
    have := h y List.mem_cons_self
    simp only [sparseFind]
    rw [if_neg (by omega)]
    exact ih fun x hx => h x (List.mem_cons_of_mem _ hx)

theorem sparseFind_erase_same {α : Type} (k : Nat) (m : List (Nat × α)) (h : Rising m) :
    sparseFind k (sparseErase k m) = none := by
  induction m with
  | nil => rfl
  | cons y ys ih =>
    have hy := List.pairwise_cons.mp h
    simp only [sparseErase]
    split
    · rename_i heq
      exact sparseFind_none k ys fun x hx => heq ▸ hy.1 x hx
    · rename_i hne
      simp only [sparseFind, if_neg hne]
      exact ih hy.2

theorem sparseFind_erase_other {α : Type} (k j : Nat) (m : List (Nat × α)) (h : j ≠ k) :
    sparseFind j (sparseErase k m) = sparseFind j m := by
  induction m with
  | nil => rfl
  | cons y ys ih =>
    simp only [sparseErase]
    split
    · rename_i heq
      simp [sparseFind, ← heq, h]
    · simp only [sparseFind, ih]

/-! ## Host memory -/

theorem Memory.wf_iff (m : Memory) : Memory.wf m = true ↔ Rising m ∧ ∀ c ∈ m, c.2 ≠ unlistedByte := by
  simp [Memory.wf, Rising]

/-- A write keeps the canonical form. -/
theorem writeByte_wf (m : Memory) (a : Nat) (b : Byte) (h : Memory.wf m = true) :
    Memory.wf (writeByte m a b) = true := by
  rw [Memory.wf_iff] at h ⊢
  unfold writeByte
  split
  · exact ⟨sparseErase_rising _ _ h.1, fun c hc => h.2 c (sparseErase_mem _ _ _ hc)⟩
  · rename_i hb
    refine ⟨sparseInsert_rising _ _ _ h.1, fun c hc => ?_⟩
    rcases sparseInsert_mem _ _ _ _ hc with rfl | hc
    · exact hb
    · exact h.2 c hc

/-- A read of the byte just written gives it. -/
theorem readByte_writeByte_same (m : Memory) (a : Nat) (b : Byte) (h : Memory.wf m = true) :
    readByte (writeByte m a b) a = b := by
  rw [Memory.wf_iff] at h
  unfold writeByte readByte
  split
  · rename_i hb
    rw [sparseFind_erase_same _ _ h.1, hb]
    rfl
  · rw [sparseFind_insert_same]
    rfl

/-- A write leaves every other byte alone. -/
theorem readByte_writeByte_other (m : Memory) (a c : Nat) (b : Byte) (h : c ≠ a) :
    readByte (writeByte m a b) c = readByte m c := by
  unfold writeByte readByte
  split
  · rw [sparseFind_erase_other _ _ _ h]
  · rw [sparseFind_insert_other _ _ _ _ h]

/-- A run of writes keeps the canonical form. -/
theorem memWrite_wf (m : Memory) (a : Nat) (bs : List Byte) (h : Memory.wf m = true) :
    Memory.wf (memWrite m a bs) = true := by
  induction bs generalizing m a with
  | nil => exact h
  | cons b bs ih => exact ih _ _ (writeByte_wf m a b h)

/-- A run of writes leaves every byte outside it alone. -/
theorem readByte_memWrite_outside (m : Memory) (a c : Nat) (bs : List Byte) (h : c < a ∨ a + bs.length ≤ c) :
    readByte (memWrite m a bs) c = readByte m c := by
  induction bs generalizing m a with
  | nil => rfl
  | cons b bs ih =>
    have hl : (b :: bs).length = bs.length + 1 := rfl
    rw [memWrite, ih _ _ (by omega), readByte_writeByte_other _ _ _ _ (by omega)]

/-- A run of writes is read back where it stands. -/
theorem readByte_memWrite_inside (m : Memory) (a k : Nat) (bs : List Byte) (h : Memory.wf m = true)
    (hk : k < bs.length) : readByte (memWrite m a bs) (a + k) = bs.getD k 0 := by
  induction bs generalizing m a k with
  | nil => simp at hk
  | cons b bs ih =>
    match k with
    | 0 =>
      rw [memWrite, readByte_memWrite_outside _ _ _ _ (by omega)]
      simpa using readByte_writeByte_same m a b h
    | j + 1 =>
      rw [memWrite, show a + (j + 1) = a + 1 + j by omega, ih _ _ j (writeByte_wf m a b h) (by simpa using hk)]
      rfl

/-- A run of wrapping writes keeps the canonical form. -/
theorem memWriteWrapped_wf (top : Nat) (m : Memory) (a : Nat) (bs : List Byte) (h : Memory.wf m = true) :
    Memory.wf (memWriteWrapped top m a bs) = true := by
  induction bs generalizing m a with
  | nil => exact h
  | cons b bs ih => exact ih _ _ (writeByte_wf m _ b h)

/-- A run of wrapping writes leaves every byte it does not reach alone. -/
theorem readByte_memWriteWrapped_outside (top : Nat) (m : Memory) (a c : Nat) (bs : List Byte)
    (h : ∀ k < bs.length, c ≠ (a + k) % top) : readByte (memWriteWrapped top m a bs) c = readByte m c := by
  induction bs generalizing m a with
  | nil => rfl
  | cons b bs ih =>
    have h0 : c ≠ a % top := by simpa using h 0 (by simp)
    have h1 : ∀ k < bs.length, c ≠ (a + 1 + k) % top := fun k hk => by
      rw [show a + 1 + k = a + (k + 1) by omega]
      exact h (k + 1) (by simpa using hk)
    rw [memWriteWrapped, ih _ _ h1, readByte_writeByte_other _ _ _ _ h0]

/-- Reading a whole run back. -/
theorem memRead_memWrite (m : Memory) (a : Nat) (bs : List Byte) (h : Memory.wf m = true) :
    memRead (memWrite m a bs) a bs.length = bs := by
  apply List.ext_getElem
  · simp [memRead]
  · intro k h1 h2
    simp only [memRead, List.getElem_map, List.getElem_range]
    rw [readByte_memWrite_inside m a k bs h h2]
    simp [List.getD_eq_getElem?_getD, h2]

@[simp] theorem memRead_length (m : Memory) (a n : Nat) : (memRead m a n).length = n := by simp [memRead]

@[simp] theorem drawBytes_length (n : Nat) (e : Env) : (drawBytes n e).1.length = n := by
  induction n generalizing e with
  | zero => rfl
  | succ n ih => simp [drawBytes, ih]

end Sys2Proof.Machine
end

