-- ==== Sys2Proof/Laws/Receive.lean ====
section
/-! SUPPORT. Receive bursts: what a receive does, said once (spec/40_bus_transport.md R151, R153; 20_memory.md R87). -/

namespace Sys2Proof.Machine

/-- Two environments with the same answers to come, but for the received bytes. -/
abbrev SameScripts (e e' : Env) : Prop :=
  e'.acks = e.acks ∧ e'.allocs = e.allocs ∧ e'.turns = e.turns ∧ e'.ends = e.ends

/-- Two panels, or none, that differ at most in their read position. -/
abbrev SamePicture (p p' : Option Panel) : Prop :=
  p'.isSome = p.isSome ∧ p'.map Panel.gram = p.map Panel.gram ∧ p'.map Panel.fmt = p.map Panel.fmt

theorem popByte_scripts (e : Env) : SameScripts e (popByte e) := by
  unfold popByte
  split <;> exact ⟨rfl, rfl, rfl, rfl⟩

theorem panelAdvance_gram (p : Panel) : (panelAdvance p).gram = p.gram := by
  unfold panelAdvance
  split
  · split
    · rfl
    · split <;> rfl
  · rfl

theorem panelAdvance_fmt (p : Panel) : (panelAdvance p).fmt = p.fmt := by
  unfold panelAdvance
  split
  · split
    · rfl
    · split <;> rfl
  · rfl

theorem panelReadAdvance_gram (par : Config.Params) (p : Panel) : (panelReadAdvance par p).gram = p.gram := by
  unfold panelReadAdvance
  split
  · split
    · rfl
    · rfl
    · rfl
    · rw [panelAdvance_gram]
  · rfl

theorem panelReadAdvance_fmt (par : Config.Params) (p : Panel) : (panelReadAdvance par p).fmt = p.fmt := by
  unfold panelReadAdvance
  split
  · split
    · rfl
    · rfl
    · rfl
    · rw [panelAdvance_fmt]
  · rfl

/-- One received byte: its event, one draw, and the panel's read position. -/
theorem shiftIn_spec (s : State) : ∃ env panel, SameScripts s.env env ∧ SamePicture s.panel panel ∧
    (shiftIn s).2 = { s with env := env, panel := panel, trace := s.trace ++ [.rx (shiftIn s).1] } := by
  unfold shiftIn
  cases hp : s.panel with
  | none => exact ⟨_, none, popByte_scripts _, ⟨rfl, rfl, rfl⟩, by simp [emit]⟩
  | some p =>
    match hs : s.sel with
    | none => exact ⟨_, some p, popByte_scripts _, ⟨rfl, rfl, rfl⟩, by simp [emit]⟩
    | some .touch => exact ⟨_, some p, popByte_scripts _, ⟨rfl, rfl, rfl⟩, by simp [emit]⟩
    | some .display =>
      refine ⟨_, some (panelReadAdvance s.par p), popByte_scripts _, ⟨rfl, ?_, ?_⟩, by simp [emit]⟩
      · simp [panelReadAdvance_gram]
      · simp [panelReadAdvance_fmt]

/-- A run of received bytes. -/
theorem shiftInAll_spec (n : Nat) (s : State) : (shiftInAll n s).1.length = n ∧
    ∃ env panel, SameScripts s.env env ∧ SamePicture s.panel panel ∧
      (shiftInAll n s).2 =
        { s with env := env, panel := panel, trace := s.trace ++ (shiftInAll n s).1.map .rx } := by
  induction n generalizing s with
  | zero => exact ⟨rfl, s.env, s.panel, ⟨rfl, rfl, rfl, rfl⟩, ⟨rfl, rfl, rfl⟩, by simp [shiftInAll]⟩
  | succ n ih =>
    obtain ⟨env1, panel1, he1, hp1, h1⟩ := shiftIn_spec s
    obtain ⟨hl, env2, panel2, he2, hp2, h2⟩ := ih (shiftIn s).2
    refine ⟨by simp [shiftInAll, hl], env2, panel2, ?_, ?_, ?_⟩
    · simp only [h1] at he2
      exact ⟨he2.1.trans he1.1, he2.2.1.trans he1.2.1, he2.2.2.1.trans he1.2.2.1, he2.2.2.2.trans he1.2.2.2⟩
    · simp only [h1] at hp2
      exact ⟨hp2.1.trans hp1.1, hp2.2.1.trans hp1.2.1, hp2.2.2.trans hp1.2.2⟩
    · simp only [shiftInAll]
      rw [h2]
      simp only [h1, List.map_cons, List.append_assoc, List.singleton_append]

/-- The bytes of a burst of a known length are the ones that were loaded. -/
theorem burstBytes_of_length {n : Nat} (w : List Word) (bs : List Byte) (h : bs.length = n) :
    burstBytes (loadWords w bs) n = bs := by
  subst h
  exact burstBytes_loadWords w bs

/-- One receive burst (R151): the bytes received are the ones the registers hold. -/
theorem startBurstRx_spec (n : Nat) (s : State) : ∃ bs env panel, bs.length = n ∧ SameScripts s.env env ∧
    SamePicture s.panel panel ∧ burstBytes (startBurstRx n s).w n = bs ∧
    startBurstRx n s =
      { s with
        w := loadWords s.w bs
        bitlen := 8 * n
        cnt := countBurst s.cnt
        trace := s.trace ++ (bs.map .rx ++ [.burstRx (8 * n)])
        env := env
        panel := panel } := by
  obtain ⟨hl, env, panel, he, hp, h⟩ := shiftInAll_spec n { s with bitlen := 8 * n, cnt := countBurst s.cnt }
  refine ⟨_, env, panel, hl, he, hp, ?_, ?_⟩
  · simp only [startBurstRx, emit]
    rw [h]
    simp only
    exact burstBytes_of_length _ _ hl
  · simp only [startBurstRx, emit]
    rw [h]
    simp only [List.append_assoc]

/-- The receive bursts of a list of sizes (R153). -/
theorem recvBursts_spec (ns : List Nat) (s : State) : ∃ cs env panel, cs.map List.length = ns ∧
    SameScripts s.env env ∧ SamePicture s.panel panel ∧ (recvBursts ns s).1 = cs.flatten ∧
    (recvBursts ns s).2 =
      { s with
        w := cs.foldl loadWords s.w
        bitlen := cs.foldl (fun _ c => 8 * c.length) s.bitlen
        cnt := addBursts cs.length s.cnt
        trace := s.trace ++ receiveRun cs
        env := env
        panel := panel } := by
  induction ns generalizing s with
  | nil => exact ⟨[], s.env, s.panel, rfl, ⟨rfl, rfl, rfl, rfl⟩, ⟨rfl, rfl, rfl⟩, rfl, by simp [recvBursts, receiveRun]⟩
  | cons n ns ih =>
    obtain ⟨bs, env1, panel1, hl, he1, hp1, hb, h1⟩ := startBurstRx_spec n s
    obtain ⟨cs, env2, panel2, hls, he2, hp2, hf, h2⟩ := ih (startBurstRx n s)
    refine ⟨bs :: cs, env2, panel2, by simp [hl, hls], ?_, ?_, ?_, ?_⟩
    · simp only [h1] at he2
      exact ⟨he2.1.trans he1.1, he2.2.1.trans he1.2.1, he2.2.2.1.trans he1.2.2.1, he2.2.2.2.trans he1.2.2.2⟩
    · simp only [h1] at hp2
      exact ⟨hp2.1.trans hp1.1, hp2.2.1.trans hp1.2.1, hp2.2.2.trans hp1.2.2⟩
    · simp only [recvBursts, List.flatten_cons, hb, hf]
    · simp only [recvBursts]
      rw [h2, h1]
      simp [receiveRun, hl, addBursts_succ, List.append_assoc]

/-- The sizes of the bursts that receive `n` bytes add up to `n`. -/
theorem burstSizes_sum (p : Config.Params) (hp : 0 < p.nwords) (n : Nat) : (burstSizes p n).sum = n := by
  have h := congrArg List.length (burstChunks_flatten p hp (List.replicate n 0))
  simpa [burstSizes, List.length_flatten] using h

/-- What `RecvBytes` does, whole (R153): the bytes come in runs `cs` of the burst sizes, and nothing changes outside
registers, bit count, burst counter, trace, byte draws and the panel's read position. -/
theorem recvBytes_spec (n : Nat) (s : State) : ∃ cs env panel, cs.map List.length = burstSizes s.par n ∧
    SameScripts s.env env ∧ SamePicture s.panel panel ∧ (recvBytes n s).1 = cs.flatten ∧
    (recvBytes n s).2 =
      { s with
        w := cs.foldl loadWords s.w
        bitlen := cs.foldl (fun _ c => 8 * c.length) s.bitlen
        cnt := addBursts cs.length s.cnt
        trace := s.trace ++ receiveRun cs
        env := env
        panel := panel } := recvBursts_spec _ s

/-- `RecvBytes(n)` returns `n` bytes. -/
theorem recvBytes_length (n : Nat) (s : State) (hp : 0 < s.par.nwords) : (recvBytes n s).1.length = n := by
  obtain ⟨cs, _, _, hl, _, _, hf, _⟩ := recvBytes_spec n s
  rw [hf, List.length_flatten, hl, burstSizes_sum _ hp]

end Sys2Proof.Machine
end

