-- ==== Sys2Proof/Laws/Bus.lean ====
section
/-! SUPPORT. The bus procedures, each said once as an equation of states or as a list of its outcomes: command and data
frames, the window frame (spec/41_address_window.md R180), selection (40 R141, R143), and the relation `Bus` of a state
to one reached from it by bus traffic alone. -/

namespace Sys2Proof.Machine

/-! ## Frames -/

/-- A payload that fits one burst goes out as one. -/
theorem sendBytes_small (bs : List Byte) (s : State) (h : bs ≠ []) (hl : bs.length ≤ 4 * s.par.nwords) :
    sendBytes bs s = sendBurst s bs := by
  simp [sendBytes, burstChunks_small _ _ h hl]

theorem panelAfter_congr {s t : State} (h : t.sel = s.sel) (hp : t.par = s.par) (hq : t.panel = s.panel)
    (bs : List (DcLevel × Byte)) : panelAfter t bs = panelAfter s bs := by
  simp only [panelAfter, h, hp, hq]

theorem panelAfter_append {s t : State} (xs ys : List (DcLevel × Byte)) (h : t.sel = s.sel) (hp : t.par = s.par)
    (hq : t.panel = panelAfter s xs) : panelAfter t ys = panelAfter s (xs ++ ys) := by
  simp only [panelAfter, h, hp, hq]
  split
  · cases s.panel <;> simp [panelHears_append]
  · rfl

/-- The opening of a pixel payload: the memory-write command, then the line in the data state. -/
theorem openWrite_eq (s : State) :
    openWrite s =
      { s with
        dc := some .data
        w := s.par.cmdRamwr.zeroExtend 32 :: s.w.drop 1
        bitlen := 8
        cnt := countBurst s.cnt
        trace := s.trace ++ commandFrame s.par.cmdRamwr
        panel := panelAfter s [(.command, s.par.cmdRamwr)] } := by
  simp only [openWrite, sendCommand_eq, setDC]

/-- A direct burst at the data level. -/
theorem sendBurst_data_eq (s : State) (bs : List Byte) (h : s.dc = some .data) :
    sendBurst s bs =
      { s with
        w := loadWords s.w bs
        bitlen := 8 * bs.length
        cnt := countBurst s.cnt
        trace := s.trace ++ dataBurst bs
        panel := panelAfter s (atData bs) } := by
  have hd : dcLine s = .data := by simp [dcLine, h]
  rw [sendBurst_eq, hd]
  rfl

/-- A command frame and a data frame that fits one burst. -/
theorem sendAxis_eq (cmd : Byte) (a b : Half) (s : State) (hn : 0 < s.par.nwords) :
    sendAxis cmd a b s =
      { s with
        dc := some .data
        w := packWord (a.extractLsb' 8 8) (a.extractLsb' 0 8) (b.extractLsb' 8 8) (b.extractLsb' 0 8) :: s.w.drop 1
        bitlen := 32
        cnt := addBursts 2 s.cnt
        trace := s.trace ++ (commandFrame cmd ++ dataBurst (axisBytes a b))
        panel := panelAfter s ((.command, cmd) :: atData (axisBytes a b)) } := by
  have h1 : axisBytes a b ≠ [] := by simp [axisBytes]
  have h2 : (axisBytes a b).length = 4 := rfl
  unfold sendAxis
  rw [sendBytes_small _ _ h1 (by simp only [setDC_par, sendCommand_eq, h2]; omega), sendBurst_data_eq _ _ rfl,
    panelAfter_append (s := s) [(.command, cmd)] (atData (axisBytes a b)) (by simp [sendCommand_eq])
      (by simp [sendCommand_eq]) (by simp [sendCommand_eq])]
  simp only [sendCommand_eq, setDC, List.append_assoc, loadWords, axisBytes, packWords, List.length_cons,
    List.length_nil, List.drop_succ_cons, List.drop_zero, List.cons_append, List.nil_append, ← addBursts_succ,
    addBursts_zero]

/-- Both axes of a window. -/
theorem sendAxes_eq (c1 c2 : Byte) (a b c d : Half) (s : State) (hn : 0 < s.par.nwords) :
    sendAxis c2 c d (sendAxis c1 a b s) =
      { s with
        dc := some .data
        w := packWord (c.extractLsb' 8 8) (c.extractLsb' 0 8) (d.extractLsb' 8 8) (d.extractLsb' 0 8) :: s.w.drop 1
        bitlen := 32
        cnt := addBursts 4 s.cnt
        trace := s.trace ++ (commandFrame c1 ++ dataBurst (axisBytes a b) ++ commandFrame c2 ++
          dataBurst (axisBytes c d))
        panel := panelAfter s
          ((.command, c1) :: atData (axisBytes a b) ++ (.command, c2) :: atData (axisBytes c d)) } := by
  have hc : ∀ c : Counters, addBursts 2 (addBursts 2 c) = addBursts 4 c := by
    intro c
    simp only [← addBursts_succ, addBursts_zero]
  rw [sendAxis_eq c2 _ _ _ (by rw [sendAxis_eq _ _ _ _ hn]; exact hn),
    panelAfter_append (s := s) ((.command, c1) :: atData (axisBytes a b)) _
      (by simp [sendAxis_eq _ _ _ _ hn]) (by simp [sendAxis_eq _ _ _ _ hn]) (by simp [sendAxis_eq _ _ _ _ hn])]
  simp only [sendAxis_eq _ _ _ _ hn, hc, List.drop_succ_cons, List.drop_zero, List.append_assoc]

/-- The window frame (R180, R181, R183). -/
theorem windowFrame_eq (w : Window) (s : State) (hn : 0 < s.par.nwords) :
    windowFrame w s =
      { s with
        dc := some .data
        w := packWord (w.rs.extractLsb' 8 8) (w.rs.extractLsb' 0 8) (w.re.extractLsb' 8 8) (w.re.extractLsb' 0 8)
          :: s.w.drop 1
        bitlen := 32
        cnt := addBursts 4 s.cnt
        inhibit := if s.par.preemptGuard then false else s.inhibit
        trace := s.trace ++ windowTrace s.par w
        panel := panelAfter s (windowBytes s.par w) } := by
  cases hg : s.par.preemptGuard with
  | false =>
    simp only [windowFrame, guardTo, hg, Bool.false_eq_true, if_false, sendAxes_eq _ _ _ _ _ _ _ hn, windowTrace,
      windowBytes, List.append_assoc, List.append_nil, List.nil_append]
  | true =>
    have hn1 : 0 < (emit (.inh true) { s with inhibit := true }).par.nwords := hn
    simp only [windowFrame, guardTo, hg, if_true, sendAxes_eq _ _ _ _ _ _ _ hn1]
    simp only [emit, windowTrace, windowBytes, hg, if_true, List.append_assoc]
    rfl

/-! ## What bus traffic keeps -/

/-- A panel, or none, after bus traffic: its format stands, and its pixel map stays in canonical form. -/
abbrev PanelEvolves (p p' : Option Panel) : Prop :=
  p'.map Panel.fmt = p.map Panel.fmt ∧
    ((∀ q, p = some q → Rising q.gram) → ∀ q, p' = some q → Rising q.gram)

theorem PanelEvolves.refl (p : Option Panel) : PanelEvolves p p := ⟨rfl, id⟩

theorem PanelEvolves.trans {p q r : Option Panel} (h : PanelEvolves p q) (k : PanelEvolves q r) : PanelEvolves p r :=
  ⟨k.1.trans h.1, fun hp => k.2 (h.2 hp)⟩

theorem gramOk_iff (s : State) : gramOk s = true ↔ ∀ q, s.panel = some q → Rising q.gram := by
  unfold gramOk
  cases s.panel <;> simp [Rising]

theorem panelTx_spec (par : Config.Params) (v : DcLevel) (b : Byte) (p : Panel) :
    (panelTx par v b p).fmt = p.fmt ∧ (Rising p.gram → Rising (panelTx par v b p).gram) := by
  cases v with
  | command =>
    simp only [panelTx, panelCommand]
    split
    · exact ⟨rfl, id⟩
    · split
      · exact ⟨rfl, id⟩
      · exact ⟨rfl, id⟩
  | data =>
    simp only [panelTx, panelData]
    split
    · exact ⟨rfl, id⟩
    · split
      · exact ⟨rfl, id⟩
      · split
        · exact ⟨rfl, id⟩
        · split
          · unfold panelPixelByte
            simp only
            split
            · exact ⟨panelAdvance_fmt _, fun h => by rw [panelAdvance_gram]; exact sparseInsert_rising _ _ _ h⟩
            · exact ⟨rfl, id⟩
            · exact ⟨rfl, id⟩
          · exact ⟨rfl, id⟩

theorem panelHears_spec (par : Config.Params) (bs : List (DcLevel × Byte)) (p : Panel) :
    (panelHears par bs p).fmt = p.fmt ∧ (Rising p.gram → Rising (panelHears par bs p).gram) := by
  induction bs generalizing p with
  | nil => exact ⟨rfl, id⟩
  | cons x xs ih =>
    have h := panelTx_spec par x.1 x.2 p
    have k := ih (panelTx par x.1 x.2 p)
    exact ⟨k.1.trans h.1, fun hp => k.2 (h.2 hp)⟩

theorem panelAfter_evolves (s : State) (bs : List (DcLevel × Byte)) : PanelEvolves s.panel (panelAfter s bs) := by
  unfold panelAfter
  split
  · cases hp : s.panel with
    | none => exact ⟨rfl, fun _ => by simp⟩
    | some p =>
      refine ⟨by simp [(panelHears_spec s.par bs p).1], fun h q hq => ?_⟩
      cases hq
      exact (panelHears_spec s.par bs p).2 (h p rfl)
  · exact PanelEvolves.refl _

theorem SamePicture.evolves {p p' : Option Panel} (h : SamePicture p p') : PanelEvolves p p' := by
  refine ⟨h.2.2, fun hp q hq => ?_⟩
  have hg := h.2.1
  rw [hq] at hg
  cases hpp : p with
  | none => rw [hpp] at hg; simp at hg
  | some r =>
    rw [hpp] at hg
    have : q.gram = r.gram := by simpa using hg
    rw [this]
    exact hp r hpp

theorem panelDeselect_evolves (p : Option Panel) : PanelEvolves p (p.map panelDeselect) := by
  cases p with
  | none => exact ⟨rfl, fun _ => by simp⟩
  | some r => exact ⟨rfl, fun h q hq => by cases hq; exact h r rfl⟩

/-- The sticky flags after bus traffic: none is cleared, and the flag of illegal descriptors stands. -/
abbrev FlagsGrow (e e' : ErrFlags) : Prop :=
  (e.sel = true → e'.sel = true) ∧ (e.dmaTo = true → e'.dmaTo = true) ∧ (e.alloc = true → e'.alloc = true) ∧
    e'.illegal = e.illegal

/-- `t` is `s` after bus traffic: what may differ is the bus (registers, line, selection, clock, counters), the trace,
the panel, the environment's answers and the sticky flags. -/
structure Traffic (s t : State) : Prop where
  par : t.par = s.par
  mem : t.mem = s.mem
  regions : t.regions = s.regions
  host : t.host = s.host
  op : t.op = s.op
  cfg : t.cfg = s.cfg
  result : t.result = s.result
  last : t.last = s.last
  scratch : t.scratch = s.scratch
  inhibit : s.inhibit = false → t.inhibit = false
  dma : s.dma = .idle → t.dma = .idle
  loan : s.loan = none → t.loan = none
  regs : 0 < s.par.nwords → RegsOk s → RegsOk t
  panel : PanelEvolves s.panel t.panel
  trace : s.trace <+: t.trace
  flags : FlagsGrow s.ef t.ef

/-- Bus traffic without a push. -/
structure Bus (s t : State) : Prop extends Traffic s t where
  direct : t.cnt.direct = s.cnt.direct
  queued : t.cnt.dma = s.cnt.dma

theorem Traffic.refl (s : State) : Traffic s s :=
  ⟨rfl, rfl, rfl, rfl, rfl, rfl, rfl, rfl, rfl, id, id, id, fun _ h => h, PanelEvolves.refl _,
    List.prefix_refl _, id, id, id, rfl⟩

theorem Traffic.trans {s t u : State} (h : Traffic s t) (k : Traffic t u) : Traffic s u where
  par := k.par.trans h.par
  mem := k.mem.trans h.mem
  regions := k.regions.trans h.regions
  host := k.host.trans h.host
  op := k.op.trans h.op
  cfg := k.cfg.trans h.cfg
  result := k.result.trans h.result
  last := k.last.trans h.last
  scratch := k.scratch.trans h.scratch
  inhibit := fun x => k.inhibit (h.inhibit x)
  dma := fun x => k.dma (h.dma x)
  loan := fun x => k.loan (h.loan x)
  regs := fun n x => k.regs (h.par ▸ n) (h.regs n x)
  panel := h.panel.trans k.panel
  trace := h.trace.trans k.trace
  flags := ⟨fun x => k.flags.1 (h.flags.1 x), fun x => k.flags.2.1 (h.flags.2.1 x),
    fun x => k.flags.2.2.1 (h.flags.2.2.1 x), k.flags.2.2.2.trans h.flags.2.2.2⟩

theorem Bus.refl (s : State) : Bus s s := ⟨Traffic.refl s, rfl, rfl⟩

theorem Bus.trans {s t u : State} (h : Bus s t) (k : Bus t u) : Bus s u :=
  ⟨h.toTraffic.trans k.toTraffic, k.direct.trans h.direct, k.queued.trans h.queued⟩

theorem regsOk_load (p : Config.Params) (w : List Word) (c : List Byte) (hw : w.length = p.nwords)
    (hc : c.length ≤ 4 * p.nwords) : (loadWords w c).length = p.nwords := by
  rw [loadWords_length _ _ (hw ▸ hc), hw]

theorem regsOk_loads (p : Config.Params) (cs : List (List Byte)) (w : List Word) (hw : w.length = p.nwords)
    (hc : ∀ c ∈ cs, c.length ≤ 4 * p.nwords) : (cs.foldl loadWords w).length = p.nwords := by
  induction cs generalizing w with
  | nil => exact hw
  | cons c cs ih =>
    exact ih _ (regsOk_load p w c hw (hc c (by simp))) fun d hd => hc d (by simp [hd])

theorem regsOk_bits (p : Config.Params) (cs : List (List Byte)) (n : Nat) (hn : n ≤ 32 * p.nwords ∧ n % 8 = 0)
    (hc : ∀ c ∈ cs, c.length ≤ 4 * p.nwords) :
    (cs.foldl (fun _ c => 8 * c.length) n) ≤ 32 * p.nwords ∧ (cs.foldl (fun _ c => 8 * c.length) n) % 8 = 0 := by
  induction cs generalizing n with
  | nil => exact hn
  | cons c cs ih =>
    have h := hc c (by simp)
    exact ih (8 * c.length) ⟨by omega, by omega⟩ fun d hd => hc d (by simp [hd])

theorem bus_sendCommand (b : Byte) (s : State) : Bus s (sendCommand b s) := by
  rw [sendCommand_eq]
  refine ⟨⟨rfl, rfl, rfl, rfl, rfl, rfl, rfl, rfl, rfl, id, id, id, fun n h => ⟨?_, ?_, Nat.mod_self 8⟩,
    panelAfter_evolves _ _, List.prefix_append _ _, id, id, id, rfl⟩, rfl, rfl⟩
  · have := h.1
    simp only [List.length_cons, List.length_drop]
    omega
  · show 8 ≤ 32 * s.par.nwords
    omega

theorem bus_setDC (v : DcLevel) (s : State) : Bus s (setDC v s) :=
  ⟨⟨rfl, rfl, rfl, rfl, rfl, rfl, rfl, rfl, rfl, id, id, id, fun _ h => h, PanelEvolves.refl _,
    List.prefix_refl _, id, id, id, rfl⟩, rfl, rfl⟩

theorem bus_sendBytes (bs : List Byte) (s : State) : Bus s (sendBytes bs s) := by
  rw [sendBytes_eq]
  refine ⟨⟨rfl, rfl, rfl, rfl, rfl, rfl, rfl, rfl, rfl, id, id, id, fun n h => ⟨?_, ?_⟩,
    panelAfter_evolves _ _, List.prefix_append _ _, id, id, id, rfl⟩, rfl, rfl⟩
  · exact regsOk_loads _ _ _ h.1 fun c hc => burstChunks_length_le _ _ _ hc
  · exact regsOk_bits _ _ _ h.2 fun c hc => burstChunks_length_le _ _ _ hc

theorem bus_windowFrame (w : Window) (s : State) (hn : 0 < s.par.nwords) : Bus s (windowFrame w s) := by
  rw [windowFrame_eq w s hn]
  refine ⟨⟨rfl, rfl, rfl, rfl, rfl, rfl, rfl, rfl, rfl, fun h => ?_, id, id, fun n h => ⟨?_, ?_, Nat.mul_mod_right 8 4⟩,
    panelAfter_evolves _ _, List.prefix_append _ _, id, id, id, rfl⟩, rfl, rfl⟩
  · simp [h]
  · have := h.1
    simp only [List.length_cons, List.length_drop]
    omega
  · show 32 ≤ 32 * s.par.nwords
    omega

theorem bus_setClock (hz : Word) (s : State) : Bus s (setClock hz s) :=
  ⟨⟨rfl, rfl, rfl, rfl, rfl, rfl, rfl, rfl, rfl, id, id, id, fun _ h => h, PanelEvolves.refl _,
    List.prefix_append _ _, id, id, id, rfl⟩, rfl, rfl⟩

theorem bus_recvBytes (n : Nat) (s : State) : Bus s (recvBytes n s).2 := by
  obtain ⟨cs, env, panel, hl, -, hp, -, h⟩ := recvBytes_spec n s
  have hc : ∀ c ∈ cs, c.length ≤ 4 * s.par.nwords := by
    intro c hc
    have : c.length ∈ burstSizes s.par n := hl ▸ List.mem_map.mpr ⟨c, hc, rfl⟩
    obtain ⟨d, hd, he⟩ := List.mem_map.mp this
    exact he ▸ burstChunks_length_le _ _ _ hd
  rw [h]
  refine ⟨⟨rfl, rfl, rfl, rfl, rfl, rfl, rfl, rfl, rfl, id, id, id, fun n h => ⟨?_, ?_⟩,
    hp.evolves, List.prefix_append _ _, id, id, id, rfl⟩, rfl, rfl⟩
  · exact regsOk_loads _ _ _ h.1 hc
  · exact regsOk_bits _ _ _ h.2 hc

theorem bus_drained (s : State) : Bus s (drained s) := by
  unfold drained
  split
  · exact ⟨⟨rfl, rfl, rfl, rfl, rfl, rfl, rfl, rfl, rfl, id, id, fun _ => rfl, fun _ h => h,
      PanelEvolves.refl _, List.prefix_refl _, id, id, id, rfl⟩, rfl, rfl⟩
  · exact ⟨⟨rfl, rfl, rfl, rfl, rfl, rfl, rfl, rfl, rfl, id, fun _ => rfl, fun _ => rfl, fun _ h => h,
      panelAfter_evolves _ _, List.prefix_append _ _, id, id, id, rfl⟩, rfl, rfl⟩

theorem bus_abandoned (k : Nat) (s : State) : Bus s (abandoned k s) := by
  unfold abandoned
  split
  · exact Bus.refl s
  · exact ⟨⟨rfl, rfl, rfl, rfl, rfl, rfl, rfl, rfl, rfl, id, fun _ => rfl, fun _ => rfl, fun _ h => h,
      panelAfter_evolves _ _, List.prefix_append _ _, id, fun _ => rfl, id, rfl⟩, rfl, rfl⟩

/-! ## Selection -/

/-- What `Select` does (R141). -/
theorem select_cases (d : Dev) (s : State) :
    (s.sel = some d ∧ select d s = (.ok, s)) ∨
    (s.sel ≠ some d ∧ nextAck s.env = true ∧
      select d s = (.ok, { s with env := popAck s.env, sel := some d, trace := s.trace ++ [.sel d] })) ∨
    (s.sel ≠ some d ∧ nextAck s.env = false ∧
      select d s = (.selectFail, { s with env := popAck s.env, ef := { s.ef with sel := true } })) := by
  unfold select
  by_cases h : s.sel = some d
  · exact .inl ⟨h, by simp [h]⟩
  · cases ha : nextAck s.env with
    | true => exact .inr (.inl ⟨h, rfl, by simp [h, emit]⟩)
    | false => exact .inr (.inr ⟨h, rfl, by simp [h]⟩)

/-- What `Deselect` does (R143). -/
theorem deselect_cases (d : Dev) (s : State) :
    (s.sel = none ∧ deselect d s = (.ok, s)) ∨
    (s.sel ≠ none ∧ nextAck s.env = true ∧
      deselect d s =
        (.ok,
          { s with
            env := popAck s.env
            sel := none
            trace := s.trace ++ [.desel d]
            panel := if d = .display then s.panel.map panelDeselect else s.panel })) ∨
    (s.sel ≠ none ∧ nextAck s.env = false ∧
      deselect d s = (.deselectFail, { s with env := popAck s.env, ef := { s.ef with sel := true } })) := by
  unfold deselect
  by_cases h : s.sel = none
  · exact .inl ⟨h, by simp [h]⟩
  · cases ha : nextAck s.env with
    | true => exact .inr (.inl ⟨h, rfl, by simp [h, emit]⟩)
    | false => exact .inr (.inr ⟨h, rfl, by simp [h]⟩)

theorem bus_select (d : Dev) (s : State) : Bus s (select d s).2 := by
  rcases select_cases d s with ⟨-, h⟩ | ⟨-, -, h⟩ | ⟨-, -, h⟩ <;> rw [h]
  · exact Bus.refl s
  · exact ⟨⟨rfl, rfl, rfl, rfl, rfl, rfl, rfl, rfl, rfl, id, id, id, fun _ h => h, PanelEvolves.refl _,
      List.prefix_append _ _, id, id, id, rfl⟩, rfl, rfl⟩
  · exact ⟨⟨rfl, rfl, rfl, rfl, rfl, rfl, rfl, rfl, rfl, id, id, id, fun _ h => h, PanelEvolves.refl _,
      List.prefix_refl _, fun _ => rfl, id, id, rfl⟩, rfl, rfl⟩

theorem bus_deselect (d : Dev) (s : State) : Bus s (deselect d s).2 := by
  rcases deselect_cases d s with ⟨-, h⟩ | ⟨-, -, h⟩ | ⟨-, -, h⟩ <;> rw [h]
  · exact Bus.refl s
  · refine ⟨⟨rfl, rfl, rfl, rfl, rfl, rfl, rfl, rfl, rfl, id, id, id, fun _ h => h, ?_,
      List.prefix_append _ _, id, id, id, rfl⟩, rfl, rfl⟩
    cases d
    · exact panelDeselect_evolves _
    · exact PanelEvolves.refl _
  · exact ⟨⟨rfl, rfl, rfl, rfl, rfl, rfl, rfl, rfl, rfl, id, id, id, fun _ h => h, PanelEvolves.refl _,
      List.prefix_refl _, fun _ => rfl, id, id, rfl⟩, rfl, rfl⟩

end Sys2Proof.Machine
end

