-- ==== Sys2Proof/Laws/Push.lean ====
section
/-! SUPPORT. Pixel pushes, said once (spec/43_pixel_push.md): lengths of wire streams, the direct path (R214), the DMA
path (R215, R216), the chunk loop (R220, R221) and the repeated fill (R218, R219). -/

namespace Sys2Proof.Machine

/-! ## Lengths -/

@[simp] theorem wireBytes_length (m : Depth) (g : Bool) (c : Color) : (wireBytes m g c).length = depthBytes m := by
  cases m <;> rfl

@[simp] theorem wireStream_length (m : Depth) (g : Bool) (cs : List Color) :
    (wireStream m g cs).length = cs.length * depthBytes m := by
  induction cs with
  | nil => simp [wireStream]
  | cons c cs ih =>
    have h : wireStream m g (c :: cs) = wireBytes m g c ++ wireStream m g cs := by simp [wireStream]
    rw [h, List.length_append, ih, wireBytes_length, List.length_cons]
    ring

@[simp] theorem repeatBytes_length (px : List Byte) (n : Nat) : (repeatBytes px n).length = n * px.length := by
  simp [repeatBytes]

theorem repeatBytes_add (px : List Byte) (a b : Nat) :
    repeatBytes px (a + b) = repeatBytes px a ++ repeatBytes px b := by
  rw [repeatBytes, List.replicate_add, List.flatten_append]
  rfl

/-- A prefix of the fill buffer is the repetition of fewer pixels. -/
theorem repeatBytes_take (px : List Byte) (p n : Nat) (h : n ≤ p) :
    (repeatBytes px p).take (n * px.length) = repeatBytes px n := by
  obtain ⟨k, rfl⟩ : ∃ k, p = n + k := ⟨p - n, by omega⟩
  rw [repeatBytes_add, List.take_append_of_le_length (by simp), List.take_of_length_le (by simp)]

theorem colorsOf_length (n : Nat) (bs : List Byte) (h : bs.length = 3 * n) : (colorsOf bs).length = n := by
  induction n generalizing bs with
  | zero =>
    have : bs = [] := List.length_eq_zero_iff.mp h
    subst this
    rfl
  | succ n ih =>
    match bs, h with
    | a :: b :: c :: rest, h =>
      simp only [colorsOf, List.length_cons]
      rw [ih rest (by simp only [List.length_cons] at h; omega)]

@[simp] theorem readColors_length (addr count : Nat) (s : State) : (readColors addr count s).length = count :=
  colorsOf_length _ _ (by simp)

theorem goesDirect_iff (p : Config.Params) (m : Depth) (count : Nat) :
    goesDirect p m count = true ↔ count * depthBytes m ≤ 4 * p.nwords := by
  have h : goesDirect p m count = decide (count * (8 * depthBytes m) ≤ 32 * p.nwords) := rfl
  rw [h, decide_eq_true_eq, show count * (8 * depthBytes m) = 8 * (count * depthBytes m) by ring]
  omega

/-! ## The direct path (R214) -/

/-- Command frame and payload in one burst. -/
theorem pushDirect_openWrite (bs : List Byte) (s : State) (h : bs ≠ []) (hl : bs.length ≤ 4 * s.par.nwords) :
    pushDirect bs (openWrite s) =
      { s with
        dc := some .data
        w := loadWords (s.par.cmdRamwr.zeroExtend 32 :: s.w.drop 1) bs
        bitlen := 8 * bs.length
        cnt := countBurst (countDirect (countBurst s.cnt))
        trace := s.trace ++ (commandFrame s.par.cmdRamwr ++ dataBurst bs)
        panel := panelAfter s ((.command, s.par.cmdRamwr) :: atData bs) } := by
  unfold pushDirect
  rw [sendBytes_small _ _ h (by simp only [openWrite_eq]; exact hl),
    sendBurst_data_eq _ _ (by simp only [openWrite_eq]),
    panelAfter_append (s := s) [(.command, s.par.cmdRamwr)] (atData bs) (by simp only [openWrite_eq])
      (by simp only [openWrite_eq]) (by simp only [openWrite_eq])]
  simp only [openWrite_eq, List.append_assoc]
  rfl

/-! ## The DMA path of PUSH_BUF (R215, R216) -/

/-- The payload is queued. -/
theorem pushStream_queue (bs : List Byte) (l : Option (Nat × Nat)) (s : State) :
    pushStream false bs l false s =
      (.ok,
        { s with
          dc := some .data
          w := s.par.cmdRamwr.zeroExtend 32 :: s.w.drop 1
          bitlen := 8
          cnt := countDma (countBurst s.cnt)
          trace := s.trace ++ (commandFrame s.par.cmdRamwr ++ [.dmaQ bs.length])
          panel := panelAfter s [(.command, s.par.cmdRamwr)]
          dma := .inFlight bs .caller
          loan := l }) := by
  simp only [pushStream, openWrite_eq, dmaQueue, emit, List.append_assoc, Bool.false_eq_true, if_false]

/-- The payload is queued and awaited. -/
theorem pushStream_wait (bs : List Byte) (l : Option (Nat × Nat)) (s : State) :
    pushStream false bs l true s = awaitDma (pushStream false bs l false s).2 := by
  simp only [pushStream, Bool.false_eq_true, if_false, if_true]

theorem pushStream_direct (bs : List Byte) (l : Option (Nat × Nat)) (wait : Bool) (s : State) :
    pushStream true bs l wait s = (.ok, pushDirect bs (openWrite s)) := by
  simp only [pushStream, if_true]

/-- The awaited DMA path where the transfer completes. -/
theorem pushStream_done (bs : List Byte) (l : Option (Nat × Nat)) (s : State) (he : nextEnd s.env = none) :
    pushStream false bs l true s =
      (.ok,
        { s with
          dc := some .data
          w := s.par.cmdRamwr.zeroExtend 32 :: s.w.drop 1
          bitlen := 8
          cnt := countDma (countBurst s.cnt)
          env := popEnd s.env
          trace := s.trace ++ (commandFrame s.par.cmdRamwr ++ dmaFrame bs)
          panel := panelAfter s ((.command, s.par.cmdRamwr) :: atData bs)
          dma := .idle
          loan := none }) := by
  have hq := pushStream_queue bs l s
  rw [pushStream_wait, awaitDma_done _ (.inr (by rw [hq]; exact he)), drained_inFlight _ bs .caller (by rw [hq]),
    panelAfter_append (s := s) (t := (pushStream false bs l false s).2) [(.command, s.par.cmdRamwr)] (atData bs)
      (by rw [hq]) (by rw [hq]) (by rw [hq]), hq]
  simp only [List.append_assoc, dmaFrame, List.cons_append, List.nil_append]

/-- The awaited DMA path where the wait times out after `k` bytes. -/
theorem pushStream_timeout (bs : List Byte) (l : Option (Nat × Nat)) (s : State) (k : Nat)
    (he : nextEnd s.env = some k) :
    pushStream false bs l true s =
      (.dmaTimeout,
        { s with
          dc := some .data
          w := s.par.cmdRamwr.zeroExtend 32 :: s.w.drop 1
          bitlen := 8
          cnt := countDma (countBurst s.cnt)
          env := popEnd s.env
          ef := { s.ef with dmaTo := true }
          trace := s.trace ++ (commandFrame s.par.cmdRamwr ++
            .dmaQ bs.length :: (dataRun (bs.take k) ++ [.dmaAbort (min k bs.length)]))
          panel := panelAfter s ((.command, s.par.cmdRamwr) :: atData (bs.take k))
          dma := .idle
          loan := none }) := by
  have hq := pushStream_queue bs l s
  rw [pushStream_wait, awaitDma_timeout _ bs .caller k (by rw [hq]) (by rw [hq]; exact he)]
  have hp := panelAfter_append (s := s) (t := (pushStream false bs l false s).2) [(.command, s.par.cmdRamwr)]
    (atData (bs.take k)) (by rw [hq]) (by rw [hq]) (by rw [hq])
  rw [hq] at hp ⊢
  simp only [abandoned, hp]
  simp only [List.append_assoc, List.cons_append, List.nil_append]

/-! ## The repeated fill -/

/-- What the chunk loop does, however it ends: nothing but DMA traffic, and no transfer, loan or buffer is left. -/
theorem fillLoop_spec (fill : List Byte) (b : Nat) (ns : List Nat) (s : State) :
    ∃ (e : Env) (tr : List Event) (p : Option Panel) (n : Word) (ef : ErrFlags), PanelEvolves s.panel p ∧
      (((fillLoop fill b ns s).1 = .ok ∧ ef = s.ef) ∨
        ((fillLoop fill b ns s).1 = .dmaTimeout ∧ ef = { s.ef with dmaTo := true })) ∧
      (fillLoop fill b ns s).2 =
        { s with
          dma := .idle
          loan := none
          scratch := none
          env := e
          trace := s.trace ++ tr
          panel := p
          ef := ef
          cnt := { s.cnt with dma := s.cnt.dma + n } } := by
  induction ns generalizing s with
  | nil =>
    rcases awaitDma_cases s with ⟨-, h⟩ | ⟨bs, o, k, hd, -, h⟩
    · cases hd : s.dma with
      | idle =>
        refine ⟨s.env, [], s.panel, 0, s.ef, PanelEvolves.refl _, .inl ⟨?_, rfl⟩, ?_⟩
        · simp [fillLoop, h]
        · simp [fillLoop, h, drained_idle s hd, hd]
      | inFlight bs o =>
        refine ⟨popEnd s.env, dataRun bs ++ [.dmaDone], _, 0, s.ef, panelAfter_evolves s (atData bs), .inl ⟨?_, rfl⟩,
          ?_⟩
        · simp [fillLoop, h]
        · simp [fillLoop, h, drained_inFlight s bs o hd]
    · refine ⟨popEnd s.env, dataRun (bs.take k) ++ [.dmaAbort (min k bs.length)], _, 0, _,
      panelAfter_evolves s (atData (bs.take k)), .inr ⟨?_, rfl⟩, ?_⟩
      · simp [fillLoop, h]
      · simp [fillLoop, h, abandoned, hd]
  | cons n ns ih =>
    rcases awaitDma_cases s with ⟨-, h⟩ | ⟨bs, o, k, hd, -, h⟩
    · obtain ⟨e, tr, p, m, ef, hp, hst, ht⟩ := ih (dmaQueue (fill.take (n * b)) .scratch (drained s))
      have hb := bus_drained s
      refine ⟨e, ?_, p, 1 + m, ef, ?_, ?_, ?_⟩
      · exact (match s.dma with
          | .idle => []
          | .inFlight bs _ => dataRun bs ++ [.dmaDone]) ++ .dmaQ (fill.take (n * b)).length :: tr
      · exact hb.panel.trans hp
      · simpa [fillLoop, h] using hst
      · simp only [fillLoop, h, ht]
        cases hd : s.dma with
        | idle =>
          simp [drained_idle s hd, dmaQueue, emit, countDma, BitVec.add_assoc]
        | inFlight bs o =>
          simp [drained_inFlight s bs o hd, dmaQueue, emit, countDma, BitVec.add_assoc]
    · refine ⟨popEnd s.env, dataRun (bs.take k) ++ [.dmaAbort (min k bs.length)], _, 0, _,
      panelAfter_evolves s (atData (bs.take k)), .inr ⟨?_, rfl⟩, ?_⟩
      · simp [fillLoop, h]
      · simp [fillLoop, h, abandoned, hd]

/-- A chunk loop that ends well has sent every chunk, in order. -/
theorem fillLoop_ok (fill : List Byte) (b : Nat) (ns : List Nat) (s : State) (h : (fillLoop fill b ns s).1 = .ok) :
    ∃ e, (fillLoop fill b ns s).2 =
      { drained s with
        scratch := none
        env := e
        cnt := { s.cnt with dma := s.cnt.dma + BitVec.ofNat 32 ns.length }
        trace := (drained s).trace ++ ns.flatMap fun n => dmaFrame (fill.take (n * b))
        panel := panelAfter (drained s) (atData (ns.flatMap fun n => fill.take (n * b))) } := by
  induction ns generalizing s with
  | nil =>
    rcases awaitDma_cases s with ⟨-, ha⟩ | ⟨bs, o, k, hd, -, ha⟩
    · exact ⟨(drained s).env, by cases hd : s.dma <;> simp [fillLoop, ha, atData, drained, hd]⟩
    · simp [fillLoop, ha] at h
  | cons n ns ih =>
    rcases awaitDma_cases s with ⟨-, ha⟩ | ⟨bs, o, k, hd, -, ha⟩
    · simp only [fillLoop, ha] at h ⊢
      obtain ⟨e, he⟩ := ih _ h
      refine ⟨e, he.trans ?_⟩
      have hp : ∀ ys, panelAfter (drained (dmaQueue (fill.take (n * b)) .scratch (drained s))) ys =
          panelAfter (drained s) (atData (fill.take (n * b)) ++ ys) := by
        intro ys
        rw [drained_inFlight (dmaQueue (fill.take (n * b)) .scratch (drained s)) (fill.take (n * b)) .scratch rfl]
        exact panelAfter_append (s := drained s) _ _ rfl rfl (panelAfter_congr rfl rfl rfl _)
      rw [hp]
      rw [drained_inFlight (dmaQueue (fill.take (n * b)) .scratch (drained s)) (fill.take (n * b)) .scratch rfl]
      simp only [dmaQueue, emit, countDma, drained_cnt, List.flatMap_cons, atData, List.map_append, dmaFrame,
        List.append_assoc, List.cons_append, List.nil_append, List.length_cons, drained_dma, drained_loan]
      have : s.cnt.dma + 1 + BitVec.ofNat 32 ns.length = s.cnt.dma + BitVec.ofNat 32 (ns.length + 1) := by
        rw [BitVec.ofNat_add, BitVec.add_assoc, BitVec.add_comm (BitVec.ofNat 32 ns.length)]
        rfl
      rw [this]
    · simp [fillLoop, ha] at h

/-- With no timeout the chunk loop ends well. -/
theorem fillLoop_status (fill : List Byte) (b : Nat) (ns : List Nat) (s : State) (hi : s.dma = .idle)
    (h : NoTimeouts ns.length s) : (fillLoop fill b ns s).1 = .ok := by
  have key : ∀ (ns : List Nat) (s : State), NoTimeouts (ns.length + 1) s → (fillLoop fill b ns s).1 = .ok := by
    intro ns
    induction ns with
    | nil =>
      intro s h
      have hw : WaitCompletes s := by
        right
        cases he : s.env.ends with
        | nil => simp [NoTimeouts, he] at h
        | cons a rest => simp [NoTimeouts, he] at h; simp [nextEnd, he, h]
      simp [fillLoop, awaitDma_done s hw]
    | cons n ns ih =>
      intro s h
      cases he : s.env.ends with
      | nil => simp [NoTimeouts, he] at h
      | cons a rest =>
        simp only [NoTimeouts, he, List.length_cons, List.take_succ_cons, List.replicate_succ, List.cons.injEq] at h
        have hw : WaitCompletes s := .inr (by simp [nextEnd, he, h.1])
        simp only [fillLoop, awaitDma_done s hw]
        apply ih
        show List.take (ns.length + 1) (drained s).env.ends = _
        cases hd : s.dma with
        | idle =>
          simp only [drained_idle s hd, he, h.1, List.take_succ_cons, List.replicate_succ, List.cons.injEq, true_and]
          have h2 : rest.take (ns.length + 1) = List.replicate (ns.length + 1) none := by
            simpa [List.replicate_succ] using h.2
          have := congrArg (List.take ns.length) h2
          rwa [List.take_take, Nat.min_eq_left (Nat.le_succ _), List.take_replicate,
            Nat.min_eq_left (Nat.le_succ _)] at this
        | inFlight bs o =>
          simp only [drained_inFlight s bs o hd, popEnd, he, List.replicate_succ]
          simpa [List.replicate_succ] using h.2
  cases ns with
  | nil => simp [fillLoop, awaitDma_done s (.inl hi)]
  | cons n ns =>
    simp only [fillLoop, awaitDma_done s (.inl hi)]
    apply key
    show List.take (ns.length + 1) (drained s).env.ends = _
    simpa [drained_idle s hi] using h

/-- The transfers of a fill carry `count` pixels. -/
theorem fillSizes_sum (count p : Nat) : (fillSizes count p).sum = count := by
  have h := Nat.div_add_mod count p
  unfold fillSizes
  split
  · simp only [List.append_nil, List.sum_replicate, smul_eq_mul]
    rw [Nat.mul_comm]
    omega
  · simp only [List.sum_append, List.sum_replicate, smul_eq_mul, List.sum_cons, List.sum_nil]
    rw [Nat.mul_comm]
    omega

/-- No transfer carries more pixels than the buffer holds. -/
theorem fillSizes_le (count p : Nat) (hp : 0 < p) : ∀ n ∈ fillSizes count p, n ≤ p := by
  intro n hn
  unfold fillSizes at hn
  split at hn
  · rw [List.append_nil] at hn
    exact Nat.le_of_eq (List.eq_of_mem_replicate hn)
  · rcases List.mem_append.mp hn with h | h
    · have := List.mem_replicate.mp h
      omega
    · have := Nat.mod_lt count hp
      simp only [List.mem_singleton] at h
      omega

/-- The number of transfers is the quotient rounded up (R220). -/
theorem fillSizes_length (count p : Nat) (hp : 0 < p) : (fillSizes count p).length = (count + p - 1) / p := by
  have h := Nat.div_add_mod count p
  have hm := Nat.mod_lt count hp
  unfold fillSizes
  generalize count / p = q at *
  generalize count % p = r at *
  subst h
  split
  · rename_i h0
    subst h0
    rw [show p * q + 0 + p - 1 = p * q + (p - 1) by omega, Nat.mul_add_div hp, Nat.div_eq_of_lt (by omega)]
    simp
  · rw [show p * q + r + p - 1 = p * q + (p + (r - 1)) by omega, Nat.mul_add_div hp, Nat.add_div_left _ hp,
      Nat.div_eq_of_lt (by omega)]
    simp

/-- The chunks of a fill are the whole payload (R212). -/
theorem fillChunks (px : List Byte) (p : Nat) (ns : List Nat) (h : ∀ n ∈ ns, n ≤ p) :
    (ns.flatMap fun n => (repeatBytes px p).take (n * px.length)) = repeatBytes px ns.sum := by
  induction ns with
  | nil => simp [repeatBytes]
  | cons n ns ih =>
    rw [List.flatMap_cons, ih fun m hm => h m (by simp [hm]), repeatBytes_take px p n (h n (by simp)),
      List.sum_cons, repeatBytes_add]

/-! ## Wire projections -/

@[simp] theorem wireProjection_append (a b : List Event) :
    wireProjection (a ++ b) = wireProjection a ++ wireProjection b := by simp [wireProjection]

@[simp] theorem wireProjection_nil : wireProjection [] = [] := rfl

@[simp] theorem wireProjection_dataRun (bs : List Byte) : wireProjection (dataRun bs) = dataRun bs := by
  simp [wireProjection, dataRun, isWire]

@[simp] theorem wireProjection_dataBurst (bs : List Byte) : wireProjection (dataBurst bs) = dataRun bs := by
  rw [dataBurst, wireProjection_append, wireProjection_dataRun]
  simp [wireProjection, isWire]

@[simp] theorem wireProjection_commandFrame (b : Byte) : wireProjection (commandFrame b) = [.tx .command b] := rfl

@[simp] theorem wireProjection_dmaFrame (bs : List Byte) : wireProjection (dmaFrame bs) = dataRun bs := by
  have h : dmaFrame bs = [.dmaQ bs.length] ++ dataRun bs ++ [.dmaDone] := by simp [dmaFrame]
  rw [h, wireProjection_append, wireProjection_append, wireProjection_dataRun]
  simp [wireProjection, isWire]

theorem wireProjection_dmaFrames (f : Nat → List Byte) (ns : List Nat) :
    wireProjection (ns.flatMap fun n => dmaFrame (f n)) = dataRun (ns.flatMap f) := by
  induction ns with
  | nil => rfl
  | cons n ns ih => simp [ih, dataRun]

end Sys2Proof.Machine
end

