-- ==== Sys2Proof/Laws/Read.lean ====
section
/-! SUPPORT. The read sequence, said once (spec/44_pixel_read.md R240 to R248): what it keeps however it ends, how it
can end, and its whole effect when every acknowledge comes. -/

namespace Sys2Proof.Machine

/-! ## The receive -/

/-- Window, memory-read command and receive (R240). -/
theorem receiveFrame_spec (w : Window) (n : Nat) (s : State) (hn : 0 < s.par.nwords) :
    ∃ cs env panel, cs.map List.length = burstSizes s.par n ∧ SameScripts s.env env ∧
      PanelEvolves s.panel panel ∧ (receiveFrame w n s).1 = cs.flatten ∧
      (receiveFrame w n s).2 =
        { s with
          dc := some .command
          w := cs.foldl loadWords (s.par.cmdRamrd.zeroExtend 32 :: s.w.drop 1)
          bitlen := cs.foldl (fun _ c => 8 * c.length) 8
          cnt := addBursts (5 + cs.length) s.cnt
          inhibit := if s.par.preemptGuard then false else s.inhibit
          trace := s.trace ++ (windowTrace s.par w ++ commandFrame s.par.cmdRamrd ++ receiveRun cs)
          env := env
          panel := panel } := by
  obtain ⟨cs, env, panel, hl, he, hp, hb, h⟩ := recvBytes_spec n (sendCommand s.par.cmdRamrd (windowFrame w s))
  have hw := windowFrame_eq w s hn
  have hc := bus_sendCommand s.par.cmdRamrd (windowFrame w s)
  refine ⟨cs, env, panel, ?_, ?_, ?_, hb, ?_⟩
  · rw [hl, hc.par, hw]
  · simpa only [sendCommand_eq, hw] using he
  · exact ((bus_windowFrame w s hn).panel.trans hc.panel).trans hp.evolves
  · have ha : ∀ c : Counters, addBursts cs.length (countBurst (addBursts 4 c)) = addBursts (5 + cs.length) c := by
      intro c
      rw [addBursts_succ]
      simp only [addBursts, Counters.mk.injEq, true_and]
      rw [BitVec.add_assoc, ← BitVec.ofNat_add]
      congr 2
      omega
    unfold receiveFrame
    rw [h]
    simp only [sendCommand_eq, hw, ha, List.append_assoc, List.drop_succ_cons, List.drop_zero]

theorem bus_receiveFrame (w : Window) (n : Nat) (s : State) (hn : 0 < s.par.nwords) :
    Bus s (receiveFrame w n s).2 := by
  have h1 := bus_windowFrame w s hn
  have h2 := bus_sendCommand s.par.cmdRamrd (windowFrame w s)
  exact (h1.trans h2).trans (bus_recvBytes n _)

theorem receiveFrame_length (w : Window) (n : Nat) (s : State) (hn : 0 < s.par.nwords) :
    (receiveFrame w n s).1.length = n := by
  obtain ⟨cs, _, _, hl, -, -, hb, -⟩ := receiveFrame_spec w n s hn
  rw [hb, List.length_flatten, hl, burstSizes_sum _ hn]

/-! ## The adapter and the sequence, however they end -/

theorem bus_restoreClock (saved : Option Word) (s : State) : Bus s (restoreClock saved s) := by
  cases saved
  · exact Bus.refl s
  · exact bus_setClock _ s

theorem restoreClock_sel (saved : Option Word) (s : State) : (restoreClock saved s).sel = s.sel := by
  cases saved <;> rfl

theorem restoreClock_ef (saved : Option Word) (s : State) : (restoreClock saved s).ef = s.ef := by
  cases saved <;> rfl

/-- How the opening of the adapter ends (R240, R242). -/
theorem openAdapter_cases (clocks : Option (Word × Word)) (s : State) :
    (clocks = none ∧ openAdapter clocks s = (.ok, none, s)) ∨
    (∃ cur top, clocks = some (cur, top) ∧ ¬ top < cur ∧ (deselect .display s).1 = .ok ∧
      openAdapter clocks s = (.ok, none, (deselect .display s).2)) ∨
    (∃ cur top, clocks = some (cur, top) ∧ top < cur ∧ (deselect .display s).1 = .ok ∧
      openAdapter clocks s = (.ok, some cur, setClock top (deselect .display s).2)) ∨
    (∃ cur top, clocks = some (cur, top) ∧ (deselect .display s).1 = .deselectFail ∧
      openAdapter clocks s = (.deselectFail, none, (deselect .display s).2)) := by
  match clocks with
  | none => exact .inl ⟨rfl, rfl⟩
  | some (cur, top) =>
    right
    rcases deselect_cases .display s with ⟨-, h⟩ | ⟨-, -, h⟩ | ⟨-, -, h⟩
    · by_cases hc : top < cur
      · exact .inr (.inl ⟨cur, top, rfl, hc, by rw [h], by simp [openAdapter, h, hc]⟩)
      · exact .inl ⟨cur, top, rfl, hc, by rw [h], by simp [openAdapter, h, hc]⟩
    · by_cases hc : top < cur
      · exact .inr (.inl ⟨cur, top, rfl, hc, by rw [h], by simp [openAdapter, h, hc]⟩)
      · exact .inl ⟨cur, top, rfl, hc, by rw [h], by simp [openAdapter, h, hc]⟩
    · exact .inr (.inr ⟨cur, top, rfl, by rw [h], by simp [openAdapter, h]⟩)

theorem deselect_ok_sel (d : Dev) (s : State) (h : (deselect d s).1 = .ok) : (deselect d s).2.sel = none := by
  rcases deselect_cases d s with ⟨h1, h2⟩ | ⟨-, -, h2⟩ | ⟨-, -, h2⟩
  · rw [h2]; exact h1
  · rw [h2]
  · rw [h2] at h; cases h

theorem deselect_clock (d : Dev) (s : State) : (deselect d s).2.clock = s.clock := by
  rcases deselect_cases d s with ⟨-, h⟩ | ⟨-, -, h⟩ | ⟨-, -, h⟩ <;> rw [h]

theorem select_clock (d : Dev) (s : State) : (select d s).2.clock = s.clock := by
  rcases select_cases d s with ⟨-, h⟩ | ⟨-, -, h⟩ | ⟨-, -, h⟩ <;> rw [h]

theorem deselect_dc (d : Dev) (s : State) : (deselect d s).2.dc = s.dc := by
  rcases deselect_cases d s with ⟨-, h⟩ | ⟨-, -, h⟩ | ⟨-, -, h⟩ <;> rw [h]

theorem select_dc (d : Dev) (s : State) : (select d s).2.dc = s.dc := by
  rcases select_cases d s with ⟨-, h⟩ | ⟨-, -, h⟩ | ⟨-, -, h⟩ <;> rw [h]

/-- How a read sequence can end (R240, R241, R245): its status, what was received, and the selection. -/
inductive ReadEnd (n : Nat) (s : State) : Status × Option (List Byte) × State → Prop where
  | done (bytes : List Byte) (t : State) (hl : bytes.length = n) (hs : t.sel = none) (he : t.ef = s.ef) :
      ReadEnd n s (.ok, some bytes, t)
  | stuck (bytes : List Byte) (t : State) (hl : bytes.length = n) (hs : t.sel = some .display)
      (he : t.ef = { s.ef with sel := true }) : ReadEnd n s (.deselectFail, some bytes, t)
  | first (t : State) (hs : t.sel = s.sel) (hn : s.sel ≠ none) (he : t.ef = { s.ef with sel := true })
      (hc : t.clock = s.clock) (ht : t.trace = s.trace) : ReadEnd n s (.deselectFail, none, t)
  | unselected (t : State) (hs : s.sel ≠ some .touch → t.sel = none) (he : t.ef = { s.ef with sel := true }) :
      ReadEnd n s (.selectFail, none, t)

theorem receiveFrame_sel (w : Window) (n : Nat) (s : State) (hn : 0 < s.par.nwords) :
    (receiveFrame w n s).2.sel = s.sel := by
  obtain ⟨cs, env, panel, -, -, -, -, h⟩ := receiveFrame_spec w n s hn
  rw [h]

theorem receiveFrame_clock (w : Window) (n : Nat) (s : State) (hn : 0 < s.par.nwords) :
    (receiveFrame w n s).2.clock = s.clock := by
  obtain ⟨cs, env, panel, -, -, -, -, h⟩ := receiveFrame_spec w n s hn
  rw [h]

theorem receiveFrame_ef (w : Window) (n : Nat) (s : State) (hn : 0 < s.par.nwords) :
    (receiveFrame w n s).2.ef = s.ef := by
  obtain ⟨cs, env, panel, -, -, -, -, h⟩ := receiveFrame_spec w n s hn
  rw [h]

/-- The sequence after an opening that went well. -/
theorem readSequence_open (w : Window) (n : Nat) (clocks : Option (Word × Word)) (saved : Option Word) (s s1 : State)
    (h : openAdapter clocks s = (.ok, saved, s1)) :
    ((select .display s1).1 = .ok ∧
      readSequence w n clocks s =
        ((deselect .display (receiveFrame w n (select .display s1).2).2).1,
          some (receiveFrame w n (select .display s1).2).1,
          restoreClock saved (deselect .display (receiveFrame w n (select .display s1).2).2).2)) ∨
    ((select .display s1).1 = .selectFail ∧
      readSequence w n clocks s = (.selectFail, none, restoreClock saved (select .display s1).2)) := by
  rcases select_cases .display s1 with ⟨-, hs⟩ | ⟨-, -, hs⟩ | ⟨-, -, hs⟩
  · exact .inl ⟨by rw [hs], by simp [readSequence, h, hs]⟩
  · exact .inl ⟨by rw [hs], by simp [readSequence, h, hs]⟩
  · exact .inr ⟨by rw [hs], by simp [readSequence, h, hs]⟩

theorem select_ok (d : Dev) (s : State) (h : (select d s).1 = .ok) :
    (select d s).2.sel = some d ∧ (select d s).2.ef = s.ef := by
  rcases select_cases d s with ⟨h1, h2⟩ | ⟨-, -, h2⟩ | ⟨-, -, h2⟩
  · rw [h2]; exact ⟨h1, rfl⟩
  · rw [h2]; exact ⟨rfl, rfl⟩
  · rw [h2] at h; cases h

theorem select_fail (d : Dev) (s : State) (h : (select d s).1 = .selectFail) :
    (select d s).2.sel = s.sel ∧ s.sel ≠ some d ∧ (select d s).2.ef = { s.ef with sel := true } := by
  rcases select_cases d s with ⟨-, h2⟩ | ⟨-, -, h2⟩ | ⟨h1, -, h2⟩
  · rw [h2] at h; cases h
  · rw [h2] at h; cases h
  · rw [h2]; exact ⟨rfl, h1, rfl⟩

theorem deselect_ok_ef (d : Dev) (s : State) (h : (deselect d s).1 = .ok) : (deselect d s).2.ef = s.ef := by
  rcases deselect_cases d s with ⟨-, h2⟩ | ⟨-, -, h2⟩ | ⟨-, -, h2⟩
  · rw [h2]
  · rw [h2]
  · rw [h2] at h; cases h

/-- What the tail of a read keeps and how it ends, given the state `s1` the adapter's opening left. -/
theorem readSequence_tail (w : Window) (n : Nat) (clocks : Option (Word × Word)) (saved : Option Word) (s s1 : State)
    (hn : 0 < s1.par.nwords) (h : openAdapter clocks s = (.ok, saved, s1)) (hb : Bus s s1) (he : s1.ef = s.ef)
    (hs : s.sel ≠ some .touch → s1.sel ≠ some .touch) :
    Bus s (readSequence w n clocks s).2.2 ∧ ReadEnd n s (readSequence w n clocks s) ∧
      (readSequence w n clocks s).2.2.clock = (restoreClock saved s1).clock := by
  have hclk : ∀ t : State, t.clock = s1.clock → t.par = s1.par →
      (restoreClock saved t).clock = (restoreClock saved s1).clock := by
    intro t h1 h2
    cases saved
    · exact h1
    · simp [restoreClock, h2]
  rcases readSequence_open w n clocks saved s s1 h with ⟨h1, h2⟩ | ⟨h1, h2⟩
  · obtain ⟨k1, k2⟩ := select_ok _ _ h1
    have hb2 := bus_select .display s1
    have hn2 : 0 < (select .display s1).2.par.nwords := hb2.par ▸ hn
    have hb3 := bus_receiveFrame w n _ hn2
    have hb4 := bus_deselect .display (receiveFrame w n (select .display s1).2).2
    rw [h2]
    refine ⟨((((hb.trans hb2).trans hb3).trans hb4).trans (bus_restoreClock _ _)), ?_, ?_⟩
    · have hl := receiveFrame_length w n _ hn2
      have hse : (receiveFrame w n (select .display s1).2).2.sel = some .display := by
        rw [receiveFrame_sel w n _ hn2, k1]
      have hef : (receiveFrame w n (select .display s1).2).2.ef = s.ef := by
        rw [receiveFrame_ef w n _ hn2, k2, he]
      rcases deselect_cases .display (receiveFrame w n (select .display s1).2).2 with
        ⟨hd, -⟩ | ⟨-, -, hd⟩ | ⟨-, -, hd⟩
      · rw [hse] at hd; cases hd
      · rw [hd]
        exact .done _ _ hl (by rw [restoreClock_sel]) (by rw [restoreClock_ef]; exact hef)
      · rw [hd]
        exact .stuck _ _ hl (by rw [restoreClock_sel]; exact hse) (by rw [restoreClock_ef, hef])
    · apply hclk
      · rw [deselect_clock, receiveFrame_clock _ _ _ hn2, select_clock]
      · rw [hb4.par, hb3.par, hb2.par]
  · obtain ⟨k1, k2, k3⟩ := select_fail _ _ h1
    have hb2 := bus_select .display s1
    rw [h2]
    refine ⟨(hb.trans hb2).trans (bus_restoreClock _ _), .unselected _ ?_ ?_, ?_⟩
    · intro ht
      have := hs ht
      rw [restoreClock_sel, k1]
      match hx : s1.sel with
      | none => rfl
      | some .display => exact absurd hx k2
      | some .touch => exact absurd hx this
    · rw [restoreClock_ef, k3, he]
    · exact hclk _ (select_clock _ _) hb2.par

/-- What a read sequence keeps and how it ends: bus traffic alone, and with the adapter the clock is as it was or is
the entry clock requested again. -/
theorem readSequence_spec (w : Window) (n : Nat) (clocks : Option (Word × Word)) (s : State)
    (hn : 0 < s.par.nwords) :
    Bus s (readSequence w n clocks s).2.2 ∧ ReadEnd n s (readSequence w n clocks s) ∧
      ((readSequence w n clocks s).2.2.clock = s.clock ∨
        ∃ cur top, clocks = some (cur, top) ∧ top < cur ∧
          (readSequence w n clocks s).2.2.clock = some (quantise s.par cur)) := by
  rcases openAdapter_cases clocks s with ⟨hc, h⟩ | ⟨cur, top, hc, hlt, hd, h⟩ | ⟨cur, top, hc, hlt, hd, h⟩ |
    ⟨cur, top, hc, hd, h⟩
  · obtain ⟨h1, h2, h3⟩ := readSequence_tail w n clocks none s s hn h (Bus.refl s) rfl id
    exact ⟨h1, h2, .inl h3⟩
  · have hb := bus_deselect .display s
    obtain ⟨h1, h2, h3⟩ := readSequence_tail w n clocks none s _ (hb.par ▸ hn) h hb (deselect_ok_ef _ _ hd)
      (fun _ => by rw [deselect_ok_sel _ _ hd]; simp)
    exact ⟨h1, h2, .inl (h3.trans (deselect_clock _ _))⟩
  · have hb := bus_deselect .display s
    obtain ⟨h1, h2, h3⟩ := readSequence_tail w n clocks (some cur) s _ (by simp only [setClock_par, hb.par]; exact hn) h
      (hb.trans (bus_setClock _ _)) (deselect_ok_ef _ _ hd) (fun _ => by simp [deselect_ok_sel _ _ hd])
    refine ⟨h1, h2, .inr ⟨cur, top, hc, hlt, h3.trans ?_⟩⟩
    simp [restoreClock, hb.par]
  · rcases deselect_cases .display s with ⟨-, hx⟩ | ⟨-, -, hx⟩ | ⟨h0, -, hx⟩
    · rw [hx] at hd; cases hd
    · rw [hx] at hd; cases hd
    · have hr : readSequence w n clocks s = (.deselectFail, none, (deselect .display s).2) := by
        simp [readSequence, h]
      rw [hr]
      refine ⟨bus_deselect _ _, .first _ ?_ h0 ?_ ?_ ?_, .inl (deselect_clock _ _)⟩ <;> rw [hx]

/-! ## The sequence when every acknowledge comes -/

theorem acks_less (n m : Nat) (e : Env) (hm : m ≤ n) (h : e.acks.take n = List.replicate n true) :
    e.acks.take m = List.replicate m true := by
  have := congrArg (List.take m) h
  rwa [List.take_take, Nat.min_eq_left hm, List.take_replicate, Nat.min_eq_left hm] at this

/-- An acknowledged select of a bus with nothing selected. -/
theorem select_acked (d : Dev) (s : State) (hs : s.sel = none) (ha : nextAck s.env = true) :
    select d s = (.ok, { s with env := popAck s.env, sel := some d, trace := s.trace ++ [.sel d] }) := by
  simp [select, hs, ha, emit]

/-- An acknowledged deselect of the display. -/
theorem deselect_acked (s : State) (hs : s.sel = some .display) (ha : nextAck s.env = true) :
    deselect .display s =
      (.ok,
        { s with
          env := popAck s.env
          sel := none
          trace := s.trace ++ [.desel .display]
          panel := s.panel.map panelDeselect }) := by
  simp [deselect, hs, ha, emit]

/-- The next acknowledge, from the script, and the script after it. -/
theorem acks_one (n : Nat) (e : Env) (h : e.acks.take (n + 1) = List.replicate (n + 1) true) :
    nextAck e = true ∧ popAck e = { e with acks := e.acks.drop 1 } ∧
      (e.acks.drop 1).take n = List.replicate n true := by
  cases ha : e.acks with
  | nil => simp [ha] at h
  | cons a rest =>
    simp only [ha, List.take_succ_cons, List.replicate_succ, List.cons.injEq] at h
    exact ⟨by simp [nextAck, ha, h.1], by simp [popAck, ha], by simpa using h.2⟩

/-- The tail of a read from a selected display: window, receive, deselect, restore. -/
theorem readTail_acked (w : Window) (n : Nat) (saved : Option Word) (s : State) (hn : 0 < s.par.nwords)
    (hs : s.sel = some .display) (ha : AcksNext 1 s) :
    ∃ cs e p, cs.map List.length = burstSizes s.par n ∧
      (e.acks = s.env.acks.drop 1 ∧ e.ends = s.env.ends ∧ e.allocs = s.env.allocs) ∧ PanelEvolves s.panel p ∧
      (receiveFrame w n s).1 = cs.flatten ∧ (deselect .display (receiveFrame w n s).2).1 = .ok ∧
      (restoreClock saved (deselect .display (receiveFrame w n s).2).2) =
        { s with
          dc := some .command
          w := cs.foldl loadWords (s.par.cmdRamrd.zeroExtend 32 :: s.w.drop 1)
          bitlen := cs.foldl (fun _ c => 8 * c.length) 8
          cnt := addBursts (5 + cs.length) s.cnt
          inhibit := if s.par.preemptGuard then false else s.inhibit
          sel := none
          clock := match saved with
            | some hz => some (quantise s.par hz)
            | none => s.clock
          trace := s.trace ++ (windowTrace s.par w ++ commandFrame s.par.cmdRamrd ++ receiveRun cs ++
            .desel .display :: (match saved with
              | some hz => [.clk (quantise s.par hz)]
              | none => []))
          env := e
          panel := p } := by
  obtain ⟨cs, env, panel, hl, he, hp, hb, h⟩ := receiveFrame_spec w n s hn
  obtain ⟨h1, h2, -⟩ := acks_one 0 env (by rw [he.1]; exact ha)
  have hd := deselect_acked (receiveFrame w n s).2 (by rw [h]; exact hs) (by rw [h]; exact h1)
  refine ⟨cs, popAck env, panel.map panelDeselect, hl, ?_, hp.trans (panelDeselect_evolves _), hb, by rw [hd], ?_⟩
  · rw [h2]
    exact ⟨by rw [← he.1], he.2.2.2, he.2.1⟩
  · rw [hd, h]
    cases saved with
    | none => simp only [restoreClock, List.append_assoc]
    | some hz => simp only [restoreClock, setClock, emit, List.append_assoc, List.cons_append, List.nil_append]

/-- The whole read sequence when every acknowledge comes (R240, R242, R243, R245). -/
theorem readSequence_acked (w : Window) (n : Nat) (clocks : Option (Word × Word)) (s : State)
    (hn : 0 < s.par.nwords) (hs : s.sel ≠ some .touch) (ha : AcksNext 3 s) :
    ∃ cs e p, cs.map List.length = burstSizes s.par n ∧
      ((∃ j ≤ 3, e.acks = s.env.acks.drop j) ∧ e.ends = s.env.ends ∧ e.allocs = s.env.allocs) ∧
      PanelEvolves s.panel p ∧
      readSequence w n clocks s =
        (.ok, some cs.flatten,
          { s with
            dc := some .command
            w := cs.foldl loadWords (s.par.cmdRamrd.zeroExtend 32 :: s.w.drop 1)
            bitlen := cs.foldl (fun _ c => 8 * c.length) 8
            cnt := addBursts (5 + cs.length) s.cnt
            inhibit := if s.par.preemptGuard then false else s.inhibit
            sel := none
            clock := readClock clocks s
            trace := s.trace ++ (readOpening s.par clocks s.sel ++ windowTrace s.par w ++
              commandFrame s.par.cmdRamrd ++ receiveRun cs ++ readClosing s.par clocks)
            env := e
            panel := p }) := by
  obtain ⟨a1, b1, c1⟩ := acks_one 2 s.env ha
  have hsel : s.sel = none ∨ s.sel = some .display := by
    match hx : s.sel with
    | none => exact .inl rfl
    | some .display => exact .inr rfl
    | some .touch => exact absurd hx hs
  cases clocks with
  | none =>
    rcases hsel with h0 | h0
    · -- nothing selected: select, then the tail
      have hsl := select_acked .display s h0 a1
      obtain ⟨cs, e, p, hl, he, hp, hb, hd, ht⟩ := readTail_acked w n none (select .display s).2
        (by rw [hsl]; exact hn) (by rw [hsl]) (by rw [hsl]; show List.take 1 (popAck s.env).acks = _; rw [b1];
                                                  exact acks_less 2 1 _ (by omega) c1)
      rw [hsl] at hl he hp hb hd ht
      refine ⟨cs, e, p, hl, ⟨⟨2, by omega, ?_⟩, ?_, ?_⟩, hp, ?_⟩
      · rw [he.1, b1]; simp
      · rw [he.2.1, b1]
      · rw [he.2.2, b1]
      · simp only [readSequence, openAdapter, hsl]
        simp only at hb hd ht
        rw [hb, hd, ht]
        simp [readOpening, readClosing, readClock, h0]
    · have hsl : select .display s = (.ok, s) := by simp [select, h0]
      obtain ⟨cs, e, p, hl, he, hp, hb, hd, ht⟩ := readTail_acked w n none s hn h0 (acks_less 3 1 _ (by omega) ha)
      refine ⟨cs, e, p, hl, ⟨⟨1, by omega, he.1⟩, he.2⟩, hp, ?_⟩
      simp only [readSequence, openAdapter, hsl]
      rw [hb, hd, ht]
      simp [readOpening, readClosing, readClock, h0]
  | some ct =>
    obtain ⟨cur, top⟩ := ct
    rcases hsel with h0 | h0
    · have hdd : deselect .display s = (.ok, s) := by simp [deselect, h0]
      by_cases hlt : top < cur
      · have hsl := select_acked .display (setClock top s) h0 a1
        obtain ⟨cs, e, p, hl, he, hp, hb, hd, ht⟩ := readTail_acked w n (some cur) (select .display (setClock top s)).2
          (by rw [hsl]; exact hn) (by rw [hsl]) (by rw [hsl]; show List.take 1 (popAck s.env).acks = _; rw [b1];
                                                    exact acks_less 2 1 _ (by omega) c1)
        rw [hsl] at hl he hp hb hd ht
        refine ⟨cs, e, p, hl, ⟨⟨2, by omega, ?_⟩, ?_, ?_⟩, hp, ?_⟩
        · rw [he.1]; show List.drop 1 (popAck s.env).acks = _; rw [b1]; simp
        · rw [he.2.1]; show (popAck s.env).ends = _; rw [b1]
        · rw [he.2.2]; show (popAck s.env).allocs = _; rw [b1]
        · simp only [readSequence, openAdapter, hdd, hlt, if_true, hsl]
          simp only at hb hd ht
          rw [hb, hd, ht]
          simp [readOpening, readClosing, readClock, h0, hlt, setClock, emit]
      · have hsl := select_acked .display s h0 a1
        obtain ⟨cs, e, p, hl, he, hp, hb, hd, ht⟩ := readTail_acked w n none (select .display s).2
          (by rw [hsl]; exact hn) (by rw [hsl]) (by rw [hsl]; show List.take 1 (popAck s.env).acks = _; rw [b1];
                                                    exact acks_less 2 1 _ (by omega) c1)
        rw [hsl] at hl he hp hb hd ht
        refine ⟨cs, e, p, hl, ⟨⟨2, by omega, ?_⟩, ?_, ?_⟩, hp, ?_⟩
        · rw [he.1, b1]; simp
        · rw [he.2.1, b1]
        · rw [he.2.2, b1]
        · simp only [readSequence, openAdapter, hdd, hlt, if_false, hsl]
          simp only at hb hd ht
          rw [hb, hd, ht]
          simp [readOpening, readClosing, readClock, h0, hlt]
    · have hdd := deselect_acked s h0 a1
      have a2 : nextAck (popAck s.env) = true ∧ popAck (popAck s.env) = { s.env with acks := s.env.acks.drop 2 } ∧
          (s.env.acks.drop 2).take 1 = List.replicate 1 true := by
        obtain ⟨x, y, z⟩ := acks_one 1 (popAck s.env) (by rw [b1]; exact c1)
        refine ⟨x, ?_, ?_⟩
        · rw [y, b1]; simp
        · rw [b1] at z; simpa using z
      by_cases hlt : top < cur
      · have hsl := select_acked .display (setClock top (deselect .display s).2) (by rw [hdd]; rfl)
          (by rw [hdd]; exact a2.1)
        obtain ⟨cs, e, p, hl, he, hp, hb, hd, ht⟩ := readTail_acked w n (some cur)
          (select .display (setClock top (deselect .display s).2)).2
          (by rw [hsl, hdd]; exact hn) (by rw [hsl])
          (by rw [hsl, hdd]; show List.take 1 (popAck (popAck s.env)).acks = _; rw [a2.2.1]; exact a2.2.2)
        rw [hsl, hdd] at hl he hp hb hd ht
        refine ⟨cs, e, p, hl, ⟨⟨3, by omega, ?_⟩, ?_, ?_⟩, (panelDeselect_evolves _).trans hp, ?_⟩
        · rw [he.1]; show List.drop 1 (popAck (popAck s.env)).acks = _; rw [a2.2.1]; simp
        · rw [he.2.1]; show (popAck (popAck s.env)).ends = _; rw [a2.2.1]
        · rw [he.2.2]; show (popAck (popAck s.env)).allocs = _; rw [a2.2.1]
        · rw [hdd] at hsl
          simp only [readSequence, openAdapter, hdd, hlt, if_true, hsl]
          simp only at hb hd ht
          rw [hb, hd, ht]
          simp [readOpening, readClosing, readClock, h0, hlt, setClock, emit]
      · have hsl := select_acked .display (deselect .display s).2 (by rw [hdd]) (by rw [hdd]; exact a2.1)
        obtain ⟨cs, e, p, hl, he, hp, hb, hd, ht⟩ := readTail_acked w n none
          (select .display (deselect .display s).2).2 (by rw [hsl, hdd]; exact hn) (by rw [hsl])
          (by rw [hsl, hdd]; show List.take 1 (popAck (popAck s.env)).acks = _; rw [a2.2.1]; exact a2.2.2)
        rw [hsl, hdd] at hl he hp hb hd ht
        refine ⟨cs, e, p, hl, ⟨⟨3, by omega, ?_⟩, ?_, ?_⟩, (panelDeselect_evolves _).trans hp, ?_⟩
        · rw [he.1]; show List.drop 1 (popAck (popAck s.env)).acks = _; rw [a2.2.1]; simp
        · rw [he.2.1]; show (popAck (popAck s.env)).ends = _; rw [a2.2.1]
        · rw [he.2.2]; show (popAck (popAck s.env)).allocs = _; rw [a2.2.1]
        · rw [hdd] at hsl
          simp only [readSequence, openAdapter, hdd, hlt, if_false, hsl]
          simp only at hb hd ht
          rw [hb, hd, ht]
          simp [readOpening, readClosing, readClock, h0, hlt]

end Sys2Proof.Machine
end

