-- ==== Sys2Proof/Laws/Calibrate.lean ====
section
/-! SUPPORT. The calibration scan, said once (spec/45_calibration.md R260 to R270): what a line write, a line read, the
scan and the whole body keep, how each can end, and which results there are. -/

namespace Sys2Proof.Machine

/-- The sticky flags a procedure leaves are those of its status (60 R291). -/
abbrev FlagsOf (st : Status) (s t : State) : Prop := t.ef = flagsAfter st s.ef

theorem ReadEnd.flags {n : Nat} {s : State} {r : Status × Option (List Byte) × State} (h : ReadEnd n s r) :
    FlagsOf r.1 s r.2.2 := by
  cases h with
  | done _ _ _ _ he => exact he
  | stuck _ _ _ _ he => exact he
  | first _ _ _ he => exact he
  | unselected _ _ he => exact he

theorem select_flags (d : Dev) (s : State) : FlagsOf (select d s).1 s (select d s).2 := by
  rcases select_cases d s with ⟨-, h⟩ | ⟨-, -, h⟩ | ⟨-, -, h⟩ <;> rw [h] <;> rfl

theorem deselect_flags (d : Dev) (s : State) : FlagsOf (deselect d s).1 s (deselect d s).2 := by
  rcases deselect_cases d s with ⟨-, h⟩ | ⟨-, -, h⟩ | ⟨-, -, h⟩ <;> rw [h] <;> rfl

/-! ## The awaited push -/

theorem traffic_pushDirect (bs : List Byte) (s : State) : Traffic s (pushDirect bs s) := by
  have h := bus_sendBytes bs { s with cnt := countDirect s.cnt }
  exact ⟨h.par, h.mem, h.regions, h.host, h.op, h.cfg, h.result, h.last, h.scratch, h.inhibit, h.dma, h.loan, h.regs,
    h.panel, h.trace, h.flags⟩

theorem bus_openWrite (s : State) : Bus s (openWrite s) := (bus_sendCommand _ s).trans (bus_setDC _ _)

theorem pushDirect_eq (bs : List Byte) (s : State) :
    pushDirect bs s = sendBytes bs { s with cnt := countDirect s.cnt } :=
  rfl

/-- How an awaited push ends: nothing in flight, selection and clock as they were. -/
theorem pushStream_spec (d : Bool) (bs : List Byte) (l : Option (Nat × Nat)) (s : State) :
    Traffic s (pushStream d bs l true s).2 ∧ FlagsOf (pushStream d bs l true s).1 s (pushStream d bs l true s).2 ∧
      ((pushStream d bs l true s).1 = .ok ∨ (pushStream d bs l true s).1 = .dmaTimeout) ∧
      (pushStream d bs l true s).2.sel = s.sel ∧ (pushStream d bs l true s).2.clock = s.clock := by
  have hr : 0 < s.par.nwords → s.w.length = s.par.nwords →
      (s.par.cmdRamwr.zeroExtend 32 :: s.w.drop 1).length = s.par.nwords := by
    intro h1 h2
    simp only [List.length_cons, List.length_drop]
    omega
  cases d with
  | true =>
    rw [pushStream_direct]
    refine ⟨(bus_openWrite s).toTraffic.trans (traffic_pushDirect bs _), ?_, .inl rfl, ?_, ?_⟩
    · simp only [pushDirect_eq, sendBytes_eq, openWrite_eq]; rfl
    · simp only [pushDirect_eq, sendBytes_eq, openWrite_eq]
    · simp only [pushDirect_eq, sendBytes_eq, openWrite_eq]
  | false =>
    cases he : nextEnd s.env with
    | none =>
      rw [pushStream_done bs l s he]
      exact ⟨⟨rfl, rfl, rfl, rfl, rfl, rfl, rfl, rfl, rfl, id, fun _ => rfl, fun _ => rfl,
        fun n h => ⟨hr n h.1, by show 8 ≤ 32 * s.par.nwords; omega, Nat.mod_self 8⟩,
        panelAfter_evolves _ _, List.prefix_append _ _, id, id, id, rfl⟩, rfl, .inl rfl, rfl, rfl⟩
    | some k =>
      rw [pushStream_timeout bs l s k he]
      exact ⟨⟨rfl, rfl, rfl, rfl, rfl, rfl, rfl, rfl, rfl, id, fun _ => rfl, fun _ => rfl,
        fun n h => ⟨hr n h.1, by show 8 ≤ 32 * s.par.nwords; omega, Nat.mod_self 8⟩,
        panelAfter_evolves _ _, List.prefix_append _ _, id, fun _ => rfl, id, rfl⟩, rfl, .inr rfl, rfl, rfl⟩

/-! ## A line -/

/-- How `WriteLine` ends (R265). -/
theorem writeLine_spec (p : CalPlan) (s : State) (hn : 0 < s.par.nwords) (hs : s.sel = none) :
    Traffic s (writeLine p s).2 ∧ FlagsOf (writeLine p s).1 s (writeLine p s).2 ∧
      ((writeLine p s).1 = .ok → (writeLine p s).2.sel = none) ∧
      ((writeLine p s).2.sel = none ∨ (writeLine p s).2.sel = some .display) ∧ (writeLine p s).2.clock = s.clock := by
  rcases select_cases .display s with ⟨h1, -⟩ | ⟨-, -, h⟩ | ⟨-, -, h⟩
  · rw [hs] at h1; cases h1
  · have hb1 := bus_select .display s
    rw [h] at hb1
    have hn1 : 0 < (select .display s).2.par.nwords := by rw [h]; exact hn
    rw [h] at hn1
    have hb2 := bus_windowFrame p.window _ hn1
    have hw := windowFrame_eq p.window _ hn1
    generalize ({ s with env := popAck s.env, sel := some .display, trace := s.trace ++ [.sel .display] } : State)
      = s1 at h hb1 hn1 hb2 hw
    have hs1 : s1.sel = some .display := by
      have : (select .display s).2.sel = some .display := (select_ok _ _ (by rw [h])).1
      rw [h] at this; exact this
    have he1 : s1.ef = s.ef := by
      have : (select .display s).2.ef = s.ef := (select_ok _ _ (by rw [h])).2
      rw [h] at this; exact this
    have hc1 : s1.clock = s.clock := by
      have := select_clock .display s
      rw [h] at this; exact this
    obtain ⟨ht, hf, hst, hsl, hck⟩ := pushStream_spec (goesDirect s1.par p.depth p.width) (calLine p) none
      (windowFrame p.window s1)
    rw [show writeLine p s = (match pushStream (goesDirect s1.par p.depth p.width) (calLine p) none true
        (windowFrame p.window s1) with
      | (.ok, s2) => deselect .display s2
      | (st, s2) => (st, s2)) by simp only [writeLine, h] <;> rfl]
    have hT := (hb1.toTraffic.trans hb2.toTraffic).trans ht
    have hwe : (windowFrame p.window s1).ef = s.ef := by rw [hw]; exact he1
    have hws : (windowFrame p.window s1).sel = some .display := by rw [hw]; exact hs1
    have hwc : (windowFrame p.window s1).clock = s.clock := by rw [hw]; exact hc1
    generalize pushStream (goesDirect s1.par p.depth p.width) (calLine p) none true (windowFrame p.window s1) = r
      at ht hf hst hsl hck hT
    obtain ⟨st, s2⟩ := r
    simp only at hf hst hsl hck hT
    rcases hst with rfl | rfl
    · have hb3 := bus_deselect .display s2
      have hfd := deselect_flags .display s2
      refine ⟨hT.trans hb3.toTraffic, ?_, deselect_ok_sel _ _, ?_, ?_⟩
      · rw [FlagsOf, hfd, hf, hwe]; rfl
      · rcases deselect_cases .display s2 with ⟨hx, hy⟩ | ⟨-, -, hy⟩ | ⟨-, -, hy⟩
        · simp only [hy]; exact .inl hx
        · simp only [hy]; exact .inl trivial
        · simp only [hy]; exact .inr (hsl.trans hws)
      · rw [deselect_clock, hck, hwc]
    · refine ⟨hT, ?_, fun h => (by cases h), .inr (hsl.trans hws), hck.trans hwc⟩
      rw [FlagsOf, hf, hwe]
  · have hb := bus_select .display s
    have hf := select_flags .display s
    rw [h] at hb hf
    have hw : writeLine p s = (.selectFail, { s with env := popAck s.env, ef := { s.ef with sel := true } }) := by
      simp only [writeLine, h]
    rw [hw]
    exact ⟨hb.toTraffic, hf, fun h => (by cases h), .inl hs, rfl⟩

/-- How `ReadLine` ends (R266). -/
theorem readLine_spec (p : CalPlan) (s : State) (hn : 0 < s.par.nwords) (hs : s.sel = none) :
    Traffic s (readLine p s).2.2 ∧ FlagsOf (readLine p s).1 s (readLine p s).2.2 ∧
      ((readLine p s).1 = .ok → (readLine p s).2.2.sel = none) ∧
      ((readLine p s).2.2.sel = none ∨ (readLine p s).2.2.sel = some .display) ∧
      (readLine p s).2.2.clock = s.clock := by
  obtain ⟨hb, he, hc⟩ := readSequence_spec p.window (rawBytes p.width) none s hn
  have hc' : (readSequence p.window (rawBytes p.width) none s).2.2.clock = s.clock := by
    rcases hc with h | ⟨_, _, h, -⟩
    · exact h
    · cases h
  unfold readLine
  generalize readSequence p.window (rawBytes p.width) none s = r at hb he hc'
  refine ⟨hb.toTraffic, he.flags, ?_, ?_, hc'⟩
  · intro hst
    cases he with
    | done _ _ _ h _ => exact h
    | stuck => cases hst
    | first => cases hst
    | unselected => cases hst
  · cases he with
    | done _ _ _ h _ => exact .inl h
    | stuck _ _ _ h _ => exact .inr h
    | first _ h => exact .inl (h.trans hs)
    | unselected _ h => exact .inl (h (by rw [hs]; simp))

theorem traffic_setClock (hz : Word) (s : State) : Traffic s (setClock hz s) := (bus_setClock hz s).toTraffic

/-- How the scan ends (R268): bus traffic alone, its flags those of its status, and the best candidate one of the
list. -/
theorem scan_spec (p : CalPlan) (fs : List Nat) (best : Option Word) (s : State) (hn : 0 < s.par.nwords)
    (hd : s.dma = .idle) (hs : s.sel = none) :
    Traffic s (scan p fs best s).2.2 ∧ FlagsOf (scan p fs best s).1 s (scan p fs best s).2.2 ∧
      ((scan p fs best s).1 = .ok → (scan p fs best s).2.2.sel = none) ∧
      ((scan p fs best s).2.2.sel = none ∨ (scan p fs best s).2.2.sel = some .display) ∧
      ((scan p fs best s).2.1 = best ∨ ∃ f ∈ fs, (scan p fs best s).2.1 = some (BitVec.ofNat 32 f)) := by
  induction fs generalizing best s with
  | nil => exact ⟨Traffic.refl s, rfl, fun _ => hs, .inl hs, .inl rfl⟩
  | cons f fs ih =>
    have t0 := traffic_setClock (BitVec.ofNat 32 f) s
    obtain ⟨t1, f1, o1, d1, -⟩ := writeLine_spec p (setClock (BitVec.ofNat 32 f) s) hn hs
    generalize hw : writeLine p (setClock (BitVec.ofNat 32 f) s) = r at t1 f1 o1 d1
    obtain ⟨st, s1⟩ := r
    simp only at t1 f1 o1 d1
    have f1' : s1.ef = flagsAfter st s.ef := f1
    by_cases hst : st = .ok
    · subst hst
      have hs1 := o1 rfl
      have hn1 : 0 < s1.par.nwords := t1.par ▸ hn
      have hd1 : s1.dma = .idle := t1.dma hd
      obtain ⟨t2, f2, o2, d2, -⟩ := readLine_spec p s1 hn1 hs1
      generalize hr : readLine p s1 = q at t2 f2 o2 d2
      obtain ⟨st2, buf, s2⟩ := q
      simp only at t2 f2 o2 d2
      by_cases hst2 : st2 = .ok
      · subst hst2
        have hs2 := o2 rfl
        cases hm : mismatch p (buf.getD []) with
        | true =>
          have : scan p (f :: fs) best s = (.ok, best, s2) := by simp only [scan, hw, hr, hm, if_true]
          rw [this]
          exact ⟨(t0.trans t1).trans t2, f2.trans f1', fun _ => hs2, .inl hs2, .inl rfl⟩
        | false =>
          have : scan p (f :: fs) best s = scan p fs (some (BitVec.ofNat 32 f)) s2 := by
            simp only [scan, hw, hr, hm, Bool.false_eq_true, if_false]
          rw [this]
          obtain ⟨t3, f3, o3, d3, b3⟩ := ih (some (BitVec.ofNat 32 f)) s2 (t2.par ▸ hn1) (t2.dma hd1) hs2
          refine ⟨((t0.trans t1).trans t2).trans t3, ?_, o3, d3, ?_⟩
          · rw [FlagsOf, f3, f2, f1']; rfl
          · rcases b3 with h | ⟨g, hg, h⟩
            · exact .inr ⟨f, by simp, h⟩
            · exact .inr ⟨g, by simp [hg], h⟩
      · have : scan p (f :: fs) best s = (st2, best, s2) := by
          simp only [scan, hw, hr]
        rw [this]
        refine ⟨(t0.trans t1).trans t2, ?_, fun h => absurd h hst2, d2, .inl rfl⟩
        rw [FlagsOf, f2, f1']; rfl
    · have : scan p (f :: fs) best s = (st, best, s1) := by
        simp only [scan, hw]
      rw [this]
      exact ⟨t0.trans t1, f1', fun h => absurd h hst, d1, .inl rfl⟩

/-! ## The whole body -/

/-- The flags of `e'` are those of `e`, and perhaps `EF_SEL`. -/
abbrev FlagsOrSel (e e' : ErrFlags) : Prop := e' = e ∨ e' = { e with sel := true }

/-- What `FIND_MAX_RDCLK` does on every path (R260, R269, R270): clock and grayscale flag as at entry, nothing selected
unless a deselect failed, and a result that is a candidate or the default. -/
theorem findMaxBody_spec (clock : Word) (g : Bool) (p : CalPlan) (s : State) (hn : 0 < s.par.nwords)
    (hd : s.dma = .idle) (hs : s.sel = none) (hg : s.cfg.gray = some g) :
    ∃ t, Traffic s t ∧ t.clock = s.clock ∧
      (t.sel = none ∨ (t.sel = some .display ∧ t.ef.sel = true)) ∧
      ((nextAlloc s.env = true ∧ FlagsOrSel (flagsAfter (findMaxBody (clock, g, p) s).1 s.ef) t.ef) ∨
        (nextAlloc s.env = false ∧ (findMaxBody (clock, g, p) s).1 = .ok ∧ t.ef = { s.ef with alloc := true } ∧
          t.trace = s.trace)) ∧
      ∃ best, (best = none ∨ nextAlloc s.env = true ∧
          ∃ f ∈ candidates s.par (calLimit s.par clock), best = some (BitVec.ofNat 32 f)) ∧
        (findMaxBody (clock, g, p) s).2 =
          { setClock clock t with result := some (best.getD s.par.calDefaultHz) } := by
  have key : ∀ (st : Status) (x : State), Traffic { s with cfg := { s.cfg with gray := some false } } x →
      FlagsOf st s x → (x.sel = none ∨ x.sel = some .display) →
      ∃ t, Traffic s t ∧ t.clock = s.clock ∧ (t.sel = none ∨ (t.sel = some .display ∧ t.ef.sel = true)) ∧
        FlagsOrSel (flagsAfter st s.ef) t.ef ∧ calRestore clock g x = setClock clock t := by
    intro st x hx hf hsel
    have main : ∀ y : State, Traffic x y → FlagsOrSel x.ef y.ef →
        (y.sel = none ∨ (y.sel = some .display ∧ y.ef.sel = true)) →
        ∃ t, Traffic s t ∧ t.clock = s.clock ∧ (t.sel = none ∨ (t.sel = some .display ∧ t.ef.sel = true)) ∧
          FlagsOrSel (flagsAfter st s.ef) t.ef ∧
          { setClock clock y with cfg := { y.cfg with gray := some g } } = setClock clock t := by
      intro y hy hyf hys
      have h := hx.trans hy
      have hc : ({ y.cfg with gray := some g } : Cfg) = s.cfg := by
        rw [h.cfg, ← hg]
      refine ⟨{ y with cfg := s.cfg, clock := s.clock },
        ⟨h.par, h.mem, h.regions, h.host, h.op, rfl, h.result, h.last, h.scratch, h.inhibit, h.dma, h.loan, h.regs,
          h.panel, h.trace, h.flags⟩, rfl, hys, ?_, ?_⟩
      · have hf' : x.ef = flagsAfter st s.ef := hf
        rw [← hf']; exact hyf
      · rw [hc]
        rfl
    rcases hsel with h0 | h0
    · have : calRestore clock g x = { setClock clock x with cfg := { x.cfg with gray := some g } } := by
        simp [calRestore, h0]
      rw [this]
      exact main x (Traffic.refl x) (.inl rfl) (.inl h0)
    · have : calRestore clock g x = { setClock clock (deselect .display x).2 with
          cfg := { (deselect .display x).2.cfg with gray := some g } } := by
        simp [calRestore, h0]
      rw [this]
      refine main _ (bus_deselect _ _).toTraffic ?_ ?_
      · rcases deselect_cases .display x with ⟨-, h⟩ | ⟨-, -, h⟩ | ⟨-, -, h⟩ <;> rw [h]
        · exact .inl rfl
        · exact .inl rfl
        · exact .inr rfl
      · rcases deselect_cases .display x with ⟨hx, -⟩ | ⟨-, -, h⟩ | ⟨-, -, h⟩
        · rw [h0] at hx; cases hx
        · rw [h]; exact .inl rfl
        · rw [h]; exact .inr ⟨h0, rfl⟩
  have hpop : ∀ ef : ErrFlags, FlagsGrow s.ef ef → Traffic { s with cfg := { s.cfg with gray := some false } }
      { s with cfg := { s.cfg with gray := some false }, env := popAlloc s.env, ef := ef } := fun ef hef =>
    ⟨rfl, rfl, rfl, rfl, rfl, rfl, rfl, rfl, rfl, id, id, id, fun _ h => h, PanelEvolves.refl _,
      List.prefix_refl _, hef⟩
  cases ha : nextAlloc s.env with
  | true =>
    obtain ⟨t1, f1, -, d1, b1⟩ := scan_spec p (candidates s.par (calLimit s.par clock)) none
      { s with cfg := { s.cfg with gray := some false }, env := popAlloc s.env } hn hd hs
    have hbody : ∀ r, scan p (candidates s.par (calLimit s.par clock)) none
        { s with cfg := { s.cfg with gray := some false }, env := popAlloc s.env } = r →
        findMaxBody (clock, g, p) s = (r.1, calResult r.2.1 (calRestore clock g r.2.2)) := by
      rintro r rfl
      simp only [findMaxBody, calScan, ha, if_true]
    have hb := hbody _ rfl
    generalize scan p (candidates s.par (calLimit s.par clock)) none
      { s with cfg := { s.cfg with gray := some false }, env := popAlloc s.env } = r at t1 f1 d1 b1 hb
    obtain ⟨st, best, x⟩ := r
    obtain ⟨t, ht, hc, hsl, hf, he⟩ := key st x
      ((hpop s.ef ⟨id, id, id, rfl⟩).trans t1) f1 d1
    rw [hb]
    refine ⟨t, ht, hc, hsl, .inl ⟨rfl, hf⟩, best, ?_, ?_⟩
    · rcases b1 with h | ⟨f, hf, h⟩
      · exact .inl h
      · exact .inr ⟨rfl, f, hf, h⟩
    · simp only [calResult, he, setClock_par, ht.par]
  | false =>
    have hb : findMaxBody (clock, g, p) s = (.ok, calResult none (calRestore clock g
        { s with cfg := { s.cfg with gray := some false }, env := popAlloc s.env, ef := flagAlloc s.ef })) := by
      simp only [findMaxBody, calScan, ha, Bool.false_eq_true, if_false]
    rw [hb]
    have hcfg : ({ s.cfg with gray := some g } : Cfg) = s.cfg := by rw [← hg]
    refine ⟨{ s with env := popAlloc s.env, ef := flagAlloc s.ef },
      ⟨rfl, rfl, rfl, rfl, rfl, rfl, rfl, rfl, rfl, id, id, id, fun _ h => h, PanelEvolves.refl _,
        List.prefix_refl _, id, id, fun _ => rfl, rfl⟩, rfl, .inl hs, .inr ⟨rfl, rfl, rfl, rfl⟩, none, .inl rfl, ?_⟩
    simp [calResult, calRestore, hs, hcfg, setClock, emit]

/-! ## Statuses -/

theorem select_legal (d : Dev) (s : State) : (select d s).1 ≠ .illegal := by
  rcases select_cases d s with ⟨-, h⟩ | ⟨-, -, h⟩ | ⟨-, -, h⟩ <;> simp [h]

theorem deselect_legal (d : Dev) (s : State) : (deselect d s).1 ≠ .illegal := by
  rcases deselect_cases d s with ⟨-, h⟩ | ⟨-, -, h⟩ | ⟨-, -, h⟩ <;> simp [h]

theorem pushStream_legal (d : Bool) (bs : List Byte) (l : Option (Nat × Nat)) (w : Bool) (s : State) :
    (pushStream d bs l w s).1 ≠ .illegal := by
  cases d with
  | true => simp [pushStream_direct]
  | false =>
    cases w with
    | false => simp [pushStream_queue]
    | true =>
      cases he : nextEnd s.env with
      | none => simp [pushStream_done _ _ _ he]
      | some k => simp [pushStream_timeout _ _ _ k he]

theorem writeLine_legal (p : CalPlan) (s : State) : (writeLine p s).1 ≠ .illegal := by
  have h1 := select_legal .display s
  unfold writeLine
  split
  · rename_i s1 he1
    have h2 := pushStream_legal (goesDirect s1.par p.depth p.width) (calLine p) none true (windowFrame p.window s1)
    split
    · exact deselect_legal _ _
    · rename_i he2
      rw [he2] at h2
      exact h2
  · rename_i he
    rw [he] at h1
    exact h1

theorem readSequence_legal (w : Window) (n : Nat) (c : Option (Word × Word)) (s : State) (hn : 0 < s.par.nwords) :
    (readSequence w n c s).1 ≠ .illegal := by
  obtain ⟨-, h, -⟩ := readSequence_spec w n c s hn
  generalize readSequence w n c s = r at h
  cases h <;> simp

/-- A scan ends well or with the status of the procedure that failed. -/
theorem scan_legal (p : CalPlan) (fs : List Nat) (best : Option Word) (s : State) (hn : 0 < s.par.nwords)
    (hs : s.sel = none) : (scan p fs best s).1 ≠ .illegal := by
  induction fs generalizing best s with
  | nil => simp [scan]
  | cons f fs ih =>
    have h1 := writeLine_legal p (setClock (BitVec.ofNat 32 f) s)
    obtain ⟨t1, -, o1, -, -⟩ := writeLine_spec p (setClock (BitVec.ofNat 32 f) s) hn hs
    unfold scan
    split
    · rename_i s1 he1
      rw [he1] at t1 o1
      have hn1 : 0 < s1.par.nwords := t1.par ▸ hn
      have h2 := readSequence_legal p.window (rawBytes p.width) none s1 hn1
      obtain ⟨t2, -, o2, -, -⟩ := readLine_spec p s1 hn1 (o1 rfl)
      split
      · rename_i s2 he2
        rw [he2] at t2 o2
        split
        · simp
        · exact ih _ _ (t2.par ▸ hn1) (o2 rfl)
      · rename_i he2
        rw [readLine] at he2
        rw [he2] at h2
        exact h2
    · rename_i he1
      rw [he1] at h1
      exact h1

theorem findMaxBody_legal (v : Word × Bool × CalPlan) (s : State) (hn : 0 < s.par.nwords) (hs : s.sel = none) :
    (findMaxBody v s).1 ≠ .illegal := by
  simp only [findMaxBody, calScan]
  split
  · exact scan_legal _ _ _ _ hn hs
  · simp

end Sys2Proof.Machine
end

