-- ==== Sys2Proof/Laws/PerInstr.lean ====
section
/-! SUPPORT. Facts about each operation as syntax, one lemma for each constructor (spec/30_encoding.md R100 to R115):
the first word of an operation selects its row of the table, and its descriptor has the table's length. -/

namespace Sys2Proof

/-- Word 0 with a one-bit operand selects its opcode. -/
theorem word0Opcode_word0F (o : Opcode) (f : Bool)
    (h : o = .select ∨ o = .deselect ∨ o = .pushRep ∨ o = .pushBuf ∨ o = .readPixels) :
    word0Opcode (word0F o f) = .ok o := by
  rcases h with rfl | rfl | rfl | rfl | rfl <;> cases f <;> decide

/-- The opcode field of a word 0 with an eight-bit operand. -/
theorem fieldOpc_word0Imm8 (o : Opcode) (v : Byte) : fieldOpc (word0Imm8 o v) = opcodeByte o := by
  apply BitVec.eq_of_getLsbD_eq
  intro i hi
  simp [fieldOpc, word0Imm8, opcodeMatch, hi, show i < 32 by omega]

/-- The eight-bit operand of a word 0. -/
theorem fieldImm8_word0Imm8 (o : Opcode) (v : Byte) : fieldImm8 (word0Imm8 o v) = v := by
  apply BitVec.eq_of_getLsbD_eq
  intro i hi
  simp [fieldImm8, word0Imm8, opcodeMatch, hi, show 8 + i < 32 by omega]

/-- The one-bit operand of a word 0. -/
theorem fieldF_word0F (o : Opcode) (f : Bool) : fieldF (word0F o f) = f := by
  cases o <;> cases f <;> decide

theorem opcodeOf_opcodeByte (o : Opcode) : opcodeOf (opcodeByte o) = some o := by cases o <;> rfl

/-- The mask of an operation with an eight-bit operand clears exactly that operand. -/
theorem mask_word0Imm8 (o : Opcode) (v : Byte) (h : opcodeMask o = 0xFFFF00FF) :
    word0Imm8 o v &&& opcodeMask o = opcodeMatch o := by
  have hm : opcodeMatch o &&& 0xFFFF00FF#32 = opcodeMatch o := by cases o <;> rfl
  have hv : v.zeroExtend 32 <<< 8 &&& 0xFFFF00FF#32 = 0#32 := by
    apply BitVec.eq_of_getLsbD_eq
    intro i hi
    interval_cases i <;> simp [BitVec.getLsbD_of_ge]
  have hd : word0Imm8 o v &&& 0xFFFF00FF#32 =
      (opcodeMatch o &&& 0xFFFF00FF#32) ||| (v.zeroExtend 32 <<< 8 &&& 0xFFFF00FF#32) := by
    apply BitVec.eq_of_getLsbD_eq
    intro i _
    simp only [word0Imm8, BitVec.getLsbD_and, BitVec.getLsbD_or]
    cases (opcodeMatch o).getLsbD i <;> cases (v.zeroExtend 32 <<< 8).getLsbD i <;> simp
  rw [h]
  show word0Imm8 o v &&& 0xFFFF00FF#32 = _
  rw [hd, hm, hv]
  simp

/-- Word 0 with an eight-bit operand selects its opcode. -/
theorem word0Opcode_word0Imm8 (o : Opcode) (v : Byte) (h : opcodeMask o = 0xFFFF00FF) :
    word0Opcode (word0Imm8 o v) = .ok o := by
  simp only [word0Opcode, fieldOpc_word0Imm8, opcodeOf_opcodeByte, mask_word0Imm8 o v h, if_true]

/-- Word 0 without a short operand selects its opcode. -/
theorem word0Opcode_word0Plain (o : Opcode) : word0Opcode (word0Plain o) = .ok o := by cases o <;> decide

/-- The two 16-bit operands of a word. -/
theorem fieldLow_halvesWord (a b : Half) : fieldLow (halvesWord a b) = a := by
  apply BitVec.eq_of_getLsbD_eq
  intro i hi
  simp [fieldLow, halvesWord, hi, show i < 32 by omega]

theorem fieldHigh_halvesWord (a b : Half) : fieldHigh (halvesWord a b) = b := by
  apply BitVec.eq_of_getLsbD_eq
  intro i hi
  simp [fieldHigh, halvesWord, hi, show 16 + i < 32 by omega]

/-- The Color of an operand word. -/
theorem fieldColor_colorWord (c : Color) : fieldColor (colorWord c) = c := by
  obtain ⟨r, g, b⟩ := c
  simp only [fieldColor, colorWord, Color.mk.injEq]
  refine ⟨?_, ?_, ?_⟩ <;>
    · apply BitVec.eq_of_getLsbD_eq
      intro i hi
      interval_cases i <;> simp [BitVec.getLsbD_of_ge]

/-- The reserved bits of a Color word are zero. -/
theorem reserved_colorWord (c : Color) : (colorWord c).extractLsb' 24 8 = 0 := by
  apply BitVec.eq_of_getLsbD_eq
  intro i hi
  interval_cases i <;> simp [colorWord, BitVec.getLsbD_of_ge]

namespace Laws.EncodedHead

/-- The first word of `i`'s descriptor selects `i`'s row, and the descriptor has the row's length. -/
def Statement (i : Instr) : Prop :=
  (∃ w0 rest, encode i = w0 :: rest ∧ word0Opcode w0 = .ok (opcodeFor i)) ∧
    (encode i).length = opcodeWords (opcodeFor i)

theorem select (dev : Dev) : Statement (.select dev) :=
  ⟨⟨_, _, rfl, word0Opcode_word0F _ _ (by simp)⟩, rfl⟩
theorem deselect (dev : Dev) : Statement (.deselect dev) :=
  ⟨⟨_, _, rfl, word0Opcode_word0F _ _ (by simp)⟩, rfl⟩
theorem sendCmd (cmd : Byte) : Statement (.sendCmd cmd) :=
  ⟨⟨_, _, rfl, word0Opcode_word0Imm8 _ _ rfl⟩, rfl⟩
theorem sendCmdData (cmd : Byte) (addr length : Word) : Statement (.sendCmdData cmd addr length) :=
  ⟨⟨_, _, rfl, word0Opcode_word0Imm8 _ _ rfl⟩, rfl⟩
theorem setWindow (w : Window) : Statement (.setWindow w) :=
  ⟨⟨_, _, rfl, word0Opcode_word0Plain _⟩, rfl⟩
theorem pushRep (color : Color) (count : Word) (wait : Bool) : Statement (.pushRep color count wait) :=
  ⟨⟨_, _, rfl, word0Opcode_word0F _ _ (by simp)⟩, rfl⟩
theorem pushBuf (addr count : Word) (wait : Bool) : Statement (.pushBuf addr count wait) :=
  ⟨⟨_, _, rfl, word0Opcode_word0F _ _ (by simp)⟩, rfl⟩
theorem readPixels (w : Window) (count addr : Word) (adapt : Bool) : Statement (.readPixels w count addr adapt) :=
  ⟨⟨_, _, rfl, word0Opcode_word0F _ _ (by simp)⟩, rfl⟩
theorem readPixel (x y : Half) : Statement (.readPixel x y) :=
  ⟨⟨_, _, rfl, word0Opcode_word0Plain _⟩, rfl⟩
theorem findMaxRdclk : Statement .findMaxRdclk := ⟨⟨_, _, rfl, word0Opcode_word0Plain _⟩, rfl⟩
theorem wait : Statement .wait := ⟨⟨_, _, rfl, word0Opcode_word0Plain _⟩, rfl⟩
theorem cfgWr (reg : Byte) (value : Word) : Statement (.cfgWr reg value) :=
  ⟨⟨_, _, rfl, word0Opcode_word0Imm8 _ _ rfl⟩, rfl⟩
theorem cfgRd (reg : Byte) : Statement (.cfgRd reg) :=
  ⟨⟨_, _, rfl, word0Opcode_word0Imm8 _ _ rfl⟩, rfl⟩

end Laws.EncodedHead

end Sys2Proof
end

