-- ==== Sys2Proof/Laws/Decode.lean ====
section
/-! SUPPORT. What word 0 and the operand words of a descriptor determine (spec/30_encoding.md R101 to R119): which row
a word selects, that a selected word is rebuilt from its fields, and which register writes are illegal. -/

namespace Sys2Proof.Machine

/-- The opcode a byte names (R100). -/
theorem opcodeOf_spec (b : Byte) (o : Opcode) : opcodeOf b = some o ↔ b = opcodeByte o := by
  revert b; cases o <;> decide

/-- Word 0 selects a row exactly where it has the row's match under its mask (R102, R128). -/
theorem word0Opcode_ok (w : Word) (o : Opcode) : word0Opcode w = .ok o ↔ Selects o w := by
  have hm : ∀ o : Opcode, Selects o w → fieldOpc w = opcodeByte o := by
    intro o h
    apply BitVec.eq_of_getLsbD_eq
    intro i hi
    have hh := congrArg (fun x : Word => x.getLsbD i) h
    have : (opcodeMask o).getLsbD i = true := by
      cases o <;> interval_cases i <;> rfl
    simp only [BitVec.getLsbD_and, this, Bool.and_true] at hh
    simp only [fieldOpc, BitVec.getLsbD_extractLsb', hi, hh, opcodeMatch, Nat.zero_add, decide_true, Bool.true_and]
    simp [hi, show i < 32 by omega]
  constructor
  · intro h
    unfold word0Opcode at h
    split at h
    · cases h
    · split at h
      · cases h; assumption
      · cases h
  · intro h
    have := hm o h
    have h2 : opcodeOf (fieldOpc w) = some o := (opcodeOf_spec _ _).mpr this
    simp [word0Opcode, h2]
    exact h

theorem mem_opcodes (o : Opcode) : o ∈ opcodes := by cases o <;> decide

/-- A word that selects no row is rejected by name (R118). -/
theorem word0Opcode_err (w : Word) (h : ∀ o ∈ opcodes, ¬ Selects o w) :
    ∃ e, word0Opcode w = .error e ∧ e ≠ .truncated := by
  unfold word0Opcode
  split
  · exact ⟨_, rfl, by simp⟩
  · rename_i o ho
    have : ¬ (w &&& opcodeMask o = opcodeMatch o) := h o (mem_opcodes o)
    simp only [this, if_false]
    exact ⟨_, rfl, by simp⟩

theorem illegalWrite_iff (r : Byte) (v : Word) : cfgWriteTarget r v = none ↔ IllegalWrite r v := by
  have hr : r.toNat < 256 := r.isLt
  unfold cfgWriteTarget IllegalWrite
  by_cases h : 0x0A ≤ r
  · have : cfgRegOf r = none := by
      revert h; revert r; decide
    rw [this]; exact ⟨fun _ => .inl h, fun _ => rfl⟩
  · have : ∀ x : Byte, ¬ 0x0A ≤ x → x = 0 ∨ x = 1 ∨ x = 2 ∨ x = 3 ∨ x = 4 ∨ x = 5 ∨ x = 6 ∨ x = 7 ∨ x = 8 ∨ x = 9 := by
      decide
    rcases this r h with rfl | rfl | rfl | rfl | rfl | rfl | rfl | rfl | rfl | rfl <;>
      simp [cfgRegOf, cfgValueLegal, imp_iff_not_or]

theorem cfgRegOf_none (r : Byte) : cfgRegOf r = none ↔ 0x0A ≤ r := by revert r; decide

theorem selects_bit {o : Opcode} {w : Word} (h : Selects o w) (i : Nat) (hm : (opcodeMask o).getLsbD i = true) :
    w.getLsbD i = (opcodeMatch o).getLsbD i := by
  have hh := congrArg (fun x : Word => x.getLsbD i) h
  simpa only [BitVec.getLsbD_and, hm, Bool.and_true] using hh

theorem word0F_of_selects {o : Opcode} {w : Word} (hm : opcodeMask o = 0xFFFFFEFF) (h : Selects o w) :
    w = word0F o (fieldF w) := by
  apply BitVec.eq_of_getLsbD_eq
  intro i hi
  by_cases h8 : i = 8
  · subst h8
    have : (opcodeMatch o).getLsbD 8 = false := by cases o <;> rfl
    simp only [word0F, BitVec.getLsbD_or, this, fieldF, Bool.false_or, BitVec.getLsbD_shiftLeft]
    simp
  · have hb : (opcodeMask o).getLsbD i = true := by rw [hm]; interval_cases i <;> first | rfl | exact absurd rfl h8
    rw [selects_bit h i hb]
    simp only [word0F, BitVec.getLsbD_or, BitVec.getLsbD_shiftLeft]
    have : (BitVec.zeroExtend 32 (BitVec.ofBool (fieldF w))).getLsbD (i - 8) = false ∨ i < 8 := by
      by_cases h9 : i < 8
      · exact .inr h9
      · left
        simp
        omega
    rcases this with h1 | h1
    · simp [h1]
    · simp [h1]

theorem word0Imm8_of_selects {o : Opcode} {w : Word} (hm : opcodeMask o = 0xFFFF00FF) (h : Selects o w) :
    w = word0Imm8 o (fieldImm8 w) := by
  apply BitVec.eq_of_getLsbD_eq
  intro i hi
  simp only [word0Imm8, BitVec.getLsbD_or, BitVec.getLsbD_shiftLeft, fieldImm8]
  by_cases h8 : 8 ≤ i ∧ i < 16
  · have : (opcodeMatch o).getLsbD i = false := by
      obtain ⟨h1, h2⟩ := h8
      cases o <;> interval_cases i <;> rfl
    rw [this]
    have e : 8 + (i - 8) = i := by omega
    simp [hi, e, show ¬ i < 8 by omega, show i - 8 < 8 by omega, show i - 8 < 32 by omega]
  · have hb : (opcodeMask o).getLsbD i = true := by
      rw [hm]; interval_cases i <;> first | rfl | (exfalso; apply h8; omega)
    rw [selects_bit h i hb]
    by_cases h9 : i < 8
    · simp [h9]
    · simp [h9, show ¬ (i - 8 < 8) by omega]

theorem halvesWord_fields (w : Word) : halvesWord (fieldLow w) (fieldHigh w) = w := by
  apply BitVec.eq_of_getLsbD_eq
  intro i hi
  simp only [halvesWord, fieldLow, fieldHigh, BitVec.getLsbD_or, BitVec.getLsbD_shiftLeft]
  by_cases h : i < 16
  · simp [h, hi]
  · simp [h, hi, show i - 16 < 16 by omega, show 16 + (i - 16) = i by omega, show i - 16 < 32 by omega]

theorem colorWord_field (w : Word) (h : w.extractLsb' 24 8 = 0) : colorWord (fieldColor w) = w := by
  apply BitVec.eq_of_getLsbD_eq
  intro i hi
  have hz : 24 ≤ i → w.getLsbD i = false := by
    intro h24
    have := congrArg (fun x : Byte => x.getLsbD (i - 24)) h
    simpa [show i - 24 < 8 by omega, show 24 + (i - 24) = i by omega] using this
  simp only [colorWord, fieldColor, BitVec.getLsbD_or, BitVec.getLsbD_shiftLeft]
  by_cases h1 : i < 8
  · simp [h1, hi, show i < 16 by omega]
  · by_cases h2 : i < 16
    · simp [h1, h2, hi, show i - 8 < 8 by omega, show 8 + (i - 8) = i by omega, show i - 8 < 32 by omega]
    · by_cases h3 : i < 24
      · simp [h1, h2, hi, show ¬ (i - 8 < 8) by omega, show i - 16 < 8 by omega, show 16 + (i - 16) = i by omega,
        show i - 16 < 32 by omega]
      · rw [hz (by omega)]
        simp [h1, h2, show ¬ (i - 8 < 8) by omega, show ¬ (i - 16 < 8) by omega]

theorem bitOfDev_devOfBit (b : Bool) : bitOfDev (devOfBit b) = b := by cases b <;> rfl

theorem plain_of_selects {o : Opcode} {w : Word} (hm : opcodeMask o = 0xFFFFFFFF) (h : Selects o w) :
    w = word0Plain o := by
  have : w &&& opcodeMask o = opcodeMatch o := h
  rw [hm] at this
  have h2 : w &&& (0xFFFFFFFF : Word) = w := by
    apply BitVec.eq_of_getLsbD_eq
    intro i hi
    have : (0xFFFFFFFF : Word).getLsbD i = true := by interval_cases i <;> rfl
    simp only [BitVec.getLsbD_and, this, Bool.and_true]
  rw [h2] at this
  exact this

end Sys2Proof.Machine
end

