-- ==== Sys2Proof/Laws/Operations.lean ====
section
/-! SUPPORT. The preconditions of each operation, each as one proposition (spec/40_bus_transport.md R147; 43 R223;
44 R244, R250; 45 R271), and what a drain leaves of them. -/

namespace Sys2Proof.Machine

/-! ## After a drain -/

theorem bufferOwned_drained (a n : Nat) (s : State) : BufferOwned a n (drained s) ↔ BufferOwned a n s := by
  simp [BufferOwned]

theorem bufferDmaCapable_drained (a n : Nat) (s : State) :
    BufferDmaCapable a n (drained s) ↔ BufferDmaCapable a n s := by
  simp [BufferDmaCapable]

theorem windowFits_drained (w : Window) (s : State) : WindowFits w (drained s) ↔ WindowFits w s := by
  simp [WindowFits]

theorem readColors_drained (a n : Nat) (s : State) : readColors a n (drained s) = readColors a n s := by
  simp [readColors]

theorem readClocks_drained (adapt : Bool) (s : State) : readClocks adapt (drained s) = readClocks adapt s := by
  simp [readClocks]

/-- A wait that completes does not time out. -/
theorem WaitCompletes.no_timeout {s : State} {bs : List Byte} {o : DmaOwner} {k : Nat} (hw : WaitCompletes s)
    (hd : s.dma = .inFlight bs o) (he : nextEnd s.env = some k) : False := by
  rcases hw with h | h
  · rw [hd] at h
    cases h
  · rw [he] at h
    cases h

/-! ## Transport -/

theorem endpointPre_iff (d : Dev) (s : State) : endpointPre d s = .ok () ↔ s.sel = none ∨ s.sel = some d := by
  simp [endpointPre]

theorem sendCmdPre_iff (cmd : Byte) (s : State) :
    sendCmdPre cmd s = .ok () ↔ s.sel = some .display ∧ PanelTakes cmd 0 s := by
  simp only [sendCmdPre, bind_unit_ok_iff, requireDisplay_iff, requirePanelTakes_iff]

theorem sendCmdDataPre_iff (cmd : Byte) (addr length : Nat) (s : State) :
    sendCmdDataPre cmd addr length s = .ok () ↔
      s.sel = some .display ∧ BufferOwned addr length s ∧ PanelTakes cmd length s := by
  simp only [sendCmdDataPre, bind_unit_ok_iff, requireDisplay_iff, requirePanelTakes_iff, requireBuffer_iff]

theorem setWindowPre_iff (w : Window) (s : State) :
    setWindowPre w s = .ok () ↔ s.sel = some .display ∧ WindowFits w s := by
  simp only [setWindowPre, bind_unit_ok_iff, requireDisplay_iff, requireWindow_iff]

/-! ## Push -/

theorem pushBufPre_iff (addr count : Nat) (s : State) (mg : Depth × Bool) :
    pushBufPre addr count s = .ok mg ↔
      pushMode s = .ok mg ∧ BufferOwned addr (3 * count) s ∧
        (goesDirect s.par mg.1 count = true ∨ BufferDmaCapable addr (3 * count) s) ∧ PanelTakesPush mg.1 count s := by
  unfold pushBufPre
  rw [bind_ok_iff]
  constructor
  · rintro ⟨x, h1, h2⟩
    rw [bind_unit_ok_iff, requireBuffer_iff] at h2
    obtain ⟨h2, h3⟩ := h2
    split at h3
    · rename_i hg
      simp only [bind_unit_ok_iff, requirePanelPush_iff] at h3
      obtain ⟨-, h3, h4⟩ := h3
      cases h4
      exact ⟨h1, h2, .inl hg, h3⟩
    · simp only [bind_unit_ok_iff, requirePanelPush_iff, requireDmaCapable_iff] at h3
      obtain ⟨h5, h3, h4⟩ := h3
      cases h4
      exact ⟨h1, h2, .inr h5, h3⟩
  · rintro ⟨h1, h2, h3, h4⟩
    refine ⟨mg, h1, ?_⟩
    rw [bind_unit_ok_iff, requireBuffer_iff]
    refine ⟨h2, ?_⟩
    split
    · simp only [bind_unit_ok_iff, requirePanelPush_iff]
      exact ⟨trivial, h4, trivial⟩
    · rename_i hg
      simp only [bind_unit_ok_iff, requirePanelPush_iff, requireDmaCapable_iff]
      exact ⟨h3.resolve_left hg, h4, trivial⟩

theorem fillWidth_iff (s : State) (n : Nat) :
    fillWidth s = .ok n ↔ ∃ w, s.cfg.width = some w ∧ w ≠ 0 ∧ n = w.toNat := by
  simp only [fillWidth, bind_ok_iff, valueOf_ok_iff]
  constructor
  · rintro ⟨w, h1, ⟨⟩, h2, h3⟩
    cases h3
    exact ⟨w, h1, by simpa using h2, rfl⟩
  · rintro ⟨w, h1, h2, rfl⟩
    exact ⟨w, h1, (), by simpa using h2, rfl⟩

theorem pushRepPre_iff (count : Nat) (s : State) (m : Depth) (g : Bool) (width : Nat) :
    pushRepPre count s = .ok (m, g, width) ↔
      pushMode s = .ok (m, g) ∧ (if goesDirect s.par m count = true then width = 0 else fillWidth s = .ok width) ∧
        PanelTakesPush m count s := by
  unfold pushRepPre
  rw [bind_ok_iff]
  constructor
  · rintro ⟨⟨m', g'⟩, h1, h2⟩
    simp only at h2
    split at h2
    · rename_i hg
      simp only [bind_ok_iff] at h2
      obtain ⟨x, h3, ⟨⟩, h4, h5⟩ := h2
      cases h3
      cases h5
      exact ⟨h1, by simp [hg], (requirePanelPush_iff _ _ _).mp h4⟩
    · rename_i hg
      simp only [bind_ok_iff] at h2
      obtain ⟨x, h3, ⟨⟩, h4, h5⟩ := h2
      cases h5
      exact ⟨h1, by simp [hg, h3], (requirePanelPush_iff _ _ _).mp h4⟩
  · rintro ⟨h1, h2, h3⟩
    refine ⟨(m, g), h1, ?_⟩
    simp only
    split
    · rename_i hg
      simp only [hg, if_true] at h2
      simp only [bind_ok_iff]
      exact ⟨0, rfl, (), (requirePanelPush_iff _ _ _).mpr h3, by rw [h2]⟩
    · rename_i hg
      simp only [hg] at h2
      simp only [bind_ok_iff]
      exact ⟨width, by simpa using h2, (), (requirePanelPush_iff _ _ _).mpr h3, rfl⟩

/-- Strategy selection in bits (R213). -/
theorem goesDirect_bits (p : Config.Params) (m : Depth) (n : Nat) :
    goesDirect p m n = true ↔ n * depthBits m ≤ directMaxBits p := by
  simp [goesDirect]

/-- A count that is not the zero word is not zero. -/
theorem count_ne_zero {n : Word} (h : n ≠ 0) : n.toNat ≠ 0 := fun h' =>
  h (by simpa using BitVec.eq_of_toNat_eq (y := (0 : Word)) h')

/-- A payload of a positive number of pixels is not empty. -/
theorem payload_ne_nil {n : Nat} {m : Depth} {l : List Byte} (h : l.length = n * depthBytes m) (hn : n ≠ 0) :
    l ≠ [] := by
  rintro rfl
  have : depthBytes m ≠ 0 := by cases m <;> simp [depthBytes]
  simp only [List.length_nil] at h
  rcases Nat.mul_eq_zero.mp h.symm with h | h
  · exact hn h
  · exact this h

/-- Wire bytes with grayscale are those of the converted Colors (42 R196). -/
theorem wireStream_convert (m : Depth) (g : Bool) (cs : List Color) :
    wireStream m g cs = wireStream m false (cs.map (convert g)) := by
  have : ∀ c, wireBytes m g c = wireBytes m false (convert g c) := by
    intro c
    cases m <;> simp [wireBytes, convert]
  simp only [wireStream, List.flatMap_map, ← this]

theorem wireStream_replicate (m : Depth) (g : Bool) (c : Color) (n : Nat) :
    wireStream m g (List.replicate n c) = repeatBytes (wireBytes m g c) n := by
  simp [wireStream, repeatBytes, List.flatMap_replicate]

/-! ## Read -/

theorem adapterClocks_ok (adapt : Bool) (s : State) (h : adapt = true → s.clock ≠ none ∧ s.cfg.maxRdclock ≠ none) :
    adapterClocks adapt s = .ok (readClocks adapt s) := by
  cases adapt with
  | false => rfl
  | true =>
    obtain ⟨h1, h2⟩ := h rfl
    cases hc : s.clock with
    | none => exact absurd hc h1
    | some c =>
      cases hm : s.cfg.maxRdclock with
      | none => exact absurd hm h2
      | some x => simp [adapterClocks, readClocks, hc, hm, valueOf, bind, Except.bind]

theorem adapterClocks_eq {adapt : Bool} {s : State} {c : Option (Word × Word)} (h : adapterClocks adapt s = .ok c) :
    c = readClocks adapt s := by
  cases adapt with
  | false =>
    cases h
    rfl
  | true =>
    cases hc : s.clock with
    | none => simp [adapterClocks, hc, valueOf, bind, Except.bind] at h
    | some k =>
      cases hm : s.cfg.maxRdclock with
      | none => simp [adapterClocks, hc, hm, valueOf, bind, Except.bind] at h
      | some x =>
        simp only [adapterClocks, hc, hm, valueOf, bind, Except.bind, if_true, Except.ok.injEq] at h
        rw [← h]
        simp [readClocks, hc, hm]

theorem readPre_iff (w : Window) (n : Nat) (adapt : Bool) (s : State) (c : Option (Word × Word)) :
    readPre w n adapt s = .ok c ↔
      s.sel ≠ some .touch ∧ adapterClocks adapt s = .ok c ∧ WindowFits w s ∧ PanelGives w n s := by
  unfold readPre
  rw [bind_unit_ok_iff, bind_ok_iff]
  simp only [bind_unit_ok_iff, require_ok_iff, requireWindow_iff, requirePanelRead_iff]
  constructor
  · rintro ⟨h1, a, h2, h3, h4, h5⟩
    cases h5
    exact ⟨by simpa using h1, h2, h3, h4⟩
  · rintro ⟨h1, h2, h3, h4⟩
    exact ⟨by simpa using h1, c, h2, h3, h4, rfl⟩

/-- A failed read's buffer (R246): some memory and answers, nothing outside the buffer, wrapped at the top of the
address space. -/
theorem scrambleBuffer_spec (a n : Nat) (s : State) :
    ∃ m e, scrambleBuffer a n s = { s with mem := m, env := e } ∧
      (Memory.wf s.mem = true → Memory.wf m = true) ∧
      ∀ c : Nat, (∀ k < n, c ≠ (a + k) % 2 ^ s.par.addrBits) → readByte m c = readByte s.mem c :=
  ⟨_, _, rfl, memWriteWrapped_wf _ _ _ _,
    fun c hc => readByte_memWriteWrapped_outside _ _ _ _ _ (by simpa using hc)⟩

/-- The clock generator gives no clock of zero (46 R284). -/
theorem quantise_ne_zero (p : Config.Params) (hz : Word) (h : hz ≠ 0) : quantise p hz ≠ 0 := by
  unfold quantise
  split
  · split
    · rename_i h2
      exact h2.1
    · exact h
  · exact h

/-! ## Calibration -/

/-- The test window fits every panel (45 R264). -/
theorem calWindow_fits (width height : Half) (hw : width ≠ 0) (hh : height ≠ 0) (s : State)
    (h1 : s.cfg.width = some width) (h2 : s.cfg.height = some height) : WindowFits (calWindow width height) s := by
  have hw' : width.toNat ≠ 0 := fun h' => hw (by simpa using BitVec.eq_of_toNat_eq (y := (0 : Half)) h')
  have hh' : height.toNat ≠ 0 := fun h' => hh (by simpa using BitVec.eq_of_toNat_eq (y := (0 : Half)) h')
  have := width.isLt
  have := height.isLt
  refine ⟨by simp [calWindow, BitVec.le_def], by simp [calWindow], ?_, ?_⟩
  · intro d hd
    rw [h1] at hd
    cases hd
    simp only [calWindow, BitVec.lt_def, BitVec.toNat_sub, show (1 : Half).toNat = 1 from rfl]
    omega
  · intro d hd
    rw [h2] at hd
    cases hd
    simp only [calWindow, BitVec.lt_def, BitVec.toNat_ofNat]
    omega

/-- The preconditions of `FIND_MAX_RDCLK` after a drain (R271). -/
theorem findMaxPre_ok {s : State} {clock : Word} {m : Depth} {g : Bool} {width height : Half} (hs : s.sel = none)
    (hc : s.clock = some clock) (hd : s.cfg.depth = some m) (hg : s.cfg.gray = some g)
    (hw : s.cfg.width = some width) (hh : s.cfg.height = some height) (hw0 : width ≠ 0) (hh0 : height ≠ 0)
    (hp : ∀ p, s.panel = some p → p.fmt = fmtOfDepth m) :
    findMaxPre (drained s) = .ok (clock, g, ⟨m, width.toNat, calWindow width height⟩) := by
  have hp' : requirePanelFormat m (drained s) = .ok () := by
    rw [requirePanelFormat_iff]
    intro p hpp
    have hf := (bus_drained s).panel.1
    rw [hpp] at hf
    cases hq : s.panel with
    | none =>
      rw [hq] at hf
      simp at hf
    | some q =>
      rw [hq] at hf
      simp only [Option.map_some, Option.some.injEq] at hf
      rw [hf]
      exact hp q hq
  have hwn : requireWindow (calWindow width height) (drained s) = .ok () :=
    (requireWindow_iff _ _).mpr
      (calWindow_fits width height hw0 hh0 _ (by simpa using hw) (by simpa using hh))
  simp only [findMaxPre, drained_sel, drained_clock, drained_cfg, hs, hc, hd, hg, hw, hh, valueOf, bind, Except.bind,
    hp', hwn]
  rfl

/-- A candidate is the floor plus a number of steps, at most the limit (R263). -/
theorem candidates_spec (par : Config.Params) (limit f : Nat) (h : f ∈ candidates par limit) :
    ∃ k : Nat, f = par.calFloorHz.toNat + k * par.calStepHz.toNat ∧ f ≤ limit := by
  unfold candidates at h
  split at h
  · obtain ⟨k, hk, rfl⟩ := List.mem_map.mp h
    rw [List.mem_range] at hk
    have h1 : k * par.calStepHz.toNat ≤ limit - par.calFloorHz.toNat := by
      have := Nat.div_mul_le_self (limit - par.calFloorHz.toNat) par.calStepHz.toNat
      have h2 := Nat.mul_le_mul_right par.calStepHz.toNat (Nat.lt_succ_iff.mp hk)
      omega
    exact ⟨k, rfl, by omega⟩
  · cases h

end Sys2Proof.Machine
end

