-- ==== Sys2Proof/Laws/Panel.lean ====
section
/-! SUPPORT. What the reference panel keeps and gives back (spec/20_memory.md R82 to R92): the window frame sets its
window, a pixel's wire bytes are stored at its position, and a read at a clock within its limit returns what was stored
up to the bits the format discards. -/

namespace Sys2Proof.Machine

/-! ## What no byte changes -/

theorem panelAdvance_keeps (p : Panel) : (panelAdvance p).rdMaxHz = p.rdMaxHz ∧ (panelAdvance p).bench = p.bench ∧
    (panelAdvance p).cmd = p.cmd ∧ (panelAdvance p).arg = p.arg ∧ (panelAdvance p).rd = p.rd := by
  unfold panelAdvance
  split
  · split
    · exact ⟨rfl, rfl, rfl, rfl, rfl⟩
    · split <;> exact ⟨rfl, rfl, rfl, rfl, rfl⟩
  · exact ⟨rfl, rfl, rfl, rfl, rfl⟩

theorem panelReadAdvance_keeps (par : Config.Params) (p : Panel) :
    (panelReadAdvance par p).rdMaxHz = p.rdMaxHz ∧ (panelReadAdvance par p).bench = p.bench := by
  unfold panelReadAdvance
  split
  · split
    · exact ⟨rfl, rfl⟩
    · exact ⟨rfl, rfl⟩
    · exact ⟨rfl, rfl⟩
    · exact ⟨(panelAdvance_keeps _).1, (panelAdvance_keeps _).2.1⟩
  · exact ⟨rfl, rfl⟩

theorem panelTx_keeps (par : Config.Params) (v : DcLevel) (b : Byte) (p : Panel) :
    (panelTx par v b p).rdMaxHz = p.rdMaxHz ∧ (panelTx par v b p).bench = p.bench := by
  cases v with
  | command =>
    simp only [panelTx, panelCommand]
    split
    · exact ⟨rfl, rfl⟩
    · split <;> exact ⟨rfl, rfl⟩
  | data =>
    simp only [panelTx, panelData]
    split
    · exact ⟨rfl, rfl⟩
    · split
      · exact ⟨rfl, rfl⟩
      · split
        · exact ⟨rfl, rfl⟩
        · split
          · unfold panelPixelByte
            simp only
            split
            · exact ⟨(panelAdvance_keeps _).1, (panelAdvance_keeps _).2.1⟩
            · exact ⟨rfl, rfl⟩
            · exact ⟨rfl, rfl⟩
          · exact ⟨rfl, rfl⟩

theorem panelHears_keeps (par : Config.Params) (bs : List (DcLevel × Byte)) (p : Panel) :
    (panelHears par bs p).rdMaxHz = p.rdMaxHz ∧ (panelHears par bs p).bench = p.bench := by
  induction bs generalizing p with
  | nil => exact ⟨rfl, rfl⟩
  | cons x xs ih =>
    have h := panelTx_keeps par x.1 x.2 p
    have k := ih (panelTx par x.1 x.2 p)
    exact ⟨k.1.trans h.1, k.2.trans h.2⟩

theorem panelGives_keeps (par : Config.Params) (clock : Option Word) (ds : List Byte) (p : Panel) :
    (panelGives par clock ds p).2.rdMaxHz = p.rdMaxHz ∧ (panelGives par clock ds p).2.bench = p.bench ∧
      (panelGives par clock ds p).2.fmt = p.fmt := by
  induction ds generalizing p with
  | nil => exact ⟨rfl, rfl, rfl⟩
  | cons d ds ih =>
    have h := panelReadAdvance_keeps par p
    have k := ih (panelReadAdvance par p)
    exact ⟨k.1.trans h.1, k.2.1.trans h.2, k.2.2.trans (panelReadAdvance_fmt par p)⟩

/-! ## Positions in a window -/

/-- Columns of a window. -/
def windowCols (w : Window) : Nat := w.ce.toNat + 1 - w.cs.toNat

/-- The position of pixel `k` of a window, along the rows (R86). -/
def windowPos (w : Window) (k : Nat) : Nat × Nat :=
  (w.cs.toNat + k % windowCols w, w.rs.toNat + k / windowCols w)

/-- The key of pixel `k` of a window. -/
def windowKey (w : Window) (k : Nat) : Nat := gramKey (windowPos w k).1 (windowPos w k).2

theorem windowKey_inj (w : Window) (hc : w.cs ≤ w.ce) (i j : Nat) (h : windowKey w i = windowKey w j) : i = j := by
  have hW : 0 < windowCols w := by
    have := BitVec.le_def.mp hc
    unfold windowCols
    omega
  have h1 : windowCols w ≤ 65536 - w.cs.toNat := by
    have := w.ce.isLt
    unfold windowCols
    omega
  have hi := Nat.mod_lt i hW
  have hj := Nat.mod_lt j hW
  unfold windowKey windowPos gramKey at h
  have hm : i % windowCols w = j % windowCols w ∧ i / windowCols w = j / windowCols w := by
    generalize i % windowCols w = a at *
    generalize j % windowCols w = b at *
    generalize i / windowCols w = c at *
    generalize j / windowCols w = d at *
    simp only at h
    omega
  have e1 := Nat.div_add_mod i (windowCols w)
  have e2 := Nat.div_add_mod j (windowCols w)
  rw [hm.1, hm.2] at e1
  omega

/-- The panel stands at pixel `k` of a window it holds; past the last pixel it holds none (R86). -/
def StandsAt (w : Window) (k : Nat) (p : Panel) : Prop :=
  k ≤ windowArea w ∧
    (k < windowArea w → p.cols = some (w.cs, w.ce) ∧ p.rows = some (w.rs, w.re) ∧ p.cur = some (windowPos w k))

theorem panelAdvance_stands (w : Window) (k : Nat) (p : Panel) (hc : w.cs ≤ w.ce) (hr : w.rs ≤ w.re)
    (h : StandsAt w k p) (hk : k < windowArea w) : StandsAt w (k + 1) (panelAdvance p) := by
  obtain ⟨h1, h2, h3⟩ := h.2 hk
  refine ⟨hk, fun hk1 => ?_⟩
  have hc' := BitVec.le_def.mp hc
  have hr' := BitVec.le_def.mp hr
  have hW : 0 < windowCols w := by unfold windowCols; omega
  have hlt := Nat.mod_lt k hW
  have harea : windowArea w = windowCols w * (w.re.toNat + 1 - w.rs.toNat) := rfl
  unfold panelAdvance
  simp only [h1, h2, h3, windowPos]
  by_cases hx : k % windowCols w + 1 < windowCols w
  · have e : (k + 1) % windowCols w = k % windowCols w + 1 ∧ (k + 1) / windowCols w = k / windowCols w := by
      have := Nat.div_add_mod k (windowCols w)
      have hq : k + 1 = k % windowCols w + 1 + windowCols w * (k / windowCols w) := by omega
      constructor
      · rw [hq, Nat.add_mul_mod_self_left, Nat.mod_eq_of_lt hx]
      · rw [hq, Nat.add_mul_div_left _ _ hW, Nat.div_eq_of_lt hx]
        omega
    rw [if_pos (by unfold windowCols at hx ⊢; omega)]
    refine ⟨rfl, rfl, ?_⟩
    simp only [e.1, e.2, Option.some.injEq, Prod.mk.injEq, and_true]
    omega
  · have e : (k + 1) % windowCols w = 0 ∧ (k + 1) / windowCols w = k / windowCols w + 1 := by
      have := Nat.div_add_mod k (windowCols w)
      have hq : k + 1 = 0 + windowCols w * (k / windowCols w + 1) := by rw [Nat.mul_add]; omega
      constructor
      · rw [hq, Nat.add_mul_mod_self_left, Nat.zero_mod]
      · rw [hq, Nat.add_mul_div_left _ _ hW, Nat.zero_div]
        omega
    have hy : k / windowCols w + 1 < w.re.toNat + 1 - w.rs.toNat := by
      rw [← e.2]
      exact Nat.div_lt_of_lt_mul (harea ▸ hk1)
    rw [if_neg (by unfold windowCols at hx ⊢; omega), if_pos (by omega)]
    refine ⟨rfl, rfl, ?_⟩
    simp only [e.1, e.2, Option.some.injEq, Prod.mk.injEq]
    omega

/-! ## The window -/

theorem joinBytes_half (v : Half) : joinBytes (v.extractLsb' 8 8) (v.extractLsb' 0 8) = v := by
  apply BitVec.eq_of_getLsbD_eq
  intro i hi
  simp only [joinBytes, BitVec.getLsbD_or, BitVec.getLsbD_shiftLeft, BitVec.getLsbD_setWidth, hi,
    BitVec.getLsbD_extractLsb', decide_true, Bool.true_and]
  by_cases h : i < 8
  · simp [h]
  · have h8 : i - 8 < 8 := by omega
    have e : 8 + (i - 8) = i := by omega
    have h16 : i - 8 < 16 := by omega
    simp [h, h8, h16, e]

theorem rangeOf_axisBytes (a b : Half) : rangeOf (axisBytes a b) = some (a, b) := by
  simp only [rangeOf, axisBytes, joinBytes_half]

/-- The four command bytes differ. -/
abbrev CommandsDiffer (par : Config.Params) : Prop :=
  [par.cmdCaset, par.cmdPaset, par.cmdRamwr, par.cmdRamrd].Nodup

/-- The window frame leaves the panel with the window (R83). -/
theorem panelHears_window (par : Config.Params) (w : Window) (p : Panel) (h : CommandsDiffer par) :
    panelHears par (windowBytes par w) p =
      { p with
        cols := some (w.cs, w.ce)
        rows := some (w.rs, w.re)
        cmd := some par.cmdPaset
        arg := axisBytes w.rs w.re } := by
  simp only [List.nodup_cons, List.mem_cons, not_or, List.not_mem_nil, not_false_eq_true, and_true] at h
  obtain ⟨⟨h1, h2, h3⟩, ⟨h4, h5⟩, h6⟩ := h
  have e1 := rangeOf_axisBytes w.cs w.ce
  have e2 := rangeOf_axisBytes w.rs w.re
  simp only [axisBytes] at e1 e2
  simp [panelHears, windowBytes, atData, axisBytes, panelTx, panelCommand, panelData, h2, h3, h4, h5, Ne.symm h1, e1,
    e2]

/-! ## Writing -/

/-- The pixel a panel stores from a pixel's wire bytes (R84). -/
def storedPixel (par : Config.Params) (m : Depth) (c : Color) : Pixel :=
  match m with
  | .d16 => ⟨(c.r.extractLsb' 3 5).zeroExtend 8, (c.g.extractLsb' 2 6).zeroExtend 8,
      (c.b.extractLsb' 3 5).zeroExtend 8, .f16⟩
  | .d24 => ⟨c.r >>> (8 - sigBits par.panelSigBits), c.g >>> (8 - sigBits par.panelSigBits),
      c.b >>> (8 - sigBits par.panelSigBits), .f3b⟩

theorem storedPixel_fmt (par : Config.Params) (m : Depth) (c : Color) : (storedPixel par m c).fmt = fmtOfDepth m := by
  cases m <;> rfl

theorem pixelOf_wireBytes (par : Config.Params) (m : Depth) (c : Color) :
    pixelOf (fmtOfDepth m) par.panelSigBits (wireBytes m false c) = some (storedPixel par m c) := by
  cases m with
  | d24 => rfl
  | d16 =>
    simp only [fmtOfDepth, wireBytes, convert, pack565, pixelOf, joinBytes_half, storedPixel, Bool.false_eq_true,
      if_false, Option.some.injEq, Pixel.mk.injEq]
    refine ⟨?_, ?_, ?_, trivial⟩ <;>
    · apply BitVec.eq_of_getLsbD_eq
      intro i hi
      simp only [BitVec.getLsbD_setWidth, BitVec.getLsbD_extractLsb', BitVec.getLsbD_or, BitVec.getLsbD_shiftLeft]
      interval_cases i <;> simp

/-- A pixel's wire bytes, heard after the memory-write command with no partial pixel: it is stored at the position, and
the position advances (R84, R86). -/
theorem panelHears_pixel (par : Config.Params) (m : Depth) (c : Color) (p : Panel) (x y : Nat) (h : CommandsDiffer par)
    (hf : p.fmt = fmtOfDepth m) (hc : p.cmd = some par.cmdRamwr) (ha : p.arg = []) (hp : p.cur = some (x, y)) :
    panelHears par (atData (wireBytes m false c)) p =
      panelAdvance { p with gram := sparseInsert (gramKey x y) (storedPixel par m c) p.gram } := by
  simp only [List.nodup_cons, List.mem_cons, not_or, List.not_mem_nil, not_false_eq_true, and_true] at h
  obtain ⟨⟨h1, h2, h3⟩, ⟨h4, h5⟩, h6⟩ := h
  have key := pixelOf_wireBytes par m c
  rw [← hf] at key
  have hsame : ({ p with arg := [], gram := sparseInsert (gramKey x y) (storedPixel par m c) p.gram } : Panel) =
      { p with gram := sparseInsert (gramKey x y) (storedPixel par m c) p.gram } := by rw [← ha]
  cases m with
  | d16 =>
    obtain ⟨a, b, hw⟩ : ∃ a b, wireBytes .d16 false c = [a, b] := ⟨_, _, rfl⟩
    rw [hw] at key ⊢
    have hf' : p.fmt = .f16 := hf
    simp only [hf'] at key
    have e1 : pixelOf .f16 par.panelSigBits [a] = none := rfl
    simp [panelHears, atData, panelTx, panelData, panelPixelByte, hc, ha, hp, hf', Ne.symm h2, Ne.symm h4, key, e1]
  | d24 =>
    obtain ⟨a, b, d, hw⟩ : ∃ a b d, wireBytes .d24 false c = [a, b, d] := ⟨_, _, _, rfl⟩
    rw [hw] at key ⊢
    have hf' : p.fmt = .f3b := hf
    simp only [hf'] at key
    have e1 : pixelOf .f3b par.panelSigBits [a] = none := rfl
    have e2 : pixelOf .f3b par.panelSigBits [a, b] = none := rfl
    simp [panelHears, atData, panelTx, panelData, panelPixelByte, hc, ha, hp, hf', Ne.symm h2, Ne.symm h4, key, e1, e2]

/-- What writing a run of pixels from pixel `k` of the window on does (R84, R86): they are stored in order, and nothing
else in the panel's memory changes. -/
theorem panelHears_pixels (par : Config.Params) (m : Depth) (w : Window) (hcs : w.cs ≤ w.ce) (hrs : w.rs ≤ w.re)
    (h : CommandsDiffer par) (cs : List Color) (k : Nat) (p : Panel) (hf : p.fmt = fmtOfDepth m)
    (hc : p.cmd = some par.cmdRamwr) (ha : p.arg = []) (hs : StandsAt w k p) (hl : k + cs.length ≤ windowArea w) :
    StandsAt w (k + cs.length) (panelHears par (atData (wireStream m false cs)) p) ∧
      (panelHears par (atData (wireStream m false cs)) p).fmt = p.fmt ∧
      (panelHears par (atData (wireStream m false cs)) p).rdMaxHz = p.rdMaxHz ∧
      (panelHears par (atData (wireStream m false cs)) p).bench = p.bench ∧
      (∀ j, j < k → sparseFind (windowKey w j) (panelHears par (atData (wireStream m false cs)) p).gram =
        sparseFind (windowKey w j) p.gram) ∧
      ∀ i c, cs[i]? = some c →
        sparseFind (windowKey w (k + i)) (panelHears par (atData (wireStream m false cs)) p).gram =
          some (storedPixel par m c) := by
  induction cs generalizing k p with
  | nil => exact ⟨hs, rfl, rfl, rfl, fun _ _ => rfl, fun i c hi => by simp at hi⟩
  | cons c cs ih =>
    have hk : k < windowArea w := by simp only [List.length_cons] at hl; omega
    obtain ⟨h1, h2, h3⟩ := hs.2 hk
    have hsplit : panelHears par (atData (wireStream m false (c :: cs))) p =
        panelHears par (atData (wireStream m false cs))
          (panelAdvance { p with gram := sparseInsert (windowKey w k) (storedPixel par m c) p.gram }) := by
      have : atData (wireStream m false (c :: cs)) = atData (wireBytes m false c) ++
          atData (wireStream m false cs) := by
        simp [atData, wireStream]
      rw [this, panelHears_append, panelHears_pixel par m c p _ _ h hf hc ha h3]
      rfl
    have hst := panelAdvance_stands w k
      { p with gram := sparseInsert (windowKey w k) (storedPixel par m c) p.gram } hcs hrs ⟨hs.1, hs.2⟩ hk
    obtain ⟨k3, k4, k1, k2, -⟩ :=
      panelAdvance_keeps { p with gram := sparseInsert (windowKey w k) (storedPixel par m c) p.gram }
    obtain ⟨i1, i2, i3, i4, i5, i6⟩ := ih (k + 1)
      (panelAdvance { p with gram := sparseInsert (windowKey w k) (storedPixel par m c) p.gram })
      ((panelAdvance_fmt _).trans hf) (k1.trans hc) (k2.trans ha) hst
      (by simp only [List.length_cons] at hl; omega)
    rw [hsplit]
    refine ⟨?_, i2.trans (panelAdvance_fmt _), i3.trans k3, i4.trans k4, ?_, ?_⟩
    · have e : k + (c :: cs).length = k + 1 + cs.length := by simp only [List.length_cons]; omega
      rw [e]
      exact i1
    · intro j hj
      rw [i5 j (by omega), panelAdvance_gram]
      exact sparseFind_insert_other _ _ _ _ fun he => by
        have := windowKey_inj w hcs j k he
        omega
    · intro i d hi
      cases i with
      | zero =>
        simp only [List.getElem?_cons_zero, Option.some.injEq] at hi
        subst hi
        rw [Nat.add_zero, i5 k (by omega), panelAdvance_gram]
        exact sparseFind_insert_same _ _ _
      | succ i =>
        rw [show k + (i + 1) = k + 1 + i by omega]
        exact i6 i d (by simpa using hi)

/-! ## Reading -/

theorem panelGives_append (par : Config.Params) (clock : Option Word) (xs ys : List Byte) (p : Panel) :
    panelGives par clock (xs ++ ys) p =
      ((panelGives par clock xs p).1 ++ (panelGives par clock ys (panelGives par clock xs p).2).1,
        (panelGives par clock ys (panelGives par clock xs p).2).2) := by
  induction xs generalizing p with
  | nil => rfl
  | cons x xs ih => simp only [List.cons_append, panelGives, ih]

@[simp] theorem panelGives_length (par : Config.Params) (clock : Option Word) (ds : List Byte) (p : Panel) :
    (panelGives par clock ds p).1.length = ds.length := by
  induction ds generalizing p with
  | nil => rfl
  | cons d ds ih => simp [panelGives, ih]

/-- The byte a channel is returned as agrees with the channel under the mask (R88, 42 R197). -/
theorem channelByte_mask (par : Config.Params) (m : Depth) (c : Color) (d0 d1 d2 : Byte) :
    maskEq m c
      ⟨channelByte (channelBits (fmtOfDepth m) par.panelSigBits .red) (storedPixel par m c).r d0,
        channelByte (channelBits (fmtOfDepth m) par.panelSigBits .green) (storedPixel par m c).g d1,
        channelByte (channelBits (fmtOfDepth m) par.panelSigBits .blue) (storedPixel par m c).b d2⟩ = true := by
  cases m with
  | d16 =>
    simp only [maskEq, maskColor, rdMask, storedPixel, channelBits, fmtOfDepth, beq_iff_eq, Color.mk.injEq, channelByte]
    refine ⟨?_, ?_, ?_⟩ <;>
    · apply BitVec.eq_of_getLsbD_eq
      intro i hi
      interval_cases i <;> simp
  | d24 =>
    simp only [maskEq, maskColor, rdMask, storedPixel, channelBits, fmtOfDepth, beq_iff_eq, Color.mk.injEq, channelByte]
    cases par.panelSigBits <;> simp only [sigBits] <;> refine ⟨?_, ?_, ?_⟩ <;>
    · apply BitVec.eq_of_getLsbD_eq
      intro i hi
      interval_cases i <;> simp

theorem panelReceive_slow (par : Config.Params) (hz : Word) (d : Byte) (p : Panel) (h : hz ≤ p.rdMaxHz) :
    panelReceive par (some hz) d p = panelByte par d p := by
  have : ¬ p.rdMaxHz < hz := BitVec.not_lt.mpr h
  simp [panelReceive, this]

/-- Three bytes of a stored pixel (R87, R88). -/
theorem panelGives_pixel (par : Config.Params) (hz : Word) (d0 d1 d2 : Byte) (p : Panel) (x y : Nat) (px : Pixel)
    (hz' : hz ≤ p.rdMaxHz) (hc : p.cmd = some par.cmdRamrd) (hr : p.rd = .red) (hp : p.cur = some (x, y))
    (hf : sparseFind (gramKey x y) p.gram = some px) :
    panelGives par (some hz) [d0, d1, d2] p =
      ([channelByte (channelBits px.fmt par.panelSigBits .red) px.r d0,
        channelByte (channelBits px.fmt par.panelSigBits .green) px.g d1,
        channelByte (channelBits px.fmt par.panelSigBits .blue) px.b d2], panelAdvance p) := by
  have hsame : ({ p with rd := .red } : Panel) = p := by rw [← hr]
  simp only [panelGives]
  rw [panelReceive_slow _ _ _ _ hz']
  have e1 : panelReadAdvance par p = { p with rd := .green } := by simp [panelReadAdvance, hc, hr]
  rw [e1, panelReceive_slow par hz _ { p with rd := .green } hz']
  have e2 : panelReadAdvance par { p with rd := .green } = { p with rd := .blue } := by simp [panelReadAdvance, hc]
  rw [e2, panelReceive_slow par hz _ { p with rd := .blue } hz']
  have e3 : panelReadAdvance par { p with rd := .blue } = panelAdvance p := by
    unfold panelReadAdvance
    rw [if_pos hc]
    exact congrArg panelAdvance hsame
  rw [e3]
  simp [panelByte, hc, hr, hp, hf, pixelChannel]

/-- Reading a run of stored pixels from pixel `k` of the window on (R87, R88). -/
theorem panelGives_pixels (par : Config.Params) (m : Depth) (w : Window) (hz : Word) (hcs : w.cs ≤ w.ce)
    (hrs : w.rs ≤ w.re) (cs : List Color) (k : Nat) (p : Panel) (ds : List Byte) (hl : ds.length = 3 * cs.length)
    (hz' : hz ≤ p.rdMaxHz) (hf : p.fmt = fmtOfDepth m) (hc : p.cmd = some par.cmdRamrd) (hr : p.rd = .red)
    (hs : StandsAt w k p) (ha : k + cs.length ≤ windowArea w)
    (hg : ∀ i c, cs[i]? = some c → sparseFind (windowKey w (k + i)) p.gram = some (storedPixel par m c)) :
    List.Forall₂ (fun a b => maskEq m a b = true) cs (colorsOf (panelGives par (some hz) ds p).1) := by
  induction cs generalizing k p ds with
  | nil =>
    cases ds with
    | nil => exact .nil
    | cons d ds => simp at hl
  | cons c cs ih =>
    match ds, hl with
    | d0 :: d1 :: d2 :: ds, hl =>
      have hk : k < windowArea w := by simp only [List.length_cons] at ha; omega
      obtain ⟨h1, h2, h3⟩ := hs.2 hk
      have hpx := panelGives_pixel par hz d0 d1 d2 p _ _ (storedPixel par m c) hz' hc hr h3 (hg 0 c rfl)
      have hst := panelAdvance_stands w k p hcs hrs hs hk
      obtain ⟨k3, -, k1, -, k2⟩ := panelAdvance_keeps p
      have ht := ih (k + 1) (panelAdvance p) ds (by simp only [List.length_cons] at hl; omega)
        (k3.symm ▸ hz') ((panelAdvance_fmt p).trans hf) (k1.trans hc) (k2.trans hr) hst
        (by simp only [List.length_cons] at ha; omega)
        (by
          intro i d hi
          rw [panelAdvance_gram, show k + 1 + i = k + (i + 1) by omega]
          exact hg (i + 1) d (by simpa using hi))
      rw [show d0 :: d1 :: d2 :: ds = [d0, d1, d2] ++ ds from rfl, panelGives_append, hpx]
      refine .cons ?_ ht
      rw [storedPixel_fmt]
      exact channelByte_mask par m c d0 d1 d2

/-- Above its limit the test bench returns zeros (R91). -/
theorem panelGives_fast (par : Config.Params) (hz : Word) (ds : List Byte) (p : Panel) (h : p.rdMaxHz < hz)
    (hb : p.bench = true) : (panelGives par (some hz) ds p).1 = List.replicate ds.length 0 := by
  induction ds generalizing p with
  | nil => rfl
  | cons d ds ih =>
    have k := panelReadAdvance_keeps par p
    simp only [panelGives, panelReceive, h, hb, if_true, List.length_cons, List.replicate_succ]
    rw [ih _ (k.1.symm ▸ h) (k.2.trans hb)]

/-! ## The panel and the bus -/

/-- The byte a selected display gives, and what it becomes. -/
theorem shiftIn_panel (s : State) (p : Panel) (hp : s.panel = some p) (hs : s.sel = some .display) :
    shiftIn s = (panelReceive s.par s.clock (nextByte s.env) p,
      { s with
        env := popByte s.env
        panel := some (panelReadAdvance s.par p)
        trace := s.trace ++ [.rx (panelReceive s.par s.clock (nextByte s.env) p)] }) := by
  simp only [shiftIn, hp, hs, emit]

/-- Bytes received from a selected display: those the panel gives for the drawn bytes. -/
theorem shiftInAll_panel (n : Nat) (s : State) (p : Panel) (hp : s.panel = some p) (hs : s.sel = some .display) :
    (shiftInAll n s).1 = (panelGives s.par s.clock (drawBytes n s.env).1 p).1 ∧
      (shiftInAll n s).2.panel = some (panelGives s.par s.clock (drawBytes n s.env).1 p).2 ∧
      (shiftInAll n s).2.sel = s.sel ∧ (shiftInAll n s).2.clock = s.clock ∧ (shiftInAll n s).2.par = s.par ∧
      (shiftInAll n s).2.env = (drawBytes n s.env).2 := by
  induction n generalizing s p with
  | zero => exact ⟨rfl, hp, rfl, rfl, rfl, rfl⟩
  | succ n ih =>
    have h := shiftIn_panel s p hp hs
    obtain ⟨h1, h2, h3, h4, h5, h6⟩ := ih (shiftIn s).2 (panelReadAdvance s.par p) (by rw [h]) (by rw [h]; exact hs)
    simp only [shiftInAll, drawBytes, panelGives]
    rw [h] at h1 h2 h3 h4 h5 h6 ⊢
    exact ⟨by rw [h1], h2, h3, h4, h5, h6⟩

theorem recvBursts_panel (ns : List Nat) (s : State) (p : Panel) (hp : s.panel = some p) (hs : s.sel = some .display) :
    ∃ ds, ds.length = ns.sum ∧ (recvBursts ns s).1 = (panelGives s.par s.clock ds p).1 ∧
      (recvBursts ns s).2.panel = some (panelGives s.par s.clock ds p).2 := by
  induction ns generalizing s p with
  | nil => exact ⟨[], rfl, rfl, hp⟩
  | cons n ns ih =>
    obtain ⟨h1, h2, h3, h4, h5, h6⟩ := shiftInAll_panel n { s with bitlen := 8 * n, cnt := countBurst s.cnt } p hp hs
    have hlen : (shiftInAll n { s with bitlen := 8 * n, cnt := countBurst s.cnt }).1.length = n :=
      (shiftInAll_spec n _).1
    obtain ⟨ds, hl, k1, k2⟩ := ih (startBurstRx n s) (panelGives s.par s.clock (drawBytes n s.env).1 p).2
      (by simpa [startBurstRx] using h2) (by simpa [startBurstRx, hs] using h3)
    have hpar : (startBurstRx n s).par = s.par := by simpa [startBurstRx] using h5
    have hclk : (startBurstRx n s).clock = s.clock := by simpa [startBurstRx] using h4
    have hb : burstBytes (startBurstRx n s).w n = (panelGives s.par s.clock (drawBytes n s.env).1 p).1 := by
      simp only [startBurstRx, emit_w, burstBytes_of_length _ _ hlen]
      exact h1
    rw [hpar, hclk] at k1 k2
    refine ⟨(drawBytes n s.env).1 ++ ds, by simp [hl], ?_, ?_⟩
    · simp only [recvBursts, panelGives_append, hb, k1]
    · simp only [recvBursts, panelGives_append, k2]

/-- A receive of `n` bytes from a selected display: those the panel gives for `n` drawn bytes. -/
theorem recvBytes_panel (n : Nat) (s : State) (p : Panel) (hn : 0 < s.par.nwords) (hp : s.panel = some p)
    (hs : s.sel = some .display) :
    ∃ ds, ds.length = n ∧ (recvBytes n s).1 = (panelGives s.par s.clock ds p).1 ∧
      (recvBytes n s).2.panel = some (panelGives s.par s.clock ds p).2 := by
  obtain ⟨ds, hl, h⟩ := recvBursts_panel (burstSizes s.par n) s p hp hs
  exact ⟨ds, hl.trans (burstSizes_sum _ hn n), h⟩

/-- The memory-write command puts the panel at the first pixel of the window it holds (R82). -/
theorem panelHears_ramwr (par : Config.Params) (w : Window) (p : Panel) (hc : p.cols = some (w.cs, w.ce))
    (hr : p.rows = some (w.rs, w.re)) :
    panelHears par [(.command, par.cmdRamwr)] p =
      { p with cmd := some par.cmdRamwr, arg := [], cur := some (windowPos w 0) } := by
  simp [panelHears, panelTx, panelCommand, panelStart, hc, hr, windowPos]

/-- The memory-read command, likewise, and the dummy byte comes next (R82). -/
theorem panelHears_ramrd (par : Config.Params) (w : Window) (p : Panel) (h : CommandsDiffer par)
    (hc : p.cols = some (w.cs, w.ce)) (hr : p.rows = some (w.rs, w.re)) :
    panelHears par [(.command, par.cmdRamrd)] p =
      { p with cmd := some par.cmdRamrd, arg := [], cur := some (windowPos w 0), rd := .dummy } := by
  simp only [List.nodup_cons, List.mem_cons, not_or, List.not_mem_nil, not_false_eq_true, and_true] at h
  obtain ⟨-, -, h6⟩ := h
  simp [panelHears, panelTx, panelCommand, panelStart, hc, hr, windowPos, Ne.symm h6.1]

/-- The panel after a window frame and a write of pixels: what it stores, and that nothing else of it matters to a
read. -/
theorem panelHears_write (par : Config.Params) (m : Depth) (w : Window) (hcs : w.cs ≤ w.ce) (hrs : w.rs ≤ w.re)
    (h : CommandsDiffer par) (cs : List Color) (p : Panel) (hf : p.fmt = fmtOfDepth m)
    (hl : cs.length ≤ windowArea w) (hc : p.cols = some (w.cs, w.ce)) (hr : p.rows = some (w.rs, w.re)) :
    ∀ i c, cs[i]? = some c →
      sparseFind (windowKey w i)
        (panelHears par ((.command, par.cmdRamwr) :: atData (wireStream m false cs)) p).gram =
          some (storedPixel par m c) := by
  have e : panelHears par ((.command, par.cmdRamwr) :: atData (wireStream m false cs)) p =
      panelHears par (atData (wireStream m false cs)) (panelHears par [(.command, par.cmdRamwr)] p) :=
    panelHears_append par [(.command, par.cmdRamwr)] _ p
  rw [e, panelHears_ramwr par w p hc hr]
  have := (panelHears_pixels par m w hcs hrs h cs 0
    { p with cmd := some par.cmdRamwr, arg := [], cur := some (windowPos w 0) } hf rfl rfl
    ⟨Nat.zero_le _, fun _ => ⟨hc, hr, rfl⟩⟩ (by simpa using hl)).2.2.2.2.2
  intro i c hi
  simpa using this i c hi

/-- A read of pixels stored from the first pixel of the window on, dummy byte first (R87, R88). -/
theorem panelGives_read (par : Config.Params) (m : Depth) (w : Window) (hz : Word) (hcs : w.cs ≤ w.ce)
    (hrs : w.rs ≤ w.re) (h : CommandsDiffer par) (cs : List Color) (p : Panel) (ds : List Byte)
    (hl : ds.length = 3 * cs.length + 1) (hz' : hz ≤ p.rdMaxHz) (hf : p.fmt = fmtOfDepth m)
    (ha : cs.length ≤ windowArea w)
    (hg : ∀ i c, cs[i]? = some c → sparseFind (windowKey w i) p.gram = some (storedPixel par m c)) :
    List.Forall₂ (fun a b => maskEq m a b = true) cs
      (strippedPixels (panelGives par (some hz) ds
        (panelHears par (windowBytes par w ++ [(.command, par.cmdRamrd)]) p)).1) := by
  match ds, hl with
  | d :: ds, hl =>
    rw [panelHears_append, panelHears_window par w p h, panelHears_ramrd par w _ h rfl rfl]
    simp only [panelGives, strippedPixels, List.drop_succ_cons, List.drop_zero]
    refine panelGives_pixels par m w hz hcs hrs cs 0 _ ds (by simpa using hl) ?_ ?_ ?_ ?_ ?_ (by simpa using ha) ?_
    · rw [(panelReadAdvance_keeps _ _).1]
      exact hz'
    · rw [panelReadAdvance_fmt]
      exact hf
    · simp [panelReadAdvance]
    · simp [panelReadAdvance]
    · refine ⟨Nat.zero_le _, fun _ => ?_⟩
      simp [panelReadAdvance]
    · intro i c hi
      have := hg i c hi
      simpa [panelReadAdvance] using this

theorem panelAfter_some (s : State) (p : Panel) (bs : List (DcLevel × Byte)) (hp : s.panel = some p)
    (hs : s.sel = some .display) : panelAfter s bs = some (panelHears s.par bs p) := by
  simp [panelAfter, hp, hs]

/-- The receive of a read from a selected display with a panel: what the panel gives after the window frame and the
memory-read command. -/
theorem receiveFrame_panel (w : Window) (n : Nat) (s : State) (p : Panel) (hn : 0 < s.par.nwords)
    (hp : s.panel = some p) (hs : s.sel = some .display) :
    ∃ ds, ds.length = n ∧
      (receiveFrame w n s).1 =
        (panelGives s.par s.clock ds
          (panelHears s.par (windowBytes s.par w ++ [(.command, s.par.cmdRamrd)]) p)).1 ∧
      (receiveFrame w n s).2.panel =
        some (panelGives s.par s.clock ds
          (panelHears s.par (windowBytes s.par w ++ [(.command, s.par.cmdRamrd)]) p)).2 := by
  have hw := windowFrame_eq w s hn
  have hx : (sendCommand s.par.cmdRamrd (windowFrame w s)).par = s.par ∧
      (sendCommand s.par.cmdRamrd (windowFrame w s)).clock = s.clock ∧
      (sendCommand s.par.cmdRamrd (windowFrame w s)).sel = s.sel ∧
      (sendCommand s.par.cmdRamrd (windowFrame w s)).panel =
        some (panelHears s.par (windowBytes s.par w ++ [(.command, s.par.cmdRamrd)]) p) := by
    rw [sendCommand_eq, hw]
    refine ⟨rfl, rfl, rfl, ?_⟩
    simp only [panelAfter, hs, hp, if_true, Option.map_some, panelHears_append]
  obtain ⟨h1, h2, h3, h4⟩ := hx
  obtain ⟨ds, hl, k1, k2⟩ := recvBytes_panel n (sendCommand s.par.cmdRamrd (windowFrame w s)) _ (h1.symm ▸ hn) h4
    (h3.trans hs)
  rw [h1, h2] at k1 k2
  exact ⟨ds, hl, k1, k2⟩

end Sys2Proof.Machine
end

