-- ==== Sys2Proof/Laws/Phases.lean ====
section
/-! SUPPORT. Host accesses and the waits of an operation, said once (spec/20_memory.md R70; 10_state.md R24, R36;
43_pixel_push.md R220; 45_calibration.md R265): what an access does, and that an operation that comes to a wait is, from
there on, the rest of itself. -/

namespace Sys2Proof.Machine

/-! ## Host accesses -/

theorem rangesMeet_iff (a n b m : Nat) : rangesMeet a n b m = true ↔ Share a n b m := by
  simp only [rangesMeet, decide_eq_true_eq, Share]
  constructor
  · intro h
    exact ⟨max a b - b, by omega, by omega, by omega⟩
  · rintro ⟨k, h1, h2, h3⟩
    omega

theorem hostAccess_blocked (addr len : Nat) (act : State → State) (s : State) (ho : s.op ≠ none) :
    hostAccess addr len act s = .refused .hostBlocked := by
  simp only [hostAccess, Option.isSome_iff_ne_none.mpr ho, if_true]

theorem hostAccess_refused (addr len a n : Nat) (act : State → State) (s : State) (ho : s.op = none)
    (hb : addr + len ≤ 2 ^ s.par.addrBits) (hl : s.loan = some (a, n)) (h : Share a n addr len) :
    hostAccess addr len act s = .refused .bufferOnLoan := by
  simp only [hostAccess, ho, Option.isSome_none, Bool.false_eq_true, Nat.not_lt.mpr hb, if_false, hl,
    (rangesMeet_iff _ _ _ _).mpr h, if_true]

theorem hostAccess_next (addr len : Nat) (act : State → State) (s : State) (ho : s.op = none)
    (hb : addr + len ≤ 2 ^ s.par.addrBits) (h : ∀ a n, s.loan = some (a, n) → ¬ Share a n addr len) :
    hostAccess addr len act s = .next (act s) := by
  simp only [hostAccess, ho, Option.isSome_none, Bool.false_eq_true, Nat.not_lt.mpr hb, if_false]
  cases hl : s.loan with
  | none => rfl
  | some r =>
    have hm : rangesMeet r.1 r.2 addr len = false := by
      have := h r.1 r.2 hl
      rw [← rangesMeet_iff] at this
      simpa using this
    simp only [hm, Bool.false_eq_true, if_false]

/-- What a host access that answers a next state has done. -/
theorem hostAccess_ok {addr len : Nat} {act : State → State} {s t : State} (h : hostAccess addr len act s = .next t) :
    s.op = none ∧ t = act s := by
  unfold hostAccess at h
  split at h
  · cases h
  · rename_i ho
    refine ⟨by simpa using ho, ?_⟩
    split at h
    · cases h
    · split at h
      · split at h
        · cases h
        · exact (Host.Outcome.next.inj h).symm
      · exact (Host.Outcome.next.inj h).symm

/-- A cut region holds the bytes of the region outside the cut. -/
theorem mem_cutRegion (addr len x : Nat) (r : Region) :
    (∃ q ∈ cutRegion addr len r, q.base ≤ x ∧ x < q.base + q.size) ↔
      (r.base ≤ x ∧ x < r.base + r.size) ∧ ¬ (addr ≤ x ∧ x < addr + len) := by
  unfold cutRegion rangesMeet
  split
  · rename_i h
    simp only [decide_eq_true_eq] at h
    constructor
    · rintro ⟨q, hq, h1, h2⟩
      simp only [List.mem_filter, List.mem_cons, List.not_mem_nil, or_false, bne_iff_ne] at hq
      rcases hq.1 with rfl | rfl <;> simp only at h1 h2 <;> omega
    · rintro ⟨⟨h1, h2⟩, h3⟩
      by_cases hx : x < addr
      · refine ⟨⟨r.base, addr - r.base, r.dmaCapable⟩, ?_, h1, by simp only; omega⟩
        simp only [List.mem_filter, List.mem_cons, true_or, bne_iff_ne, true_and]
        omega
      · refine ⟨⟨addr + len, r.base + r.size - (addr + len), r.dmaCapable⟩, ?_, by simp only; omega,
          by simp only; omega⟩
        simp only [List.mem_filter, List.mem_cons, or_true, true_or, bne_iff_ne, true_and]
        omega
  · rename_i h
    simp only [decide_eq_true_eq] at h
    constructor
    · rintro ⟨q, hq, h1, h2⟩
      simp only [List.mem_singleton] at hq
      subst hq
      exact ⟨⟨h1, h2⟩, by omega⟩
    · rintro ⟨h1, -⟩
      exact ⟨r, by simp, h1⟩

/-! ## Waits -/

/-- A wait that is over changes nothing but the loan. -/
theorem awaitDma_idle (s : State) (h : s.dma = .idle) : awaitDma s = (.ok, { s with loan := none }) := by
  simp only [awaitDma, h]

theorem dmaBusy_eq_false (s : State) : dmaBusy s = false ↔ s.dma = .idle := by
  unfold dmaBusy
  cases s.dma <;> simp

/-- One chunk of a fill (R220), the buffer free. -/
theorem fillLoop_cons (fill : List Byte) (b n : Nat) (ns : List Nat) (s : State) (h : s.dma = .idle) :
    fillLoop fill b (n :: ns) s = fillLoop fill b ns (dmaQueue (fill.take (n * b)) .scratch (awaitDma s).2) := by
  simp only [fillLoop, awaitDma_idle s h]

/-- A fill that comes to a wait, taken up there, ends as it would have. -/
theorem fillLoop_of_fillWait {fill : List Byte} {b : Nat} {ns : List Nat} {s t : State} {q : Phase}
    (hd : s.dma = .idle) (h : fillWait fill b ns s = some (q, t)) :
    ∃ rest, q = .fill fill b rest ∧ fillLoop fill b ns s = fillLoop fill b rest t := by
  cases ns with
  | nil => cases h
  | cons n ns =>
    simp only [fillWait, Option.some.injEq, Prod.mk.injEq] at h
    obtain ⟨rfl, rfl⟩ := h
    exact ⟨ns, rfl, fillLoop_cons _ _ _ _ _ hd⟩

theorem scan_cons (p : CalPlan) (f : Nat) (fs : List Nat) (best : Option Word) (s : State) :
    scan p (f :: fs) best s = scanRest p f fs best (writeLine p (setClock (BitVec.ofNat 32 f) s)) := by
  rfl

/-- The line of a candidate that goes by DMA, from its wait on. -/
theorem writeLine_wait {p : CalPlan} {s s1 : State} (hs : select .display s = (.ok, s1))
    (hg : goesDirect s1.par p.depth p.width = false) :
    writeLine p s = lineRest (pushStream false (calLine p) none false (windowFrame p.window s1)).2 := by
  simp only [writeLine, hs, hg, pushStream_wait, lineRest] <;> rfl

/-- A scan that comes to a wait, taken up there, ends as it would have. -/
theorem scan_of_lineWait {clock : Word} {g : Bool} {p : CalPlan} {fs : List Nat} {best : Option Word} {s t : State}
    {q : Phase} (h : lineWait clock g p fs best s = some (q, t)) :
    ∃ f rest, q = .scan clock g p f rest best ∧ scan p fs best s = scanRest p f rest best (lineRest t) := by
  cases fs with
  | nil => cases h
  | cons f fs =>
    unfold lineWait at h
    rw [scan_cons]
    rcases hs : select .display (setClock (BitVec.ofNat 32 f) s) with ⟨st, s1⟩
    cases st with
    | ok =>
      simp only [hs] at h
      cases hg : goesDirect s1.par p.depth p.width with
      | true => simp [hg] at h
      | false =>
        simp only [hg, Bool.false_eq_true, if_false, Option.some.injEq, Prod.mk.injEq] at h
        obtain ⟨rfl, rfl⟩ := h
        exact ⟨f, fs, rfl, by rw [writeLine_wait hs hg]⟩
    | deselectFail => simp [hs] at h
    | selectFail => simp [hs] at h
    | dmaTimeout => simp [hs] at h
    | illegal => simp [hs] at h

/-! ## What the waits keep -/

/-- A wait, however it ends: bus traffic, nothing in flight, selection, line and clock as they were. -/
theorem awaitDma_traffic (s : State) : Traffic s (awaitDma s).2 ∧ (awaitDma s).2.dma = .idle ∧
    (awaitDma s).2.sel = s.sel ∧ (awaitDma s).2.dc = s.dc ∧ (awaitDma s).2.clock = s.clock := by
  rcases awaitDma_cases s with ⟨-, h⟩ | ⟨bs, o, k, -, -, h⟩ <;> rw [h]
  · exact ⟨(bus_drained s).toTraffic, by simp, by simp, by simp, by simp⟩
  · exact ⟨(bus_abandoned k s).toTraffic, by simp, by simp, by simp, by simp⟩

/-- A wait, however it ends: its flags are those of its status. -/
theorem awaitDma_flags (s : State) : FlagsOf (awaitDma s).1 s (awaitDma s).2 ∧ (awaitDma s).1 ≠ .illegal := by
  rcases awaitDma_cases s with ⟨-, h⟩ | ⟨bs, o, k, hd, -, h⟩ <;> rw [h]
  · exact ⟨by simp [FlagsOf, flagsAfter], by simp⟩
  · exact ⟨by simp [FlagsOf, flagsAfter, abandoned, hd], by simp⟩

/-- The end of `WriteLine`: bus traffic, nothing in flight, its flags those of its status, and nothing selected where it
ends well. -/
theorem lineRest_spec (s : State) : Traffic s (lineRest s).2 ∧ (lineRest s).2.dma = .idle ∧
    FlagsOf (lineRest s).1 s (lineRest s).2 ∧ (lineRest s).1 ≠ .illegal ∧
    ((lineRest s).1 = .ok → (lineRest s).2.sel = none) ∧
    ((lineRest s).2.sel = none ∨ (lineRest s).2.sel = s.sel) := by
  obtain ⟨h1, h2, h3, -⟩ := awaitDma_traffic s
  obtain ⟨h4, h5⟩ := awaitDma_flags s
  unfold lineRest
  rcases he : awaitDma s with ⟨st, s1⟩
  rw [he] at h1 h2 h3 h4 h5
  cases st
  · have hb := (bus_deselect .display s1).toTraffic
    have hf := deselect_flags .display s1
    refine ⟨h1.trans hb, hb.dma h2, ?_, deselect_legal _ _, deselect_ok_sel _ _, ?_⟩
    · rw [FlagsOf, hf, show s1.ef = s.ef from h4]
    · show (deselect .display s1).2.sel = none ∨ (deselect .display s1).2.sel = s.sel
      rcases deselect_cases .display s1 with ⟨hs, h⟩ | ⟨-, -, h⟩ | ⟨-, -, h⟩ <;> rw [h]
      · exact .inl hs
      · exact .inl rfl
      · exact .inr h3
  all_goals exact ⟨h1, h2, h4, h5, fun h => (by cases h), .inr h3⟩

/-- The rest of a scan from a wait for its line: bus traffic, nothing in flight, its flags those of its status, and a
best candidate that is the one so far or one of those it stood at or had to come. -/
theorem scanRest_spec (p : CalPlan) (f : Nat) (fs : List Nat) (best : Option Word) (s : State)
    (hn : 0 < s.par.nwords) :
    let r := scanRest p f fs best (lineRest s)
    Traffic s r.2.2 ∧ r.2.2.dma = .idle ∧ FlagsOf r.1 s r.2.2 ∧ r.1 ≠ .illegal ∧
      (s.sel ≠ some .touch → r.2.2.sel = none ∨ r.2.2.sel = some .display) ∧
      (r.2.1 = best ∨ ∃ k ∈ f :: fs, r.2.1 = some (BitVec.ofNat 32 k)) := by
  obtain ⟨t1, d1, f1, l1, o1, s1'⟩ := lineRest_spec s
  intro r
  have hsel : s.sel ≠ some .touch → (lineRest s).2.sel = none ∨ (lineRest s).2.sel = some .display := by
    intro h
    rcases s1' with k | k
    · exact .inl k
    · rw [k]
      rcases hx : s.sel with _ | d
      · exact .inl rfl
      · cases d
        · exact .inr rfl
        · exact absurd hx h
  rcases he : lineRest s with ⟨st, s1⟩
  simp only [he] at t1 d1 f1 l1 o1 hsel
  by_cases hst : st = .ok
  · subst hst
    have hn1 : 0 < s1.par.nwords := t1.par ▸ hn
    have l2 := readSequence_legal p.window (rawBytes p.width) none s1 hn1
    obtain ⟨t2, f2, o2, d2, -⟩ := readLine_spec p s1 hn1 (o1 rfl)
    have f1' : s1.ef = s.ef := f1
    rcases hr : readLine p s1 with ⟨st2, buf, s2⟩
    simp only [hr] at t2 f2 o2 d2
    simp only [readLine] at hr
    rw [hr] at l2
    by_cases hst2 : st2 = .ok
    · subst hst2
      have hs2 := o2 rfl
      cases hm : mismatch p (buf.getD []) with
      | true =>
        have : r = (.ok, best, s2) := by simp [r, he, scanRest, readLine, hr, hm]
        rw [this]
        exact ⟨t1.trans t2, t2.dma d1, f2.trans f1', by simp, fun _ => .inl hs2, .inl rfl⟩
      | false =>
        have : r = scan p fs (some (BitVec.ofNat 32 f)) s2 := by simp [r, he, scanRest, readLine, hr, hm]
        rw [this]
        have hn2 := t2.par ▸ hn1
        obtain ⟨t3, f3, o3, d3, b3⟩ := scan_spec p fs (some (BitVec.ofNat 32 f)) s2 hn2 (t2.dma d1) hs2
        refine ⟨(t1.trans t2).trans t3, t3.dma (t2.dma d1), ?_, scan_legal _ _ _ _ hn2 hs2, fun _ => d3, ?_⟩
        · rw [FlagsOf, f3, f2, f1']; rfl
        · rcases b3 with h | ⟨g, hg, h⟩
          · exact .inr ⟨f, by simp, h⟩
          · exact .inr ⟨g, by simp [hg], h⟩
    · have : r = (st2, best, s2) := by simp [r, he, scanRest, readLine, hr]
      rw [this]
      refine ⟨t1.trans t2, t2.dma d1, ?_, l2, fun _ => d2, .inl rfl⟩
      rw [FlagsOf, f2, f1']
  · have : r = (st, best, s1) := by simp [r, he, scanRest]
    rw [this]
    exact ⟨t1, d1, f1, l1, hsel, .inl rfl⟩

/-- The exit of `FIND_MAX_RDCLK` (R269): a deselect of the display, if it is selected, then the clock and the grayscale
flag as saved. -/
theorem calRestore_spec (clock : Word) (g : Bool) (s : State) :
    ∃ t, Traffic s t ∧ FlagsOrSel s.ef t.ef ∧ (s.dma = .idle → t.dma = .idle) ∧
      (s.sel = none ∨ s.sel = some .display → t.sel = none ∨ t.sel = some .display ∧ t.ef.sel = true) ∧
      calRestore clock g s = { setClock clock t with cfg := { t.cfg with gray := some g } } := by
  by_cases h : s.sel = some .display
  · refine ⟨(deselect .display s).2, (bus_deselect _ _).toTraffic, ?_, (bus_deselect _ _).dma, fun _ => ?_, ?_⟩
    · rcases deselect_cases .display s with ⟨-, hx⟩ | ⟨-, -, hx⟩ | ⟨-, -, hx⟩ <;> rw [hx]
      · exact .inl rfl
      · exact .inl rfl
      · exact .inr rfl
    · rcases deselect_cases .display s with ⟨hx, -⟩ | ⟨-, -, hx⟩ | ⟨-, -, hx⟩
      · rw [h] at hx
        cases hx
      · rw [hx]
        exact .inl rfl
      · rw [hx]
        exact .inr ⟨h, rfl⟩
    · simp [calRestore, h]
  · refine ⟨s, Traffic.refl s, .inl rfl, id, fun hs => .inl (hs.resolve_right h), ?_⟩
    simp [calRestore, h]

/-- What coming to a wait and host accesses alike keep: parameters and the host's actions, memory, and a trace and flags
that only grow. -/
abbrev Grows (s t : State) : Prop :=
  t.par = s.par ∧ t.host = s.host ∧ t.mem = s.mem ∧ s.trace <+: t.trace ∧ FlagsGrow s.ef t.ef

theorem Traffic.grows {s t : State} (h : Traffic s t) : Grows s t := ⟨h.par, h.host, h.mem, h.trace, h.flags⟩

theorem Grows.trans {s t u : State} (h : Grows s t) (k : Grows t u) : Grows s u :=
  ⟨k.1.trans h.1, k.2.1.trans h.2.1, k.2.2.1.trans h.2.2.1, h.2.2.2.1.trans k.2.2.2.1,
    fun x => k.2.2.2.2.1 (h.2.2.2.2.1 x), fun x => k.2.2.2.2.2.1 (h.2.2.2.2.2.1 x),
    fun x => k.2.2.2.2.2.2.1 (h.2.2.2.2.2.2.1 x), k.2.2.2.2.2.2.2.trans h.2.2.2.2.2.2.2⟩

theorem fillWait_grows {buffer : List Byte} {b : Nat} {rest : List Nat} {s t : State} {q : Phase}
    (h : fillWait buffer b rest s = some (q, t)) : Grows s t := by
  cases rest with
  | nil => cases h
  | cons n ns =>
    simp only [fillWait, Option.some.injEq, Prod.mk.injEq] at h
    obtain ⟨rfl, rfl⟩ := h
    exact (awaitDma_traffic s).1.grows.trans ⟨rfl, rfl, rfl, List.prefix_append _ _, id, id, id, rfl⟩

theorem pushStream_grows (bs : List Byte) (l : Option (Nat × Nat)) (s : State) :
    Grows s (pushStream false bs l false s).2 := by
  rw [pushStream_queue]
  exact ⟨rfl, rfl, rfl, List.prefix_append _ _, id, id, id, rfl⟩

theorem lineWait_grows {clock : Word} {g : Bool} {p : CalPlan} {fs : List Nat} {best : Option Word} {s t : State}
    {q : Phase} (hn : 0 < s.par.nwords) (h : lineWait clock g p fs best s = some (q, t)) : Grows s t := by
  cases fs with
  | nil => cases h
  | cons f fs =>
    unfold lineWait at h
    have hb := (traffic_setClock (BitVec.ofNat 32 f) s).trans
      (bus_select .display (setClock (BitVec.ofNat 32 f) s)).toTraffic
    rcases hs : select .display (setClock (BitVec.ofNat 32 f) s) with ⟨st, s1⟩
    simp only [hs] at h hb
    cases st <;> simp only at h <;> try cases h
    split at h
    · cases h
    · simp only [Option.some.injEq, Prod.mk.injEq] at h
      obtain ⟨rfl, rfl⟩ := h
      exact (hb.trans (bus_windowFrame p.window s1 (hb.par ▸ hn)).toTraffic).grows.trans (pushStream_grows _ _ _)

theorem bodyWait_grows {i : Instr} {s t : State} {q : Phase} (hn : 0 < s.par.nwords)
    (h : bodyWait i s = some (q, t)) : Grows s t := by
  cases i <;> try cases h
  · rename_i color count wait
    simp only [bodyWait] at h
    split at h
    · unfold pushRepWait at h
      split at h
      · simp only at h
        split at h
        · cases h
        · have k := fillWait_grows h
          exact (bus_openWrite s).toTraffic.grows.trans (show Grows (openWrite s) t from k)
      · cases h
    · cases h
  · simp only [bodyWait] at h
    split at h
    · unfold pushBufWait at h
      split at h
      · split at h
        · cases h
        · simp only [Option.some.injEq, Prod.mk.injEq] at h
          obtain ⟨rfl, rfl⟩ := h
          exact pushStream_grows _ _ _
      · cases h
    · cases h
  · simp only [bodyWait, findMaxWait] at h
    split at h
    · split at h
      · have k := lineWait_grows (by exact hn) h
        exact (show Grows s t from k)
      · cases h
    · cases h

/-- Coming to a wait. -/
theorem nextWait_grows {i : Instr} {p q : Phase} {s t : State} (hn : 0 < s.par.nwords)
    (h : nextWait i p s = some (q, t)) : Grows s t := by
  have hself : Grows s s := (Traffic.refl s).grows
  cases p <;> simp only [nextWait] at h
  · split at h
    · split at h
      · cases h
        exact hself
      · have ht := (awaitDma_traffic s).1
        exact ht.grows.trans (bodyWait_grows (ht.par ▸ hn) h)
    · cases h
  · split at h
    · cases h
      exact hself
    · cases h
  · split at h
    · cases h
      exact hself
    · exact fillWait_grows h
  · split at h
    · cases h
      exact hself
    · rename_i clock g plan f fs best _
      obtain ⟨t1, -, -, -, o1, -⟩ := lineRest_spec s
      rcases hl : lineRest s with ⟨st, s1⟩
      simp only [hl] at h t1 o1
      cases st <;> simp only at h <;> try cases h
      have hn1 : 0 < s1.par.nwords := t1.par ▸ hn
      obtain ⟨t2, -⟩ := readLine_spec plan s1 hn1 (o1 rfl)
      rcases hr : readLine plan s1 with ⟨st2, buf, s2⟩
      simp only [hr] at h t2
      cases st2 <;> simp only at h <;> try cases h
      split at h
      · cases h
      · exact (t1.trans t2).grows.trans (lineWait_grows (t2.par ▸ hn1) h)

/-- An operation that drains reads its state through the wait it stands at, and through nothing else (10 R36). -/
theorem resume_congr {i : Instr} {p : Phase} {s t : State} (hd : p = .drain → drains i = true)
    (h : awaitDma s = awaitDma t) : resume i p s = resume i p t := by
  cases p with
  | drain =>
    have hi := hd rfl
    cases i <;> simp only [resume, exec]
    · simp only [execSelect, opening, h]
    · simp only [execDeselect, opening, h]
    · simp only [execSendCmd, opening, h]
    · simp only [execSendCmdData, opening, h]
    · simp only [execSetWindow, opening, h]
    · simp only [drains, bne_iff_ne] at hi
      simp only [execPushRep, hi, if_false, opening, h]
    · simp only [drains, bne_iff_ne] at hi
      simp only [execPushBuf, hi, if_false, opening, h]
    · simp only [execReadPixels, opening, h]
    · simp only [execReadPixel, opening, h]
    · simp only [execFindMaxRdclk, opening, h]
    · simp only [execWait, opening, h]
    · rename_i reg value
      simp only [drains, Option.isSome_iff_exists] at hi
      obtain ⟨r, hr⟩ := hi
      simp only [execCfgWr, hr, opening, h]
    · cases hi
  | pushWait => simp only [resume, h]
  | fill buffer b rest => cases rest <;> simp only [resume, fillLoop, h]
  | scan clock g plan f fs best => simp only [resume, lineRest, h]

/-! ## Agents -/

theorem popTurn_urgent (e : Env) : (popTurn e).urgent = e.urgent := by unfold popTurn; split <;> rfl
theorem popHold_urgent (e : Env) : (popHold e).urgent = e.urgent := by unfold popHold; split <;> rfl

/-- The DMA engine's turn: the operation, the host's lists, memory, parameters, selection and flags stand. -/
theorem dmaTurn_keeps (s : State) : (dmaTurn s).op = s.op ∧ (dmaTurn s).host = s.host ∧
    (dmaTurn s).env.urgent = s.env.urgent ∧ (dmaTurn s).mem = s.mem ∧ (dmaTurn s).loan = s.loan ∧
    (dmaTurn s).par = s.par ∧ (dmaTurn s).sel = s.sel ∧ (dmaTurn s).ef = s.ef := by
  unfold dmaTurn
  split
  · simp
  · split
    · simp [dmaComplete, emit, shiftAll_eq, popTurn_urgent]
    · simp [popTurn_urgent]

/-- A transfer that completes in the engine's turn leaves a wait nothing to do but what it would have done. -/
theorem awaitDma_dmaTurn {t : State} {bs : List Byte} {o : DmaOwner} {e : Env} (hd : t.dma = .inFlight bs o)
    (hn : nextEnd t.env = none) (ht : nextTurn e = true) (hp : popTurn e = popEnd t.env) :
    awaitDma (dmaTurn { t with env := e }) = awaitDma t := by
  simp only [dmaTurn, hd, ht, hp, if_true, awaitDma, hn, dmaComplete, emit, shiftAll_eq]
  rfl

/-- How an operation goes on from a phase: to its end, with or without a draw, or to its next wait. -/
theorem proceed_cases (i : Instr) (p : Phase) (s : State) :
    (nextWait i p { s with env := popHold s.env } = none ∧ proceed i p s = resume i p s) ∨
    ∃ q t, nextWait i p { s with env := popHold s.env } = some (q, t) ∧
      ((nextHold s.env = true ∧ proceed i p s = .next { t with op := some (i, q) }) ∨
        (nextHold s.env = false ∧ proceed i p s = resume i p { s with env := popHold s.env })) := by
  unfold proceed
  cases hw : nextWait i p { s with env := popHold s.env } with
  | none => exact .inl ⟨rfl, rfl⟩
  | some r =>
    obtain ⟨q, t⟩ := r
    refine .inr ⟨q, t, rfl, ?_⟩
    cases hh : nextHold s.env
    · exact .inr ⟨rfl, rfl⟩
    · exact .inl ⟨rfl, rfl⟩

end Sys2Proof.Machine
end

