-- ==== Sys2Proof/Machine/Pseudo.lean ====
section
/-! DEFINITION. The pseudo-operations the host expands (spec/30_encoding.md R126, R127) and the textual form of an
operation (R125). Nothing in the machine calls them; they say what host code stands for. -/

namespace Sys2Proof.Machine

/-- `PUSH_REP.W` and `PUSH_REP.NW` (R126). -/
def pushRepW (color : Color) (count : Word) : Instr := .pushRep color count true
def pushRepNW (color : Color) (count : Word) : Instr := .pushRep color count false

/-- `PUSH_BUF.W` and `PUSH_BUF.NW` (R126). -/
def pushBufW (addr count : Word) : Instr := .pushBuf addr count true
def pushBufNW (addr count : Word) : Instr := .pushBuf addr count false

/-- `SET_DEPTH 16` and `SET_DEPTH 24`, `old` being the value last written to `CTRL` (R126). -/
def setDepth (m : Depth) (old : Word) : Instr :=
  match m with
  | .d16 => .cfgWr 0x00 (old &&& ~~~(1 : Word))
  | .d24 => .cfgWr 0x00 (old ||| 1)

/-- `SET_GRAY v` (R126). -/
def setGray (v : Bool) (old : Word) : Instr :=
  .cfgWr 0x00 ((old &&& ~~~(2 : Word)) ||| ((BitVec.ofBool v).zeroExtend 32 <<< 1))

/-- `SET_MAX_RDCLK hz` (R126). -/
def setMaxRdclk (hz : Word) : Instr := .cfgWr 0x03 hz

/-- One entry of an initialisation script, as structured data (R127, D41). The post-delay is the host's: during it no
operation is issued, and the model has no time, so it leaves no trace in the expansion. -/
structure ScriptEntry where
  cmd : Byte
  args : Word
  arglen : Word
  delay : Option Nat
  deriving DecidableEq, Repr

/-- `INIT_REPLAY script` (R127): one `SEND_CMD_DATA` for each entry, in order. -/
def initReplay (script : List ScriptEntry) : List HostAct :=
  script.map fun e => .issue (encode (.sendCmdData e.cmd e.args e.arglen))

/-! ## The textual form (R125) -/

/-- A number, in decimal. -/
def showWord {n : Nat} (v : BitVec n) : String := toString v.toNat

/-- `disp` or `touch`. -/
def showDev : Dev → String
  | .display => "disp"
  | .touch => "touch"

/-- Operands joined by commas. -/
def showList (xs : List String) : String := ", ".intercalate xs

/-- A window as four numbers. -/
def showWindow (w : Window) : String := showList [showWord w.cs, showWord w.ce, showWord w.rs, showWord w.re]

/-- A Color as `(r, g, b)`. -/
def showColor (c : Color) : String := "(" ++ showList [showWord c.r, showWord c.g, showWord c.b] ++ ")"

/-- One operation as a line of text. -/
def showInstr : Instr → String
  | .select d => "SELECT " ++ showDev d
  | .deselect d => "DESELECT " ++ showDev d
  | .sendCmd c => "SEND_CMD " ++ showWord c
  | .sendCmdData c a n => "SEND_CMD_DATA " ++ showList [showWord c, showWord a, showWord n]
  | .setWindow w => "SET_WINDOW " ++ showWindow w
  | .pushRep c n w => "PUSH_REP " ++ showList [showColor c, showWord n, if w then "wait" else "nowait"]
  | .pushBuf a n w => "PUSH_BUF " ++ showList [showWord a, showWord n, if w then "wait" else "nowait"]
  | .readPixels w n a ad =>
    "READ_PIXELS " ++ showList [showWindow w, showWord n, showWord a, if ad then "adapt" else "noadapt"]
  | .readPixel x y => "READ_PIXEL " ++ showList [showWord x, showWord y]
  | .findMaxRdclk => "FIND_MAX_RDCLK"
  | .wait => "WAIT"
  | .cfgWr r v => "CFG_WR " ++ showList [showWord r, showWord v]
  | .cfgRd r => "CFG_RD " ++ showWord r

end Sys2Proof.Machine
end

