-- ==== Sys2Proof/Tests/Slice0.lean ====
section
/-! SUPPORT. The model's own tests: the vectors of spec/95_test_vectors.md and the worked examples of the rules, and a
witness for every statement that has hypotheses. Expected values are the spec's, or computed by hand from the rule a
test names. -/

namespace Sys2Proof.Tests

open Sys2Proof.Machine

/-! ## Helpers -/

/-- The conventions of 95: no preemption guard, otherwise the default parameters. -/
def params : Config.Params := { Config.defaultParams with preemptGuard := false }

/-- A configured block with the display selected, every answer scripted to be the good one. -/
def ready : State :=
  { State.reset with
    par := params
    sel := some .display
    clock := some 26000000
    cfg := ⟨some .d24, some false, some 8000000, some 240, some 320⟩
    env := ⟨List.replicate 8 true, [true], [true], List.replicate 4 none, List.replicate 32 0x5A, 0, [], []⟩ }

/-- `ready` with `bs` at address `a` of host memory. -/
def holding (a : Nat) (bs : List Byte) : State := { ready with mem := memWrite [] a bs }

/-- `ready` in 16-bit mode with grayscale on. -/
def gray16 : State := { ready with cfg := { ready.cfg with depth := some .d16, gray := some true } }

/-- `ready` with a caller's transfer of five bytes in flight. -/
def flying : State :=
  { ready with dma := .inFlight [1, 2, 3, 4, 5] .caller, loan := some (0x100, 5), dc := some .data }

/-- A panel in 3-byte format that holds a 4 by 4 window and reads reliably up to 10 MHz. -/
def panel : Panel :=
  { cols := some (0, 3), rows := some (0, 3), cur := some (0, 0), cmd := none, arg := [], fmt := .f3b, gram := [],
    rd := .dummy, rdMaxHz := 10000000, bench := false }

/-- `ready` with that panel attached. -/
def seeing : State := { ready with panel := some panel }

/-- An operation completes with a next state that meets `p`. -/
def ends (i : Instr) (s : State) (p : State → Bool) : Bool :=
  match exec i s with
  | .next t => p t
  | .fault _ => false
  | .refused _ => false

/-- An operation is refused for a reason. -/
def refuses (i : Instr) (s : State) (r : Refusal) : Bool :=
  match exec i s with
  | .next _ => false
  | .fault _ => false
  | .refused q => q == r

/-! ## WellFormed: every check of R118 refuses an ill-formed term -/

theorem test_wf_unknown_register_written : (Instr.cfgWr 0x0A 1).wf = false := by decide
theorem test_wf_read_only_written : [0x01, 0x06, 0x07, 0x08, 0x09].all (fun r => !(Instr.cfgWr r 1).wf) = true := by
  decide
theorem test_wf_ctrl_reserved : (Instr.cfgWr 0x00 4).wf = false := by decide
theorem test_wf_clock_zero : (Instr.cfgWr 0x02 0).wf = false := by decide
theorem test_wf_max_rdclock_zero : (Instr.cfgWr 0x03 0).wf = false := by decide
theorem test_wf_width_wide : (Instr.cfgWr 0x04 0x10000).wf = false := by decide
theorem test_wf_width_zero : (Instr.cfgWr 0x04 0).wf = false := by decide
theorem test_wf_height_wide : (Instr.cfgWr 0x05 0x10001).wf = false := by decide
theorem test_wf_height_zero : (Instr.cfgWr 0x05 0).wf = false := by decide
theorem test_wf_unknown_register_read : (Instr.cfgRd 0x0A).wf = false := by decide
theorem test_wf_legal : (Instr.cfgWr 0x00 3).wf && (Instr.cfgWr 0x04 0xFFFF).wf && (Instr.cfgRd 0x09).wf = true := by
  decide

/-! ## Descriptors written out (95, section 2.1) -/

theorem test_v1_v2_select : decode [0x00000001] = .ok (.select .display) ∧
    decode [0x00000101] = .ok (.select .touch) := by decide
theorem test_v3_deselect : decode [0x00000002] = .ok (.deselect .display) ∧
    decode [0x00000102] = .ok (.deselect .touch) := by decide
theorem test_v4_sendCmd : decode [0x00002903] = .ok (.sendCmd 0x29) := by decide
theorem test_v5_sendCmdData : decode [0x0000B104, 0x20001000, 0x00000005] =
    .ok (.sendCmdData 0xB1 0x20001000 5) := by decide
theorem test_v7_setWindow : decode [0x00000005, 0x012F0010, 0x00EF0000] =
    .ok (.setWindow ⟨16, 303, 0, 239⟩) := by decide
theorem test_v8_v9_pushRep : decode [0x00000106, 0x0074A8EC, 0x00000010] = .ok (.pushRep ⟨0xEC, 0xA8, 0x74⟩ 16 true) ∧
    decode [0x00000006, 0x00030201, 0x000003E8] = .ok (.pushRep ⟨1, 2, 3⟩ 1000 false) := by decide
theorem test_v10_pushBuf : decode [0x00000007, 0x20002000, 0x000000F0] = .ok (.pushBuf 0x20002000 240 false) := by
  decide
theorem test_v11_readPixels : decode [0x00000108, 0x00030000, 0x00030000, 0x00000010, 0x20003000] =
    .ok (.readPixels ⟨0, 3, 0, 3⟩ 16 0x20003000 true) := by decide
theorem test_v12_readPixel : decode [0x00000009, 0x0014000A] = .ok (.readPixel 10 20) := by decide
theorem test_v13_findMaxRdclk : decode [0x0000000A] = .ok .findMaxRdclk := by decide
theorem test_v14_wait : decode [0x0000000B] = .ok .wait := by decide
theorem test_v15_v16_cfgWr : decode [0x0000000C, 0x00000001] = .ok (.cfgWr 0x00 1) ∧
    decode [0x0000020C, 0x018CBA80] = .ok (.cfgWr 0x02 26000000) := by decide
theorem test_v17_cfgRd : decode [0x0000010D] = .ok (.cfgRd 0x01) := by decide

/-- The illegal words of 95 that word 0, or word 1 of `PUSH_REP`, gives away. -/
theorem test_illegal_words : decode [0x00000000] = .error (.badOpcode 0) ∧
    decode [0x0000000E] = .error (.badOpcode 0x0E) ∧ decode [0x00010003] = .error (.reservedBit 3) ∧
    decode [0x00000205, 0, 0] = .error (.reservedBit 5) ∧
    decode [0x00000106, 0x01000000, 1] = .error .reservedColorBits := by decide

/-- The illegal words of 95 that the register space gives away. -/
theorem test_illegal_accesses : IllegalDescriptor [0x00000A0D] ∧ IllegalDescriptor [0x0000010C, 0] ∧
    IllegalDescriptor [0x0000000C, 0x00000004] ∧ IllegalDescriptor [0x0000040C, 0x00010000] ∧
    IllegalDescriptor [0x0000020C, 0] :=
  ⟨.inr (.inr (.inr ⟨_, _, rfl, by decide, by decide⟩)), .inr (.inr (.inl ⟨_, _, _, rfl, by decide, by decide⟩)),
    .inr (.inr (.inl ⟨_, _, _, rfl, by decide, by decide⟩)), .inr (.inr (.inl ⟨_, _, _, rfl, by decide, by decide⟩)),
    .inr (.inr (.inl ⟨_, _, _, rfl, by decide, by decide⟩))⟩

/-- A descriptor handed over as the host's number for it runs after reset (R101; log 12). -/
theorem test_fetch_word : decodeTableWord 96 0x00EF0000012F001000000005 = some (.setWindow ⟨16, 303, 0, 239⟩) := by
  decide

/-- `CFG_RD STATUS` and an illegal descriptor as the first action after reset. -/
theorem test_first_step : (match step (State.reset.withFetchWord 32 0x10D) with
      | .next t => t.result == some 0 | .fault _ => false | .refused _ => false) = true ∧
    (match step (State.reset.withFetchWord 32 0x10003) with
      | .next t => statusWord t == 0x00080400 | .fault _ => false | .refused _ => false) = true := by decide

theorem test_short_descriptor : decode [0x00000005, 0x012F0010] = .error .truncated := by decide

/-! ## One step each (95, sections 2.2 to 2.9) -/

/-- V18: from reset, acknowledged. -/
theorem test_select : ends (.select .display) { ready with sel := none } (fun t =>
    t.trace == [.sel .display] && t.sel == some .display && t.last == .ok) = true := by decide

/-- V18, R308 (1): from reset, not acknowledged. -/
theorem test_select_fails : ends (.select .display)
    { State.reset with env := ⟨[false], [], [], [], [], 0, [], []⟩ } (fun t =>
    t.trace == [] && t.sel == none && statusWord t == 0x00010200) = true := by decide

/-- R143 and 20 R90: the panel forgets its command, not its window. -/
theorem test_deselect : ends (.deselect .display) { ready with panel := some { panel with cmd := some 0x2C } } (fun t =>
    t.trace == [.desel .display] && t.sel == none && t.panel == some panel) = true := by decide

/-- R308 (2): a transfer times out in the drain of `DESELECT`. -/
theorem test_deselect_drain : ends (.deselect .display)
    { flying with env := { ready.env with ends := [some 3] } } (fun t =>
    t.trace == [.tx .data 1, .tx .data 2, .tx .data 3, .dmaAbort 3] && t.sel == some .display && t.dma == .idle &&
      statusWord t == 0x0002030A) = true := by decide

/-- V19, R162. -/
theorem test_sendCmd : ends (.sendCmd 0x29) ready (fun t =>
    t.trace == [.tx .command 0x29, .burstTx 8] && t.w.head? == some 0x29 && t.bitlen == 8 && t.cnt.burst == 1) =
    true := by decide

theorem test_sendCmd_touch : refuses (.sendCmd 0x29) { ready with sel := some .touch } .wrongSelection = true := by
  decide

/-- V19, R165. -/
theorem test_sendCmdData : ends (.sendCmdData 0xB1 0x1000 5) (holding 0x1000 [0x11, 0x22, 0x33, 0x44, 0x55]) (fun t =>
    t.trace == [.tx .command 0xB1, .burstTx 8, .tx .data 0x11, .tx .data 0x22, .tx .data 0x33, .tx .data 0x44,
      .tx .data 0x55, .burstTx 40] && t.w.take 2 == [0x44332211, 0x00000055]) = true := by decide

/-- V19, R164: a payload one byte over a full burst. -/
theorem test_sendCmdData_bursts : ends (.sendCmdData 0xB1 0x1000 65) ready (fun t =>
    t.trace.filterMap (fun e => match e with | .burstTx n => some n | _ => none) == [8, 512, 8]) = true := by decide

/-- 95, section 2.3, with the guard. -/
theorem test_setWindow : ends (.setWindow ⟨10, 12, 5, 5⟩) { ready with par := Config.defaultParams } (fun t =>
    t.trace == [.inh true, .tx .command 0x2A, .burstTx 8, .tx .data 0, .tx .data 0x0A, .tx .data 0, .tx .data 0x0C,
      .burstTx 32, .tx .command 0x2B, .burstTx 8, .tx .data 0, .tx .data 5, .tx .data 0, .tx .data 5, .burstTx 32,
      .inh false] && t.w.head? == some 0x05000500 && t.cnt.burst == 4) = true := by decide

theorem test_setWindow_reversed : refuses (.setWindow ⟨5, 4, 0, 0⟩) ready .windowReversed = true := by decide

/-- R199, T8: the worked grey and its packing. -/
theorem test_gray : gray ⟨100, 150, 200⟩ = ⟨145, 145, 145⟩ ∧ pack565 ⟨145, 145, 145⟩ = [0x94, 0x92] ∧
    pack565 ⟨100, 150, 200⟩ = [0x64, 0xB9] ∧ gray ⟨0, 2, 159⟩ = ⟨35, 35, 35⟩ := by decide

/-- V25, R227. -/
theorem test_pushRep : ends (.pushRep ⟨0xEC, 0xA8, 0x74⟩ 2 true) ready (fun t =>
    t.trace == [.tx .command 0x2C, .burstTx 8, .tx .data 0xEC, .tx .data 0xA8, .tx .data 0x74, .tx .data 0xEC,
      .tx .data 0xA8, .tx .data 0x74, .burstTx 48] && t.w.take 2 == [0xEC74A8EC, 0x000074A8]) = true := by decide

/-- V26, P3: forty pixels over a panel eight wide go as three transfers. -/
theorem test_pushRep_fill : ends (.pushRep ⟨0xEC, 0xA8, 0x74⟩ 40 false)
    { ready with cfg := { ready.cfg with depth := some .d16, width := some 8 } } (fun t =>
    t.trace.filter (fun e => !isWire e) == [.burstTx 8, .dmaQ 32, .dmaDone, .dmaQ 32, .dmaDone, .dmaQ 16, .dmaDone] &&
      t.cnt.dma == 3 && t.scratch == none && t.dma == .idle) = true := by decide

/-- P2: three Colors in 16-bit grayscale mode. -/
theorem test_pushBuf : ends (.pushBuf 0x2000 3 true)
    { gray16 with mem := memWrite [] 0x2000 [0x64, 0x96, 0xC8, 0xFF, 0xFF, 0xFF, 0x00, 0x02, 0x9F] } (fun t =>
    t.trace == [.tx .command 0x2C, .burstTx 8, .tx .data 0x94, .tx .data 0x92, .tx .data 0xFF, .tx .data 0xFF,
      .tx .data 0x21, .tx .data 0x04, .burstTx 48] && t.w.take 2 == [0xFFFF9294, 0x00000421]) = true := by decide

/-- V28: the DMA path without waiting. -/
theorem test_pushBuf_queued : ends (.pushBuf 0x2000 22 false) ready (fun t =>
    t.trace == [.tx .command 0x2C, .burstTx 8, .dmaQ 66] && statusWord t == 0x0000000B &&
      t.loan == some (0x2000, 66)) = true := by decide

/-- V33: the reselect fails, the clock is restored. -/
theorem test_readPixels_reselect_fails : ends (.readPixels ⟨0, 0, 0, 0⟩ 1 0x3000 true)
    { ready with env := { ready.env with acks := [true, false] } } (fun t =>
    t.trace == [.desel .display, .clk 8000000, .clk 26000000] && statusWord t == 0x00010200 &&
      t.clock == some 26000000 && memRead t.mem 0x3000 4 == [0x5A, 0x5A, 0x5A, 0x5A]) = true := by decide

/-- V32 and V34: without the adapter the display stays selected for the read; no pixel is one received byte. -/
theorem test_readPixels_dummy : ends (.readPixels ⟨0, 0, 0, 0⟩ 0 0x3000 false) ready (fun t =>
    t.trace.drop 14 == [.tx .command 0x2E, .burstTx 8, .rx 0x5A, .burstRx 8, .desel .display] &&
      memRead t.mem 0x3000 2 == [0x5A, 0]) = true := by decide

/-- V35: one pixel of a panel that keeps eight bits a channel. -/
theorem test_readPixel : ends (.readPixel 10 20)
    { ready with
      par := { params with panelSigBits := .eight }
      panel := some { panel with gram := [(gramKey 10 20, ⟨0xEC, 0xA8, 0x74, .f3b⟩)] }
      env := { ready.env with bytes := [0xAA, 0, 0, 0] } } (fun t =>
    t.trace.drop 17 == [.tx .command 0x2E, .burstTx 8, .rx 0xAA, .rx 0xEC, .rx 0xA8, .rx 0x74, .burstRx 32,
      .desel .display, .clk 26000000] && t.result == some 0x0074A8EC && t.w.head? == some 0x74A8ECAA) = true := by
  decide

theorem test_readPixel_edge : refuses (.readPixel 239 0) ready .windowOutsidePanel = true := by decide

/-- V44: the first acknowledge of the scan fails. -/
theorem test_findMax_fails : ends .findMaxRdclk
    { ready with sel := none, cfg := { ready.cfg with gray := some true }, env := { ready.env with acks := [false] } }
    (fun t => t.trace == [.clk 2000000, .clk 26000000] && t.result == some 1000000 && t.cfg.gray == some true &&
      statusWord t == 0x00010200) = true := by decide

/-- V19: nothing to wait for; and a transfer to wait for. -/
theorem test_wait : ends .wait ready (fun t => t.trace == [] && t.last == .ok) = true ∧
    ends .wait flying (fun t => t.trace.getLast? == some .dmaDone && t.dma == .idle && t.loan == none) = true := by
  decide

/-- R286 (1), (4), (5). -/
theorem test_cfgWr : ends (.cfgWr 0x00 1) State.reset (fun t =>
      t.cfg.depth == some .d24 && t.cfg.gray == some false) = true ∧
    ends (.cfgWr 0x04 0xF0) State.reset (fun t => t.cfg.width == some 240) = true ∧
    ends (.cfgWr 0x02 26000000) State.reset (fun t => t.trace == [.clk 26000000]) = true ∧
    refuses (.cfgWr 0x02 26000000) ready .wrongSelection = true := by decide

/-- R286 (2), (3). -/
theorem test_cfgWr_illegal : ends (.cfgWr 0x00 4) ready (fun t => statusWord t == 0x00080402 && t.cfg == ready.cfg) =
      true ∧
    ends (.cfgWr 0x01 0) flying (fun t => t.last == .illegal && t.dma == flying.dma) = true := by decide

/-- R286 (6): a transfer in flight is seen and not waited for; after reset `STATUS` is 0. -/
theorem test_cfgRd : ends (.cfgRd 0x01) flying (fun t => t.result == some 0x0000000B && t.trace == []) = true ∧
    ends (.cfgRd 0x01) State.reset (fun t => t.result == some 0) = true ∧
    refuses (.cfgRd 0x00) State.reset (.noValue .ctrl) = true := by decide

/-- R286 (7). -/
theorem test_cfgRd_illegal : ends (.cfgRd 0x40) ready (fun t => t.last == .illegal && t.ef.illegal) = true := by decide

/-- R274 with its limit brought down to 2.5 MHz: 2 MHz reads back, 3 MHz does not. -/
theorem test_findMax_bench : ends .findMaxRdclk
    { ready with
      sel := none
      clock := some 4000000
      cfg := ⟨some .d24, some true, none, some 4, some 4⟩
      panel := some { panel with bench := true, rdMaxHz := 2500000 } }
    (fun t => t.result == some 2000000 && t.clock == some 4000000 && t.cfg.gray == some true && t.sel == none &&
      t.last == .ok && t.cnt == ⟨2, 0, 24⟩) = true := by decide

/-- R267: a pixel that agrees on the masked bits, and one that does not. -/
theorem test_mismatch : mismatch ⟨.d24, 2, ⟨0, 1, 2, 2⟩⟩ [0, 0xEF, 0xAB, 0x77, 0xEC, 0xA8, 0x74] = false ∧
    mismatch ⟨.d24, 2, ⟨0, 1, 2, 2⟩⟩ [0, 0xEF, 0xAB, 0x77, 0, 0, 0] = true := by decide

/-- The candidates of R274 below 5 MHz. -/
theorem test_candidates : candidates params 4999999 = [2000000, 3000000, 4000000] ∧ candidates params 1999999 = [] := by
  decide

/-- Host memory after reset has the canonical form, and a byte written back to the unlisted value is not listed. -/
theorem test_memory : Memory.wf State.reset.mem = true ∧ memWrite (memWrite [] 5 [1, 2]) 5 [0] = [(6, 2)] := by decide

/-! ## Witnesses: for every statement with hypotheses, states and operands that meet them all -/

/-- The state an operation gives, or the one it was given where it gives none. -/
def after (i : Instr) (s : State) : State :=
  match exec i s with
  | .next t => t
  | .fault _ => s
  | .refused _ => s

theorem exec_of_ends {i : Instr} {s : State} {p : State → Bool} (h : ends i s p = true) :
    exec i s = .next (after i s) ∧ p (after i s) = true := by
  unfold ends at h
  unfold after
  split at h
  · rename_i h'
    rw [h']
    exact ⟨rfl, h⟩
  · cases h
  · cases h

/-- An operation completes with a next state that meets `p`, as a proposition. -/
abbrev Completes (i : Instr) (s : State) (p : State → Bool) : Prop := ∃ t, exec i s = .next t ∧ p t = true

theorem next_of_ends {i : Instr} {s : State} {p : State → Bool} (h : ends i s p = true) : Completes i s p :=
  ⟨_, exec_of_ends h⟩

/-- An operation taken up at a wait ends with a next state that meets `p`. -/
def takenUp (i : Instr) (q : Phase) (s : State) (p : State → Bool) : Bool :=
  match resume i q s with
  | .next t => p t
  | .fault _ => false
  | .refused _ => false

theorem ends_of_takenUp {i : Instr} {q : Phase} {s : State} {p : State → Bool} (hs : standsAt i q = true)
    (h : takenUp i q s p = true) : ∃ t, Ends i q s t ∧ p t = true := by
  unfold takenUp at h
  split at h
  · rename_i t h'
    exact ⟨t, .inr ⟨hs, h'⟩, h⟩
  · cases h
  · cases h

/-- A fill that waits for its last chunk (R221). -/
def filling : State :=
  { ready with
    dma := .inFlight [1, 2, 3] .scratch, scratch := some 3, dc := some .data
    op := some (.pushRep ⟨1, 2, 3⟩ 22 true, .fill [1, 2, 3] 3 []) }

/-- `PUSH_BUF` at its final wait (R216). -/
def pushing : State := { flying with op := some (.pushBuf 0x100 22 true, .pushWait) }

/-- What a scan works with, and one that waits for a test line at 2 MHz, begun at 26 MHz with grayscale on (R265). -/
def plan : CalPlan := ⟨.d24, 1, ⟨0, 0, 0, 0⟩⟩
def calibrating : State :=
  { ready with
    dma := .inFlight [0, 0, 0] .caller, dc := some .data, clock := some 2000000
    op := some (.findMaxRdclk, .scan 26000000 true plan 2000000 [3000000] none) }

/-- R157, R293: the waits of the three operations that have one after their opening, each timed out; a fill gives its
buffer back, a scan the clock and the grayscale flag. -/
theorem test_timeout_at_a_wait :
    (∃ t, Ends (.pushRep ⟨1, 2, 3⟩ 22 true) (.fill [1, 2, 3] 3 [])
      { filling with env := { ready.env with ends := [some 1] } } t ∧
      (t.last == .dmaTimeout && t.scratch == none && t.trace == [.tx .data 1, .dmaAbort 1]) = true) ∧
    (∃ t, Ends (.pushBuf 0x100 22 true) .pushWait { pushing with env := { ready.env with ends := [some 0] } } t ∧
      (t.last == .dmaTimeout && t.ef.dmaTo && t.loan == none) = true) ∧
    ∃ t, Ends .findMaxRdclk (.scan 26000000 true plan 2000000 [3000000] none)
      { calibrating with env := { ready.env with ends := [some 3] } } t ∧
      (t.last == .dmaTimeout && t.clock == some 26000000 && t.cfg.gray == some true && t.result == some 1000000) =
        true :=
  ⟨ends_of_takenUp (by decide) (by decide), ends_of_takenUp (by decide) (by decide),
    ends_of_takenUp (by decide) (by decide)⟩

/-- The invariant holds of a configured block with a transfer in flight and a panel. -/
def lively : State := { flying with panel := some panel, host := [.issue [0x0000000B]] }

theorem witness_OperationHasOneDescriptor : decode [0x00002903, 7] = .ok (.sendCmd 0x29) := by decide
theorem witness_IllegalDescriptorRejected : IllegalDescriptor [0x00000000] ∧ IllegalDescriptor [0x00010003] ∧
    IllegalDescriptor [0x00000106, 0x01000000, 1] ∧ IllegalDescriptor [0x0000090C, 1] ∧
    IllegalDescriptor [0x00000A0C, 1] ∧ IllegalDescriptor [0x00000A0D] ∧ ready.op = none :=
  ⟨.inl ⟨_, _, rfl, by decide⟩, .inl ⟨_, _, rfl, by decide⟩, .inr (.inl ⟨_, _, _, _, rfl, by decide, by decide⟩),
    .inr (.inr (.inl ⟨_, _, _, rfl, by decide, by decide⟩)), .inr (.inr (.inl ⟨_, _, _, rfl, by decide, by decide⟩)),
    .inr (.inr (.inr ⟨_, _, rfl, by decide, by decide⟩)), rfl⟩
theorem witness_StepKeepsInvariant : Inv lively ∧
    (match step lively with | .next t => t.last == .ok | .fault _ => false | .refused _ => false) = true := by decide

/-- T7 begun: `SELECT` stands at its drain, the transfer in flight (R36). -/
def waiting : State :=
  { flying with op := some (.select .display, .drain), env := { ready.env with turns := [false], holds := [true] } }

/-- The invariant also holds of a block that waits, and a step leaves it waiting. -/
theorem witness_StepKeepsInvariant_waiting : Inv waiting ∧
    (match step waiting with
      | .next t => t.op == waiting.op && t.dma == waiting.dma
      | .fault _ => false
      | .refused _ => false) = true := by decide

/-- An operation with no wait, and one that meets its drain: held there, and not. -/
theorem witness_StepRunsDecodedOperation : lively.host = [.issue [0x0000000B]] ∧ lively.op = none ∧
    decode [0x0000000B] = .ok .wait ∧ nextWait .wait .drain ready = none ∧
    nextWait .wait .drain flying = some (.drain, flying) ∧ nextHold waiting.env = true ∧
    nextHold { waiting.env with holds := [false] } = false := by decide
theorem witness_OtherHostActions : ready.host = [] ∧ ({ ready with host := [.store 0 [1]] } : State).host ≠ [] ∧
    ready.op = none ∧ (dmaTurn flying).dma = .idle ∧ IllegalDescriptor [0x0000000E] :=
  ⟨rfl, by decide, rfl, by decide, .inl ⟨_, _, rfl, by decide⟩⟩
theorem witness_DmaTurnCompletesOrWaits : ready.dma = .idle ∧ flying.dma = .inFlight [1, 2, 3, 4, 5] .caller ∧
    nextTurn flying.env = true ∧ nextTurn { flying.env with turns := [false] } = false := by decide

/-- The last byte of the lent buffer, the bytes on both sides of it, no byte inside it, and the top of the address
space. -/
theorem witness_HostStoreRespectsLoan : Memory.wf flying.mem = true ∧ flying.loan = some (0x100, 5) ∧
    Share 0x100 5 0x104 1 ∧ ¬ Share 0x100 5 0xFF 1 ∧ ¬ Share 0x100 5 0x105 1 ∧ ¬ Share 0x100 5 0x102 0 ∧
    ¬ Share 0x100 5 0xFFFFFFFF 1 ∧ 0xFFFFFFFF + 1 ≤ 2 ^ flying.par.addrBits ∧ flying.op = none ∧
    waiting.op ≠ none := by decide
theorem witness_BlockResetTouchesTheBlockOnly : ({ seeing with host := [.reset] } : State).host = [.reset] ∧
    seeing.op = none ∧ seeing.dma = .idle := by decide
theorem witness_WaitingOperationGoesOn : waiting.op = some (.select .display, .drain) ∧ waiting.env.urgent = [] ∧
    nextWait (.select .display) .drain waiting = some (.drain, waiting) ∧
    nextWait (.select .display) .drain { waiting with dma := .idle } = none ∧ nextHold waiting.env = true ∧
    (dmaTurn waiting).dma = .inFlight [1, 2, 3, 4, 5] .caller ∧ drains (.select .display) = true := by decide

/-- The environment that tells the engine's turn what it would have told the wait: that the transfer completes. -/
def turnFor (e : Env) : Env := { popEnd e with turns := true :: (popEnd e).turns }

/-- R220: a chunk of a fill, with one to come; and a wait that is not over. -/
theorem witness_WaitingChangesNothing :
    (nextWait (.pushRep ⟨1, 2, 3⟩ 5 true) (.fill [1, 2, 3, 1, 2, 3] 3 [2, 1]) ready).map Prod.fst =
      some (.fill [1, 2, 3, 1, 2, 3] 3 [1]) ∧
    nextWait (.select .display) .drain waiting = some (.drain, waiting) ∧
    waiting.dma = .inFlight [1, 2, 3, 4, 5] .caller ∧ nextEnd waiting.env = none ∧
    nextTurn (turnFor waiting.env) = true ∧ popTurn (turnFor waiting.env) = popEnd waiting.env ∧
    nextTurn { waiting.env with turns := false :: waiting.env.turns } = false ∧
    popTurn { waiting.env with turns := false :: waiting.env.turns } = waiting.env := by decide

/-- `waiting` with an action of the host to come. -/
def pressed (a : HostAct) : State := { waiting with env := { waiting.env with urgent := [some a] } }

/-- A step is refused for a reason. -/
def stepRefuses (s : State) (r : Refusal) : Bool :=
  match step s with
  | .next _ => false
  | .fault _ => false
  | .refused q => q == r

theorem witness_HostActsWhileAnOperationWaits : (pressed .reset).op = some (.select .display, .drain) ∧
    [HostAct.issue [0x0000000B], .store 0x200 [1], .free 0x200 1, .claim 0x200 1 true, .panelFormat .f16, .reset].all
      (fun a => (pressed a).env.urgent == [some a]) = true := by decide

/-- R74, R332: nothing of the host's memory changes hands while the operation blocks it, in the lent buffer or not. -/
theorem test_blocked_host : stepRefuses (pressed (.store 0x200 [1])) .hostBlocked &&
    stepRefuses (pressed (.store 0x100 [1])) .hostBlocked && stepRefuses (pressed (.free 0x100 5)) .hostBlocked &&
    stepRefuses (pressed (.claim 0x200 1 true)) .hostBlocked && stepRefuses (pressed (.panelFormat .f16)) .busy =
      true := by decide

/-- R88: five bits stored in the 16-bit format come back as the five top bits, also after the format has changed. -/
theorem test_stored_width : panelByte params 0xFF
    { panel with cmd := some 0x2E, rd := .red, gram := [(gramKey 0 0, ⟨0x1D, 0x2A, 0x0E, .f16⟩)] } = 0xEF := by
  decide

/-- A state in which an operation is in progress is not final, its transfer complete or not. -/
theorem test_not_final : isFinal waiting = false ∧ isFinal { waiting with dma := .idle } = false ∧
    isFinal ready = true := by decide

/-- P4, T7: a descriptor while `SELECT` waits at its drain has no meaning; once the transfer is over it ends. -/
theorem test_issued_while_waiting :
    (match step { waiting with env := { waiting.env with urgent := [some (.issue [0x0000000B])] } } with
      | .refused r => r == .busy | .next _ => false | .fault _ => false) = true ∧
    (match step { waiting with env := { waiting.env with turns := [true] } } with
      | .next t => t.op == none && t.last == .ok && t.dma == .idle | .fault _ => false | .refused _ => false) =
      true := by decide

/-- R246 after R293: the buffer of a `READ_PIXELS` whose drain times out is drawn, past the top of the address space
too. -/
theorem test_readPixels_drain : ends (.readPixels ⟨0, 0, 0, 0⟩ 1 0xFFFFFFFE false)
    { flying with env := { ready.env with ends := [some 0] } } (fun t =>
      t.last == .dmaTimeout && t.mem == [(0, 0x5A), (1, 0x5A), (0xFFFFFFFE, 0x5A), (0xFFFFFFFF, 0x5A)]) = true := by
  decide

/-- R70: freeing takes a range out of what the host owns. -/
theorem test_free : (match hostFree 0x10 4 ready with
    | .next t => t.regions == [⟨0, 0x10, true⟩, ⟨0x14, 2 ^ 32 - 0x14, true⟩]
    | .fault _ => false
    | .refused _ => false) = true := by decide

/-- Every case of `SELECT` and `DESELECT`: already so, free, not acknowledged, the other endpoint. -/
theorem witness_SelectOutcomes : WaitCompletes ready ∧ ready.sel = some .display ∧ Dev.touch ≠ .display ∧
    WaitCompletes { flying with sel := none } ∧ nextAck (drained { flying with sel := none }).env = true ∧
    WaitCompletes { ready with sel := none, env := ⟨[false], [], [], [], [], 0, [], []⟩ } ∧
    nextAck (drained { ready with sel := none, env := ⟨[false], [], [], [], [], 0, [], []⟩ }).env = false := by decide

theorem witness_DeselectOutcomes : WaitCompletes seeing ∧ seeing.sel = some .display ∧
    nextAck (drained seeing).env = true ∧ WaitCompletes { seeing with sel := none } ∧
    WaitCompletes { seeing with sel := some .touch } ∧
    nextAck (drained { seeing with env := { seeing.env with acks := [false] } }).env = false := by decide

theorem witness_BusOperationsNeedDisplay : WaitCompletes { flying with sel := none } ∧
    ({ flying with sel := none } : State).sel ≠ some .display ∧
    ({ ready with sel := some .touch } : State).sel ≠ some .display ∧ (1 : Word) ≠ 0 := by decide

theorem witness_WaitIsTheDrain : WaitCompletes ready ∧ WaitCompletes flying := by decide
theorem witness_DrainTimeoutEndsOperation : drains (.pushRep ⟨1, 2, 3⟩ 1 true) = true ∧ drains .wait = true ∧
    flying.dma = .inFlight [1, 2, 3, 4, 5] .caller ∧ nextEnd { flying.env with ends := [some 0] } = some 0 ∧
    nextEnd { flying.env with ends := [some 5] } = some 5 := by decide
theorem witness_DrainingOperationsEndIdle : 0 < flying.par.nwords ∧ Completes .wait flying (fun t => t.dma == .idle) ∧
    Completes (.cfgRd 0x01) flying (fun t => t.dma == flying.dma) ∧ drains .wait = true ∧
    drains (.cfgRd 0x01) = false ∧
    ∃ t, Ends (.pushBuf 0x100 22 true) .pushWait pushing t ∧ (t.dma == .idle) = true :=
  ⟨by decide, next_of_ends (by decide), next_of_ends (by decide), by decide, by decide,
    ends_of_takenUp (by decide) (by decide)⟩

/-- A full register file, and a partly filled last register. -/
theorem witness_PackingIsLittleEndianFirst : [0x11, 0x22, 0x33, 0x44].length ≤ 4 * [(0 : Word)].length ∧
    loadWords [0xFFFFFFFF, 0xFFFFFFFF] [0x11, 0x22] = [0x00002211, 0xFFFFFFFF] := by decide
theorem witness_BurstsCutThePayload : 0 < params.nwords ∧
    burstChunks { params with nwords := 1 } [1, 2, 3, 4, 5] = [[1, 2, 3, 4], [5]] := by decide

/-- No panel takes every command; one that holds a window takes a memory write that fits it exactly. -/
theorem ready_takes (cmd : Byte) (n : Nat) (s : State) (h : s.panel = none) : PanelTakes cmd n s := by
  intro p hp
  rw [h] at hp
  cases hp
theorem seeing_takes : PanelTakes 0x2C 48 (drained seeing) := by
  rintro p ⟨rfl⟩ -
  exact ⟨16, by decide, fun _ => by decide⟩
theorem ready_takes_push (m : Depth) (n : Nat) (s : State) (h : s.panel = none) : PanelTakesPush m n s :=
  ⟨fun p hp => (by rw [h] at hp; cases hp), ready_takes _ _ _ h⟩
theorem seeing_takes_push : PanelTakesPush .d24 16 (drained seeing) :=
  ⟨fun p hp => (by obtain ⟨rfl⟩ := hp; decide), seeing_takes⟩
theorem ready_owns (addr len : Nat) (h : addr + len ≤ 2 ^ 32) : BufferOwned addr len ready :=
  .inr ⟨h, ⟨0, 2 ^ 32, true⟩, by decide, Nat.zero_le _, by simpa using h⟩
theorem ready_dma_capable (addr len : Nat) (h : addr + len ≤ 2 ^ 32) : BufferDmaCapable addr len ready :=
  ⟨⟨0, 2 ^ 32, true⟩, by decide, rfl, Nat.zero_le _, by simpa using h⟩
theorem ready_fits (w : Window) (h : w.cs ≤ w.ce ∧ w.rs ≤ w.re ∧ w.ce < 240 ∧ w.re < 320) : WindowFits w ready :=
  ⟨h.1, h.2.1, fun d hd => (by obtain ⟨rfl⟩ := hd; exact h.2.2.1), fun d hd => (by obtain ⟨rfl⟩ := hd; exact h.2.2.2)⟩

theorem witness_SendCmdSendsOneFrame : WaitCompletes ready ∧ ready.sel = some .display ∧
    PanelTakes 0x29 0 (drained ready) ∧ PanelTakes 0x2C 48 (drained seeing) :=
  ⟨by decide, rfl, ready_takes _ _ _ rfl, seeing_takes⟩

/-- The buffer at the top of the address space. -/
theorem witness_SendCmdDataSendsFrames : 0 < ready.par.nwords ∧ WaitCompletes ready ∧ ready.sel = some .display ∧
    (65 : Word) ≠ 0 ∧ BufferOwned 0xFFFFFFBF 65 ready ∧ PanelTakes 0xB1 65 (drained ready) :=
  ⟨by decide, by decide, rfl, by decide, ready_owns _ _ (by decide), ready_takes _ _ _ rfl⟩

/-- The one-pixel window at the last corner. -/
theorem witness_SetWindowSendsFrame : 0 < ready.par.nwords ∧ WaitCompletes ready ∧ ready.sel = some .display ∧
    WindowFits ⟨239, 239, 319, 319⟩ ready :=
  ⟨by decide, by decide, rfl, ready_fits _ (by decide)⟩
theorem witness_BadWindowHasNoMeaning : ¬ WindowFits ⟨1, 0, 0, 0⟩ ready ∧ ¬ WindowFits ⟨0, 240, 0, 0⟩ ready ∧
    WaitCompletes ready :=
  ⟨fun h => absurd h.1 (by decide), fun h => absurd (h.2.2.1 240 rfl) (by decide), by decide⟩

/-- `n` pixels of `bits` fill a burst exactly at the threshold (V22), and one more is above it (V23). -/
theorem witness_PushRepGoesDirect : WaitCompletes gray16 ∧ gray16.sel = some .display ∧
    gray16.cfg.depth = some .d16 ∧ gray16.cfg.gray = some true ∧ (32 : Word) ≠ 0 ∧
    (32 : Word).toNat * depthBits .d16 ≤ directMaxBits gray16.par ∧ PanelTakesPush .d16 32 (drained gray16) :=
  ⟨by decide, rfl, rfl, rfl, by decide, by decide, ready_takes_push _ _ _ rfl⟩
theorem witness_PushBufGoesDirect : WaitCompletes seeing ∧ seeing.sel = some .display ∧
    seeing.cfg.depth = some .d24 ∧ seeing.cfg.gray = some false ∧ (16 : Word) ≠ 0 ∧
    (16 : Word).toNat * depthBits .d24 ≤ directMaxBits seeing.par ∧ BufferOwned 0x2000 (3 * 16) seeing ∧
    PanelTakesPush .d24 16 (drained seeing) :=
  ⟨by decide, rfl, rfl, rfl, by decide, by decide, ready_owns _ _ (by decide), seeing_takes_push⟩
theorem witness_PushBufQueuesTransfer : WaitCompletes ready ∧ ready.sel = some .display ∧
    ready.cfg.depth = some .d24 ∧ ready.cfg.gray = some false ∧ (22 : Word) ≠ 0 ∧
    directMaxBits ready.par < (22 : Word).toNat * depthBits .d24 ∧ BufferOwned 0x2000 (3 * 22) ready ∧
    BufferDmaCapable 0x2000 (3 * 22) ready ∧ PanelTakesPush .d24 22 (drained ready) :=
  ⟨by decide, rfl, rfl, rfl, by decide, by decide, ready_owns _ _ (by decide), ready_dma_capable _ _ (by decide),
    ready_takes_push _ _ _ rfl⟩

/-- A wait that ends well, and one that times out before the first byte. -/
theorem witness_PushBufAwaitsTransfer : WaitCompletes ready ∧ ready.sel = some .display ∧
    ready.cfg.depth = some .d24 ∧ ready.cfg.gray = some false ∧ (22 : Word) ≠ 0 ∧
    directMaxBits ready.par < (22 : Word).toNat * depthBits .d24 ∧ BufferOwned 0x2000 (3 * 22) ready ∧
    BufferDmaCapable 0x2000 (3 * 22) ready ∧ PanelTakesPush .d24 22 (drained ready) ∧
    nextEnd (drained ready).env = none ∧
    nextEnd (drained { ready with env := { ready.env with ends := [some 0] } }).env = some 0 :=
  ⟨by decide, rfl, rfl, rfl, by decide, by decide, ready_owns _ _ (by decide), ready_dma_capable _ _ (by decide),
    ready_takes_push _ _ _ rfl, by decide, by decide⟩

/-- V27: 1000 pixels of 480 a buffer are three transfers. -/
theorem witness_PushRepFillsByDma : WaitCompletes gray16 ∧ gray16.sel = some .display ∧
    gray16.cfg = ⟨some .d16, some true, some 8000000, some 240, some 320⟩ ∧ (240 : Half) ≠ 0 ∧
    directMaxBits gray16.par < (1000 : Word).toNat * depthBits .d16 ∧ PanelTakesPush .d16 1000 (drained gray16) ∧
    nextAlloc (drained gray16).env = true ∧ 480 = min (1000 : Word).toNat (2 * (240 : Half).toNat) ∧
    3 = ((1000 : Word).toNat + 480 - 1) / 480 ∧ NoTimeouts 3 (drained gray16) :=
  ⟨by decide, rfl, rfl, by decide, by decide, ready_takes_push _ _ _ rfl, by decide, by decide, by decide, by decide⟩

/-- `ready` where no scratch memory is to be had. -/
def starved : State := { ready with env := { ready.env with allocs := [false] } }

theorem witness_PushRepAbortsSilently : WaitCompletes starved ∧ starved.sel = some .display ∧
    starved.cfg = ⟨some .d24, some false, some 8000000, some 240, some 320⟩ ∧ (240 : Half) ≠ 0 ∧
    directMaxBits starved.par < (22 : Word).toNat * depthBits .d24 ∧ PanelTakesPush .d24 22 (drained starved) ∧
    nextAlloc (drained starved).env = false :=
  ⟨by decide, rfl, rfl, by decide, by decide, ready_takes_push _ _ _ rfl, by decide⟩

/-- Both paths of both pushes, on the two sides of the threshold (V20, V21). -/
theorem witness_PathShowsInCounters : WaitCompletes ready ∧ ready.cfg.depth = some .d24 ∧
    Completes (.pushRep ⟨1, 2, 3⟩ 21 true) ready (fun t => t.cnt == ⟨1, 0, 2⟩) ∧
    Completes (.pushRep ⟨1, 2, 3⟩ 22 true) ready (fun t => t.cnt == ⟨0, 1, 1⟩) ∧
    Completes (.pushBuf 0 21 true) ready (fun t => t.cnt == ⟨1, 0, 2⟩) ∧
    Completes (.pushBuf 0 22 true) ready (fun t => t.cnt == ⟨0, 1, 1⟩) :=
  ⟨by decide, rfl, next_of_ends (by decide), next_of_ends (by decide), next_of_ends (by decide),
    next_of_ends (by decide)⟩

theorem witness_WireIsTheSameOnEveryPath : WaitCompletes ready ∧ ready.cfg.depth = some .d24 ∧
    ready.cfg.gray = some false ∧ nextAlloc (drained ready).env = true ∧
    Completes (.pushRep ⟨1, 2, 3⟩ 22 false) ready (fun t => t.last == .ok && t.dma == .idle) ∧
    Completes (.pushBuf 0 22 true) ready (fun t => t.last == .ok && t.dma == .idle) :=
  ⟨by decide, rfl, rfl, by decide, next_of_ends (by decide),
    next_of_ends (by decide)⟩
theorem witness_PushRepReleasesItsBuffer : (22 : Word) ≠ 0 ∧ ready.scratch = none ∧
    Completes (.pushRep ⟨1, 2, 3⟩ 22 true) { ready with env := { ready.env with ends := [some 7] } }
      (fun t => t.last == .dmaTimeout) ∧
    ∃ t, Ends (.pushRep ⟨1, 2, 3⟩ 22 true) (.fill [1, 2, 3] 3 []) filling t ∧ (t.scratch == none) = true :=
  ⟨by decide, rfl, next_of_ends (by decide), ends_of_takenUp (by decide) (by decide)⟩

/-- With and without the adapter, with a panel attached, its whole window read. -/
theorem witness_ReadPixelsStoresReceivedBytes : 0 < seeing.par.nwords ∧ WaitCompletes seeing ∧
    AcksNext 3 (drained seeing) ∧ seeing.sel ≠ some .touch ∧ (seeing.clock ≠ none ∧ seeing.cfg.maxRdclock ≠ none) ∧
    WindowFits ⟨0, 3, 0, 3⟩ seeing ∧ BufferOwned 0x3000 (3 * 16 + 1) seeing ∧
    PanelGives ⟨0, 3, 0, 3⟩ 16 (drained seeing) :=
  ⟨by decide, by decide, by decide, by decide, by decide, ready_fits _ (by decide), ready_owns _ _ (by decide),
    fun _ => by decide⟩
theorem witness_ReadsRestoreTheClock : 0 < ready.par.nwords ∧ (∀ hz, quantise ready.par hz = hz) ∧
    Completes (.readPixels ⟨0, 0, 0, 0⟩ 1 0x3000 true) ready (fun t => t.clock == ready.clock) ∧
    Completes (.readPixel 0 0) ready (fun t => t.clock == ready.clock) :=
  ⟨by decide, fun _ => rfl, next_of_ends (by decide),
    next_of_ends (by decide)⟩

/-- The three ways a read ends. -/
theorem witness_ReadsEndDeselected : 0 < ready.par.nwords ∧ WaitCompletes ready ∧
    Completes (.readPixel 0 0) ready (fun t => t.last == .ok) ∧
    Completes (.readPixel 0 0) { ready with env := { ready.env with acks := [true, false] } }
      (fun t => t.last == .selectFail) ∧
    Completes (.readPixel 0 0) { ready with env := { ready.env with acks := [true, true, false] } }
      (fun t => t.last == .deselectFail) :=
  ⟨by decide, by decide, next_of_ends (by decide),
    next_of_ends (by decide),
    next_of_ends (by decide)⟩

/-- The last pixel whose window fits. -/
theorem witness_ReadPixelReturnsColor : 0 < seeing.par.nwords ∧ WaitCompletes seeing ∧ AcksNext 3 (drained seeing) ∧
    seeing.sel ≠ some .touch ∧ seeing.clock ≠ none ∧ seeing.cfg.maxRdclock ≠ none ∧
    (238 : Half).toNat + seeing.par.rspExt ≤ 0xFFFF ∧ (318 : Half).toNat + seeing.par.rspExt ≤ 0xFFFF ∧
    WindowFits (pixelWindow 238 318 seeing) seeing ∧ PanelGives (pixelWindow 238 318 seeing) 1 (drained seeing) :=
  ⟨by decide, by decide, by decide, by decide, by decide, by decide, by decide, by decide, ready_fits _ (by decide),
    fun _ => by decide⟩
theorem witness_ReadPixelResultMeansOk : 0 < ready.par.nwords ∧
    Completes (.readPixel 0 0) ready (fun t => t.result.isSome) :=
  ⟨by decide, next_of_ends (by decide)⟩

theorem witness_PanelTakesTheWindow : ParamsOk params := by decide

/-- A window read back whole, at the highest clock the panel reads reliably. -/
theorem witness_PanelReturnsWhatWasWritten : ParamsOk params ∧ (0 : Half) ≤ 1 ∧ (2 : Half) ≤ 2 ∧
    [(⟨0xEC, 0xA8, 0x74⟩ : Color), ⟨1, 2, 3⟩].length ≤ windowArea ⟨0, 1, 2, 2⟩ ∧ panel.fmt = fmtOfDepth .d24 ∧
    (10000000 : Word) ≤ panel.rdMaxHz ∧ (List.replicate 7 (0xFF : Byte)).length = 3 * 2 + 1 := by decide

/-- `seeing` at a clock its panel reads reliably. -/
def slow : State := { seeing with clock := some 8000000, mem := memWrite [] 0x2000 [0xEC, 0xA8, 0x74] }

/-- P1, T6 for two pixels: pushed at 26 MHz, read at 8 MHz by a panel reliable up to 10 MHz; and no pixels at all
(T2). -/
theorem witness_PushedPixelsReadBack_adapted : ParamsOk seeing.par ∧ Memory.wf seeing.mem = true ∧
    seeing.panel = some panel ∧ readingClock (readClocks true seeing) seeing = some 8000000 ∧
    (8000000 : Word) ≤ panel.rdMaxHz ∧ seeing.cfg.depth = some .d24 ∧ seeing.cfg.gray = some false ∧
    ∀ n ∈ [(0 : Word), 2], n.toNat * depthBits .d24 ≤ directMaxBits seeing.par ∧
    ∃ s1 s2 s3, (exec (.setWindow ⟨0, 1, 0, 0⟩) seeing = .next s1 ∧ (s1.last == .ok) = true) ∧
      (exec (.pushRep ⟨0xEC, 0xA8, 0x74⟩ n true) s1 = .next s2 ∧ (s2.last == .ok) = true) ∧
      (exec (.readPixels ⟨0, 1, 0, 0⟩ n 0x3000 true) s2 = .next s3 ∧ (s3.last == .ok) = true) := by
  refine ⟨by decide, by decide, rfl, by decide, by decide, rfl, rfl, fun n hn => ?_⟩
  simp only [List.mem_cons, List.not_mem_nil, or_false] at hn
  rcases hn with rfl | rfl <;>
  exact ⟨by decide, _, _, _, exec_of_ends (p := fun t => t.last == .ok) (by decide),
    exec_of_ends (p := fun t => t.last == .ok) (by decide), exec_of_ends (p := fun t => t.last == .ok) (by decide)⟩

/-- A repetition above the threshold, its fill buffer obtained. -/
theorem witness_PushedPixelsReadBack_filled : nextAlloc seeing.env = true ∧
    directMaxBits seeing.par < (22 : Word).toNat * depthBits .d24 ∧
    ∃ s1 s2, (exec (.setWindow ⟨0, 21, 0, 0⟩) seeing = .next s1 ∧ (nextAlloc s1.env) = true) ∧
      (exec (.pushRep ⟨0xEC, 0xA8, 0x74⟩ 22 true) s1 = .next s2 ∧ (s2.last == .ok && s2.cnt.dma == 1) = true) :=
  ⟨by decide, by decide, _, _, exec_of_ends (p := fun t => nextAlloc t.env) (by decide),
    exec_of_ends (p := fun t => t.last == .ok && t.cnt.dma == 1) (by decide)⟩

theorem witness_PushedPixelsReadBack : ParamsOk slow.par ∧ Memory.wf slow.mem = true ∧ slow.panel = some panel ∧
    readingClock (readClocks false slow) slow = some 8000000 ∧ (8000000 : Word) ≤ panel.rdMaxHz ∧
    slow.cfg.depth = some .d24 ∧ slow.cfg.gray = some false ∧
    ∃ s1 s2 s3, (exec (.setWindow ⟨5, 5, 5, 5⟩) slow = .next s1 ∧ (s1.last == .ok) = true) ∧
      (exec (.pushBuf 0x2000 1 true) s1 = .next s2 ∧ (s2.last == .ok) = true) ∧
      (exec (.readPixels ⟨5, 5, 5, 5⟩ 1 0x3000 false) s2 = .next s3 ∧ (s3.last == .ok) = true) :=
  ⟨by decide, by decide, rfl, rfl, by decide, rfl, rfl, _, _, _,
    exec_of_ends (p := fun t => t.last == .ok) (by decide), exec_of_ends (p := fun t => t.last == .ok) (by decide),
    exec_of_ends (p := fun t => t.last == .ok) (by decide)⟩

/-- `seeing` with nothing selected, as a calibration needs it. -/
def resting : State := { seeing with sel := none }

theorem witness_FindMaxEndsRestored : 0 < resting.par.nwords ∧ resting.par.calStepHz ≠ 0 ∧ WaitCompletes resting ∧
    resting.sel = none ∧ resting.clock = some 26000000 ∧
    resting.cfg = ⟨some .d24, some false, some 8000000, some 240, some 320⟩ ∧ (240 : Half) ≠ 0 ∧ (320 : Half) ≠ 0 ∧
    (∀ p, resting.panel = some p → p.fmt = fmtOfDepth .d24) ∧ calibrating.sel ≠ some .touch :=
  ⟨by decide, by decide, by decide, rfl, rfl, rfl, by decide, by decide,
    fun p hp => (by obtain ⟨rfl⟩ := hp; decide), by decide⟩

/-- `resting` where no scratch memory is to be had. -/
def poor : State := { resting with env := { resting.env with allocs := [false] } }

theorem witness_FindMaxWithoutBuffers : WaitCompletes poor ∧ poor.sel = none ∧ poor.clock = some 26000000 ∧
    poor.cfg = ⟨some .d24, some false, some 8000000, some 240, some 320⟩ ∧ (240 : Half) ≠ 0 ∧ (320 : Half) ≠ 0 ∧
    (∀ p, poor.panel = some p → p.fmt = fmtOfDepth .d24) ∧ nextAlloc (drained poor).env = false :=
  ⟨by decide, rfl, rfl, rfl, by decide, by decide, fun p hp => (by obtain ⟨rfl⟩ := hp; decide), by decide⟩

/-- `resting` one hertz below the floor. -/
def idling : State := { resting with clock := some 1999999 }

theorem witness_FindMaxWithoutCandidates : WaitCompletes idling ∧ idling.sel = none ∧ idling.clock = some 1999999 ∧
    idling.cfg = ⟨some .d24, some false, some 8000000, some 240, some 320⟩ ∧ (240 : Half) ≠ 0 ∧ (320 : Half) ≠ 0 ∧
    (∀ p, idling.panel = some p → p.fmt = fmtOfDepth .d24) ∧ nextAlloc (drained idling).env = true ∧
    min idling.par.calCeilHz.toNat (1999999 : Word).toNat < idling.par.calFloorHz.toNat :=
  ⟨by decide, rfl, rfl, rfl, by decide, by decide, fun p hp => (by obtain ⟨rfl⟩ := hp; decide), by decide, by decide⟩

/-- A test bench with its limit between the two candidates 2 MHz and 3 MHz. -/
def benchPanel : Panel := { panel with bench := true, rdMaxHz := 2500000 }

/-- `resting` at 3 MHz over it, four pixels wide. -/
def bench : State :=
  { resting with
    clock := some 3000000, cfg := ⟨some .d24, some true, some 8000000, some 4, some 4⟩, panel := some benchPanel }

theorem witness_FindMaxFindsLargestReliableClock : ParamsOk bench.par ∧ (∀ hz, quantise bench.par hz = hz) ∧
    WaitCompletes bench ∧ bench.sel = none ∧ bench.clock = some 3000000 ∧
    bench.cfg = ⟨some .d24, some true, some 8000000, some 4, some 4⟩ ∧ (4 : Half) ≠ 0 ∧
    bench.panel = some benchPanel ∧ benchPanel.bench = true ∧ benchPanel.fmt = fmtOfDepth .d24 ∧
    nextAlloc (drained bench).env = true ∧
    min bench.par.calCeilHz.toNat (3000000 : Word).toNat <
      bench.par.calFloorHz.toNat + 2 * bench.par.calStepHz.toNat ∧
    AcksNext (4 * 2) (drained bench) ∧ NoTimeouts 2 (drained bench) ∧
    2500000 = min benchPanel.rdMaxHz.toNat (min bench.par.calCeilHz.toNat (3000000 : Word).toNat) ∧
    bench.par.calFloorHz.toNat ≤ 2500000 ∧
    min ({ benchPanel with rdMaxHz := 1999999 } : Panel).rdMaxHz.toNat 3000000 < bench.par.calFloorHz.toNat :=
  ⟨by decide, fun _ => rfl, by decide, rfl, rfl, rfl, by decide, rfl, rfl, rfl, by decide, by decide,
    by decide, by decide, by decide, by decide, by decide⟩

theorem witness_CfgWrRejects : IllegalWrite 0x0A 1 ∧ IllegalWrite 0x09 1 ∧ IllegalWrite 0x00 4 ∧
    IllegalWrite 0x05 0x10000 := by decide

/-- The largest legal CTRL, width and height, the least legal clocks. -/
theorem witness_CfgWrReplacesRegister : WaitCompletes ready ∧ (3 : Word).extractLsb' 2 30 = 0 ∧ (1 : Word) ≠ 0 ∧
    WaitCompletes resting ∧ resting.sel = none ∧ ready.sel ≠ none ∧ (0xFFFF : Word).extractLsb' 16 16 = 0 ∧
    (0xFFFF : Word).extractLsb' 0 16 ≠ 0 := by decide

theorem witness_CfgRdReturnsRegister : ready.cfg = ⟨some .d24, some false, some 8000000, some 240, some 320⟩ ∧
    ready.clock = some 26000000 ∧ ({ ready with result := some 5 } : State).result = some 5 ∧
    State.reset.cfg = ⟨none, none, none, none, none⟩ ∧ State.reset.clock = none ∧ State.reset.result = none := by decide

theorem witness_StatusesAreTheTables : 0 < ready.par.nwords ∧
    Completes (.deselect .display) { ready with env := { ready.env with acks := [false] } }
      (fun t => t.last == .deselectFail) ∧
    Completes (.cfgRd 0x0A) ready (fun t => t.last == .illegal) ∧
    ∃ t, Ends (.pushBuf 0x100 22 true) .pushWait pushing t ∧ (t.last == .ok) = true :=
  ⟨by decide, next_of_ends (by decide), next_of_ends (by decide), ends_of_takenUp (by decide) (by decide)⟩
theorem witness_FlagsAreSticky : 0 < ready.par.nwords ∧
    Completes .wait { ready with ef := ⟨true, true, true, true⟩ } (fun t => t.ef == ⟨true, true, true, true⟩) ∧
    (∃ t, Ends (.pushBuf 0x100 22 true) .pushWait { pushing with ef := ⟨true, true, true, true⟩ } t ∧
      (t.ef == ⟨true, true, true, true⟩) = true) ∧
    ¬ HostDoes .reset waiting ∧ ¬ HostDoes .reset lively ∧ HostDoes .reset (pressed .reset) ∧
    (match step { waiting with ef := ⟨true, true, true, true⟩ } with
      | .next t => t.ef == ⟨true, true, true, true⟩ | .fault _ => false | .refused _ => false) = true :=
  ⟨by decide, next_of_ends (by decide), ends_of_takenUp (by decide) (by decide), by decide, by decide, by decide,
    by decide⟩
theorem witness_OperationsWriteOnlyWhatTheyList : 0 < ready.par.nwords ∧ writes (.sendCmd 0x29) .result = false ∧
    writes .wait .regs = false ∧ ready.scratch = none ∧ ready.inhibit = false ∧
    Completes (.sendCmd 0x29) ready (fun t => t.op == none) ∧
    writes (.pushRep ⟨1, 2, 3⟩ 22 true) .config = false ∧
    (∃ t, Ends (.pushRep ⟨1, 2, 3⟩ 22 true) (.fill [1, 2, 3] 3 []) filling t ∧
      (t.scratch == none && t.op == none) = true) ∧
    writes .findMaxRdclk .config = false ∧
    ∃ t, Ends .findMaxRdclk (.scan 26000000 true plan 2000000 [] none)
      { calibrating with env := { calibrating.env with acks := [false] } } t ∧ (t.cfg.gray == some true) = true :=
  ⟨by decide, by decide, by decide, rfl, rfl, next_of_ends (by decide), by decide,
    ends_of_takenUp (by decide) (by decide), by decide, ends_of_takenUp (by decide) (by decide)⟩

/-- The bytes just before and just after the four a one-pixel read stores, and a buffer that passes the top of the
address space. -/
theorem witness_OnlyReadsWriteHostMemory : 0 < ready.par.nwords ∧ writes .wait .memory = false ∧
    (∀ k < 4, 0x2FFF ≠ (0x3000 + k) % 2 ^ ready.par.addrBits ∧ 0x3004 ≠ (0x3000 + k) % 2 ^ ready.par.addrBits) ∧
    (∀ k < 4, 2 ≠ (0xFFFFFFFE + k) % 2 ^ ready.par.addrBits) ∧
    Completes (.readPixels ⟨0, 0, 0, 0⟩ 1 0x3000 true) ready
      (fun t => memRead t.mem 0x2FFF 6 == [0, 0x5A, 0x5A, 0x5A, 0x5A, 0]) ∧
    nextWait (.select .display) .drain waiting = some (.drain, waiting) ∧
    ∃ t, Ends (.pushBuf 0x100 22 true) .pushWait pushing t ∧ (t.mem == []) = true :=
  ⟨by decide, by decide, by decide, by decide, next_of_ends (by decide), by decide,
    ends_of_takenUp (by decide) (by decide)⟩
theorem witness_TraceOnlyGrows : 0 < flying.par.nwords ∧ Completes .wait flying (fun t => t.trace != []) ∧
    (∃ t, Ends (.pushBuf 0x100 22 true) .pushWait pushing t ∧ (t.trace != []) = true) ∧ ¬ HostDoes .reset lively ∧
    (match step lively with | .next t => t.trace != [] | .fault _ => false | .refused _ => false) = true :=
  ⟨by decide, next_of_ends (by decide), ends_of_takenUp (by decide) (by decide), by decide, by decide⟩

end Sys2Proof.Tests
end

section
/-! The trace only grows (spec/00_scope.md R14; 20_memory.md R68): first the bodies of the operations, then an operation
from its start or from a wait, then the host's actions and a step. Bus traffic (`Traffic`) and coming to a wait
(`Grows`) have their growing trace in the laws above. -/

namespace Sys2Proof.Machine

/-! ## Bodies of operations -/

theorem pushStream_trace (direct : Bool) (bs : List Byte) (loan : Option (Nat × Nat)) (wait : Bool) (s : State) :
    s.trace <+: (pushStream direct bs loan wait s).2.trace := by
  cases direct with
  | true =>
    rw [pushStream_direct]
    exact ((bus_openWrite s).toTraffic.trans (traffic_pushDirect bs _)).trace
  | false =>
    have queued : s.trace <+: (pushStream false bs loan false s).2.trace := by
      rw [pushStream_queue]
      exact List.prefix_append _ _
    cases wait with
    | false => exact queued
    | true =>
      rw [pushStream_wait]
      exact queued.trans (awaitDma_traffic _).1.trace

theorem fillLoop_trace (fill : List Byte) (b : Nat) (ns : List Nat) (s : State) :
    s.trace <+: (fillLoop fill b ns s).2.trace := by
  obtain ⟨_, events, _, _, _, _, _, ht⟩ := fillLoop_spec fill b ns s
  rw [ht]
  exact List.prefix_append _ _

theorem pushFill_trace (px : List Byte) (count width : Nat) (s : State) :
    s.trace <+: (pushFill px count width s).2.trace := by
  unfold pushFill
  simp only
  split
  · exact fillLoop_trace _ _ _
      { s with env := popAlloc s.env, scratch := some (fillPixels count width * px.length) }
  · exact List.prefix_refl _

theorem pushRepBody_trace (color : Color) (count : Nat) (v : Depth × Bool × Nat) (s : State) :
    s.trace <+: (pushRepBody color count v s).2.trace := by
  have hw := (bus_openWrite s).trace
  unfold pushRepBody
  split
  · exact hw.trans (traffic_pushDirect _ _).trace
  · exact hw.trans (pushFill_trace _ _ _ _)

theorem readPixelsBody_trace (w : Window) (count addr : Nat) (clocks : Option (Word × Word)) (s : State)
    (hn : 0 < s.par.nwords) : s.trace <+: (readPixelsBody w count addr clocks s).2.trace := by
  have hr := (readSequence_spec w (rawBytes count) clocks s hn).1.trace
  unfold readPixelsBody
  split <;> rename_i he <;> rw [he] at hr <;> exact hr

theorem readPixelBody_trace (x y : Half) (clocks : Option (Word × Word)) (s : State) (hn : 0 < s.par.nwords) :
    s.trace <+: (readPixelBody x y clocks s).2.trace := by
  have hr := (readSequence_spec (pixelWindow x y s) (rawBytes 1) clocks s hn).1.trace
  unfold readPixelBody
  split <;> rename_i he <;> rw [he] at hr <;> exact hr

/-- What the preconditions of `FIND_MAX_RDCLK` say of selection and grayscale flag (R271). -/
theorem findMaxPre_entry {s : State} {v : Word × Bool × CalPlan} (h : findMaxPre s = .ok v) :
    s.sel = none ∧ s.cfg.gray = some v.2.1 := by
  simp only [findMaxPre, bind_unit_ok_iff, require_ok_iff, beq_iff_eq] at h
  obtain ⟨hsel, h⟩ := h
  simp only [bind_ok_iff, valueOf_ok_iff, Except.ok.injEq] at h
  obtain ⟨_, -, _, -, g, hg, _, -, _, -, -, -, -, -, rfl⟩ := h
  exact ⟨hsel, hg⟩

theorem findMaxBody_trace {v : Word × Bool × CalPlan} {s : State} (hn : 0 < s.par.nwords) (hd : s.dma = .idle)
    (hp : findMaxPre s = .ok v) : s.trace <+: (findMaxBody v s).2.trace := by
  obtain ⟨hs, hg⟩ := findMaxPre_entry hp
  obtain ⟨u, hu, -, -, -, best, -, he⟩ := findMaxBody_spec v.1 v.2.1 v.2.2 s hn hd hs hg
  rw [he]
  exact (hu.trans (traffic_setClock v.1 u)).trace

theorem cfgWrite_trace (r : CfgReg) (value : Word) (s : State) : s.trace <+: (cfgWrite r value s).trace := by
  cases r with
  | clock => exact (bus_setClock value s).trace
  | _ => exact List.prefix_refl _

theorem sendCmdDataBody_bus (cmd : Byte) (addr length : Nat) (s : State) :
    Bus s (sendCmdDataBody cmd addr length s) := by
  have hc := bus_sendCommand cmd s
  unfold sendCmdDataBody
  split
  · exact hc
  · exact (hc.trans (bus_setDC _ _)).trans (bus_sendBytes _ _)

/-! ## Operations -/

/-- An operation that drains appends what its body appends, and after a failed drain the prefix that was sent. -/
theorem opening_trace {α : Type} {late : State → State} {pre : State → Except Refusal α}
    {body : α → State → Status × State} {s t : State} (h : opening late pre body s = .next t)
    (hlate : ∀ u, (late u).trace = u.trace)
    (hbody : ∀ v, pre (drained s) = .ok v → (drained s).trace <+: (body v (drained s)).2.trace) :
    s.trace <+: t.trace := by
  rcases opening_next h with ⟨-, v, hv, rfl⟩ | ⟨_, _, k, -, -, rfl⟩
  · rw [finish_trace]
    exact (bus_drained s).trace.trans (hbody v hv)
  · rw [fail_trace, hlate]
    exact (bus_abandoned k s).trace

theorem exec_trace {i : Instr} {s t : State} (h : exec i s = .next t) (hn : 0 < s.par.nwords) :
    s.trace <+: t.trace := by
  have hn' : 0 < (drained s).par.nwords := by rwa [drained_par]
  cases i with
  | select d => exact opening_trace h (fun _ => rfl) (fun _ _ => (bus_select d _).trace)
  | deselect d => exact opening_trace h (fun _ => rfl) (fun _ _ => (bus_deselect d _).trace)
  | sendCmd cmd => exact opening_trace h (fun _ => rfl) (fun _ _ => (bus_sendCommand cmd _).trace)
  | sendCmdData cmd addr length => exact opening_trace h (fun _ => rfl) (fun _ _ => (sendCmdDataBody_bus _ _ _ _).trace)
  | setWindow w => exact opening_trace h (fun _ => rfl) (fun _ _ => (bus_windowFrame w _ hn').trace)
  | pushRep color count wait =>
    simp only [exec, execPushRep] at h
    split at h
    · cases h
      exact List.prefix_refl _
    · exact opening_trace h (fun _ => rfl) (fun _ _ => pushRepBody_trace _ _ _ _)
  | pushBuf addr count wait =>
    simp only [exec, execPushBuf] at h
    split at h
    · cases h
      exact List.prefix_refl _
    · exact opening_trace h (fun _ => rfl) (fun _ _ => pushStream_trace _ _ _ _ _)
  | readPixels w count addr adapt =>
    exact opening_trace h (fun _ => rfl) (fun _ _ => readPixelsBody_trace _ _ _ _ _ hn')
  | readPixel x y => exact opening_trace h (fun _ => rfl) (fun _ _ => readPixelBody_trace _ _ _ _ hn')
  | findMaxRdclk => exact opening_trace h (fun _ => rfl) (fun _ hv => findMaxBody_trace hn' (drained_dma s) hv)
  | wait =>
    rw [exec, execWait] at h
    exact opening_trace h (fun _ => rfl) (fun _ _ => List.prefix_refl _)
  | cfgWr reg value =>
    simp only [exec, execCfgWr] at h
    split at h
    · cases h
      exact List.prefix_refl _
    · exact opening_trace h (fun _ => rfl) (fun _ _ => cfgWrite_trace _ _ _)
  | cfgRd reg =>
    simp only [exec, execCfgRd] at h
    split at h
    · cases h
      exact List.prefix_refl _
    · split at h
      · cases h
        exact List.prefix_refl _
      · cases h

/-- An operation taken up at any of its phases. -/
theorem resume_trace {i : Instr} {p : Phase} {s t : State} (h : resume i p s = .next t) (hn : 0 < s.par.nwords) :
    s.trace <+: t.trace := by
  cases p with
  | drain => exact exec_trace h hn
  | pushWait =>
    cases h
    rw [finish_trace]
    exact (awaitDma_traffic s).1.trace
  | fill buffer b rest =>
    cases h
    rw [finish_trace]
    exact fillLoop_trace buffer b rest s
  | scan clock g plan f fs best =>
    cases h
    obtain ⟨hscan, -⟩ := scanRest_spec plan f fs best s hn
    obtain ⟨u, hu, -, -, -, he⟩ := calRestore_spec clock g (scanRest plan f fs best (lineRest s)).2.2
    simp only [finish_trace, calResult, he]
    exact ((hscan.trans hu).trans (traffic_setClock clock u)).trace

theorem Ends.trace_prefix {i : Instr} {p : Phase} {s t : State} (h : Ends i p s t) (hn : 0 < s.par.nwords) :
    s.trace <+: t.trace := by
  rcases h with ⟨-, h⟩ | ⟨-, h⟩
  · exact exec_trace h hn
  · exact resume_trace h hn

/-! ## Steps -/

theorem proceed_trace {i : Instr} {p : Phase} {s t : State} (h : proceed i p s = .next t) (hn : 0 < s.par.nwords) :
    s.trace <+: t.trace := by
  rcases proceed_cases i p s with ⟨-, he⟩ | ⟨q, u, hw, ⟨-, he⟩ | ⟨-, he⟩⟩ <;> rw [he] at h
  · exact resume_trace h hn
  · cases h
    obtain ⟨-, -, -, htrace, -⟩ := nextWait_grows (s := { s with env := popHold s.env }) hn hw
    exact htrace
  · exact (resume_trace h hn :)

theorem runDescriptor_trace {d : List Word} {s t : State} (h : runDescriptor d s = .next t)
    (hn : 0 < s.par.nwords) : s.trace <+: t.trace := by
  unfold runDescriptor at h
  split at h
  · cases h
  · split at h
    · exact (proceed_trace h hn :)
    · cases h
    · cases h
      exact List.prefix_refl _

theorem hostAccess_trace {addr len : Nat} {act : State → State} {s t : State}
    (h : hostAccess addr len act s = .next t) (hact : (act s).trace = s.trace) : s.trace <+: t.trace := by
  obtain ⟨-, rfl⟩ := hostAccess_ok h
  rw [hact]

/-- Of the host's actions only a reset takes anything from the trace (70 R320). -/
theorem hostAct_trace {a : HostAct} {s t : State} (h : hostAct a s = .next t) (ha : a ≠ .reset)
    (hn : 0 < s.par.nwords) : s.trace <+: t.trace := by
  cases a with
  | issue words => exact runDescriptor_trace h hn
  | store addr bytes =>
    rw [hostAct, hostStore] at h
    exact hostAccess_trace h rfl
  | free addr len =>
    rw [hostAct, hostFree] at h
    exact hostAccess_trace h rfl
  | claim addr len dmaCapable =>
    rw [hostAct, hostClaim] at h
    exact hostAccess_trace h rfl
  | panelFormat fmt =>
    simp only [hostAct, setPanelFormat] at h
    split at h
    · cases h
    · cases h
      exact List.prefix_refl _
  | reset => exact absurd rfl ha

theorem dmaTurn_trace (s : State) : s.trace <+: (dmaTurn s).trace := by
  unfold dmaTurn
  split
  · exact List.prefix_refl _
  · split
    · simp [dmaComplete, shiftAll_eq]
    · exact List.prefix_refl _

theorem hostTurn_trace {s t : State} (h : hostTurn s = .next t) (hr : s.host.head? ≠ some .reset)
    (hn : 0 < s.par.nwords) : s.trace <+: t.trace := by
  unfold hostTurn at h
  split at h
  · cases h
    exact List.prefix_refl _
  · rename_i a rest hhost
    have ha : a ≠ .reset := by simpa [hhost] using hr
    exact (hostAct_trace h ha hn :)

theorem waitTurn_trace {i : Instr} {p : Phase} {s t : State} (h : waitTurn i p s = .next t)
    (hr : s.env.urgent.head? ≠ some (some .reset)) (hn : 0 < s.par.nwords) : s.trace <+: t.trace := by
  unfold waitTurn at h
  split at h
  · exact proceed_trace h hn
  · exact (proceed_trace h hn :)
  · rename_i a rest hurgent
    have ha : a ≠ .reset := by simpa [hurgent] using hr
    exact (hostAct_trace h ha hn :)

theorem step_trace {s t : State} (h : step s = .next t) (hr : ¬ HostDoes .reset s) (hn : 0 < s.par.nwords) :
    s.trace <+: t.trace := by
  obtain ⟨-, hhost, hurgent, -, -, hpar, -⟩ := dmaTurn_keeps s
  have hn' : 0 < (dmaTurn s).par.nwords := by rwa [hpar]
  refine (dmaTurn_trace s).trans ?_
  unfold step at h
  split at h <;> rename_i hop
  · exact hostTurn_trace h (fun hh => hr (.inl ⟨hop, hhost ▸ hh⟩)) hn'
  · exact waitTurn_trace h (fun hu => hr (.inr ⟨by simp [hop], hurgent ▸ hu⟩)) hn'

/-- Settles O57: an operation by its body and the drain before it, a step by the turns it is made of. -/
theorem traceOnlyGrows : Obligations.TraceOnlyGrows := by
  intro s t hn h
  have htrace : s.trace <+: t.trace := by
    rcases h with ⟨i, p, hends⟩ | ⟨hstep, hreset⟩
    · exact Ends.trace_prefix hends hn
    · exact step_trace hstep hreset hn
  obtain ⟨events, he⟩ := htrace
  exact ⟨events, he.symm⟩

end Sys2Proof.Machine
end

section
/-! How an operation leaves the block (spec/10_state.md R45, R39): the invariant in parts, what each body makes of a
block with nothing in flight, and one lemma on how an operation that answers a next state has ended, run from its start
or taken up at a wait. The step and the sticky flags are read off it. -/

namespace Sys2Proof.Machine

/-! ## The invariant in parts -/

/-- The parts of the invariant in which transfer, clock and operation in progress have no say. -/
structure Sound (s : State) : Prop where
  params : ParamsOk s.par
  regs : RegsOk s
  inhibit : s.inhibit = false
  maxRdclock : s.cfg.maxRdclock ≠ some 0
  width : s.cfg.width ≠ some 0
  height : s.cfg.height ≠ some 0
  mode : s.cfg.depth.isSome = s.cfg.gray.isSome
  mem : Memory.wf s.mem = true
  gram : gramOk s = true

/-- The invariant of a `Ready` block, whatever `op` says (R45 (2), (3); R37). -/
structure ReadyOk (s : State) : Prop extends Sound s where
  clock : s.clock ≠ some 0
  dma : dmaOk s = true
  lent : lentOnly s = true

/-- A `Ready` block with nothing in flight: where the body of an operation that drains starts. -/
structure Settled (s : State) : Prop extends Sound s where
  clock : s.clock ≠ some 0
  dma : s.dma = .idle
  scratch : s.scratch = none

/-- The wait of a calibration scan, where the clock is a candidate (45 R260). -/
def Phase.scans : Phase → Bool
  | .scan _ _ _ _ _ _ => true
  | .drain => false
  | .pushWait => false
  | .fill _ _ _ => false

/-- The invariant of a block whose operation stands at a wait, whatever `op` says (R24, R36). -/
structure WaitsOk (p : Phase) (s : State) : Prop extends Sound s where
  clock : p.scans = false → s.clock ≠ some 0
  dma : dmaOk s = true
  wait : waitOk p s = true

theorem dmaOk_idle {s : State} (h : s.dma = .idle) : dmaOk s = true := by simp [dmaOk, h]

theorem lentOnly_idle {s : State} (h : s.dma = .idle) (hs : s.scratch = none) : lentOnly s = true := by
  simp [lentOnly, h, hs]

theorem lentOnly_scratch {s : State} (h : lentOnly s = true) : s.scratch = none := by
  simp only [lentOnly, Bool.and_eq_true, Option.isNone_iff_eq_none] at h
  exact h.1

theorem ownOnly_idle {o : DmaOwner} {s : State} (h : s.dma = .idle) (hl : s.loan = none) : ownOnly o s = true := by
  simp [ownOnly, h, hl]

/-- The opening drain is a wait of a block that is otherwise `Ready`. -/
theorem waitsOk_drain_iff (s : State) : WaitsOk .drain s ↔ ReadyOk s :=
  ⟨fun h => ⟨h.toSound, h.clock rfl, h.dma, h.wait⟩, fun h => ⟨h.toSound, fun _ => h.clock, h.dma, h.lent⟩⟩

theorem inv_iff_of_ready {s : State} (ho : s.op = none) : Inv s ↔ ReadyOk s := by
  have hscan : scanning s = false := by simp [scanning, ho]
  have hphase : phaseOk s = lentOnly s := by simp [phaseOk, ho]
  constructor
  · rintro ⟨hpar, hregs, hdma, hph, hinh, ⟨hclk, hmax, hwidth, hheight, hmode⟩, hmem, hgram⟩
    exact ⟨⟨hpar, hregs, hinh, hmax, hwidth, hheight, hmode, hmem, hgram⟩, hclk hscan, hdma, hphase ▸ hph⟩
  · intro h
    exact ⟨h.params, h.regs, h.dma, hphase ▸ h.lent, h.inhibit,
      ⟨fun _ => h.clock, h.maxRdclock, h.width, h.height, h.mode⟩, h.mem, h.gram⟩

theorem inv_iff_of_op {s : State} {i : Instr} {p : Phase} (ho : s.op = some (i, p)) :
    Inv s ↔ standsAt i p = true ∧ WaitsOk p s := by
  have hscan : scanning s = p.scans := by cases p <;> simp [scanning, ho, Phase.scans]
  have hphase : phaseOk s = (standsAt i p && waitOk p s) := by simp [phaseOk, ho]
  constructor
  · rintro ⟨hpar, hregs, hdma, hph, hinh, ⟨hclk, hmax, hwidth, hheight, hmode⟩, hmem, hgram⟩
    rw [hphase, Bool.and_eq_true] at hph
    exact ⟨hph.1, ⟨hpar, hregs, hinh, hmax, hwidth, hheight, hmode, hmem, hgram⟩, hscan ▸ hclk, hdma, hph.2⟩
  · rintro ⟨hst, h⟩
    exact ⟨h.params, h.regs, h.dma, by rw [hphase, hst, h.wait]; rfl, h.inhibit,
      ⟨hscan ▸ h.clock, h.maxRdclock, h.width, h.height, h.mode⟩, h.mem, h.gram⟩

theorem Settled.ready {s : State} (h : Settled s) : ReadyOk s :=
  { h with dma := dmaOk_idle h.dma, lent := lentOnly_idle h.dma h.scratch }

/-- Bus traffic keeps what no transfer, clock or operation has a say in. -/
theorem Traffic.sound {s t : State} (h : Traffic s t) (hs : Sound s) : Sound t where
  params := h.par ▸ hs.params
  regs := h.regs hs.params.1 hs.regs
  inhibit := h.inhibit hs.inhibit
  maxRdclock := h.cfg ▸ hs.maxRdclock
  width := h.cfg ▸ hs.width
  height := h.cfg ▸ hs.height
  mode := h.cfg ▸ hs.mode
  mem := h.mem ▸ hs.mem
  gram := (gramOk_iff t).mpr (h.panel.2 ((gramOk_iff s).mp hs.gram))

theorem Traffic.settled {s t : State} (h : Traffic s t) (hs : Settled s) (hc : t.clock ≠ some 0) : Settled t :=
  { h.sound hs.toSound with clock := hc, dma := h.dma hs.dma, scratch := h.scratch.trans hs.scratch }

/-- However a wait ends, the caller's buffer is the host's again (20 R70). -/
theorem awaitDma_loan (s : State) : (awaitDma s).2.loan = none := by
  rcases awaitDma_cases s with ⟨-, h⟩ | ⟨bs, o, k, hd, -, h⟩ <;> rw [h]
  · exact drained_loan s
  · simp [abandoned, hd]

/-- However a wait ends, the block is settled, if it held no fill buffer. -/
theorem awaitDma_settled {s : State} (hs : Sound s) (hc : s.clock ≠ some 0) (hb : s.scratch = none) :
    Settled (awaitDma s).2 := by
  obtain ⟨htraffic, hidle, -, -, hclock⟩ := awaitDma_traffic s
  exact { htraffic.sound hs with clock := hclock ▸ hc, dma := hidle, scratch := htraffic.scratch.trans hb }

theorem ReadyOk.drained {s : State} (h : ReadyOk s) : Settled (drained s) :=
  { (bus_drained s).toTraffic.sound h.toSound with
    clock := by simpa using h.clock, dma := by simp, scratch := by simpa using lentOnly_scratch h.lent }

theorem ReadyOk.abandoned {s : State} (k : Nat) (h : ReadyOk s) : Settled (abandoned k s) :=
  { (bus_abandoned k s).toTraffic.sound h.toSound with
    clock := by simpa using h.clock, dma := by simp, scratch := by simpa using lentOnly_scratch h.lent }

theorem ReadyOk.inv_finish {s : State} (st : Status) (h : ReadyOk s) : Inv (finish st s) := by
  rw [inv_iff_of_ready (finish_op st s)]
  cases st <;> exact { h with }

/-! ## Sticky flags -/

/-- No sticky flag is cleared (R39). -/
abbrev FlagsKept (e e' : ErrFlags) : Prop :=
  (e.sel = true → e'.sel = true) ∧ (e.dmaTo = true → e'.dmaTo = true) ∧ (e.alloc = true → e'.alloc = true) ∧
    (e.illegal = true → e'.illegal = true)

theorem FlagsKept.refl (e : ErrFlags) : FlagsKept e e := ⟨id, id, id, id⟩

theorem FlagsKept.trans {e f g : ErrFlags} (h : FlagsKept e f) (k : FlagsKept f g) : FlagsKept e g :=
  ⟨k.1 ∘ h.1, k.2.1 ∘ h.2.1, k.2.2.1 ∘ h.2.2.1, k.2.2.2 ∘ h.2.2.2⟩

theorem FlagsGrow.kept {e e' : ErrFlags} (h : FlagsGrow e e') : FlagsKept e e' :=
  ⟨h.1, h.2.1, h.2.2.1, fun k => h.2.2.2.trans k⟩

theorem flagsAfter_kept (st : Status) (e : ErrFlags) : FlagsKept e (flagsAfter st e) := by
  cases st <;> simp [FlagsKept, flagsAfter]

/-! ## Bodies of operations -/

/-- What every body does: it clears no flag, and takes a settled block to one that may be `Ready`. -/
structure Effect (s u : State) : Prop where
  flags : FlagsKept s.ef u.ef
  ready : Settled s → ReadyOk u

theorem Traffic.effect {s u : State} (h : Traffic s u) (hc : u.clock = s.clock) : Effect s u :=
  ⟨FlagsGrow.kept h.flags, fun hs => (h.settled hs (hc ▸ hs.clock)).ready⟩

theorem Effect.refl (s : State) : Effect s s := (Traffic.refl s).effect rfl

/-- A clock request keeps the clock legal, if it asks for a legal one (46 R284). -/
theorem setClock_effect {hz : Word} (s : State) (h : hz ≠ 0) : Effect s (setClock hz s) :=
  ⟨FlagsKept.refl _, fun hs =>
    ((traffic_setClock hz s).settled hs (by simpa using quantise_ne_zero s.par hz h)).ready⟩

theorem sendCmdDataBody_clock (cmd : Byte) (addr length : Nat) (s : State) :
    (sendCmdDataBody cmd addr length s).clock = s.clock := by
  unfold sendCmdDataBody
  split
  · rw [sendCommand_eq]
  · rw [sendBytes_eq, setDC_clock, sendCommand_eq]

theorem pushDirect_openWrite_traffic (bs : List Byte) (s : State) : Traffic s (pushDirect bs (openWrite s)) :=
  (bus_openWrite s).toTraffic.trans (traffic_pushDirect bs _)

theorem pushDirect_openWrite_clock (bs : List Byte) (s : State) :
    (pushDirect bs (openWrite s)).clock = s.clock := by
  rw [pushDirect_eq, sendBytes_eq, openWrite_eq]

/-- Queueing a caller's transfer, its buffer lent or the block's own (43 R215; 45 R265). -/
theorem pushStream_queue_sound (bs : List Byte) (l : Option (Nat × Nat)) {s : State} (hs : Sound s) :
    Sound (pushStream false bs l false s).2 := by
  have h := (bus_openWrite s).toTraffic.sound hs
  simp only [pushStream, Bool.false_eq_true, if_false]
  exact { h with }

/-- The body of `PUSH_BUF` (43 R211). Without `wait` it ends with its transfer in flight and its buffer lent. -/
theorem pushStream_effect (direct : Bool) (bs : List Byte) (r : Nat × Nat) (wait : Bool) (s : State)
    (hsel : s.sel = some .display) : Effect s (pushStream direct bs (some r) wait s).2 := by
  cases wait with
  | true =>
    obtain ⟨htraffic, -, -, -, hclock⟩ := pushStream_spec direct bs (some r) s
    exact htraffic.effect hclock
  | false =>
    cases direct with
    | true =>
      rw [pushStream_direct]
      exact (pushDirect_openWrite_traffic bs s).effect (pushDirect_openWrite_clock bs s)
    | false =>
      have hq := pushStream_queue bs (some r) s
      refine ⟨by rw [hq]; exact FlagsKept.refl _, fun hs => ?_⟩
      refine { pushStream_queue_sound bs (some r) hs.toSound with clock := ?_, dma := ?_, lent := ?_ } <;> rw [hq]
      · exact hs.clock
      · simp [dmaOk, hsel]
      · simp [lentOnly, hs.scratch]

/-- A repeated fill: nothing is left in flight, lent or allocated, and no flag is cleared (43 R221, R222). -/
theorem fillLoop_concludes (fill : List Byte) (b : Nat) (ns : List Nat) (s : State) :
    FlagsKept s.ef (fillLoop fill b ns s).2.ef ∧
      (Sound s → s.clock ≠ some 0 → Settled (fillLoop fill b ns s).2) := by
  obtain ⟨e, tr, p, n, ef, hpanel, hst, ht⟩ := fillLoop_spec fill b ns s
  rw [ht]
  refine ⟨?_, fun hs hc => ⟨{ hs with gram := ?_ }, hc, rfl, rfl⟩⟩
  · rcases hst with ⟨-, rfl⟩ | ⟨-, rfl⟩
    · exact FlagsKept.refl _
    · exact flagsAfter_kept .dmaTimeout s.ef
  · exact (gramOk_iff _).mpr (hpanel.2 ((gramOk_iff s).mp hs.gram))

/-- The body of `PUSH_REP` (43 R210, R218, R219). -/
theorem pushRepBody_effect (color : Color) (count : Nat) (v : Depth × Bool × Nat) (s : State) :
    Effect s (pushRepBody color count v s).2 := by
  have hopen := (bus_openWrite s).toTraffic
  have hclock : (openWrite s).clock = s.clock := by rw [openWrite_eq]
  unfold pushRepBody
  split
  · exact (pushDirect_openWrite_traffic _ s).effect (pushDirect_openWrite_clock _ s)
  · unfold pushFill
    simp only
    split
    · have hfill := fillLoop_concludes (repeatBytes (wireBytes v.1 v.2.1 color) (fillPixels count v.2.2))
        (wireBytes v.1 v.2.1 color).length (fillSizes count (fillPixels count v.2.2))
        { openWrite s with
          env := popAlloc (openWrite s).env
          scratch := some (fillPixels count v.2.2 * (wireBytes v.1 v.2.1 color).length) }
      refine ⟨(FlagsGrow.kept hopen.flags).trans hfill.1, fun hs => (hfill.2 ?_ ?_).ready⟩
      · exact { hopen.sound hs.toSound with }
      · exact hclock ▸ hs.clock
    · refine ⟨(FlagsGrow.kept hopen.flags).trans ⟨id, id, fun _ => rfl, id⟩, fun hs => ?_⟩
      exact { (hopen.settled hs (hclock ▸ hs.clock)).ready with }

/-- A read sequence (44 R240, R243): the clock is the one at entry, or requested again. -/
theorem readSequence_effect {w : Window} {n : Nat} {adapt : Bool} {clocks : Option (Word × Word)} {s : State}
    (hn : 0 < s.par.nwords) (hc : adapterClocks adapt s = .ok clocks) :
    Effect s (readSequence w n clocks s).2.2 := by
  obtain ⟨hbus, -, hclock⟩ := readSequence_spec w n clocks s hn
  rcases hclock with hsame | ⟨cur, top, rfl, -, hreq⟩
  · exact hbus.toTraffic.effect hsame
  · refine ⟨FlagsGrow.kept hbus.flags, fun hs => (hbus.toTraffic.settled hs ?_).ready⟩
    have hcur : s.clock = some cur := by
      have hread := adapterClocks_eq hc
      simp only [readClocks] at hread
      split at hread
      · rename_i hclk _
        cases hread
        exact hclk
      · cases hread
    rw [hreq]
    intro h0
    exact quantise_ne_zero s.par cur (fun h => hs.clock (h ▸ hcur)) (Option.some.inj h0)

theorem Effect.withResult {s u : State} (h : Effect s u) (v : Option Word) : Effect s { u with result := v } :=
  ⟨h.flags, fun hs => { h.ready hs with }⟩

/-- A store to host memory in canonical form (20 R65). -/
theorem Effect.withMem {s u : State} (h : Effect s u) (m : Memory) (e : Env)
    (hm : Memory.wf u.mem = true → Memory.wf m = true) : Effect s { u with mem := m, env := e } :=
  ⟨h.flags, fun hs => { h.ready hs with mem := hm (h.ready hs).mem }⟩

theorem readPixelsBody_effect {w : Window} {count addr : Nat} {adapt : Bool} {clocks : Option (Word × Word)}
    {s : State} (hn : 0 < s.par.nwords) (hc : adapterClocks adapt s = .ok clocks) :
    Effect s (readPixelsBody w count addr clocks s).2 := by
  have hseq := readSequence_effect (w := w) (n := rawBytes count) hn hc
  unfold readPixelsBody
  split <;> rename_i he <;> rw [he] at hseq
  · exact hseq.withMem _ _ (memWrite_wf _ _ _)
  · exact hseq.withMem _ _ (memWriteWrapped_wf _ _ _ _)

theorem readPixelBody_effect {x y : Half} {adapt : Bool} {clocks : Option (Word × Word)} {s : State}
    (hn : 0 < s.par.nwords) (hc : adapterClocks adapt s = .ok clocks) :
    Effect s (readPixelBody x y clocks s).2 := by
  have hseq := readSequence_effect (w := pixelWindow x y s) (n := rawBytes 1) hn hc
  unfold readPixelBody
  split <;> rename_i he <;> rw [he] at hseq <;> exact hseq.withResult _

/-- The values `FIND_MAX_RDCLK` reads are the configured ones (45 R271). -/
theorem findMaxPre_values {s : State} {v : Word × Bool × CalPlan} (h : findMaxPre s = .ok v) :
    s.sel = none ∧ s.clock = some v.1 ∧ s.cfg.depth = some v.2.2.depth ∧ s.cfg.gray = some v.2.1 := by
  simp only [findMaxPre, bind_unit_ok_iff, require_ok_iff, beq_iff_eq] at h
  obtain ⟨hsel, h⟩ := h
  simp only [bind_ok_iff, valueOf_ok_iff, Except.ok.injEq] at h
  obtain ⟨_, hclock, _, hdepth, _, hgray, _, -, _, -, -, -, -, -, rfl⟩ := h
  exact ⟨hsel, hclock, hdepth, hgray⟩

/-- The body of `FIND_MAX_RDCLK` (45 R260, R269). -/
theorem findMaxBody_effect {v : Word × Bool × CalPlan} {s : State} (hn : 0 < s.par.nwords) (hd : s.dma = .idle)
    (hp : findMaxPre s = .ok v) : Effect s (findMaxBody v s).2 := by
  obtain ⟨hsel, hclock, -, hgray⟩ := findMaxPre_values hp
  obtain ⟨u, htraffic, huclock, -, -, best, -, he⟩ := findMaxBody_spec v.1 v.2.1 v.2.2 s hn hd hsel hgray
  have hrestored : Effect s (setClock v.1 u) := ⟨FlagsGrow.kept htraffic.flags, fun hs =>
    (setClock_effect u fun h0 => hs.clock (h0 ▸ hclock)).ready (htraffic.settled hs (huclock ▸ hs.clock))⟩
  rw [he]
  exact hrestored.withResult _

theorem cfgWriteTarget_legal {reg : Byte} {value : Word} {r : CfgReg} (h : cfgWriteTarget reg value = some r) :
    cfgValueLegal r value = true := by
  unfold cfgWriteTarget at h
  split at h
  · split at h
    · cases h
      assumption
    · cases h
  · cases h

/-- A legal write leaves every register with a legal value (R29, R30, R31; 46 R280). -/
theorem cfgWrite_effect {r : CfgReg} {value : Word} (s : State) (h : cfgValueLegal r value = true) :
    Effect s (cfgWrite r value s) := by
  cases r with
  | ctrl => exact ⟨FlagsKept.refl _, fun hs => { hs.ready with mode := rfl }⟩
  | clock => exact setClock_effect s (by simpa [cfgValueLegal] using h)
  | maxRdclock =>
    have hv : value ≠ 0 := by simpa [cfgValueLegal] using h
    exact ⟨FlagsKept.refl _, fun hs => { hs.ready with maxRdclock := fun k => hv (Option.some.inj k) }⟩
  | width =>
    have hv : value.extractLsb' 0 16 ≠ 0 := by
      simp only [cfgValueLegal, Bool.and_eq_true, bne_iff_ne] at h
      exact h.2
    exact ⟨FlagsKept.refl _, fun hs => { hs.ready with width := fun k => hv (Option.some.inj k) }⟩
  | height =>
    have hv : value.extractLsb' 0 16 ≠ 0 := by
      simp only [cfgValueLegal, Bool.and_eq_true, bne_iff_ne] at h
      exact h.2
    exact ⟨FlagsKept.refl _, fun hs => { hs.ready with height := fun k => hv (Option.some.inj k) }⟩
  | status => exact Effect.refl s
  | result => exact Effect.refl s
  | cntDirect => exact Effect.refl s
  | cntDma => exact Effect.refl s
  | cntBurst => exact Effect.refl s

/-! ## Operations -/

/-- How an operation that answers `t` has ended: with a status, from a state in which no flag is cleared and which, if
`before` held, may be a `Ready` block's. -/
def Concludes (before : Prop) (s t : State) : Prop :=
  ∃ st u, t = finish st u ∧ FlagsKept s.ef u.ef ∧ (before → ReadyOk u)

/-- An operation that drains concludes as its body does, or as the drain that failed. -/
theorem opening_concludes {α : Type} {late : State → State} {pre : State → Except Refusal α}
    {body : α → State → Status × State} {s t : State} (h : opening late pre body s = .next t)
    (hlate : ∀ u, Effect u (late u))
    (hbody : ∀ v, pre (drained s) = .ok v → Effect (drained s) (body v (drained s)).2) :
    Concludes (ReadyOk s) s t := by
  rcases opening_next h with ⟨-, v, hv, rfl⟩ | ⟨_, _, k, -, -, rfl⟩
  · obtain ⟨hflags, hready⟩ := hbody v hv
    exact ⟨_, _, rfl, (FlagsGrow.kept (bus_drained s).flags).trans hflags, fun hs => hready hs.drained⟩
  · obtain ⟨hflags, hready⟩ := hlate (abandoned k s)
    exact ⟨.dmaTimeout, _, rfl, (FlagsGrow.kept (bus_abandoned k s).flags).trans hflags,
      fun hs => hready (hs.abandoned k)⟩

theorem scrambleBuffer_effect (addr n : Nat) (s : State) : Effect s (scrambleBuffer addr n s) :=
  (Effect.refl s).withMem _ _ (memWriteWrapped_wf _ _ _ _)

/-- An operation that ends at once, without draining. -/
theorem finish_concludes (st : Status) (s : State) : Concludes (ReadyOk s) s (finish st s) :=
  ⟨st, s, rfl, FlagsKept.refl _, id⟩

/-- `CFG_RD` gives a lent buffer back only with nothing in flight (70 R332). -/
theorem ReadyOk.observe {s : State} (h : ReadyOk s) (r : CfgReg) (v : Word) :
    ReadyOk { s with result := some v, loan := observeIdle r s } := by
  refine { h with lent := ?_ }
  have hlent := h.lent
  simp only [lentOnly] at hlent ⊢
  cases hd : s.dma with
  | idle => simpa [hd] using hlent
  | inFlight bs o =>
    have hloan : observeIdle r s = s.loan := by simp [observeIdle, dmaBusy, hd]
    simpa [hd, hloan] using hlent

theorem exec_concludes {i : Instr} {s t : State} (h : exec i s = .next t) (hn : 0 < s.par.nwords) :
    Concludes (ReadyOk s) s t := by
  have hn' : 0 < (drained s).par.nwords := by rwa [drained_par]
  cases i with
  | select d => exact opening_concludes h Effect.refl fun _ _ => (bus_select d _).toTraffic.effect (select_clock d _)
  | deselect d =>
    exact opening_concludes h Effect.refl fun _ _ => (bus_deselect d _).toTraffic.effect (deselect_clock d _)
  | sendCmd cmd =>
    exact opening_concludes h Effect.refl fun _ _ =>
      (bus_sendCommand cmd _).toTraffic.effect (by rw [sendCommand_eq])
  | sendCmdData cmd addr length =>
    exact opening_concludes h Effect.refl fun _ _ =>
      (sendCmdDataBody_bus _ _ _ _).toTraffic.effect (sendCmdDataBody_clock _ _ _ _)
  | setWindow w =>
    exact opening_concludes h Effect.refl fun _ _ =>
      (bus_windowFrame w _ hn').toTraffic.effect (by rw [windowFrame_eq w _ hn'])
  | pushRep color count wait =>
    simp only [exec, execPushRep] at h
    split at h
    · cases h
      exact finish_concludes .ok s
    · exact opening_concludes h Effect.refl fun _ _ => pushRepBody_effect _ _ _ _
  | pushBuf addr count wait =>
    simp only [exec, execPushBuf] at h
    split at h
    · cases h
      exact finish_concludes .ok s
    · refine opening_concludes h Effect.refl fun mg hmg => ?_
      obtain ⟨hmode, -⟩ := (pushBufPre_iff _ _ _ mg).mp hmg
      exact pushStream_effect _ _ _ _ _ ((pushMode_iff _ mg.1 mg.2).mp hmode).1
  | readPixels w count addr adapt =>
    refine opening_concludes h (scrambleBuffer_effect _ _) fun clocks hpre => ?_
    obtain ⟨-, hread⟩ := (bind_unit_ok_iff _ _ _).mp hpre
    obtain ⟨-, hclocks, -⟩ := (readPre_iff _ _ _ _ _).mp hread
    exact readPixelsBody_effect hn' hclocks
  | readPixel x y =>
    refine opening_concludes h (fun u => (Effect.refl u).withResult none) fun clocks hpre => ?_
    obtain ⟨-, hread⟩ := (bind_unit_ok_iff _ _ _).mp hpre
    obtain ⟨-, hclocks, -⟩ := (readPre_iff _ _ _ _ _).mp hread
    exact readPixelBody_effect hn' hclocks
  | findMaxRdclk =>
    exact opening_concludes h Effect.refl fun _ hv => findMaxBody_effect hn' (drained_dma s) hv
  | wait =>
    rw [exec, execWait] at h
    exact opening_concludes h Effect.refl fun _ _ => Effect.refl _
  | cfgWr reg value =>
    simp only [exec, execCfgWr] at h
    split at h
    · cases h
      exact finish_concludes .illegal s
    · rename_i r hr
      exact opening_concludes h Effect.refl fun _ _ => cfgWrite_effect _ (cfgWriteTarget_legal hr)
  | cfgRd reg =>
    simp only [exec, execCfgRd] at h
    split at h
    · cases h
      exact finish_concludes .illegal s
    · split at h
      · cases h
        exact ⟨.ok, _, rfl, FlagsKept.refl _, fun hs => hs.observe _ _⟩
      · cases h

/-- The wait of a `PUSH_BUF`, and the opening drain: bus traffic on a block that is otherwise `Ready`. -/
theorem awaitDma_concludes (s : State) : Concludes (ReadyOk s) s (finish (awaitDma s).1 (awaitDma s).2) :=
  ⟨_, _, rfl, FlagsGrow.kept (awaitDma_traffic s).1.flags,
    fun hs => (awaitDma_settled hs.toSound hs.clock (lentOnly_scratch hs.lent)).ready⟩

/-- What the invariant says of a scan that stands at its wait. -/
theorem waitOk_scan {clock : Word} {g : Bool} {plan : CalPlan} {f : Nat} {fs : List Nat} {best : Option Word}
    {s : State} : waitOk (.scan clock g plan f fs best) s = true ↔
      s.scratch = none ∧ ownOnly .caller s = true ∧ clock ≠ 0 ∧ s.cfg.depth.isSome = true := by
  simp [waitOk, and_assoc]

/-- What the invariant says of a fill that stands at its wait. -/
theorem waitOk_fill {buffer : List Byte} {b : Nat} {rest : List Nat} {s : State} :
    waitOk (.fill buffer b rest) s = true ↔
      s.scratch.isSome = true ∧ ownOnly .scratch s = true ∧ s.sel = some .display ∧ s.dc = some .data := by
  simp [waitOk, and_assoc]

/-- The rest of a scan gives back the clock and the grayscale flag it saved (45 R269). -/
theorem scan_concludes (clock : Word) (g : Bool) (plan : CalPlan) (f : Nat) (fs : List Nat) (best : Option Word)
    {s t : State} (hn : 0 < s.par.nwords) (h : resume .findMaxRdclk (.scan clock g plan f fs best) s = .next t) :
    Concludes (WaitsOk (.scan clock g plan f fs best) s) s t := by
  obtain ⟨hscan, hidle, -⟩ := scanRest_spec plan f fs best s hn
  obtain ⟨u, hu, -, huidle, -, he⟩ := calRestore_spec clock g (scanRest plan f fs best (lineRest s)).2.2
  have htraffic := (hscan.trans hu).trans (traffic_setClock clock u)
  cases h
  refine ⟨_, _, rfl, ?_, fun hw => ?_⟩
  · simp only [calResult, he]
    exact FlagsGrow.kept htraffic.flags
  · obtain ⟨hscratch, -, hclock, hdepth⟩ := waitOk_scan.mp hw.wait
    have hsound := htraffic.sound hw.toSound
    have hidle' : (setClock clock u).dma = .idle := huidle hidle
    have hscratch' : (setClock clock u).scratch = none := htraffic.scratch.trans hscratch
    have hclock' : (setClock clock u).clock ≠ some 0 := by simpa using quantise_ne_zero u.par clock hclock
    have hdepth' : (setClock clock u).cfg.depth.isSome = true := by rw [htraffic.cfg]; exact hdepth
    simp only [calResult, he]
    exact { hsound with
      mode := hdepth', clock := hclock', dma := dmaOk_idle hidle', lent := lentOnly_idle hidle' hscratch' }

/-- An operation taken up at any of its phases. -/
theorem resume_concludes {i : Instr} {p : Phase} {s t : State} (h : resume i p s = .next t) (hn : 0 < s.par.nwords) :
    Concludes (WaitsOk p s) s t := by
  cases p with
  | drain => rw [waitsOk_drain_iff]; exact exec_concludes h hn
  | pushWait =>
    cases h
    obtain ⟨st, u, he, hflags, hready⟩ := awaitDma_concludes s
    exact ⟨st, u, he, hflags, fun hw => hready ⟨hw.toSound, hw.clock rfl, hw.dma, hw.wait⟩⟩
  | fill buffer b rest =>
    cases h
    obtain ⟨hflags, hsettled⟩ := fillLoop_concludes buffer b rest s
    exact ⟨_, _, rfl, hflags, fun hw => (hsettled hw.toSound (hw.clock rfl)).ready⟩
  | scan clock g plan f fs best => exact scan_concludes clock g plan f fs best hn h

end Sys2Proof.Machine
end

section
/-! Every step keeps the invariant (spec/10_state.md R45; R20 to R24, R29 to R33, R36 to R38): an operation that comes
to a wait may stand there, one that ends leaves a block that may be `Ready`, and every action of the host and every turn of
the DMA engine keeps what there is. -/

namespace Sys2Proof.Machine

/-! ## Coming to a wait -/

/-- A fill that comes to its next wait has its own transfer in flight, with the buffer allocated (43 R220). -/
theorem fillWait_waitsOk {buffer : List Byte} {b : Nat} {rest : List Nat} {s t : State} {q : Phase}
    (h : fillWait buffer b rest s = some (q, t)) (hs : Sound s) (hclock : s.clock ≠ some 0)
    (hscratch : s.scratch.isSome = true) (hsel : s.sel = some .display) (hdc : s.dc = some .data) :
    ∃ ns, q = .fill buffer b ns ∧ WaitsOk q t := by
  cases rest with
  | nil => cases h
  | cons n ns =>
    simp only [fillWait, Option.some.injEq, Prod.mk.injEq] at h
    obtain ⟨rfl, rfl⟩ := h
    obtain ⟨htraffic, hidle, hsel', hdc', hclock'⟩ := awaitDma_traffic s
    refine ⟨ns, rfl, { htraffic.sound hs with clock := fun _ => ?_, dma := ?_, wait := waitOk_fill.mpr ?_ }⟩
    · exact hclock'.trans_ne hclock
    · simp [dmaOk, hsel', hdc', hsel, hdc]
    · have hloan : (awaitDma s).2.loan = none := awaitDma_loan s
      simp [htraffic.scratch, hscratch, ownOnly, hloan, hsel', hdc', hsel, hdc]

/-- A scan that comes to the wait for its next line has that line in flight, nothing lent, and the saved clock to give
back (45 R265). -/
theorem lineWait_waitsOk {clock : Word} {g : Bool} {p : CalPlan} {fs : List Nat} {best : Option Word} {s t : State}
    {q : Phase} (h : lineWait clock g p fs best s = some (q, t)) (hs : Sound s) (hscratch : s.scratch = none)
    (hclock : clock ≠ 0) (hdepth : s.cfg.depth.isSome = true) :
    ∃ f ns, q = .scan clock g p f ns best ∧ WaitsOk q t := by
  cases fs with
  | nil => cases h
  | cons f fs =>
    unfold lineWait at h
    have hselect := (traffic_setClock (BitVec.ofNat 32 f) s).trans
      (bus_select .display (setClock (BitVec.ofNat 32 f) s)).toTraffic
    have hok := select_ok .display (setClock (BitVec.ofNat 32 f) s)
    rcases hsl : select .display (setClock (BitVec.ofNat 32 f) s) with ⟨st, s1⟩
    simp only [hsl] at h hselect hok
    cases st with
    | ok =>
      have hn1 : 0 < s1.par.nwords := hselect.par ▸ hs.params.1
      have htraffic := hselect.trans (bus_windowFrame p.window s1 hn1).toTraffic
      have hwsel : (windowFrame p.window s1).sel = some .display := by
        rw [windowFrame_eq _ _ hn1]
        exact (hok rfl).1
      simp only at h
      split at h
      · cases h
      · simp only [Option.some.injEq, Prod.mk.injEq] at h
        obtain ⟨rfl, rfl⟩ := h
        have hq := pushStream_queue (calLine p) none (windowFrame p.window s1)
        refine ⟨f, fs, rfl, { pushStream_queue_sound (calLine p) none (htraffic.sound hs) with
          clock := fun hsc => (by cases hsc), dma := ?_, wait := waitOk_scan.mpr ?_ }⟩
        · rw [hq]
          simp [dmaOk, hwsel]
        · rw [hq]
          exact ⟨htraffic.scratch.trans hscratch, by simp [ownOnly], hclock, by rw [htraffic.cfg]; exact hdepth⟩
    | deselectFail => cases h
    | selectFail => cases h
    | dmaTimeout => cases h
    | illegal => cases h

/-- The final wait of `PUSH_BUF` is for its own transfer, its buffer lent (43 R216). -/
theorem pushBufWait_waitsOk {addr count : Nat} {s t : State} {q : Phase}
    (h : pushBufWait addr count s = some (q, t)) (hs : Settled s) : q = .pushWait ∧ WaitsOk q t := by
  unfold pushBufWait at h
  split at h
  · rename_i mg hmg
    obtain ⟨hmode, -⟩ := (pushBufPre_iff _ _ _ mg).mp hmg
    have hsel := ((pushMode_iff _ mg.1 mg.2).mp hmode).1
    split at h
    · cases h
    · simp only [Option.some.injEq, Prod.mk.injEq] at h
      obtain ⟨rfl, rfl⟩ := h
      have hready := (pushStream_effect false (wireStream mg.1 mg.2 (readColors addr count s)) (addr, 3 * count) false s
        hsel).ready hs
      exact ⟨rfl, hready.toSound, fun _ => hready.clock, hready.dma, hready.lent⟩
  · cases h

/-- The wait of `PUSH_REP` for its first transfer (43 R218). -/
theorem pushRepWait_waitsOk {color : Color} {count : Nat} {s t : State} {q : Phase}
    (h : pushRepWait color count s = some (q, t)) (hs : Settled s) :
    ∃ buffer b ns, q = .fill buffer b ns ∧ WaitsOk q t := by
  unfold pushRepWait at h
  split at h
  · rename_i v hv
    obtain ⟨hmode, -⟩ := (pushRepPre_iff _ _ v.1 v.2.1 v.2.2).mp hv
    have hsel := ((pushMode_iff _ _ _).mp hmode).1
    simp only at h
    split at h
    · cases h
    · have hopen := (bus_openWrite s).toTraffic.sound hs.toSound
      have hkeeps : (openWrite s).clock = s.clock ∧ (openWrite s).sel = s.sel ∧ (openWrite s).dc = some .data := by
        rw [openWrite_eq]
        exact ⟨rfl, rfl, rfl⟩
      obtain ⟨hclock, hsel', hdc⟩ := hkeeps
      exact ⟨_, _, fillWait_waitsOk h { hopen with } (hclock.trans_ne hs.clock) rfl (hsel'.trans hsel) hdc⟩
  · cases h

/-- The wait of `FIND_MAX_RDCLK` for its first line (45 R262). -/
theorem findMaxWait_waitsOk {s t : State} {q : Phase} (h : findMaxWait s = some (q, t)) (hs : Settled s) :
    ∃ clock g p f ns, q = .scan clock g p f ns none ∧ WaitsOk q t := by
  unfold findMaxWait at h
  split at h
  · rename_i v hv
    obtain ⟨-, hclock, hdepth, -⟩ := findMaxPre_values hv
    have hdepth' : s.cfg.depth.isSome = true := by rw [hdepth]; rfl
    split at h
    · exact ⟨_, _, _, lineWait_waitsOk h { hs.toSound with mode := hdepth' } hs.scratch
        (fun h0 => hs.clock (h0 ▸ hclock)) hdepth'⟩
    · cases h
  · cases h

theorem bodyWait_stands {i : Instr} {s t : State} {q : Phase} (h : bodyWait i s = some (q, t)) (hs : Settled s) :
    standsAt i q = true ∧ WaitsOk q t := by
  cases i with
  | pushBuf addr count wait =>
    simp only [bodyWait] at h
    split at h
    · rename_i hwait
      obtain ⟨rfl, hok⟩ := pushBufWait_waitsOk h hs
      exact ⟨by simpa [standsAt, drains, and_comm] using hwait, hok⟩
    · cases h
  | pushRep color count wait =>
    simp only [bodyWait] at h
    split at h
    · rename_i hcount
      obtain ⟨_, _, _, rfl, hok⟩ := pushRepWait_waitsOk h hs
      exact ⟨by simpa [standsAt, drains] using hcount, hok⟩
    · cases h
  | findMaxRdclk =>
    obtain ⟨_, _, _, _, _, rfl, hok⟩ := findMaxWait_waitsOk h hs
    exact ⟨rfl, hok⟩
  | _ => cases h

/-- Whether an operation can stand in a fill or in a scan does not depend on how far it has come. -/
theorem standsAt_fill (i : Instr) (buffer : List Byte) (b : Nat) (ns ms : List Nat) :
    standsAt i (.fill buffer b ns) = standsAt i (.fill buffer b ms) := by cases i <;> rfl

theorem standsAt_scan (i : Instr) (clock : Word) (g : Bool) (plan : CalPlan) (f k : Nat) (fs ks : List Nat)
    (best best' : Option Word) :
    standsAt i (.scan clock g plan f fs best) = standsAt i (.scan clock g plan k ks best') := by cases i <;> rfl

/-- How an operation comes from a phase to the wait `q`, with the state `t` there: it stays at the wait whose transfer
is in flight, or with nothing in flight it goes on past its opening, to the next transfer of its fill, or to the next line
of its scan. -/
inductive ComesTo (i : Instr) (s : State) (q : Phase) (t : State) : Phase → Prop where
  | stays (hdrains : q = .drain → drains i = true) (ht : t = s) : ComesTo i s q t q
  | opens (hdrains : drains i = true) (hidle : s.dma = .idle) (hw : bodyWait i (awaitDma s).2 = some (q, t)) :
      ComesTo i s q t .drain
  | fills (buffer : List Byte) (b : Nat) (rest : List Nat) (hidle : s.dma = .idle)
      (hw : fillWait buffer b rest s = some (q, t)) : ComesTo i s q t (.fill buffer b rest)
  | scans (clock : Word) (g : Bool) (plan : CalPlan) (f : Nat) (fs : List Nat) (best : Option Word) (s1 s2 : State)
      (buf : Option (List Byte)) (hline : lineRest s = (.ok, s1)) (hread : readLine plan s1 = (.ok, buf, s2))
      (hmatch : mismatch plan (buf.getD []) = false)
      (hw : lineWait clock g plan fs (some (BitVec.ofNat 32 f)) s2 = some (q, t)) :
      ComesTo i s q t (.scan clock g plan f fs best)

theorem nextWait_cases {i : Instr} {p q : Phase} {s t : State} (h : nextWait i p s = some (q, t)) :
    ComesTo i s q t p := by
  have idle : ∀ hbusy : ¬ dmaBusy s = true, s.dma = .idle := fun hbusy =>
    (dmaBusy_eq_false s).mp (by simpa using hbusy)
  cases p with
  | drain =>
    simp only [nextWait] at h
    split at h
    · rename_i hdrains
      split at h
      · cases h
        exact .stays (fun _ => hdrains) rfl
      · exact .opens hdrains (idle ‹_›) h
    · cases h
  | pushWait =>
    simp only [nextWait] at h
    split at h
    · cases h
      exact .stays (by simp) rfl
    · cases h
  | fill buffer b rest =>
    simp only [nextWait] at h
    split at h
    · cases h
      exact .stays (by simp) rfl
    · exact .fills _ _ _ (idle ‹_›) h
  | scan clock g plan f fs best =>
    simp only [nextWait] at h
    split at h
    · cases h
      exact .stays (by simp) rfl
    · split at h
      · rename_i hline
        split at h
        · rename_i hread
          split at h
          · cases h
          · rename_i hmatch
            exact .scans _ _ _ _ _ _ _ _ _ hline hread (by simpa using hmatch) h
        · cases h
      · cases h

/-- An operation that comes to a wait may stand there (R24, R36). -/
theorem nextWait_stands {i : Instr} {p q : Phase} {s t : State} (h : nextWait i p s = some (q, t))
    (hp : p = .drain ∨ standsAt i p = true) (hs : WaitsOk p s) : standsAt i q = true ∧ WaitsOk q t := by
  cases nextWait_cases h with
  | stays hdrains ht =>
    subst ht
    refine ⟨hp.elim (fun hd => ?_) id, hs⟩
    subst hd
    simp [standsAt, hdrains rfl]
  | opens _ _ hw =>
    exact bodyWait_stands hw (awaitDma_settled hs.toSound (hs.clock rfl) (lentOnly_scratch hs.wait))
  | fills buffer b rest _ hw =>
    have hstands : standsAt i (.fill buffer b rest) = true := hp.resolve_left (by simp)
    obtain ⟨hscratch, -, hsel, hdc⟩ := waitOk_fill.mp hs.wait
    obtain ⟨ns, rfl, hok⟩ := fillWait_waitsOk hw hs.toSound (hs.clock rfl) hscratch hsel hdc
    exact ⟨(standsAt_fill i buffer b ns rest).trans hstands, hok⟩
  | scans clock g plan f fs best s1 s2 buf hline hread _ hw =>
    have hstands : standsAt i (.scan clock g plan f fs best) = true := hp.resolve_left (by simp)
    obtain ⟨hscratch, -, hclock, hdepth⟩ := waitOk_scan.mp hs.wait
    obtain ⟨hl, -, -, -, hsel, -⟩ := lineRest_spec s
    rw [hline] at hl hsel
    obtain ⟨hr, -⟩ := readLine_spec plan s1 (hl.par ▸ hs.params.1) (hsel rfl)
    rw [hread] at hr
    have htraffic := hl.trans hr
    obtain ⟨_, _, rfl, hok⟩ := lineWait_waitsOk hw (htraffic.sound hs.toSound) (htraffic.scratch.trans hscratch) hclock
      (by rw [htraffic.cfg]; exact hdepth)
    exact ⟨(standsAt_scan ..).trans hstands, hok⟩

/-! ## Going on -/

theorem Concludes.inv {before : Prop} {s t : State} (h : Concludes before s t) (hb : before) : Inv t := by
  obtain ⟨st, u, rfl, -, hready⟩ := h
  exact (hready hb).inv_finish st

/-- An operation that goes on, to its end or to its next wait, keeps the invariant. -/
theorem proceed_inv {i : Instr} {p : Phase} {s t : State} (h : proceed i p s = .next t)
    (hp : p = .drain ∨ standsAt i p = true) (hs : WaitsOk p s) : Inv t := by
  rcases proceed_cases i p s with ⟨-, he⟩ | ⟨q, u, hw, ⟨-, he⟩ | ⟨-, he⟩⟩ <;> rw [he] at h
  · exact (resume_concludes h hs.params.1).inv hs
  · cases h
    obtain ⟨hst, hok⟩ := nextWait_stands hw hp { hs with }
    exact (inv_iff_of_op rfl).mpr ⟨hst, { hok with }⟩
  · exact (resume_concludes h (by exact hs.params.1)).inv { hs with }

/-! ## The host -/

theorem runDescriptor_inv {d : List Word} {s t : State} (h : runDescriptor d s = .next t) (hs : Inv s) : Inv t := by
  unfold runDescriptor at h
  split at h
  · cases h
  · rename_i hop
    have hready := (inv_iff_of_ready (by simpa using hop)).mp hs
    split at h
    · exact proceed_inv h (.inl rfl) ((waitsOk_drain_iff _).mpr { hready with })
    · cases h
    · cases h
      exact hready.inv_finish .illegal

/-- A host access comes on a `Ready` block alone, so it need keep no more than what is asked of one. -/
theorem hostAccess_inv {addr len : Nat} {act : State → State} {s t : State} (h : hostAccess addr len act s = .next t)
    (hs : Inv s) (hop : (act s).op = s.op) (hact : ReadyOk s → ReadyOk (act s)) : Inv t := by
  obtain ⟨hready, rfl⟩ := hostAccess_ok h
  exact (inv_iff_of_ready (hop.trans hready)).mpr (hact ((inv_iff_of_ready hready).mp hs))

theorem gramOk_eq (s : State) : gramOk s = (s.panel.map Panel.gram).all fun m => decide (Rising m) := by
  unfold gramOk
  cases s.panel <;> rfl

/-- The canonical form of the pixel map is a matter of that map alone. -/
theorem gramOk_congr {s t : State} (h : t.panel.map Panel.gram = s.panel.map Panel.gram) : gramOk t = gramOk s := by
  rw [gramOk_eq, gramOk_eq, h]

theorem resetDma_keeps (s : State) : (resetDma s).par = s.par ∧ (resetDma s).mem = s.mem ∧
    PanelEvolves s.panel (resetDma s).panel := by
  unfold resetDma
  split
  · exact ⟨rfl, rfl, PanelEvolves.refl _⟩
  · simp only [dmaAbort, emit, shiftAll_eq, true_and]
    exact panelAfter_evolves _ _

theorem resetPanel_keeps (s : State) : (resetPanel s).par = s.par ∧ (resetPanel s).mem = s.mem ∧
    gramOk (resetPanel s) = gramOk s := by
  unfold resetPanel
  by_cases hsel : s.sel = some .display
  · rw [if_pos hsel]
    exact ⟨rfl, rfl, gramOk_congr (by simp [Function.comp_def])⟩
  · rw [if_neg hsel]
    exact ⟨rfl, rfl, rfl⟩

/-- A reset leaves a block with the invariant, whatever was in progress (R44; 70 R320 to R322). -/
theorem blockReset_inv {s : State} (hs : Inv s) : Inv (blockReset s) := by
  obtain ⟨hparams, -, -, -, -, -, hmem, hgram⟩ := hs
  obtain ⟨hpar1, hmem1, hpanel⟩ := resetDma_keeps s
  obtain ⟨hpar2, hmem2, hgram2⟩ := resetPanel_keeps (resetDma s)
  have hgram1 : gramOk (resetDma s) = true := (gramOk_iff _).mpr (hpanel.2 ((gramOk_iff s).mp hgram))
  have hgramOk : gramOk (blockReset s) = true := hgram2.trans hgram1
  refine (inv_iff_of_ready rfl).mpr ⟨⟨?_, ⟨by simp [blockReset, clearBlock], Nat.zero_le _, rfl⟩, rfl, by simp
    [blockReset, clearBlock], by simp [blockReset, clearBlock], by simp [blockReset, clearBlock], rfl, ?_, hgramOk⟩,
    by simp [blockReset, clearBlock], rfl, rfl⟩
  · show ParamsOk (resetPanel (resetDma s)).par
    rw [hpar2, hpar1]
    exact hparams
  · show Memory.wf (resetPanel (resetDma s)).mem = true
    rw [hmem2, hmem1]
    exact hmem

theorem hostAct_inv {a : HostAct} {s t : State} (h : hostAct a s = .next t) (hs : Inv s) : Inv t := by
  cases a with
  | issue d => exact runDescriptor_inv h hs
  | store addr bytes =>
    rw [hostAct, hostStore] at h
    exact hostAccess_inv h hs rfl fun hr => { hr with mem := memWrite_wf _ _ _ hr.mem }
  | free addr len =>
    rw [hostAct, hostFree] at h
    exact hostAccess_inv h hs rfl fun hr => { hr with }
  | claim addr len dmaCapable =>
    rw [hostAct, hostClaim] at h
    exact hostAccess_inv h hs rfl fun hr => { hr with }
  | panelFormat fmt =>
    simp only [hostAct, setPanelFormat] at h
    split at h
    · cases h
    · rename_i hfree
      have hop : s.op = none := by
        simp only [Bool.or_eq_true, not_or] at hfree
        simpa using hfree.1
      have hready := (inv_iff_of_ready hop).mp hs
      cases h
      refine (inv_iff_of_ready (by exact hop)).mpr { hready with gram := ?_ }
      rw [← hready.gram]
      exact gramOk_congr (by simp [Function.comp_def])
  | reset =>
    cases h
    exact blockReset_inv hs

/-! ## The DMA engine -/

/-- A turn of the engine takes nothing from a wait: it leaves the transfer as it is, or completes it. -/
theorem dmaTurn_cases (s : State) : (∃ e, dmaTurn s = { s with env := e }) ∨
    ∃ bs o e, s.dma = .inFlight bs o ∧ dmaTurn s = { s with
      dma := .idle
      env := e
      trace := s.trace ++ (dataRun bs ++ [.dmaDone])
      panel := panelAfter s (atData bs) } := by
  unfold dmaTurn
  split
  · exact .inl ⟨s.env, rfl⟩
  · rename_i bs o hd
    split
    · refine .inr ⟨bs, o, popTurn s.env, hd, ?_⟩
      simp only [dmaComplete, emit, shiftAll_eq, dataRun, atData, List.append_assoc]
      rfl
    · exact .inl ⟨popTurn s.env, rfl⟩

/-- The end of a transfer takes nothing from a wait. -/
theorem waitOk_idle {p : Phase} {s t : State} (h : waitOk p s = true) (hd : t.dma = .idle)
    (hkeep : t.scratch = s.scratch ∧ t.loan = s.loan ∧ t.sel = s.sel ∧ t.dc = s.dc ∧ t.cfg = s.cfg) :
    waitOk p t = true := by
  obtain ⟨hscratch, hloan, hsel, hdc, hcfg⟩ := hkeep
  have hown : ∀ o, ownOnly o s = true → ownOnly o t = true := by
    intro o ho
    simp only [ownOnly, Bool.and_eq_true, Option.isNone_iff_eq_none] at ho
    exact ownOnly_idle hd (hloan.trans ho.1)
  cases p with
  | drain => exact lentOnly_idle hd (hscratch.trans (lentOnly_scratch h))
  | pushWait => exact lentOnly_idle hd (hscratch.trans (lentOnly_scratch h))
  | fill buffer b rest =>
    obtain ⟨h1, h2, h3, h4⟩ := waitOk_fill.mp h
    exact waitOk_fill.mpr ⟨hscratch ▸ h1, hown _ h2, hsel.trans h3, hdc.trans h4⟩
  | scan clock g plan f fs best =>
    obtain ⟨h1, h2, h3, h4⟩ := waitOk_scan.mp h
    exact waitOk_scan.mpr ⟨hscratch.trans h1, hown _ h2, h3, hcfg ▸ h4⟩

theorem dmaTurn_waitsOk {p : Phase} {s : State} (h : WaitsOk p s) : WaitsOk p (dmaTurn s) := by
  rcases dmaTurn_cases s with ⟨e, he⟩ | ⟨bs, o, e, -, he⟩ <;> rw [he]
  · cases p <;> exact { h with }
  · have hgram : gramOk { s with panel := panelAfter s (atData bs) } = true :=
      (gramOk_iff _).mpr ((panelAfter_evolves s (atData bs)).2 ((gramOk_iff s).mp h.gram))
    exact { h with
      gram := hgram, dma := dmaOk_idle rfl, wait := waitOk_idle h.wait rfl ⟨rfl, rfl, rfl, rfl, rfl⟩ }

/-- The engine's turn keeps the invariant. -/
theorem dmaTurn_inv {s : State} (h : Inv s) : Inv (dmaTurn s) := by
  obtain ⟨hop, -⟩ := dmaTurn_keeps s
  cases ho : s.op with
  | none =>
    rw [inv_iff_of_ready (hop.trans ho), ← waitsOk_drain_iff]
    exact dmaTurn_waitsOk ((waitsOk_drain_iff s).mpr ((inv_iff_of_ready ho).mp h))
  | some ip =>
    obtain ⟨hst, hok⟩ := (inv_iff_of_op ho).mp h
    exact (inv_iff_of_op (hop.trans ho)).mpr ⟨hst, dmaTurn_waitsOk hok⟩

/-! ## The step -/

/-- The invariant does not read the lists of actions to come. -/
theorem inv_withLists {s : State} (h : Inv s) (e : Env) (l : List HostAct) : Inv { s with env := e, host := l } := h

theorem step_inv {s t : State} (h : step s = .next t) (hs : Inv s) : Inv t := by
  have hturn := dmaTurn_inv hs
  obtain ⟨hop, -⟩ := dmaTurn_keeps s
  unfold step at h
  split at h
  · unfold hostTurn at h
    split at h
    · cases h
      exact hturn
    · exact hostAct_inv h (inv_withLists hturn _ _)
  · rename_i i p ho
    obtain ⟨hst, hok⟩ := (inv_iff_of_op (hop.trans ho)).mp hturn
    unfold waitTurn at h
    split at h
    · exact proceed_inv h (.inr hst) hok
    · exact proceed_inv h (.inr hst) { hok with }
    · exact hostAct_inv h (inv_withLists hturn _ _)

/-- Settles O7: the DMA engine's turn keeps the invariant, and after it a host action, a wait reached or the end of an
operation does. -/
theorem stepKeepsInvariant : Obligations.StepKeepsInvariant := fun _ _ hs h => step_inv h hs

/-- Settles O6: the reset state is written out, so each clause is evaluated. -/
theorem resetSatisfiesInvariant : Obligations.ResetSatisfiesInvariant := by
  unfold Obligations.ResetSatisfiesInvariant
  decide

end Sys2Proof.Machine
end

section
/-! Sticky flags and the fill buffer (spec/10_state.md R37, R39; 43_pixel_push.md R221, R222; 60_exceptions.md R291,
R299): no operation, and no step but one with a reset, clears a flag, and `PUSH_REP` gives its buffer back on every
exit. -/

namespace Sys2Proof.Machine

/-! ## Flags -/

/-- A status other than `ST_OK` has set its own flag (60 R291). -/
theorem finish_flag (st : Status) (s : State) :
    ((finish st s).last = .deselectFail ∨ (finish st s).last = .selectFail → (finish st s).ef.sel = true) ∧
      ((finish st s).last = .dmaTimeout → (finish st s).ef.dmaTo = true) ∧
      ((finish st s).last = .illegal → (finish st s).ef.illegal = true) := by
  rw [finish_last, finish_ef]
  cases st <;> simp [flagsAfter]

theorem Concludes.flags {before : Prop} {s t : State} (h : Concludes before s t) : FlagsKept s.ef t.ef := by
  obtain ⟨st, u, rfl, hflags, -⟩ := h
  rw [finish_ef]
  exact hflags.trans (flagsAfter_kept st u.ef)

theorem Ends.resumes {i : Instr} {p : Phase} {s t : State} (h : Ends i p s t) : resume i p s = .next t := by
  rcases h with ⟨rfl, h⟩ | ⟨-, h⟩
  · exact h
  · exact h

theorem proceed_flags {i : Instr} {p : Phase} {s t : State} (h : proceed i p s = .next t) (hn : 0 < s.par.nwords) :
    FlagsKept s.ef t.ef := by
  rcases proceed_cases i p s with ⟨-, he⟩ | ⟨q, u, hw, ⟨-, he⟩ | ⟨-, he⟩⟩ <;> rw [he] at h
  · exact (resume_concludes h hn).flags
  · cases h
    obtain ⟨-, -, -, -, hflags⟩ := nextWait_grows (s := { s with env := popHold s.env }) hn hw
    exact FlagsGrow.kept hflags
  · exact ((resume_concludes h hn).flags :)

theorem hostAccess_flags {addr len : Nat} {act : State → State} {s t : State}
    (h : hostAccess addr len act s = .next t) (hact : (act s).ef = s.ef) : FlagsKept s.ef t.ef := by
  obtain ⟨-, rfl⟩ := hostAccess_ok h
  rw [hact]
  exact FlagsKept.refl _

/-- Of the host's actions only a reset clears a flag (R39). -/
theorem hostAct_flags {a : HostAct} {s t : State} (h : hostAct a s = .next t) (ha : a ≠ .reset)
    (hn : 0 < s.par.nwords) : FlagsKept s.ef t.ef := by
  cases a with
  | issue d =>
    simp only [hostAct, runDescriptor] at h
    split at h
    · cases h
    · split at h
      · exact (proceed_flags h hn :)
      · cases h
      · cases h
        exact flagsAfter_kept .illegal s.ef
  | store addr bytes =>
    rw [hostAct, hostStore] at h
    exact hostAccess_flags h rfl
  | free addr len =>
    rw [hostAct, hostFree] at h
    exact hostAccess_flags h rfl
  | claim addr len dmaCapable =>
    rw [hostAct, hostClaim] at h
    exact hostAccess_flags h rfl
  | panelFormat fmt =>
    simp only [hostAct, setPanelFormat] at h
    split at h
    · cases h
    · cases h
      exact FlagsKept.refl _
  | reset => exact absurd rfl ha

theorem step_flags {s t : State} (h : step s = .next t) (hr : ¬ HostDoes .reset s) (hn : 0 < s.par.nwords) :
    FlagsKept s.ef t.ef := by
  obtain ⟨-, hhost, hurgent, -, -, hpar, -, hef⟩ := dmaTurn_keeps s
  have hn' : 0 < (dmaTurn s).par.nwords := by rwa [hpar]
  rw [← hef]
  unfold step at h
  split at h <;> rename_i hop
  · unfold hostTurn at h
    split at h
    · cases h
      exact FlagsKept.refl _
    · rename_i a rest hnext
      exact (hostAct_flags h (fun ha => hr (.inl ⟨hop, by rw [← hhost, hnext, ha]; rfl⟩)) hn' :)
  · unfold waitTurn at h
    split at h
    · exact proceed_flags h hn'
    · exact (proceed_flags h hn' :)
    · rename_i a rest hnext
      exact (hostAct_flags h (fun ha => hr (.inr ⟨by simp [hop], by rw [← hurgent, hnext, ha]; rfl⟩)) hn' :)

/-- Settles O54: an operation ends by `finish`, which sets the flag of its status, from a state with every flag it
found. -/
theorem flagsAreSticky : Obligations.FlagsAreSticky := by
  intro s t hn
  refine ⟨fun i p hends => ?_, fun h => ?_⟩
  · obtain ⟨st, u, rfl, -⟩ := resume_concludes hends.resumes hn
    exact finish_flag st u
  · rcases h with ⟨i, p, hends⟩ | ⟨hstep, hreset⟩
    · exact (resume_concludes hends.resumes hn).flags
    · exact step_flags hstep hreset hn

/-! ## The fill buffer -/

/-- A fill ends with its buffer released, nothing in flight and nothing lent (43 R221, R222). -/
theorem fillLoop_releases (fill : List Byte) (b : Nat) (ns : List Nat) (s : State) :
    (fillLoop fill b ns s).2.scratch = none ∧ (fillLoop fill b ns s).2.dma = .idle ∧
      (fillLoop fill b ns s).2.loan = none ∧
      ((fillLoop fill b ns s).1 = .ok ∨ (fillLoop fill b ns s).1 = .dmaTimeout) := by
  obtain ⟨e, tr, p, n, ef, -, hst, ht⟩ := fillLoop_spec fill b ns s
  rw [ht]
  exact ⟨rfl, rfl, rfl, hst.imp And.left And.left⟩

/-- So does the body of `PUSH_REP`, on each of its paths, from a block that holds none of them. -/
theorem pushRepBody_releases (color : Color) (count : Nat) (v : Depth × Bool × Nat) {s : State}
    (hscratch : s.scratch = none) (hdma : s.dma = .idle) (hloan : s.loan = none) :
    (pushRepBody color count v s).2.scratch = none ∧ (pushRepBody color count v s).2.dma = .idle ∧
      (pushRepBody color count v s).2.loan = none ∧
      ((pushRepBody color count v s).1 = .ok ∨ (pushRepBody color count v s).1 = .dmaTimeout) := by
  have hopen := (bus_openWrite s).toTraffic
  unfold pushRepBody
  split
  · have hdirect := pushDirect_openWrite_traffic (repeatBytes (wireBytes v.1 v.2.1 color) count) s
    exact ⟨hdirect.scratch.trans hscratch, hdirect.dma hdma, hdirect.loan hloan, .inl rfl⟩
  · unfold pushFill
    simp only
    split
    · exact fillLoop_releases _ _ _ _
    · exact ⟨hopen.scratch.trans hscratch, hopen.dma hdma, hopen.loan hloan, .inl rfl⟩

theorem execPushRep_releases {color : Color} {count : Word} {wait : Bool} {s t : State} (hcount : count ≠ 0)
    (hscratch : s.scratch = none) (h : exec (.pushRep color count wait) s = .next t) :
    t.scratch = none ∧ t.dma = .idle ∧ t.loan = none ∧ (t.last = .ok ∨ t.last = .dmaTimeout) := by
  simp only [exec, execPushRep, if_neg hcount] at h
  rcases opening_next h with ⟨-, v, -, rfl⟩ | ⟨_, _, k, hd, -, rfl⟩
  · have hbody := pushRepBody_releases color count.toNat v ((drained_scratch s).trans hscratch) (drained_dma s)
      (drained_loan s)
    simpa using hbody
  · have hloan : (abandoned k s).loan = none := by simp [abandoned, hd]
    simp [hscratch, hloan]

/-- Settles O37: the phases of `PUSH_REP` are its opening drain and its fill. -/
theorem pushRepReleasesItsBuffer : Obligations.PushRepReleasesItsBuffer := by
  intro color count wait p s t hcount hs hends
  have hresume := hends.resumes
  cases p with
  | drain =>
    have hscratch : s.scratch = none := hs.resolve_right (by simp)
    exact execPushRep_releases (wait := wait) hcount hscratch hresume
  | fill buffer b rest =>
    cases hresume
    simpa using fillLoop_releases buffer b rest s
  | pushWait => simp [Ends, standsAt] at hends
  | scan clock g plan f fs best => simp [Ends, standsAt] at hends

end Sys2Proof.Machine
end

section
/-! Waiting (spec/10_state.md R24, R36; 20_memory.md R69; 40_bus_transport.md R146, R156): an operation that stood at a
wait is the rest of itself, and a step is that operation up to its end or to its next wait. -/

namespace Sys2Proof.Machine

/-! ## What is left at a wait -/

theorem resume_of_pushBufWait {addr count : Word} {s s1 t : State} {q : Phase} (hcount : count ≠ 0)
    (ha : awaitDma s = (.ok, s1)) (h : pushBufWait addr.toNat count.toNat s1 = some (q, t)) :
    resume (.pushBuf addr count true) q t = exec (.pushBuf addr count true) s := by
  unfold pushBufWait at h
  split at h
  · rename_i mg hmg
    split at h
    · cases h
    · rename_i hdma
      simp only [Option.some.injEq, Prod.mk.injEq] at h
      obtain ⟨rfl, rfl⟩ := h
      simp only [exec, execPushBuf, if_neg hcount, opening, ha, hmg, resume, hdma, pushStream_wait]
  · cases h

theorem resume_of_pushRepWait {color : Color} {count : Word} {wait : Bool} {s s1 t : State} {q : Phase}
    (hcount : count ≠ 0) (ha : awaitDma s = (.ok, s1)) (hidle : s1.dma = .idle)
    (h : pushRepWait color count.toNat s1 = some (q, t)) :
    resume (.pushRep color count wait) q t = exec (.pushRep color count wait) s := by
  unfold pushRepWait at h
  split at h
  · rename_i v hv
    simp only at h
    split at h
    · cases h
    · rename_i hpath
      simp only [Bool.or_eq_true, Bool.not_eq_true', not_or, Bool.not_eq_false] at hpath
      obtain ⟨hdma, halloc⟩ := hpath
      have henv : (openWrite s1).env = s1.env := by rw [openWrite_eq]
      have hopen : (openWrite s1).dma = .idle := (bus_openWrite s1).dma hidle
      obtain ⟨rest, rfl, hrest⟩ := fillLoop_of_fillWait (by exact hopen) h
      simp only [exec, execPushRep, if_neg hcount, opening, ha, hv, resume, pushRepBody, hdma, pushFill, henv, halloc,
        Bool.false_eq_true, if_false, if_true, ← hrest]
  · cases h

theorem resume_of_findMaxWait {s s1 t : State} {q : Phase} (ha : awaitDma s = (.ok, s1))
    (h : findMaxWait s1 = some (q, t)) : resume .findMaxRdclk q t = exec .findMaxRdclk s := by
  unfold findMaxWait at h
  split at h
  · rename_i v hv
    split at h
    · rename_i halloc
      obtain ⟨f, rest, rfl, hscan⟩ := scan_of_lineWait h
      simp only [exec, execFindMaxRdclk, opening, ha, hv, resume, findMaxBody, calScan, halloc, if_true, ← hscan]
    · cases h
  · cases h

/-- An operation that comes to a wait after its opening, taken up there, ends as if run in one go. -/
theorem resume_of_bodyWait {i : Instr} {s s1 t : State} {q : Phase} (ha : awaitDma s = (.ok, s1))
    (hidle : s1.dma = .idle) (h : bodyWait i s1 = some (q, t)) : resume i q t = exec i s := by
  cases i with
  | pushBuf addr count wait =>
    simp only [bodyWait] at h
    split at h
    · rename_i hwait
      simp only [Bool.and_eq_true, bne_iff_ne] at hwait
      obtain ⟨rfl, hcount⟩ := hwait
      exact resume_of_pushBufWait hcount ha h
    · cases h
  | pushRep color count wait =>
    simp only [bodyWait] at h
    split at h
    · rename_i hcount
      exact resume_of_pushRepWait (bne_iff_ne.mp hcount) ha hidle h
    · cases h
  | findMaxRdclk => exact resume_of_findMaxWait ha h
  | _ => cases h

/-- An operation that comes to a wait, taken up there, ends as if run in one go. -/
theorem resume_of_nextWait {i : Instr} {p q : Phase} {s t : State} (h : nextWait i p s = some (q, t)) :
    resume i q t = resume i p s := by
  cases nextWait_cases h with
  | stays _ ht => rw [ht]
  | opens _ hidle hw =>
    have ha : awaitDma s = (.ok, (awaitDma s).2) := by rw [awaitDma_idle s hidle]
    obtain ⟨-, hidle', -⟩ := awaitDma_traffic s
    exact resume_of_bodyWait ha hidle' hw
  | fills buffer b rest hidle hw =>
    obtain ⟨ns, rfl, hrest⟩ := fillLoop_of_fillWait hidle hw
    simp only [resume, hrest]
  | scans clock g plan f fs best s1 s2 buf hline hread hmatch hw =>
    obtain ⟨k, ns, rfl, hscan⟩ := scan_of_lineWait hw
    have hrest : scanRest plan f fs best (lineRest s) = scan plan fs (some (BitVec.ofNat 32 f)) s2 := by
      simp only [scanRest, hline, hread, hmatch, Bool.false_eq_true, if_false]
    simp only [resume, hrest, hscan]

/-- Only an operation that drains stands at an opening drain. -/
theorem drains_of_nextWait {i : Instr} {p q : Phase} {s t : State} (h : nextWait i p s = some (q, t))
    (hq : q = .drain) : drains i = true := by
  cases nextWait_cases h with
  | stays hdrains _ => exact hdrains hq
  | opens hdrains _ _ => exact hdrains
  | fills buffer b rest hidle hw =>
    obtain ⟨_, rfl, -⟩ := fillLoop_of_fillWait hidle hw
    cases hq
  | scans _ _ _ _ _ _ _ _ _ _ _ _ hw =>
    obtain ⟨_, _, rfl, -⟩ := scan_of_lineWait hw
    cases hq

/-- A turn that leaves the transfer in flight takes one answer and nothing else (40 R156). -/
theorem dmaTurn_waits {t : State} {bs : List Byte} {o : DmaOwner} {e : Env} (hd : t.dma = .inFlight bs o)
    (ht : nextTurn e = false) (hp : popTurn e = t.env) : dmaTurn { t with env := e } = t := by
  simp only [dmaTurn, hd, ht, hp, Bool.false_eq_true, if_false]
  rw [← hd]

/-- Settles O59: the rest of an operation begins with its wait, and a turn that completes the transfer does what the
wait would have done. -/
theorem waitingChangesNothing : Obligations.WaitingChangesNothing := by
  intro i p q s t e h
  have hrest := resume_of_nextWait h
  refine ⟨hrest, fun bs o hd => ⟨fun hend hturn hpop => ?_, fun hturn hpop => ?_⟩⟩
  · rw [resume_congr (drains_of_nextWait h) (awaitDma_dmaTurn hd hend hturn hpop)]
    exact hrest
  · rw [dmaTurn_waits hd hturn hpop]
    exact hrest

/-! ## One step of an operation -/

/-- Going on from a phase: to the end where no wait is met, and where one is met as the environment says. -/
theorem proceed_spec (i : Instr) (p : Phase) (s : State) :
    (nextWait i p { s with env := popHold s.env } = none → proceed i p s = resume i p s) ∧
      ∀ q t, nextWait i p { s with env := popHold s.env } = some (q, t) →
        (nextHold s.env = false → proceed i p s = resume i p { s with env := popHold s.env }) ∧
        (nextHold s.env = true → proceed i p s = .next { t with op := some (i, q) }) := by
  refine ⟨fun hw => ?_, fun q t hw => ⟨fun hh => ?_, fun hh => ?_⟩⟩
  · simp only [proceed, hw]
  · simp only [proceed, hw, hh, Bool.false_eq_true, if_false]
  · simp only [proceed, hw, hh, if_true]

/-- Settles O8: a descriptor that decodes goes on from the opening drain. -/
theorem stepRunsDecodedOperation : Obligations.StepRunsDecodedOperation := by
  intro s s1 d rest i hhost hop hdec hs1
  obtain ⟨hop', hhost', -⟩ := dmaTurn_keeps s
  have hstep : step s = proceed i .drain s1 := by
    simp only [step, hop, hostTurn, hhost', hhost, hostAct, runDescriptor, hop', hdec, hs1, Option.isSome_none,
      Bool.false_eq_true, if_false]
  rw [hstep]
  exact proceed_spec i .drain s1

/-- An operation that drains and whose transfer is in flight meets the wait it stands at (R36). -/
theorem nextWait_inFlight {i : Instr} {p : Phase} {s : State} {bs : List Byte} {o : DmaOwner}
    (hd : s.dma = .inFlight bs o) (hi : drains i = true) : nextWait i p s = some (p, s) := by
  have hbusy : dmaBusy s = true := by simp [dmaBusy, hd]
  cases p <;> simp only [nextWait, hbusy, hi, if_true]

/-- Settles O58: with nothing from the host, a step of a waiting operation is that operation going on. -/
theorem waitingOperationGoesOn : Obligations.WaitingOperationGoesOn := by
  intro s s1 i p hop hs1 hurgent
  obtain ⟨-, -, hurgent', -⟩ := dmaTurn_keeps s
  have hstep : step s = proceed i p s1 := by
    simp only [step, hop, waitTurn, hurgent', hurgent, hs1]
  rw [hstep]
  obtain ⟨hend, hwait⟩ := proceed_spec i p s1
  exact ⟨hend, hwait, fun bs o hd hi => nextWait_inFlight hd hi⟩

end Sys2Proof.Machine
end

section
/-! Registers and STATUS (spec/10_state.md R22, R32, R44; 40_bus_transport.md R152): where the bytes of a loaded stream
stand, what each bit of the STATUS word is, and what reset leaves. -/

namespace Sys2Proof.Machine

/-! ## Packing -/

/-- The bytes after a stream in its partly filled last register are zero (R152). -/
theorem byteOf_padding (bs : List Byte) (w : List Word) (k : Nat) (hk : bs.length ≤ k)
    (hlast : k < 4 * ((bs.length + 3) / 4)) : byteOf (packWords bs ++ w) k = 0 := by
  induction bs using packWords.induct generalizing k with
  | case1 => simp at hlast
  | case2 a =>
    simp only [List.length_cons, List.length_nil] at hk hlast
    rw [packWords, List.singleton_append, byteOf_packWord_cons a 0 0 0 w k (by omega)]
    have : k = 1 ∨ k = 2 ∨ k = 3 := by omega
    rcases this with rfl | rfl | rfl <;> rfl
  | case3 a b =>
    simp only [List.length_cons, List.length_nil] at hk hlast
    rw [packWords, List.singleton_append, byteOf_packWord_cons a b 0 0 w k (by omega)]
    have : k = 2 ∨ k = 3 := by omega
    rcases this with rfl | rfl <;> rfl
  | case4 a b c =>
    simp only [List.length_cons, List.length_nil] at hk hlast
    rw [packWords, List.singleton_append, byteOf_packWord_cons a b c 0 w k (by omega)]
    obtain rfl : k = 3 := by omega
    rfl
  | case5 a b c d rest ih =>
    simp only [List.length_cons] at hk hlast
    obtain ⟨j, rfl⟩ : ∃ j, k = j + 4 := ⟨k - 4, by omega⟩
    rw [packWords, List.cons_append, byteOf_cons_add]
    exact ih j (by omega) (by omega)

/-- Registers beyond a stream keep their values (R152). -/
theorem loadWords_beyond (w : List Word) (bs : List Byte) (j : Nat) (hj : (bs.length + 3) / 4 ≤ j) :
    (loadWords w bs)[j]? = w[j]? := by
  rw [← packWords_length] at hj
  rw [loadWords, List.getElem?_append_right hj, List.getElem?_drop, Nat.add_sub_cancel' hj]

/-- Settles O19: the stream read back, its padding, and what it does not reach. -/
theorem packingIsLittleEndianFirst : Obligations.PackingIsLittleEndianFirst := fun w bs hfits =>
  ⟨loadWords_length w bs hfits, fun k hk => byteOf_loaded bs _ k hk, fun k hk hlast => byteOf_padding bs _ k hk hlast,
    fun j hj => loadWords_beyond w bs j hj⟩

/-! ## STATUS -/

theorem flagBit_getLsbD (c : Bool) (pos i : Nat) (hi : i < 32) :
    (flagBit c pos).getLsbD i = (decide (i = pos) && c) := by
  simp only [flagBit, BitVec.getLsbD_shiftLeft, BitVec.getLsbD_setWidth, BitVec.getLsbD_ofBool, hi, decide_true,
    Bool.true_and]
  by_cases hlt : i < pos
  · simp [hlt, Nat.ne_of_lt hlt]
  · have hsub : i - pos < 32 := by omega
    have hzero : i - pos = 0 ↔ i = pos := by omega
    simp [hlt, hsub, hzero]

/-- The LAST field, from bit 8 on (R32). -/
theorem lastField_getLsbD (st : Status) (i : Nat) (hi : i < 32) :
    ((statusCode st).zeroExtend 32 <<< 8).getLsbD i = (decide (8 ≤ i) && (statusCode st).getLsbD (i - 8)) := by
  have hsub : i - 8 < 32 := by omega
  have hfrom : (!decide (i < 8)) = decide (8 ≤ i) := by rw [← decide_not]; simp only [Nat.not_lt]
  simp only [BitVec.getLsbD_shiftLeft, BitVec.zeroExtend, BitVec.getLsbD_setWidth, hi, hsub, hfrom, decide_true,
    Bool.true_and]

/-- STATUS bit by bit (R32). -/
theorem statusWord_getLsbD (s : State) (i : Nat) (hi : i < 32) :
    (statusWord s).getLsbD i =
      (decide (i = 0) && dmaBusy s || decide (i = 1) && (s.sel == some .display) ||
        decide (i = 2) && (s.sel == some .touch) || decide (i = 3) && dcBit (dcLine s) || decide (i = 4) && s.inhibit ||
        decide (8 ≤ i) && (statusCode s.last).getLsbD (i - 8) || decide (i = 16) && s.ef.sel ||
        decide (i = 17) && s.ef.dmaTo || decide (i = 18) && s.ef.alloc || decide (i = 19) && s.ef.illegal) := by
  simp only [statusWord, BitVec.getLsbD_or, flagBit_getLsbD _ _ _ hi, lastField_getLsbD _ _ hi]

/-- A field of STATUS that no flag and no bit of LAST reaches is reserved and reads zero. -/
theorem statusWord_reserved (s : State) (start len : Nat) (h : start + len ≤ 32)
    (hr : 5 ≤ start ∧ start + len ≤ 8 ∨ 11 ≤ start ∧ start + len ≤ 16 ∨ 20 ≤ start) :
    (statusWord s).extractLsb' start len = 0 := by
  refine BitVec.eq_of_getLsbD_eq fun k hk => ?_
  rw [BitVec.getLsbD_extractLsb', statusWord_getLsbD s _ (by omega)]
  have hcode : (decide (8 ≤ start + k) && (statusCode s.last).getLsbD (start + k - 8)) = false := by
    by_cases hfrom : 8 ≤ start + k
    · rw [BitVec.getLsbD_of_ge _ _ (by omega), Bool.and_false]
    · simp [hfrom]
  have hflags : start + k ≠ 0 ∧ start + k ≠ 1 ∧ start + k ≠ 2 ∧ start + k ≠ 3 ∧ start + k ≠ 4 ∧ start + k ≠ 16 ∧
      start + k ≠ 17 ∧ start + k ≠ 18 ∧ start + k ≠ 19 := by omega
  simp only [hflags, hcode, decide_false, Bool.false_and, Bool.or_false, Bool.and_false]
  exact BitVec.getLsbD_zero.symm

/-- The LAST field holds the code of the status (R32; 60 R291). -/
theorem statusWord_last (s : State) : (statusWord s).extractLsb' 8 3 = statusCode s.last := by
  refine BitVec.eq_of_getLsbD_eq fun k hk => ?_
  rw [BitVec.getLsbD_extractLsb', statusWord_getLsbD s _ (by omega)]
  have hflags : 8 + k ≠ 0 ∧ 8 + k ≠ 1 ∧ 8 + k ≠ 2 ∧ 8 + k ≠ 3 ∧ 8 + k ≠ 4 ∧ 8 + k ≠ 16 ∧ 8 + k ≠ 17 ∧ 8 + k ≠ 18 ∧
      8 + k ≠ 19 := by omega
  simp only [hflags, hk, Nat.le_add_right, Nat.add_sub_cancel_left, decide_true, decide_false, Bool.true_and,
    Bool.false_and, Bool.or_false, Bool.false_or]

theorem dcBit_dcLine (s : State) : dcBit (dcLine s) = true ↔ s.dc = some .data := by
  unfold dcLine
  rcases s.dc with _ | _ | _ <;> simp [dcBit]

theorem dmaBusy_iff (s : State) : dmaBusy s = true ↔ s.dma ≠ .idle := by
  rw [ne_eq, ← dmaBusy_eq_false, Bool.not_eq_false]

/-- Settles O52: each bit by `statusWord_getLsbD`, each field by the bits that reach it. -/
theorem statusWordLayout : Obligations.StatusWordLayout := by
  intro s
  refine ⟨?_, ?_, ?_, ?_, ?_, ?_, statusWord_last s, rfl, rfl, rfl, rfl, rfl, ?_, ?_, ?_, ?_, ?_, ?_, fun _ => rfl⟩
  · rw [statusWord_getLsbD s 0 (by omega)]
    simp [dmaBusy_iff]
  · rw [statusWord_getLsbD s 1 (by omega)]
    simp
  · rw [statusWord_getLsbD s 2 (by omega)]
    simp
  · rw [statusWord_getLsbD s 3 (by omega)]
    simp [dcBit_dcLine]
  · rw [statusWord_getLsbD s 4 (by omega)]
    simp
  · exact statusWord_reserved s 5 3 (by omega) (by omega)
  · exact statusWord_reserved s 11 5 (by omega) (by omega)
  · rw [statusWord_getLsbD s 16 (by omega)]
    simp
  · rw [statusWord_getLsbD s 17 (by omega)]
    simp
  · rw [statusWord_getLsbD s 18 (by omega)]
    simp
  · rw [statusWord_getLsbD s 19 (by omega)]
    simp
  · exact statusWord_reserved s 20 12 (by omega) (by omega)

/-! ## Reset -/

/-- Settles O5: the reset state is written out, so each field is compared. -/
theorem resetLeavesSpecValues : Obligations.ResetLeavesSpecValues := by
  unfold Obligations.ResetLeavesSpecValues
  decide

end Sys2Proof.Machine
end

section
/-! The host beside the block (spec/20_memory.md R61, R70, R74; 30_encoding.md R118; 70_reset_and_hazards.md R332,
R334): what a host access does to memory and to what the host owns, and what a step does where the host hands over no legal
descriptor. -/

namespace Sys2Proof.Machine

/-! ## Host accesses -/

/-- What the host owns after it has freed a range (70 R332). -/
theorem ownsByte_cut (addr len x : Nat) (s : State) :
    OwnsByte { s with regions := s.regions.flatMap (cutRegion addr len) } x ↔
      OwnsByte s x ∧ ¬ (addr ≤ x ∧ x < addr + len) := by
  constructor
  · rintro ⟨q, hq, hx⟩
    obtain ⟨r, hr, hqr⟩ := List.mem_flatMap.mp hq
    obtain ⟨hin, hout⟩ := (mem_cutRegion addr len x r).mp ⟨q, hqr, hx⟩
    exact ⟨⟨r, hr, hin⟩, hout⟩
  · rintro ⟨⟨r, hr, hin⟩, hout⟩
    obtain ⟨q, hqr, hx⟩ := (mem_cutRegion addr len x r).mpr ⟨hin, hout⟩
    exact ⟨q, List.mem_flatMap.mpr ⟨r, hr, hqr⟩, hx⟩

/-- What the host owns after it has claimed a range (70 R332). -/
theorem ownsByte_claim (addr len x : Nat) (dma : Bool) (s : State) :
    OwnsByte { s with regions := ⟨addr, len, dma⟩ :: s.regions } x ↔
      OwnsByte s x ∨ addr ≤ x ∧ x < addr + len := by
  simp only [OwnsByte, List.mem_cons, exists_eq_or_imp]
  exact or_comm

/-- Settles O11: the three accesses are one, which the operation in progress and the loan refuse, and else each has its
own effect on memory or on the regions. -/
theorem hostStoreRespectsLoan : Obligations.HostStoreRespectsLoan := by
  rintro addr _ bytes dma s hwf hfit rfl
  refine ⟨fun hop => ?_, fun a n hop hloan hshare => ?_, fun hop hfree => ?_⟩
  · exact ⟨hostAccess_blocked _ _ _ s hop, hostAccess_blocked _ _ _ s hop, hostAccess_blocked _ _ _ s hop⟩
  · have hrefused := fun act => hostAccess_refused addr bytes.length a n act s hop hfit hloan hshare
    exact ⟨hrefused _, hrefused _, hrefused _⟩
  · have hnext := fun act => hostAccess_next addr bytes.length act s hop hfit hfree
    exact ⟨⟨_, hnext _, fun k hk => readByte_memWrite_inside s.mem addr k bytes hwf hk,
        fun c hc => readByte_memWrite_outside s.mem addr c bytes hc⟩,
      ⟨_, hnext _, fun x => ownsByte_cut addr bytes.length x s⟩,
      ⟨_, hnext _, fun x => ownsByte_claim addr bytes.length x dma s⟩⟩

/-! ## Descriptors that are rejected -/

/-- An illegal descriptor is rejected by the decoder, or decodes to a register access that the operation rejects. -/
theorem decode_illegal {d : List Word} (h : IllegalDescriptor d) :
    (∃ e, decode d = .error e ∧ e ≠ .truncated) ∨
      (∃ reg value, decode d = .ok (.cfgWr reg value) ∧ cfgWriteTarget reg value = none) ∨
      ∃ reg, decode d = .ok (.cfgRd reg) ∧ cfgRegOf reg = none := by
  rcases h with ⟨w0, rest, rfl, hnone⟩ | ⟨w0, w1, w2, rest, rfl, hsel, hcolor⟩ | ⟨w0, value, rest, rfl, hsel, hwrite⟩ |
    ⟨w0, rest, rfl, hsel, hreg⟩
  · obtain ⟨e, he, hne⟩ := word0Opcode_err w0 hnone
    exact .inl ⟨e, by simp only [decode, he], hne⟩
  · have ho := (word0Opcode_ok w0 .pushRep).mpr hsel
    exact .inl ⟨.reservedColorBits, by simp only [decode, ho, decodeOperands, hcolor, if_false], by simp⟩
  · have ho := (word0Opcode_ok w0 .cfgWr).mpr hsel
    exact .inr (.inl ⟨fieldImm8 w0, value, by simp only [decode, ho, decodeOperands],
      (illegalWrite_iff _ _).mpr hwrite⟩)
  · have ho := (word0Opcode_ok w0 .cfgRd).mpr hsel
    exact .inr (.inr ⟨fieldImm8 w0, by simp only [decode, ho, decodeOperands], (cfgRegOf_none _).mpr hreg⟩)

/-- An operation that does not drain goes on to its end at once. -/
theorem proceed_of_not_drains {i : Instr} (s : State) (hi : drains i = false) : proceed i .drain s = exec i s := by
  simp only [proceed, nextWait, hi, Bool.false_eq_true, if_false, resume]

/-- A descriptor that decodes, handed to a `Ready` block, goes on from the opening drain. -/
theorem runDescriptor_of_ok {d : List Word} {i : Instr} {s : State} (hop : s.op = none) (hd : decode d = .ok i) :
    runDescriptor d s = proceed i .drain { s with op := some (i, .drain) } := by
  simp only [runDescriptor, hop, hd, Option.isSome_none, Bool.false_eq_true, if_false]

/-- A whole descriptor that the decoder rejects, handed to a `Ready` block. -/
theorem runDescriptor_of_error {d : List Word} {e : DecodeError} {s : State} (hop : s.op = none)
    (hd : decode d = .error e) (he : e ≠ .truncated) : runDescriptor d s = .next (fail .illegal s) := by
  cases e with
  | truncated => exact absurd rfl he
  | _ => simp only [runDescriptor, hop, hd, Option.isSome_none, Bool.false_eq_true, if_false]

/-- An illegal descriptor handed to a `Ready` block ends with `ST_ILLEGAL` and its flag, and does nothing else (30
R118). -/
theorem runDescriptor_illegal {d : List Word} {s : State} (hop : s.op = none) (h : IllegalDescriptor d) :
    runDescriptor d s = .next { s with last := .illegal, ef := { s.ef with illegal := true } } := by
  have hrejected : fail .illegal s = { s with last := .illegal, ef := { s.ef with illegal := true } } := by
    simp only [fail, flagsAfter, ← hop]
  rw [← hrejected]
  rcases decode_illegal h with ⟨e, hd, he⟩ | ⟨reg, value, hd, hreg⟩ | ⟨reg, hd, hreg⟩
  · exact runDescriptor_of_error hop hd he
  · have hdrains : drains (.cfgWr reg value) = false := by rw [drains, hreg, Option.isSome_none]
    rw [runDescriptor_of_ok hop hd, proceed_of_not_drains _ hdrains]
    simp only [exec, execCfgWr, hreg, fail]
  · rw [runDescriptor_of_ok hop hd, proceed_of_not_drains _ rfl]
    simp only [exec, execCfgRd, hreg, fail]

/-! ## A step of a Ready block -/

/-- A `Ready` block with nothing to come from the host waits (10 R44). -/
theorem step_of_host_nil {s : State} (hop : s.op = none) (hhost : s.host = []) : step s = .next (dmaTurn s) := by
  obtain ⟨-, hhost', -⟩ := dmaTurn_keeps s
  simp only [step, hop, hostTurn, hhost', hhost]

/-- A step of a `Ready` block is the host's next action, after the DMA engine's turn. -/
theorem step_of_host_cons {s : State} {a : HostAct} {rest : List HostAct} (hop : s.op = none)
    (hhost : s.host = a :: rest) : step s = hostAct a { dmaTurn s with host := rest } := by
  obtain ⟨-, hhost', -⟩ := dmaTurn_keeps s
  simp only [step, hop, hostTurn, hhost', hhost]

/-- The panel's format is reprogrammed on a `Ready` block with nothing in flight (70 R334). -/
theorem setPanelFormat_ready (fmt : PanelFmt) {s : State} (hop : s.op = none) (hidle : s.dma = .idle) :
    setPanelFormat fmt s = .next { s with panel := s.panel.map fun p => { p with fmt := fmt, arg := [] } } := by
  simp only [setPanelFormat, hop, (dmaBusy_eq_false s).mpr hidle, Option.isSome_none, Bool.or_self, Bool.false_eq_true,
    if_false]

/-- Settles O9: each action by what it does to the state after the DMA engine's turn. -/
theorem otherHostActions : Obligations.OtherHostActions := by
  rintro s _ rest hop rfl
  obtain ⟨hturn, -, -, -, -, -, -, hef⟩ := dmaTurn_keeps s
  have hready : (dmaTurn s).op = none := hturn.trans hop
  refine ⟨step_of_host_nil hop, fun _ _ hhost => step_of_host_cons hop hhost,
    fun _ _ hhost => step_of_host_cons hop hhost, fun _ _ _ hhost => step_of_host_cons hop hhost,
    fun fmt hhost hidle => (step_of_host_cons hop hhost).trans (setPanelFormat_ready fmt hready hidle),
    fun d hhost hillegal => (step_of_host_cons hop hhost).trans ?_⟩
  rw [← hef]
  exact runDescriptor_illegal hready hillegal

end Sys2Proof.Machine
end

section
/-! The reference panel end to end (spec/20_memory.md R82, R83, R92): the window frame and the memory-write command put
it at the first pixel of the window, and what is written there comes back. -/

namespace Sys2Proof.Machine

/-- The window frame and the memory-write command: the panel holds the window and stands at its first pixel (R82). -/
theorem panelHears_window_ramwr (par : Config.Params) (w : Window) (p : Panel) (h : CommandsDiffer par) :
    panelHears par (windowBytes par w ++ [(.command, par.cmdRamwr)]) p =
      { p with
        cols := some (w.cs, w.ce)
        rows := some (w.rs, w.re)
        cmd := some par.cmdRamwr
        arg := []
        cur := some (windowPos w 0) } := by
  rw [panelHears_append, panelHears_window par w p h, panelHears_ramwr par w _ rfl rfl]

/-- The first pixel of a window is at its first column and row (R82). -/
theorem windowPos_zero (w : Window) : windowPos w 0 = (w.cs.toNat, w.rs.toNat) := by simp [windowPos]

/-- Settles O43: the state after both is written out, its position that of the window's first pixel. -/
theorem panelTakesTheWindow : Obligations.PanelTakesTheWindow := by
  rintro par w p ⟨-, -, hcmds⟩
  refine ⟨_, panelHears_window_ramwr par w p hcmds, rfl, rfl, ?_, rfl, rfl, rfl, rfl⟩
  rw [windowPos_zero]

/-- Settles O44: the pixels stored at the window's positions are those the read goes through. -/
theorem panelReturnsWhatWasWritten : Obligations.PanelReturnsWhatWasWritten := by
  rintro par w m colors p hz draws ⟨-, -, hcmds⟩ hcols hrows hfits hfmt hclock hdraws
  have hfmt' := fun bytes => (panelHears_spec par bytes p).1.trans hfmt
  have hstored := panelHears_write par m w hcols hrows hcmds colors (panelHears par (windowBytes par w) p) (hfmt' _)
    hfits (by rw [panelHears_window par w p hcmds]) (by rw [panelHears_window par w p hcmds])
  rw [← panelHears_append] at hstored
  obtain ⟨hlimit, -⟩ := panelHears_keeps par (windowBytes par w ++ (.command, par.cmdRamwr) ::
    atData (wireStream m false colors)) p
  exact panelGives_read par m w hz hcols hrows hcmds colors _ draws hdraws (hlimit.symm ▸ hclock) (hfmt' _) hfits
    hstored

end Sys2Proof.Machine
end

section
/-! Transfers and host memory (spec/20_memory.md R65, R72; 40_bus_transport.md R146; 43_pixel_push.md R224;
44_pixel_read.md R246): an operation that drains leaves nothing in flight but the transfer of a `PUSH_BUF` that does not
wait, and none but `READ_PIXELS` writes host memory. -/

namespace Sys2Proof.Machine

/-- Work that leaves host memory alone, and from a block with nothing in flight leaves nothing in flight. -/
structure Quiet (s u : State) : Prop where
  dma : s.dma = .idle → u.dma = .idle
  mem : u.mem = s.mem

theorem Traffic.quiet {s u : State} (h : Traffic s u) : Quiet s u := ⟨h.dma, h.mem⟩

theorem Bus.quiet {s u : State} (h : Bus s u) : Quiet s u := h.toTraffic.quiet

theorem Quiet.refl (s : State) : Quiet s s := ⟨id, rfl⟩

theorem Quiet.trans {s t u : State} (h : Quiet s t) (k : Quiet t u) : Quiet s u :=
  ⟨k.dma ∘ h.dma, k.mem.trans h.mem⟩

/-! ## Bodies of operations -/

theorem fillLoop_quiet (fill : List Byte) (b : Nat) (ns : List Nat) (s : State) :
    Quiet s (fillLoop fill b ns s).2 := by
  obtain ⟨_, _, _, _, _, -, -, ht⟩ := fillLoop_spec fill b ns s
  rw [ht]
  exact ⟨fun _ => rfl, rfl⟩

/-- The body of `PUSH_REP`, on each of its paths: the direct one, the fill, and the abort for want of a buffer. -/
theorem pushRepBody_quiet (color : Color) (count : Nat) (v : Depth × Bool × Nat) (s : State) :
    Quiet s (pushRepBody color count v s).2 := by
  have hopen := (bus_openWrite s).quiet
  unfold pushRepBody
  split
  · exact (pushDirect_openWrite_traffic _ s).quiet
  · refine hopen.trans ?_
    unfold pushFill
    simp only
    split
    · obtain ⟨hdma, hmem⟩ := fillLoop_quiet (repeatBytes (wireBytes v.1 v.2.1 color) (fillPixels count v.2.2))
        (wireBytes v.1 v.2.1 color).length (fillSizes count (fillPixels count v.2.2))
        { openWrite s with
          env := popAlloc (openWrite s).env
          scratch := some (fillPixels count v.2.2 * (wireBytes v.1 v.2.1 color).length) }
      exact ⟨hdma, hmem⟩
    · exact ⟨id, rfl⟩

/-- The body of `PUSH_BUF` writes no memory, waiting or not. -/
theorem pushStream_mem (direct : Bool) (bs : List Byte) (loan : Option (Nat × Nat)) (wait : Bool) (s : State) :
    (pushStream direct bs loan wait s).2.mem = s.mem := by
  cases wait with
  | true => exact (pushStream_spec direct bs loan s).1.mem
  | false =>
    cases direct with
    | true => rw [pushStream_direct, (pushDirect_openWrite_traffic bs s).mem]
    | false => rw [pushStream_queue]

theorem readPixelBody_quiet (x y : Half) (clocks : Option (Word × Word)) {s : State} (hn : 0 < s.par.nwords) :
    Quiet s (readPixelBody x y clocks s).2 := by
  obtain ⟨hbus, -⟩ := readSequence_spec (pixelWindow x y s) (rawBytes 1) clocks s hn
  unfold readPixelBody
  split <;> rename_i he <;> rw [he] at hbus <;> exact ⟨hbus.dma, hbus.mem⟩

theorem findMaxBody_quiet {v : Word × Bool × CalPlan} {s : State} (hn : 0 < s.par.nwords) (hidle : s.dma = .idle)
    (hp : findMaxPre s = .ok v) : Quiet s (findMaxBody v s).2 := by
  obtain ⟨hsel, hgray⟩ := findMaxPre_entry hp
  obtain ⟨u, hu, -, -, -, best, -, he⟩ := findMaxBody_spec v.1 v.2.1 v.2.2 s hn hidle hsel hgray
  obtain ⟨hdma, hmem⟩ := (hu.trans (traffic_setClock v.1 u)).quiet
  rw [he]
  exact ⟨hdma, hmem⟩

theorem cfgWrite_quiet (r : CfgReg) (value : Word) (s : State) : Quiet s (cfgWrite r value s) := by
  cases r with
  | clock => exact (traffic_setClock value s).quiet
  | _ => exact ⟨id, rfl⟩

/-! ## The store of READ_PIXELS -/

/-- Memory outside a range of `n` bytes at `addr`, addresses taken modulo `top`, is the same. -/
def SameOutside (top addr n : Nat) (m m' : Memory) : Prop :=
  ∀ a : Nat, (∀ k < n, a ≠ (addr + k) % top) → readByte m' a = readByte m a

theorem scrambleBuffer_sameOutside (addr n : Nat) (s : State) :
    SameOutside (2 ^ s.par.addrBits) addr n s.mem (scrambleBuffer addr n s).mem := by
  obtain ⟨m, e, he, -, hout⟩ := scrambleBuffer_spec addr n s
  rw [he]
  exact hout

/-- A store to a range that does not wrap. -/
theorem memWrite_sameOutside {top addr : Nat} {bs : List Byte} (m : Memory) (hfit : addr + bs.length ≤ top) :
    SameOutside top addr bs.length m (memWrite m addr bs) := by
  intro a ha
  refine readByte_memWrite_outside m addr a bs ?_
  by_contra hin
  have hk : a - addr < bs.length := by omega
  exact ha (a - addr) hk (by rw [Nat.mod_eq_of_lt] <;> omega)

/-- What a read sequence received, where it received anything, is what was asked for. -/
theorem ReadEnd.length {n : Nat} {s t : State} {st : Status} {bytes : List Byte}
    (h : ReadEnd n s (st, some bytes, t)) : bytes.length = n := by
  cases h with
  | done _ _ hl => exact hl
  | stuck _ _ hl => exact hl

/-- The body of `READ_PIXELS` on a buffer that does not wrap (44 R240, R245, R246). -/
theorem readPixelsBody_spec (w : Window) (count addr : Nat) (clocks : Option (Word × Word)) {s : State}
    (hn : 0 < s.par.nwords) (hfit : addr + rawBytes count ≤ 2 ^ s.par.addrBits) :
    (s.dma = .idle → (readPixelsBody w count addr clocks s).2.dma = .idle) ∧
      SameOutside (2 ^ s.par.addrBits) addr (rawBytes count) s.mem (readPixelsBody w count addr clocks s).2.mem := by
  obtain ⟨hbus, hend, -⟩ := readSequence_spec w (rawBytes count) clocks s hn
  unfold readPixelsBody
  split <;> rename_i s1 he <;> rw [he] at hbus hend
  · refine ⟨hbus.dma, ?_⟩
    have hlen := hend.length
    have hout := memWrite_sameOutside s1.mem (hlen.symm ▸ hfit)
    rw [hlen] at hout
    exact fun a ha => (hout a ha).trans (congrArg (readByte · a) hbus.mem)
  · refine ⟨hbus.dma, ?_⟩
    have hout := scrambleBuffer_sameOutside addr (rawBytes count) s1
    rwa [hbus.par, hbus.mem] at hout

/-! ## Operations -/

/-- An operation that drains and whose body is quiet ends idle, host memory as it was. -/
theorem opening_quiet {α : Type} {late : State → State} {pre : State → Except Refusal α}
    {body : α → State → Status × State} {s t : State} (h : opening late pre body s = .next t)
    (hlate : ∀ u, Quiet u (late u))
    (hbody : ∀ v, pre (drained s) = .ok v → Quiet (drained s) (body v (drained s)).2) :
    t.dma = .idle ∧ t.mem = s.mem := by
  rcases opening_next h with ⟨-, v, hv, rfl⟩ | ⟨_, _, k, -, -, rfl⟩
  · obtain ⟨hdma, hmem⟩ := hbody v hv
    exact ⟨by rw [finish_dma, hdma (drained_dma s)], by rw [finish_mem, hmem, drained_mem]⟩
  · obtain ⟨hdma, hmem⟩ := hlate (abandoned k s)
    exact ⟨by rw [fail_dma, hdma (abandoned_dma k s)], by rw [fail_mem, hmem, abandoned_mem]⟩

theorem execPushBuf_mem {addr count : Word} {wait : Bool} {s t : State}
    (h : exec (.pushBuf addr count wait) s = .next t) : t.mem = s.mem := by
  simp only [exec, execPushBuf] at h
  split at h
  · cases h
    exact finish_mem .ok s
  · rcases opening_next h with ⟨-, v, -, rfl⟩ | ⟨_, _, k, -, -, rfl⟩
    · rw [finish_mem, pushStream_mem, drained_mem]
    · exact abandoned_mem k s

/-- `READ_PIXELS` ends idle, and writes nothing outside its buffer, also where its drain failed and the buffer was not
checked (44 R246). -/
theorem execReadPixels_spec {w : Window} {count addr : Word} {adapt : Bool} {s t : State}
    (h : exec (.readPixels w count addr adapt) s = .next t) (hn : 0 < s.par.nwords) :
    t.dma = .idle ∧ SameOutside (2 ^ s.par.addrBits) addr.toNat (rawBytes count.toNat) s.mem t.mem := by
  rcases opening_next h with ⟨-, clocks, hpre, rfl⟩ | ⟨_, _, k, -, -, rfl⟩
  · obtain ⟨hbuffer, -⟩ := (bind_unit_ok_iff _ _ _).mp hpre
    have howned := (requireBuffer_iff _ _ _).mp hbuffer
    obtain ⟨hfit, -⟩ := howned.resolve_left (Nat.succ_ne_zero _)
    obtain ⟨hdma, hmem⟩ := readPixelsBody_spec w count.toNat addr.toNat clocks
      (by rwa [drained_par] : 0 < (drained s).par.nwords) hfit
    rw [drained_par, drained_mem] at hmem
    exact ⟨by rw [finish_dma, hdma (drained_dma s)], by rwa [finish_mem]⟩
  · have hmem := scrambleBuffer_sameOutside addr.toNat (rawBytes count.toNat) (abandoned k s)
    rw [abandoned_par, abandoned_mem] at hmem
    exact ⟨abandoned_dma k s, hmem⟩

theorem writes_memory_iff (i : Instr) :
    writes i .memory = true ↔ ∃ w count addr adapt, i = .readPixels w count addr adapt := by
  cases i <;> simp [writes]

/-- Every other operation that drains ends idle, host memory as it was. -/
theorem exec_quiet {i : Instr} {s t : State} (h : exec i s = .next t) (hn : 0 < s.par.nwords)
    (hdrains : drains i = true) (hwait : ∀ addr count, i ≠ .pushBuf addr count false)
    (hmem : writes i .memory = false) : t.dma = .idle ∧ t.mem = s.mem := by
  have hn' : 0 < (drained s).par.nwords := by rwa [drained_par]
  cases i with
  | select d => exact opening_quiet h Quiet.refl fun _ _ => (bus_select d _).quiet
  | deselect d => exact opening_quiet h Quiet.refl fun _ _ => (bus_deselect d _).quiet
  | sendCmd cmd => exact opening_quiet h Quiet.refl fun _ _ => (bus_sendCommand cmd _).quiet
  | sendCmdData cmd addr length => exact opening_quiet h Quiet.refl fun _ _ => (sendCmdDataBody_bus _ _ _ _).quiet
  | setWindow w => exact opening_quiet h Quiet.refl fun _ _ => (bus_windowFrame w _ hn').quiet
  | pushRep color count wait =>
    simp only [exec, execPushRep, if_neg (bne_iff_ne.mp hdrains)] at h
    exact opening_quiet h Quiet.refl fun _ _ => pushRepBody_quiet _ _ _ _
  | pushBuf addr count wait =>
    cases wait with
    | false => exact absurd rfl (hwait addr count)
    | true =>
      simp only [exec, execPushBuf, if_neg (bne_iff_ne.mp hdrains)] at h
      exact opening_quiet h Quiet.refl fun _ _ => (pushStream_spec _ _ _ _).1.quiet
  | readPixels w count addr adapt => cases hmem
  | readPixel x y => exact opening_quiet h (fun _ => ⟨id, rfl⟩) fun _ _ => readPixelBody_quiet _ _ _ hn'
  | findMaxRdclk => exact opening_quiet h Quiet.refl fun _ hv => findMaxBody_quiet hn' (drained_dma s) hv
  | wait =>
    rw [exec, execWait] at h
    exact opening_quiet h Quiet.refl fun _ _ => Quiet.refl _
  | cfgWr reg value =>
    obtain ⟨r, hr⟩ := Option.isSome_iff_exists.mp hdrains
    simp only [exec, execCfgWr, hr] at h
    exact opening_quiet h Quiet.refl fun _ _ => cfgWrite_quiet _ _ _
  | cfgRd reg => cases hdrains

/-- An operation that does not drain leaves transfer, trace and memory as they are (40 R145; 46 R282). -/
theorem exec_of_not_drains {i : Instr} {s t : State} (h : exec i s = .next t) (hdrains : drains i = false) :
    t.dma = s.dma ∧ t.trace = s.trace ∧ t.mem = s.mem := by
  cases i with
  | pushRep color count wait =>
    simp only [drains, bne_eq_false_iff_eq] at hdrains
    simp only [exec, execPushRep, if_pos hdrains] at h
    cases h
    exact ⟨rfl, rfl, rfl⟩
  | pushBuf addr count wait =>
    simp only [drains, bne_eq_false_iff_eq] at hdrains
    simp only [exec, execPushBuf, if_pos hdrains] at h
    cases h
    exact ⟨rfl, rfl, rfl⟩
  | cfgWr reg value =>
    simp only [drains, Option.isSome_eq_false_iff, Option.isNone_iff_eq_none] at hdrains
    simp only [exec, execCfgWr, hdrains] at h
    cases h
    exact ⟨rfl, rfl, rfl⟩
  | cfgRd reg =>
    simp only [exec, execCfgRd] at h
    split at h
    · cases h
      exact ⟨rfl, rfl, rfl⟩
    · split at h
      · cases h
        exact ⟨rfl, rfl, rfl⟩
      · cases h
  | _ => cases hdrains

/-- An operation taken up at a wait after its opening ends idle, host memory as it was. -/
theorem resume_quiet {i : Instr} {p : Phase} {s t : State} (h : resume i p s = .next t) (hp : p ≠ .drain)
    (hn : 0 < s.par.nwords) : t.dma = .idle ∧ t.mem = s.mem := by
  cases p with
  | drain => exact absurd rfl hp
  | pushWait =>
    cases h
    obtain ⟨htraffic, hidle, -⟩ := awaitDma_traffic s
    exact ⟨by rw [finish_dma, hidle], by rw [finish_mem, htraffic.mem]⟩
  | fill buffer b rest =>
    cases h
    obtain ⟨-, hidle, -⟩ := fillLoop_releases buffer b rest s
    exact ⟨by rw [finish_dma, hidle], by rw [finish_mem, (fillLoop_quiet buffer b rest s).mem]⟩
  | scan clock g plan f fs best =>
    cases h
    obtain ⟨hscan, hidle, -⟩ := scanRest_spec plan f fs best s hn
    obtain ⟨u, hu, -, huidle, -, he⟩ := calRestore_spec clock g (scanRest plan f fs best (lineRest s)).2.2
    simp only [finish_dma, finish_mem, calResult, he]
    exact ⟨huidle hidle, (hscan.trans hu).mem⟩

/-- Only an operation that drains has a wait to stand at (10 R36). -/
theorem drains_of_standsAt {i : Instr} {p : Phase} (h : standsAt i p = true) : drains i = true := by
  simp only [standsAt, Bool.and_eq_true] at h
  exact h.1

/-- An operation that drains, but for a `PUSH_BUF` that does not wait, ends idle (40 R146). -/
theorem exec_idle {i : Instr} {s t : State} (h : exec i s = .next t) (hn : 0 < s.par.nwords)
    (hdrains : drains i = true) (hwait : ∀ addr count, i ≠ .pushBuf addr count false) : t.dma = .idle := by
  cases hmem : writes i .memory with
  | true =>
    obtain ⟨w, count, addr, adapt, rfl⟩ := (writes_memory_iff i).mp hmem
    exact (execReadPixels_spec h hn).1
  | false => exact (exec_quiet h hn hdrains hwait hmem).1

/-- An operation other than `READ_PIXELS` leaves host memory as it was (43 R224). -/
theorem exec_mem {i : Instr} {s t : State} (h : exec i s = .next t) (hn : 0 < s.par.nwords)
    (hmem : writes i .memory = false) : t.mem = s.mem := by
  cases hdrains : drains i with
  | false =>
    obtain ⟨-, -, hkeep⟩ := exec_of_not_drains h hdrains
    exact hkeep
  | true =>
    by_cases hwait : ∃ addr count, i = .pushBuf addr count false
    · obtain ⟨addr, count, rfl⟩ := hwait
      exact execPushBuf_mem h
    · exact (exec_quiet h hn hdrains (fun addr count he => hwait ⟨addr, count, he⟩) hmem).2

/-- Settles O18: an operation that drains ends idle from its start and from every later wait, and one that does not has
no wait to be taken up at. -/
theorem drainingOperationsEndIdle : Obligations.DrainingOperationsEndIdle := by
  intro i p s t hn hends
  have hresume := hends.resumes
  refine ⟨fun hdrains => ?_, fun hdrains => ?_⟩
  · by_cases hp : p = .drain
    · subst hp
      by_cases hwait : ∃ addr count, i = .pushBuf addr count false
      · exact .inr hwait
      · exact .inl (exec_idle hresume hn hdrains fun addr count he => hwait ⟨addr, count, he⟩)
    · exact .inl (resume_quiet hresume hp hn).1
  · rcases hends with ⟨-, hexec⟩ | ⟨hstands, -⟩
    · obtain ⟨hdma, htrace, -⟩ := exec_of_not_drains hexec hdrains
      exact ⟨hdma, htrace⟩
    · rw [drains_of_standsAt hstands] at hdrains
      cases hdrains

/-- Settles O56: nothing up to a wait, and nothing from a later wait on, writes memory; run from its start only
`READ_PIXELS` does. -/
theorem onlyReadsWriteHostMemory : Obligations.OnlyReadsWriteHostMemory := by
  intro i p q s t hn
  refine ⟨fun hwait => ?_, fun hends => ?_⟩
  · obtain ⟨-, -, hmem, -⟩ := nextWait_grows hn hwait
    exact hmem
  · have hresume := hends.resumes
    by_cases hp : p = .drain
    · subst hp
      refine ⟨exec_mem hresume hn, ?_⟩
      rintro w count addr adapt rfl
      exact (execReadPixels_spec hresume hn).2
    · obtain ⟨-, hmem⟩ := resume_quiet hresume hp hn
      exact ⟨fun _ => hmem, fun _ _ _ _ _ a _ => by rw [hmem]⟩

end Sys2Proof.Machine
end

section
/-! Descriptors and operations (spec/30_encoding.md R101 to R119): the decoder reads an operation back from its
descriptor, a descriptor that decodes is the encoding of its operation, and an illegal one is rejected. -/

namespace Sys2Proof.Machine

/-! ## Reading an encoding back -/

/-- Word 0 alone decides by which row of the table the words after it are read (R102, R128). -/
theorem decode_cons {w0 : Word} {o : Opcode} (ops : List Word) (h : word0Opcode w0 = .ok o) :
    decode (w0 :: ops) = decodeOperands o w0 ops := by
  simp only [decode, h]

theorem devOfBit_bitOfDev (dev : Dev) : devOfBit (bitOfDev dev) = dev := by cases dev <;> rfl

theorem fieldWindow_halvesWord (w : Window) :
    fieldWindow (halvesWord w.cs w.ce) (halvesWord w.rs w.re) = w := by
  simp only [fieldWindow, fieldLow_halvesWord, fieldHigh_halvesWord]

/-- Settles O2: word 0 selects the operation's row, by the shape of its short operand, and each operand is read back
from its own field. -/
theorem decodeInvertsEncode : Obligations.DecodeInvertsEncode := by
  intro i extra
  cases i with
  | select dev | deselect dev =>
    rw [encode, List.cons_append, decode_cons _ (word0Opcode_word0F _ _ (by simp)), decodeOperands, fieldF_word0F,
      devOfBit_bitOfDev]
  | sendCmd imm | cfgRd imm =>
    rw [encode, List.cons_append, decode_cons _ (word0Opcode_word0Imm8 _ _ rfl), decodeOperands, fieldImm8_word0Imm8]
  | sendCmdData cmd addr length =>
    rw [encode, List.cons_append, decode_cons _ (word0Opcode_word0Imm8 _ _ rfl), List.cons_append, List.cons_append,
      decodeOperands, fieldImm8_word0Imm8]
  | setWindow w =>
    rw [encode, List.cons_append, decode_cons _ (word0Opcode_word0Plain _), windowWords, List.cons_append,
      List.cons_append, decodeOperands, fieldWindow_halvesWord]
  | pushRep color count wait =>
    rw [encode, List.cons_append, decode_cons _ (word0Opcode_word0F _ _ (by simp)), List.cons_append, List.cons_append,
      decodeOperands, if_pos (reserved_colorWord color), fieldColor_colorWord, fieldF_word0F]
  | pushBuf addr count wait =>
    rw [encode, List.cons_append, decode_cons _ (word0Opcode_word0F _ _ (by simp)), List.cons_append, List.cons_append,
      decodeOperands, fieldF_word0F]
  | readPixels w count addr adapt =>
    rw [encode, List.cons_append, decode_cons _ (word0Opcode_word0F _ _ (by simp))]
    simp only [windowWords, List.cons_append, decodeOperands, List.nil_append, fieldWindow_halvesWord, fieldF_word0F]
  | readPixel x y =>
    rw [encode, List.cons_append, decode_cons _ (word0Opcode_word0Plain _), List.cons_append, decodeOperands,
      fieldLow_halvesWord, fieldHigh_halvesWord]
  | findMaxRdclk | wait => exact decode_cons _ (word0Opcode_word0Plain _)
  | cfgWr reg value =>
    rw [encode, List.cons_append, decode_cons _ (word0Opcode_word0Imm8 _ _ rfl), List.cons_append, decodeOperands,
      fieldImm8_word0Imm8]

/-! ## Rebuilding a descriptor from its operation -/

/-- A descriptor that decodes is one whose word 0 selects a row by which its operands decode. -/
theorem decode_ok {d : List Word} {i : Instr} (h : decode d = .ok i) :
    ∃ w0 ops o, d = w0 :: ops ∧ Selects o w0 ∧ decodeOperands o w0 ops = .ok i := by
  cases d with
  | nil => cases h
  | cons w0 ops =>
    cases ho : word0Opcode w0 with
    | error e => simp only [decode, ho] at h; cases h
    | ok o => exact ⟨w0, ops, o, rfl, (word0Opcode_ok w0 o).mp ho, decode_cons ops ho ▸ h⟩

theorem windowWords_fieldWindow (w1 w2 : Word) : windowWords (fieldWindow w1 w2) = [w1, w2] := by
  simp only [windowWords, fieldWindow, halvesWord_fields]

/-- Word 0 and the operand words that a row reads are the encoding of the operation it reads from them: the mask fixes
every bit of word 0 outside the short operand, and an operand word has no other bits than its operands' (R102, R119). -/
theorem encode_of_decodeOperands {o : Opcode} {w0 : Word} {ops : List Word} {i : Instr} (hsel : Selects o w0)
    (h : decodeOperands o w0 ops = .ok i) : ∃ extra, w0 :: ops = encode i ++ extra := by
  unfold decodeOperands at h
  split at h
  case h_1 | h_2 =>
    cases h
    exact ⟨ops, by rw [encode, bitOfDev_devOfBit, ← word0F_of_selects rfl hsel, List.singleton_append]⟩
  case h_3 | h_13 =>
    cases h
    exact ⟨ops, by rw [encode, ← word0Imm8_of_selects rfl hsel, List.singleton_append]⟩
  case h_4 addr length rest | h_12 value rest =>
    cases h
    exact ⟨rest, by rw [encode, ← word0Imm8_of_selects rfl hsel]; rfl⟩
  case h_5 w1 w2 rest =>
    cases h
    exact ⟨rest, by rw [encode, ← plain_of_selects rfl hsel, windowWords_fieldWindow]; rfl⟩
  case h_6 w1 count rest =>
    split at h
    · next hcolor =>
      cases h
      exact ⟨rest, by rw [encode, ← word0F_of_selects rfl hsel, colorWord_field w1 hcolor]; rfl⟩
    · cases h
  case h_7 addr count rest =>
    cases h
    exact ⟨rest, by rw [encode, ← word0F_of_selects rfl hsel]; rfl⟩
  case h_8 w1 w2 count addr rest =>
    cases h
    exact ⟨rest, by rw [encode, ← word0F_of_selects rfl hsel, windowWords_fieldWindow]; rfl⟩
  case h_9 w1 rest =>
    cases h
    exact ⟨rest, by rw [encode, ← plain_of_selects rfl hsel, halvesWord_fields]; rfl⟩
  case h_10 | h_11 =>
    cases h
    exact ⟨ops, by rw [encode, ← plain_of_selects rfl hsel, List.singleton_append]⟩
  case h_14 => cases h

/-- Settles O3: word 0 and the operands are rebuilt from the operation, and the words beyond are the extra ones. -/
theorem operationHasOneDescriptor : Obligations.OperationHasOneDescriptor := by
  intro d i h
  obtain ⟨w0, ops, o, rfl, hsel, hops⟩ := decode_ok h
  exact encode_of_decodeOperands hsel hops

/-! ## Illegal descriptors, and descriptors written out -/

/-- Settles O4: the rejection is the decoder's or, for a register access, the operation's own. -/
theorem illegalDescriptorRejected : Obligations.IllegalDescriptorRejected :=
  fun _ _ hillegal hop => runDescriptor_illegal hop hillegal

/-- Settles O1: each of the eight words is decoded by evaluation. -/
theorem writtenDescriptorsDecode : Obligations.WrittenDescriptorsDecode := by
  unfold Obligations.WrittenDescriptorsDecode
  decide

end Sys2Proof.Machine
end

section
/-! How a payload is cut into bursts (spec/30_encoding.md R121; 40_bus_transport.md R152): no burst is empty, and all
but the last are full. -/

namespace Sys2Proof.Machine

theorem chunksOf_ne_nil {α : Type} {n : Nat} (hn : 0 < n) (fuel : Nat) (l : List α) :
    ∀ c ∈ chunksOf n fuel l, c ≠ [] := by
  fun_induction chunksOf n fuel l with
  | case1 | case2 => simp
  | case3 fuel l hl ih =>
    intro c hc
    rcases List.mem_cons.mp hc with rfl | hc
    · simpa using ⟨hn.ne', hl⟩
    · exact ih c hc

theorem mem_cons_dropLast {α : Type} {x c : α} {xs : List α} (h : c ∈ (x :: xs).dropLast) : c ∈ x :: xs.dropLast := by
  cases xs with
  | nil => cases h
  | cons y ys => exact h

/-- A run that another one follows is full: what does not fit it remains for the next. -/
theorem chunksOf_dropLast_length {α : Type} (n fuel : Nat) (l : List α) :
    ∀ c ∈ (chunksOf n fuel l).dropLast, c.length = n := by
  fun_induction chunksOf n fuel l with
  | case1 | case2 => simp
  | case3 fuel l hl ih =>
    intro c hc
    by_cases hfits : l.length ≤ n
    · have hlast : chunksOf n fuel (l.drop n) = [] := by
        rw [List.drop_of_length_le hfits]; cases fuel <;> rfl
      simp [hlast] at hc
    · rcases List.mem_cons.mp (mem_cons_dropLast hc) with rfl | hc
      · rw [List.length_take]; omega
      · exact ih c hc

/-- Settles O20: the runs join to the payload, and their number and sizes in bits follow from those in bytes. -/
theorem burstsCutThePayload : Obligations.BurstsCutThePayload := by
  intro p bs hp
  have hcap : directMaxBits p = 8 * burstMaxBytes p := by simp only [directMaxBits, burstMaxBytes]; omega
  have hpos : 0 < burstMaxBytes p := by simp only [burstMaxBytes]; omega
  refine ⟨burstChunks_flatten p hp bs, ?_, fun c hc => ⟨chunksOf_ne_nil hpos _ _ c hc, ?_⟩, fun c hc => ?_⟩
  · rw [burstChunks_count p hp, hcap]
    have hbytes : (8 * bs.length + 8 * burstMaxBytes p - 1) / 8 = bs.length + burstMaxBytes p - 1 := by omega
    rw [← Nat.div_div_eq_div_mul, hbytes]
  · have hle := chunksOf_length_le _ _ _ _ hc
    omega
  · rw [hcap, chunksOf_dropLast_length _ _ _ c hc]

end Sys2Proof.Machine
end

section
/-! Bus transport (spec/40_bus_transport.md R141 to R166): the DMA engine's turn, the selection, the drain that an
operation opens with and how it fails, and the frames of `SEND_CMD` and `SEND_CMD_DATA`. Where the drain ends well each
operation is its body run on the drained state. -/

namespace Sys2Proof.Machine

/-! ## The DMA engine's turn -/

/-- A transfer that completes: its bytes and `DMA_DONE` enter the trace, and the panel hears them (R156). -/
theorem dmaComplete_eq (bs : List Byte) (s : State) :
    dmaComplete bs s =
      { s with
        dma := .idle
        trace := s.trace ++ (dataRun bs ++ [.dmaDone])
        panel := panelAfter s (atData bs) } := by
  simp only [dmaComplete, shiftAll_eq, emit, List.append_assoc]
  rfl

/-- Settles O10: with a transfer in flight the turn is the draw, and `DmaComplete` where it says so. -/
theorem dmaTurnCompletesOrWaits : Obligations.DmaTurnCompletesOrWaits := by
  intro s
  refine ⟨fun hidle => by simp only [dmaTurn, hidle], fun bs o hd => ⟨fun hturn => ?_, fun hturn => ?_⟩⟩
  · simp only [dmaTurn, hd, hturn, if_true, dmaComplete_eq]
    rfl
  · simp only [dmaTurn, hd, hturn, Bool.false_eq_true, if_false]

/-! ## Selection -/

theorem select_same {d : Dev} {s : State} (hsel : s.sel = some d) : select d s = (.ok, s) := by
  simp only [select, hsel, if_true]

theorem select_unacked {d : Dev} {s : State} (hsel : s.sel ≠ some d) (hack : nextAck s.env = false) :
    select d s = (.selectFail, { s with env := popAck s.env, ef := { s.ef with sel := true } }) := by
  simp only [select, if_neg hsel, hack, Bool.false_eq_true, if_false]

theorem deselect_none (d : Dev) {s : State} (hsel : s.sel = none) : deselect d s = (.ok, s) := by
  simp only [deselect, hsel, if_true]

theorem deselect_done (d : Dev) {s : State} (hsel : s.sel ≠ none) (hack : nextAck s.env = true) :
    deselect d s =
      (.ok,
        { s with
          env := popAck s.env
          sel := none
          trace := s.trace ++ [.desel d]
          panel := if d = .display then s.panel.map panelDeselect else s.panel }) := by
  simp only [deselect, if_neg hsel, hack, if_true, emit]

theorem deselect_unacked (d : Dev) {s : State} (hsel : s.sel ≠ none) (hack : nextAck s.env = false) :
    deselect d s = (.deselectFail, { s with env := popAck s.env, ef := { s.ef with sel := true } }) := by
  simp only [deselect, if_neg hsel, hack, Bool.false_eq_true, if_false]

/-- The other endpoint is selected: neither `SELECT` nor `DESELECT` has a meaning (R141, R143). -/
theorem endpointPre_other {d e : Dev} {s : State} (hsel : s.sel = some e) (hne : e ≠ d) :
    endpointPre d (drained s) = .error .wrongSelection := by
  simp [endpointPre, require, hsel, hne]

/-- `SELECT` where the other endpoint is not selected. -/
theorem exec_select {d : Dev} {s : State} (hw : WaitCompletes s) (hsel : s.sel = none ∨ s.sel = some d) :
    exec (.select d) s = .next (finish (select d (drained s)).1 (select d (drained s)).2) :=
  opening_run () hw ((endpointPre_iff d _).mpr (by rwa [drained_sel]))

/-- `DESELECT` where the other endpoint is not selected. -/
theorem exec_deselect {d : Dev} {s : State} (hw : WaitCompletes s) (hsel : s.sel = none ∨ s.sel = some d) :
    exec (.deselect d) s = .next (finish (deselect d (drained s)).1 (deselect d (drained s)).2) :=
  opening_run () hw ((endpointPre_iff d _).mpr (by rwa [drained_sel]))

/-- Settles O13: the precondition admits the first three cases, in which `Select` answers, and refuses the last. -/
theorem selectOutcomes : Obligations.SelectOutcomes := by
  intro d s hw
  refine ⟨fun hsel => ?_, fun hsel hack => ?_, fun hsel hack => ?_, fun e hsel hne => ?_⟩
  · rw [exec_select hw (.inr hsel), select_same (by rwa [drained_sel])]
    rfl
  · rw [exec_select hw (.inl hsel), select_acked d _ (by rwa [drained_sel]) hack]
    rfl
  · rw [exec_select hw (.inl hsel), select_unacked (by simp [hsel]) hack, drained_ef]
    rfl
  · exact opening_refused .wrongSelection hw (endpointPre_other hsel hne)

/-- Settles O14: as for `Select`; what a deselected panel forgets is its command and arguments. -/
theorem deselectOutcomes : Obligations.DeselectOutcomes := by
  intro d s hw
  refine ⟨fun hsel => ?_, fun hsel hack => ?_, fun hsel hack => ?_, fun e hsel hne => ?_⟩
  · rw [exec_deselect hw (.inl hsel), deselect_none d (by rwa [drained_sel])]
    rfl
  · rw [exec_deselect hw (.inr hsel), deselect_done d (by simp [hsel]) hack]
    rfl
  · rw [exec_deselect hw (.inr hsel), deselect_unacked d (by simp [hsel]) hack, drained_ef]
    rfl
  · exact opening_refused .wrongSelection hw (endpointPre_other hsel hne)

/-! ## The display must be selected -/

/-- Preconditions that begin with the display's selection fail by it (R147). -/
theorem requireDisplay_bind_error {α : Type} {s : State} (f : Unit → Except Refusal α)
    (hsel : s.sel ≠ some .display) : (requireDisplay s >>= f) = .error .wrongSelection := by
  have hrequire : requireDisplay s = .error .wrongSelection := by simp [requireDisplay, require, hsel]
  rw [hrequire]
  rfl

theorem pushMode_error {s : State} (hsel : s.sel ≠ some .display) : pushMode s = .error .wrongSelection :=
  requireDisplay_bind_error _ hsel

/-- Settles O15: each of the five checks the selection first. -/
theorem busOperationsNeedDisplay : Obligations.BusOperationsNeedDisplay := by
  intro s hw hs
  have hsel : (drained s).sel ≠ some .display := by rwa [drained_sel]
  refine ⟨fun cmd => ?_, fun cmd addr length => ?_, fun w => ?_, fun color count wait hcount => ?_,
    fun addr count wait hcount => ?_⟩
  · exact opening_refused _ hw (requireDisplay_bind_error _ hsel)
  · exact opening_refused _ hw (requireDisplay_bind_error _ hsel)
  · exact opening_refused _ hw (requireDisplay_bind_error _ hsel)
  · rw [exec, execPushRep, if_neg hcount]
    exact opening_refused _ hw (by rw [pushRepPre, pushMode_error hsel]; rfl)
  · rw [exec, execPushBuf, if_neg hcount]
    exact opening_refused _ hw (by rw [pushBufPre, pushMode_error hsel]; rfl)

/-! ## The drain -/

/-- Settles O16: `WAIT` has no precondition, and its body is empty. -/
theorem waitIsTheDrain : Obligations.WaitIsTheDrain := by
  intro s hw
  rw [exec, execWait]
  exact opening_run () hw rfl

/-- However an operation that drains goes on, a drain that times out ends it (R145 (2)): nothing follows but that a read
of pixels draws its buffer, and `READ_PIXEL` its result (44 R246, R250). -/
theorem exec_timeout {i : Instr} {s : State} {bs : List Byte} {o : DmaOwner} {k : Nat} (hdrains : drains i = true)
    (hd : s.dma = .inFlight bs o) (he : nextEnd s.env = some k) :
    ∃ m e r, exec i s = .next (fail .dmaTimeout { abandoned k s with mem := m, env := e, result := r }) := by
  cases i with
  | pushRep color count wait =>
    rw [exec, execPushRep, if_neg (bne_iff_ne.mp hdrains)]
    exact ⟨_, _, _, opening_timeout bs o k hd he⟩
  | pushBuf addr count wait =>
    rw [exec, execPushBuf, if_neg (bne_iff_ne.mp hdrains)]
    exact ⟨_, _, _, opening_timeout bs o k hd he⟩
  | cfgWr reg value =>
    obtain ⟨r, hr⟩ := Option.isSome_iff_exists.mp hdrains
    simp only [exec, execCfgWr, hr]
    exact ⟨_, _, _, opening_timeout bs o k hd he⟩
  | wait =>
    rw [exec, execWait]
    exact ⟨_, _, _, opening_timeout bs o k hd he⟩
  | cfgRd reg => cases hdrains
  | _ => exact ⟨_, _, _, opening_timeout bs o k hd he⟩

/-- What an abandoned transfer leaves, written out (R157). -/
theorem abandoned_inFlight {s : State} {bs : List Byte} {o : DmaOwner} (k : Nat) (hd : s.dma = .inFlight bs o) :
    abandoned k s =
      { s with
        dma := .idle
        loan := none
        env := popEnd s.env
        ef := { s.ef with dmaTo := true }
        trace := s.trace ++ (dataRun (bs.take k) ++ [.dmaAbort (min k bs.length)])
        panel := panelAfter s (atData (bs.take k)) } := by
  simp only [abandoned, hd]

/-- Settles O17: what the abandoned transfer leaves, and the status. -/
theorem drainTimeoutEndsOperation : Obligations.DrainTimeoutEndsOperation := by
  intro i s bs o k hdrains hd he
  obtain ⟨m, e, r, hexec⟩ := exec_timeout hdrains hd he
  rw [abandoned_inFlight k hd] at hexec
  exact ⟨_, hexec, rfl, rfl, rfl, rfl, rfl, rfl, rfl, rfl, rfl, rfl, rfl, rfl, rfl, rfl, rfl⟩

/-! ## Frames -/

/-- Settles O21: the body is the one command frame of R160. -/
theorem sendCmdSendsOneFrame : Obligations.SendCmdSendsOneFrame := by
  intro cmd s hw hsel hpanel
  have hpre : sendCmdPre cmd (drained s) = .ok () := (sendCmdPre_iff _ _).mpr ⟨by rwa [drained_sel], hpanel⟩
  have hrun : exec (.sendCmd cmd) s = .next (finish .ok (sendCommand cmd (drained s))) := opening_run () hw hpre
  rw [hrun, sendCommand_eq, drained_w, drained_cnt]
  rfl

/-- Settles O22: an empty buffer is no precondition, and the body sends the command alone. -/
theorem emptyPayloadIsSendCmd : Obligations.EmptyPayloadIsSendCmd := by
  intro cmd addr s
  have hpre : sendCmdDataPre cmd addr.toNat 0 = sendCmdPre cmd := by
    funext u
    unfold sendCmdDataPre sendCmdPre
    cases requireDisplay u <;> rfl
  have hlength : (0 : Word).toNat = 0 := rfl
  simp only [exec, execSendCmdData, execSendCmd, hlength, hpre, sendCmdDataBody, if_true]

/-- A payload sent at the data level is a data frame (R152, R121). -/
theorem sendBytes_data_eq (bs : List Byte) (s : State) (hn : 0 < s.par.nwords) (hdc : s.dc = some .data) :
    sendBytes bs s =
      { s with
        w := (burstChunks s.par bs).foldl loadWords s.w
        bitlen := (burstChunks s.par bs).foldl (fun _ c => 8 * c.length) s.bitlen
        cnt := addBursts (burstChunks s.par bs).length s.cnt
        trace := s.trace ++ dataFrame s.par bs
        panel := panelAfter s (atData bs) } := by
  have hline : dcLine s = .data := by simp [dcLine, hdc]
  rw [sendBytes_eq, hline, burstChunks_flatten s.par hn]
  rfl

/-- The command frame, then the payload's data frame (R163). -/
theorem sendCmdDataBody_eq (cmd : Byte) (addr length : Nat) (s : State) (hn : 0 < s.par.nwords) (hl : length ≠ 0) :
    sendCmdDataBody cmd addr length s =
      { s with
        dc := some .data
        w := (burstChunks s.par (memRead s.mem addr length)).foldl loadWords (cmd.zeroExtend 32 :: s.w.drop 1)
        bitlen := (burstChunks s.par (memRead s.mem addr length)).foldl (fun _ c => 8 * c.length) 8
        cnt := addBursts (burstChunks s.par (memRead s.mem addr length)).length (countBurst s.cnt)
        trace := s.trace ++ (commandFrame cmd ++ dataFrame s.par (memRead s.mem addr length))
        panel := panelAfter s ((.command, cmd) :: atData (memRead s.mem addr length)) } := by
  have hhears : panelAfter (setDC .data (sendCommand cmd s)) (atData (memRead s.mem addr length)) =
      panelAfter s ((.command, cmd) :: atData (memRead s.mem addr length)) :=
    panelAfter_append [(.command, cmd)] _ (by rw [sendCommand_eq]; rfl) (by rw [sendCommand_eq]; rfl)
      (by rw [sendCommand_eq]; rfl)
  rw [sendCmdDataBody, if_neg hl, sendBytes_data_eq _ _ (by rwa [sendCommand_eq]) rfl, hhears]
  simp only [sendCommand_eq, setDC, List.append_assoc]

/-- Settles O23: the body's two frames, the bytes read from memory as the drain left it. -/
theorem sendCmdDataSendsFrames : Obligations.SendCmdDataSendsFrames := by
  intro cmd addr length s hn hw hsel hlength howned hpanel
  have hn' : 0 < (drained s).par.nwords := by rwa [drained_par]
  have hpre : sendCmdDataPre cmd addr.toNat length.toNat (drained s) = .ok () :=
    (sendCmdDataPre_iff _ _ _ _).mpr ⟨by rwa [drained_sel], (bufferOwned_drained _ _ _).mpr howned, hpanel⟩
  have hrun : exec (.sendCmdData cmd addr length) s =
      .next (finish .ok (sendCmdDataBody cmd addr.toNat length.toNat (drained s))) := opening_run () hw hpre
  rw [hrun, sendCmdDataBody_eq _ _ _ _ hn' (count_ne_zero hlength)]
  simp only [finish, addBursts, countBurst, commandFrame, drained_par, drained_mem, drained_w, drained_cnt]

end Sys2Proof.Machine
end

section
/-! The frame of every operation (spec/40_bus_transport.md R140, R142, R161, R163, R166; 41 R184; 43 R210, R211;
44 R240, R250; 45 R260; 46 R280, R282): what each body leaves as it was, then an operation run from its start or taken
up at a wait. A part of the state is what reading it gives, so that "unchanged" is one equation for all parts. -/

namespace Sys2Proof.Machine

/-! ## Parts and frames -/

/-- What a part of the state holds. -/
abbrev Part.Val : Part → Type
  | .regs => List Word × Nat
  | .line => Option DcLevel
  | .selection => Option Dev
  | .clock => Option Word
  | .config => Cfg
  | .result => Option Word
  | .direct => Word
  | .queued => Word
  | .bursts => Word
  | .memory => Memory
  | .flagSel => Bool
  | .flagAlloc => Bool
  | .flagIllegal => Bool

/-- The part, read from a state. -/
def Part.read : (p : Part) → State → p.Val
  | .regs, s => (s.w, s.bitlen)
  | .line, s => s.dc
  | .selection, s => s.sel
  | .clock, s => s.clock
  | .config, s => s.cfg
  | .result, s => s.result
  | .direct, s => s.cnt.direct
  | .queued, s => s.cnt.dma
  | .bursts, s => s.cnt.burst
  | .memory, s => s.mem
  | .flagSel, s => s.ef.sel
  | .flagAlloc, s => s.ef.alloc
  | .flagIllegal, s => s.ef.illegal

/-- From `s` to `u` only parts that `w` lists have changed, and what no operation writes has not: parameters, regions
and the host's list are the same, and no fill buffer or inhibit is left that was not there. -/
structure Framed (w : Part → Bool) (s u : State) : Prop where
  parts : ∀ p, w p = false → p.read u = p.read s
  scratch : s.scratch = none → u.scratch = none
  inhibit : s.inhibit = false → u.inhibit = false
  par : u.par = s.par
  regions : u.regions = s.regions
  host : u.host = s.host

theorem Framed.refl (w : Part → Bool) (s : State) : Framed w s s := ⟨fun _ _ => rfl, id, id, rfl, rfl, rfl⟩

theorem Framed.trans {w : Part → Bool} {s t u : State} (h : Framed w s t) (k : Framed w t u) : Framed w s u where
  parts p hp := (k.parts p hp).trans (h.parts p hp)
  scratch := k.scratch ∘ h.scratch
  inhibit := k.inhibit ∘ h.inhibit
  par := k.par.trans h.par
  regions := k.regions.trans h.regions
  host := k.host.trans h.host

theorem Framed.mono {v w : Part → Bool} {s u : State} (h : Framed v s u) (hvw : ∀ p, w p = false → v p = false) :
    Framed w s u :=
  { h with parts := fun p hp => h.parts p (hvw p hp) }

/-- A frame stays one when the grayscale flag is set alike before and after (45 R269). -/
theorem Framed.withGray {w : Part → Bool} {s u : State} (h : Framed w s u) (g : Bool) :
    Framed w { s with cfg := { s.cfg with gray := some g } } { u with cfg := { u.cfg with gray := some g } } := by
  refine { h with parts := fun p hp => ?_ }
  have hpart := h.parts p hp
  cases p with
  | config => exact congrArg (fun c : Cfg => { c with gray := some g }) hpart
  | _ => exact hpart

/-- Bus traffic writes nothing but parts; those it may write remain to be looked at. -/
theorem Traffic.framed {w : Part → Bool} {s u : State} (h : Traffic s u)
    (hparts : ∀ p, w p = false → p.read u = p.read s) : Framed w s u :=
  ⟨hparts, h.scratch.trans, h.inhibit, h.par, h.regions, h.host⟩

/-- Bus traffic does not touch the flag of illegal descriptors. -/
theorem Traffic.flagIllegal {s u : State} (h : Traffic s u) : u.ef.illegal = s.ef.illegal := by
  obtain ⟨-, -, -, hillegal⟩ := h.flags
  exact hillegal

/-! ## Statuses -/

/-- The parts listed hold the sticky flag that a status sets (60 R291), the flag of a DMA timeout being no part. -/
abbrev FlagListed (w : Part → Bool) : Status → Prop
  | .ok => True
  | .deselectFail => w .flagSel = true
  | .selectFail => w .flagSel = true
  | .dmaTimeout => True
  | .illegal => w .flagIllegal = true

theorem flagListed_of_legal {w : Part → Bool} {st : Status} (hw : w .flagSel = true) (hst : st ≠ .illegal) :
    FlagListed w st := by
  cases st with
  | ok | dmaTimeout => trivial
  | deselectFail | selectFail => exact hw
  | illegal => exact absurd rfl hst

theorem finish_framed {w : Part → Bool} {st : Status} (s : State) (hst : FlagListed w st) :
    Framed w s (finish st s) := by
  refine ⟨fun p hp => ?_, by simp, by simp, by simp, by simp, by simp⟩
  cases st with
  | ok | dmaTimeout => cases p <;> rfl
  | deselectFail | selectFail =>
    cases p with
    | flagSel => simp [hst] at hp
    | _ => rfl
  | illegal =>
    cases p with
    | flagIllegal => simp [hst] at hp
    | _ => rfl

/-! ## Waits and selection -/

theorem drained_framed (w : Part → Bool) (s : State) : Framed w s (drained s) :=
  (bus_drained s).toTraffic.framed fun p _ => by cases p <;> simp [Part.read]

theorem abandoned_framed (w : Part → Bool) (k : Nat) (s : State) : Framed w s (abandoned k s) := by
  refine (bus_abandoned k s).toTraffic.framed fun p _ => ?_
  unfold abandoned
  split <;> cases p <;> rfl

/-- However a wait ends, it writes no part, and its status sets the flag of none. -/
theorem awaitDma_framed (w : Part → Bool) (s : State) :
    Framed w s (awaitDma s).2 ∧ FlagListed w (awaitDma s).1 := by
  rcases awaitDma_cases s with ⟨-, h⟩ | ⟨_, _, k, -, -, h⟩ <;> rw [h]
  · exact ⟨drained_framed w s, trivial⟩
  · exact ⟨abandoned_framed w k s, trivial⟩

theorem select_framed (d : Dev) (s : State) : Framed (writes (.select d)) s (select d s).2 := by
  refine (bus_select d s).toTraffic.framed fun p hp => ?_
  rcases select_cases d s with ⟨-, h⟩ | ⟨-, -, h⟩ | ⟨-, -, h⟩ <;> rw [h]
  all_goals
    cases p with
    | selection | flagSel => cases hp
    | _ => rfl

theorem deselect_framed (d : Dev) (s : State) : Framed (writes (.deselect d)) s (deselect d s).2 := by
  refine (bus_deselect d s).toTraffic.framed fun p hp => ?_
  rcases deselect_cases d s with ⟨-, h⟩ | ⟨-, -, h⟩ | ⟨-, -, h⟩ <;> rw [h]
  all_goals
    cases p with
    | selection | flagSel => cases hp
    | _ => rfl

/-! ## Frames on the bus -/

/-- What command and data frames write (R150, R160). -/
abbrev frameParts : Part → Bool := fun p => p ∈ [Part.regs, .line, .bursts]

theorem sendCommand_framed (b : Byte) (s : State) : Framed frameParts s (sendCommand b s) := by
  refine (bus_sendCommand b s).toTraffic.framed fun p hp => ?_
  rw [sendCommand_eq]
  cases p with
  | regs | line | bursts => cases hp
  | _ => rfl

theorem sendBytes_framed (bs : List Byte) (s : State) : Framed frameParts s (sendBytes bs s) := by
  refine (bus_sendBytes bs s).toTraffic.framed fun p hp => ?_
  rw [sendBytes_eq]
  cases p with
  | regs | line | bursts => cases hp
  | _ => rfl

theorem setDC_framed (v : DcLevel) (s : State) : Framed frameParts s (setDC v s) := by
  refine (bus_setDC v s).toTraffic.framed fun p hp => ?_
  cases p with
  | line => cases hp
  | _ => rfl

theorem openWrite_framed (s : State) : Framed frameParts s (openWrite s) :=
  (sendCommand_framed _ s).trans (setDC_framed _ _)

theorem sendCmdDataBody_framed (cmd : Byte) (addr length : Nat) (s : State) :
    Framed frameParts s (sendCmdDataBody cmd addr length s) := by
  have hcommand := sendCommand_framed cmd s
  unfold sendCmdDataBody
  split
  · exact hcommand
  · exact (hcommand.trans (setDC_framed _ _)).trans (sendBytes_framed _ _)

theorem windowFrame_framed (w : Window) {s : State} (hn : 0 < s.par.nwords) :
    Framed frameParts s (windowFrame w s) := by
  refine (bus_windowFrame w s hn).toTraffic.framed fun p hp => ?_
  rw [windowFrame_eq w s hn]
  cases p with
  | regs | line | bursts => cases hp
  | _ => rfl

/-! ## Pushes -/

/-- What a push of pixels writes beside flags (R210, R211). -/
abbrev pushParts : Part → Bool := fun p => p ∈ [Part.regs, .line, .bursts, .direct, .queued]

theorem frameParts_push (p : Part) (hp : pushParts p = false) : frameParts p = false := by
  revert hp
  cases p <;> decide

theorem pushDirect_framed (bs : List Byte) (s : State) : Framed pushParts s (pushDirect bs s) := by
  refine Framed.trans ?_ ((sendBytes_framed bs { s with cnt := countDirect s.cnt }).mono frameParts_push)
  refine ⟨fun p hp => ?_, id, id, rfl, rfl, rfl⟩
  cases p with
  | direct => cases hp
  | _ => rfl

theorem dmaQueue_framed (bs : List Byte) (o : DmaOwner) (s : State) : Framed pushParts s (dmaQueue bs o s) := by
  refine ⟨fun p hp => ?_, id, id, rfl, rfl, rfl⟩
  cases p with
  | queued => cases hp
  | _ => rfl

/-- The body of `PUSH_BUF`, on each of its paths (R211). -/
theorem pushStream_framed (direct : Bool) (bs : List Byte) (loan : Option (Nat × Nat)) (wait : Bool) (s : State) :
    Framed pushParts s (pushStream direct bs loan wait s).2 ∧
      FlagListed pushParts (pushStream direct bs loan wait s).1 := by
  have hopen := (openWrite_framed s).mono frameParts_push
  cases direct with
  | true =>
    rw [pushStream_direct]
    exact ⟨hopen.trans (pushDirect_framed bs _), trivial⟩
  | false =>
    have hqueue : Framed pushParts s (pushStream false bs loan false s).2 := by
      have hlent : Framed pushParts (openWrite s) { openWrite s with loan := loan } :=
        ⟨fun p _ => by cases p <;> rfl, id, id, rfl, rfl, rfl⟩
      exact (hopen.trans hlent).trans (dmaQueue_framed bs .caller _)
    cases wait with
    | true =>
      rw [pushStream_wait]
      obtain ⟨hwait, hstatus⟩ := awaitDma_framed pushParts (pushStream false bs loan false s).2
      exact ⟨hqueue.trans hwait, hstatus⟩
    | false => exact ⟨hqueue, trivial⟩

/-- What `PUSH_REP` writes: its buffer may not be had (R219). -/
abbrev fillParts : Part → Bool := fun p => p ∈ [Part.regs, .line, .bursts, .direct, .queued, .flagAlloc]

theorem pushParts_fill (p : Part) (hp : fillParts p = false) : pushParts p = false := by
  revert hp
  cases p <;> decide

/-- A repeated fill counts its transfers and writes no other part (R220). -/
theorem fillLoop_framed (fill : List Byte) (b : Nat) (ns : List Nat) (s : State) :
    Framed fillParts s (fillLoop fill b ns s).2 ∧ FlagListed fillParts (fillLoop fill b ns s).1 := by
  obtain ⟨e, tr, q, n, ef, -, hst, ht⟩ := fillLoop_spec fill b ns s
  rw [ht]
  rcases hst with ⟨hst, rfl⟩ | ⟨hst, rfl⟩ <;> rw [hst]
  all_goals
    refine ⟨⟨fun p hp => ?_, fun _ => rfl, id, rfl, rfl, rfl⟩, trivial⟩
    cases p with
    | queued => cases hp
    | _ => rfl

/-- A fill that starts with its buffer just allocated: the buffer is released at its end (R221). -/
theorem fillLoop_allocated_framed (fill : List Byte) (b : Nat) (ns : List Nat) (e : Env) (size : Nat) (s : State) :
    Framed fillParts s (fillLoop fill b ns { s with env := e, scratch := some size }).2 ∧
      FlagListed fillParts (fillLoop fill b ns { s with env := e, scratch := some size }).1 := by
  obtain ⟨hfill, hstatus⟩ := fillLoop_framed fill b ns { s with env := e, scratch := some size }
  obtain ⟨hreleased, -⟩ := fillLoop_releases fill b ns { s with env := e, scratch := some size }
  refine ⟨⟨fun p hp => ?_, fun _ => hreleased, hfill.inhibit, hfill.par, hfill.regions, hfill.host⟩, hstatus⟩
  exact (hfill.parts p hp).trans (by cases p <;> rfl)

/-- A repeated fill, and its abort for want of a buffer (R218, R219). -/
theorem pushFill_framed (px : List Byte) (count width : Nat) (s : State) :
    Framed fillParts s (pushFill px count width s).2 ∧ FlagListed fillParts (pushFill px count width s).1 := by
  unfold pushFill
  simp only
  split
  · exact fillLoop_allocated_framed _ _ _ _ _ s
  · refine ⟨⟨fun p hp => ?_, id, id, rfl, rfl, rfl⟩, trivial⟩
    cases p with
    | flagAlloc => cases hp
    | _ => rfl

/-- The body of `PUSH_REP`, direct or by a fill (R210). -/
theorem pushRepBody_framed (color : Color) (count : Nat) (v : Depth × Bool × Nat) (s : State) :
    Framed fillParts s (pushRepBody color count v s).2 ∧ FlagListed fillParts (pushRepBody color count v s).1 := by
  have hopen := ((openWrite_framed s).mono frameParts_push).mono pushParts_fill
  unfold pushRepBody
  simp only
  split
  · exact ⟨hopen.trans ((pushDirect_framed _ _).mono pushParts_fill), trivial⟩
  · obtain ⟨hfill, hstatus⟩ := pushFill_framed (wireBytes v.1 v.2.1 color) count v.2.2 (openWrite s)
    exact ⟨hopen.trans hfill, hstatus⟩

/-! ## Reads -/

/-- What a read sequence writes (R240, R243). -/
abbrev readParts : Part → Bool := fun p => p ∈ [Part.regs, .line, .bursts, .selection, .clock, .flagSel]

theorem readSequence_framed (w : Window) (n : Nat) (clocks : Option (Word × Word)) {s : State}
    (hn : 0 < s.par.nwords) : Framed readParts s (readSequence w n clocks s).2.2 := by
  obtain ⟨hbus, hend, -⟩ := readSequence_spec w n clocks s hn
  refine hbus.toTraffic.framed fun p hp => ?_
  cases p with
  | regs | line | bursts | selection | clock | flagSel => cases hp
  | config => exact hbus.cfg
  | result => exact hbus.result
  | direct => exact hbus.direct
  | queued => exact hbus.queued
  | memory => exact hbus.mem
  | flagAlloc => exact (congrArg ErrFlags.alloc hend.flags).trans (by cases (readSequence w n clocks s).1 <;> rfl)
  | flagIllegal => exact hbus.flagIllegal

theorem scrambleBuffer_framed (w : Window) (count addr : Word) (adapt : Bool) (a n : Nat) (s : State) :
    Framed (writes (.readPixels w count addr adapt)) s (scrambleBuffer a n s) := by
  refine ⟨fun p hp => ?_, id, id, rfl, rfl, rfl⟩
  cases p with
  | memory => cases hp
  | _ => rfl

theorem readParts_readPixels (w : Window) (count addr : Word) (adapt : Bool) (p : Part)
    (hp : writes (.readPixels w count addr adapt) p = false) : readParts p = false := by
  cases p with
  | config | result | direct | queued | memory | flagAlloc | flagIllegal => rfl
  | _ => cases hp

theorem readParts_readPixel (x y : Half) (p : Part) (hp : writes (.readPixel x y) p = false) :
    readParts p = false := by
  cases p with
  | config | result | direct | queued | memory | flagAlloc | flagIllegal => rfl
  | _ => cases hp

/-- The body of `READ_PIXELS`: the read sequence, then the store or the drawn buffer (R245, R246). -/
theorem readPixelsBody_framed (w : Window) (count addr : Word) (adapt : Bool) (clocks : Option (Word × Word))
    {s : State} (hn : 0 < s.par.nwords) :
    Framed (writes (.readPixels w count addr adapt)) s (readPixelsBody w count.toNat addr.toNat clocks s).2 ∧
      FlagListed (writes (.readPixels w count addr adapt)) (readPixelsBody w count.toNat addr.toNat clocks s).1 := by
  have hseq := (readSequence_framed w (rawBytes count.toNat) clocks hn).mono (readParts_readPixels w count addr adapt)
  have hlegal := readSequence_legal w (rawBytes count.toNat) clocks s hn
  unfold readPixelsBody
  split <;> rename_i he <;> rw [he] at hseq hlegal
  · refine ⟨hseq.trans ⟨fun p hp => ?_, id, id, rfl, rfl, rfl⟩, flagListed_of_legal rfl hlegal⟩
    cases p with
    | memory => cases hp
    | _ => rfl
  · exact ⟨hseq.trans (scrambleBuffer_framed w count addr adapt _ _ _), flagListed_of_legal rfl hlegal⟩

/-- A result stored, where the operation lists it. -/
theorem withResult_framed {w : Part → Bool} (hw : w .result = true) (v : Option Word) (s : State) :
    Framed w s { s with result := v } := by
  refine ⟨fun p hp => ?_, id, id, rfl, rfl, rfl⟩
  cases p with
  | result => simp [hw] at hp
  | _ => rfl

/-- The body of `READ_PIXEL`: the read sequence, then its result, or none (R250). -/
theorem readPixelBody_framed (x y : Half) (clocks : Option (Word × Word)) {s : State} (hn : 0 < s.par.nwords) :
    Framed (writes (.readPixel x y)) s (readPixelBody x y clocks s).2 ∧
      FlagListed (writes (.readPixel x y)) (readPixelBody x y clocks s).1 := by
  have hseq := (readSequence_framed (pixelWindow x y s) (rawBytes 1) clocks hn).mono (readParts_readPixel x y)
  have hlegal := readSequence_legal (pixelWindow x y s) (rawBytes 1) clocks s hn
  unfold readPixelBody
  split <;> rename_i he <;> rw [he] at hseq hlegal <;>
    exact ⟨hseq.trans (withResult_framed rfl _ _), flagListed_of_legal rfl hlegal⟩

/-! ## Calibration and configuration -/

/-- What calibration leaves as it was: all that bus traffic does, memory and `EF_ILLEGAL` among it. -/
theorem Traffic.framed_findMaxRdclk {s u : State} (h : Traffic s u) : Framed (writes .findMaxRdclk) s u := by
  refine h.framed fun p hp => ?_
  cases p with
  | config => exact h.cfg
  | memory => exact h.mem
  | flagIllegal => exact h.flagIllegal
  | _ => cases hp

theorem findMaxBody_framed {v : Word × Bool × CalPlan} {s : State} (hn : 0 < s.par.nwords) (hidle : s.dma = .idle)
    (hp : findMaxPre s = .ok v) :
    Framed (writes .findMaxRdclk) s (findMaxBody v s).2 ∧ FlagListed (writes .findMaxRdclk) (findMaxBody v s).1 := by
  obtain ⟨hsel, hgray⟩ := findMaxPre_entry hp
  obtain ⟨u, hu, -, -, -, best, -, he⟩ := findMaxBody_spec v.1 v.2.1 v.2.2 s hn hidle hsel hgray
  refine ⟨?_, flagListed_of_legal rfl (findMaxBody_legal v s hn hsel)⟩
  rw [he]
  exact (hu.trans (traffic_setClock v.1 u)).framed_findMaxRdclk.trans (withResult_framed rfl _ _)

/-- A write to `CLOCK` requests a clock, and one to any other register writes the configuration, if anything (46
R280). -/
theorem cfgWrite_framed {w : Part → Bool} {r : CfgReg} (value : Word) (s : State)
    (hclock : r = .clock → w .clock = true) (hconfig : r ≠ .clock → w .config = true) :
    Framed w s (cfgWrite r value s) := by
  cases r with
  | clock =>
    refine (traffic_setClock value s).framed fun p hp => ?_
    cases p with
    | clock => simp [hclock rfl] at hp
    | _ => rfl
  | _ =>
    refine ⟨fun p hp => ?_, id, id, rfl, rfl, rfl⟩
    cases p with
    | config => simp [hconfig (by decide)] at hp
    | _ => rfl

/-- `CLOCK` is register 2 (R35). -/
theorem cfgRegOf_clock (n : Byte) : cfgRegOf n = some .clock ↔ n = 0x02 := by revert n; decide

theorem cfgWriteTarget_reg {reg : Byte} {value : Word} {r : CfgReg} (h : cfgWriteTarget reg value = some r) :
    cfgRegOf reg = some r := by
  unfold cfgWriteTarget at h
  split at h
  · rename_i r' hr
    split at h
    · rwa [hr]
    · cases h
  · cases h

/-! ## Operations -/

/-- An operation that drains keeps what its body keeps, and what follows a failed drain. -/
theorem opening_framed {α : Type} {w : Part → Bool} {late : State → State} {pre : State → Except Refusal α}
    {body : α → State → Status × State} {s t : State} (h : opening late pre body s = .next t)
    (hlate : ∀ u, Framed w u (late u))
    (hbody : ∀ v, pre (drained s) = .ok v →
      Framed w (drained s) (body v (drained s)).2 ∧ FlagListed w (body v (drained s)).1) : Framed w s t := by
  rcases opening_next h with ⟨-, v, hv, rfl⟩ | ⟨_, _, k, -, -, rfl⟩
  · obtain ⟨hframed, hstatus⟩ := hbody v hv
    exact ((drained_framed w s).trans hframed).trans (finish_framed _ hstatus)
  · exact ((abandoned_framed w k s).trans (hlate _)).trans (finish_framed (st := .dmaTimeout) _ trivial)

theorem pushBuf_writes {addr count : Word} {wait : Bool} (hcount : count ≠ 0) (p : Part) :
    writes (.pushBuf addr count wait) p = pushParts p := by
  simp only [writes, ne_eq, hcount, not_false_eq_true, true_and]

theorem pushRep_writes {color : Color} {count : Word} {wait : Bool} (hcount : count ≠ 0) (p : Part) :
    writes (.pushRep color count wait) p = fillParts p := by
  simp only [writes, ne_eq, hcount, not_false_eq_true, true_and]

/-- An operation run from its start leaves what its rule does not list. -/
theorem exec_framed {i : Instr} {s t : State} (h : exec i s = .next t) (hn : 0 < s.par.nwords) :
    Framed (writes i) s t := by
  have hn' : 0 < (drained s).par.nwords := by rwa [drained_par]
  have hrefl := Framed.refl (writes i)
  cases i with
  | select d =>
    exact opening_framed h hrefl fun _ _ => ⟨select_framed d _, flagListed_of_legal rfl (select_legal d _)⟩
  | deselect d =>
    exact opening_framed h hrefl fun _ _ => ⟨deselect_framed d _, flagListed_of_legal rfl (deselect_legal d _)⟩
  | sendCmd cmd => exact opening_framed h hrefl fun _ _ => ⟨sendCommand_framed cmd _, trivial⟩
  | sendCmdData cmd addr length =>
    exact opening_framed h hrefl fun _ _ => ⟨sendCmdDataBody_framed cmd _ _ _, trivial⟩
  | setWindow w => exact opening_framed h hrefl fun _ _ => ⟨windowFrame_framed w hn', trivial⟩
  | pushRep color count wait =>
    simp only [exec, execPushRep] at h
    split at h
    · cases h
      exact finish_framed (st := .ok) s trivial
    · rename_i hcount
      rw [funext (pushRep_writes hcount)]
      exact opening_framed h (Framed.refl _) fun v _ => pushRepBody_framed _ _ v _
  | pushBuf addr count wait =>
    simp only [exec, execPushBuf] at h
    split at h
    · cases h
      exact finish_framed (st := .ok) s trivial
    · rename_i hcount
      rw [funext (pushBuf_writes hcount)]
      exact opening_framed h (Framed.refl _) fun _ _ => pushStream_framed _ _ _ _ _
  | readPixels w count addr adapt =>
    exact opening_framed h (scrambleBuffer_framed w count addr adapt _ _) fun _ _ =>
      readPixelsBody_framed w count addr adapt _ hn'
  | readPixel x y =>
    exact opening_framed h (withResult_framed rfl none) fun _ _ => readPixelBody_framed x y _ hn'
  | findMaxRdclk => exact opening_framed h hrefl fun _ hv => findMaxBody_framed hn' (drained_dma s) hv
  | wait =>
    rw [exec, execWait] at h
    exact opening_framed h hrefl fun _ _ => ⟨Framed.refl _ _, trivial⟩
  | cfgWr reg value =>
    simp only [exec, execCfgWr] at h
    split at h
    · cases h
      exact finish_framed (st := .illegal) s (by simp [FlagListed, writes])
    · rename_i r hr
      have hreg := cfgWriteTarget_reg hr
      refine opening_framed h hrefl fun _ _ => ⟨cfgWrite_framed _ _ (fun hclock => ?_) fun hclock => ?_, trivial⟩
      · have h2 : reg = 0x02 := (cfgRegOf_clock reg).mp (hclock ▸ hreg)
        exact decide_eq_true (.inl ⟨h2, rfl⟩)
      · have h2 : reg ≠ 0x02 := fun h2 => hclock (Option.some.inj (hreg.symm.trans ((cfgRegOf_clock reg).mpr h2)))
        exact decide_eq_true (.inr (.inl ⟨h2, rfl⟩))
  | cfgRd reg =>
    simp only [exec, execCfgRd] at h
    split at h
    · cases h
      exact finish_framed (st := .illegal) s rfl
    · split at h
      · rename_i v _
        cases h
        have hloan (l : Option (Nat × Nat)) (u : State) : Framed (writes (.cfgRd reg)) u { u with loan := l } :=
          ⟨fun p _ => by cases p <;> rfl, id, id, rfl, rfl, rfl⟩
        exact ((withResult_framed rfl (some v) s).trans (hloan _ _)).trans (finish_framed (st := .ok) _ trivial)
      · cases h

/-- A fill is the wait of a `PUSH_REP` of some pixels. -/
theorem pushRep_of_standsAt {i : Instr} {buffer : List Byte} {b : Nat} {rest : List Nat}
    (h : standsAt i (.fill buffer b rest) = true) : ∃ color count wait, i = .pushRep color count wait ∧ count ≠ 0 := by
  cases i <;> simp_all [standsAt, drains]

/-- The scan is the wait of `FIND_MAX_RDCLK`. -/
theorem findMaxRdclk_of_standsAt {i : Instr} {clock : Word} {g : Bool} {plan : CalPlan} {f : Nat} {fs : List Nat}
    {best : Option Word} (h : standsAt i (.scan clock g plan f fs best) = true) : i = .findMaxRdclk := by
  cases i <;> simp_all [standsAt]

/-- An operation taken up at a wait leaves what its rule does not list; a calibration scan found the configuration with
the grayscale flag it saved (45 R269). -/
theorem resume_framed {i : Instr} {p : Phase} {s t : State} (hstands : standsAt i p = true)
    (h : resume i p s = .next t) (hn : 0 < s.par.nwords) : Framed (writes i) { s with cfg := foundCfg p s } t := by
  cases p with
  | drain => exact exec_framed h hn
  | pushWait =>
    cases h
    obtain ⟨hwait, hstatus⟩ := awaitDma_framed (writes i) s
    exact hwait.trans (finish_framed _ hstatus)
  | fill buffer b rest =>
    obtain ⟨color, count, wait, rfl, hcount⟩ := pushRep_of_standsAt hstands
    cases h
    rw [funext (pushRep_writes hcount)]
    obtain ⟨hfill, hstatus⟩ := fillLoop_framed buffer b rest s
    exact hfill.trans (finish_framed _ hstatus)
  | scan clock g plan f fs best =>
    obtain rfl := findMaxRdclk_of_standsAt hstands
    cases h
    obtain ⟨hscan, -, -, hlegal, -⟩ := scanRest_spec plan f fs best s hn
    obtain ⟨u, hu, -, -, -, he⟩ := calRestore_spec clock g (scanRest plan f fs best (lineRest s)).2.2
    have hrestored := ((hscan.trans hu).trans (traffic_setClock clock u)).framed_findMaxRdclk.withGray g
    rw [he]
    exact (hrestored.trans (withResult_framed rfl _ _)).trans (finish_framed _ (flagListed_of_legal rfl hlegal))

theorem resume_fill_scratch {i : Instr} {buffer : List Byte} {b : Nat} {rest : List Nat} {s t : State}
    (h : resume i (.fill buffer b rest) s = .next t) : t.scratch = none := by
  cases h
  obtain ⟨hreleased, -⟩ := fillLoop_releases buffer b rest s
  rw [finish_scratch, hreleased]

theorem Ends.op_none {i : Instr} {p : Phase} {s t : State} (h : Ends i p s t) (hn : 0 < s.par.nwords) :
    t.op = none := by
  obtain ⟨st, u, rfl, -⟩ := resume_concludes h.resumes hn
  exact finish_op st u

/-- Settles O55: each clause is one part of the frame. -/
theorem operationsWriteOnlyWhatTheyList : Obligations.OperationsWriteOnlyWhatTheyList := by
  intro i p s t hn hends
  have hframed : Framed (writes i) { s with cfg := foundCfg p s } t := by
    rcases hends with ⟨rfl, h⟩ | ⟨hstands, h⟩
    · exact exec_framed h hn
    · exact resume_framed hstands h hn
  refine ⟨fun h => Prod.mk.inj (hframed.parts .regs h), hframed.parts .line, hframed.parts .selection,
    hframed.parts .clock, hframed.parts .config, hframed.parts .result, hframed.parts .direct, hframed.parts .queued,
    hframed.parts .bursts, hframed.parts .flagSel, hframed.parts .flagAlloc, hframed.parts .flagIllegal, ?_,
    hframed.inhibit, hends.op_none hn, hframed.par, hframed.regions, hframed.host⟩
  rintro (hnone | ⟨buffer, b, rest, rfl⟩)
  · exact hframed.scratch hnone
  · exact resume_fill_scratch hends.resumes

end Sys2Proof.Machine
end

section
/-! The address window (spec/41_address_window.md R180 to R184; 44_pixel_read.md R244): the frame that `SET_WINDOW`
sends, and windows that have no meaning. -/

namespace Sys2Proof.Machine

/-- Settles O24: the body is the window frame, sent from the state the drain left. -/
theorem setWindowSendsFrame : Obligations.SetWindowSendsFrame := by
  intro w s hn hw hsel hfits
  have hn' : 0 < (drained s).par.nwords := by rwa [drained_par]
  have hpre : setWindowPre w (drained s) = .ok () :=
    (setWindowPre_iff _ _).mpr ⟨by rwa [drained_sel], (windowFits_drained _ _).mpr hfits⟩
  have hrun : exec (.setWindow w) s = .next (finish .ok (windowFrame w (drained s))) := opening_run () hw hpre
  rw [hrun, windowFrame_eq w _ hn']
  simp only [finish, addBursts, BitVec.ofNat_eq_ofNat, drained_par, drained_w, drained_cnt, drained_inhibit]

/-- After a drain that ended well, a next state means that the preconditions held. -/
theorem pre_of_opening_next {α : Type} {late : State → State} {pre : State → Except Refusal α}
    {body : α → State → Status × State} {s t : State} (h : opening late pre body s = .next t) (hw : WaitCompletes s) :
    ∃ v, pre (drained s) = .ok v := by
  obtain ⟨-, v, hpre, -⟩ | ⟨bs, o, k, hd, he, -⟩ := opening_next h
  · exact ⟨v, hpre⟩
  · exact (hw.no_timeout hd he).elim

/-- Settles O25: the preconditions of both operations hold only of a window that fits. -/
theorem badWindowHasNoMeaning : Obligations.BadWindowHasNoMeaning := by
  intro w s t hbad hw
  refine ⟨fun h => ?_, fun count addr adapt h => ?_⟩
  · obtain ⟨v, hpre⟩ := pre_of_opening_next h hw
    obtain ⟨-, hfits⟩ := (setWindowPre_iff w _).mp hpre
    exact hbad ((windowFits_drained w s).mp hfits)
  · obtain ⟨v, hpre⟩ := pre_of_opening_next h hw
    obtain ⟨-, hread⟩ := (bind_unit_ok_iff _ _ _).mp hpre
    obtain ⟨-, -, hfits, -⟩ := (readPre_iff w _ _ _ _).mp hread
    exact hbad ((windowFits_drained w s).mp hfits)

end Sys2Proof.Machine
end

section
/-! The colour-space converter (spec/42_color_convert.md R190, R191, R193, R194, R198): the luminance, where the clamp
never acts, and what unpacking gives back of a packed Color. -/

namespace Sys2Proof.Machine

/-! ## Grayscale -/

/-- The weighted sum of R190 over its denominator, before the clamp. -/
def luminance (c : Color) : Nat := (2989 * c.r.toNat + 4870 * c.g.toNat + 2140 * c.b.toNat) / 10000

/-- The weights sum to less than the denominator, so the largest channel is never reached (R191 item 1). -/
theorem luminance_le (c : Color) : luminance c ≤ 254 := by
  have hr := c.r.isLt
  have hg := c.g.isLt
  have hb := c.b.isLt
  unfold luminance
  omega

/-- The clamp of R190 never acts. -/
theorem gray_eq_luminance (c : Color) :
    gray c = ⟨BitVec.ofNat 8 (luminance c), BitVec.ofNat 8 (luminance c), BitVec.ofNat 8 (luminance c)⟩ := by
  have hclamp : min (luminance c) 255 = luminance c := min_eq_left ((luminance_le c).trans (by decide))
  calc gray c = ⟨BitVec.ofNat 8 (min (luminance c) 255), BitVec.ofNat 8 (min (luminance c) 255),
        BitVec.ofNat 8 (min (luminance c) 255)⟩ := rfl
    _ = _ := by rw [hclamp]

theorem gray_r_toNat (c : Color) : (gray c).r.toNat = luminance c := by
  have hle := luminance_le c
  rw [gray_eq_luminance, BitVec.toNat_ofNat]
  exact Nat.mod_eq_of_lt (by omega)

/-- On a grey the weights add up to one ten-thousandth less than one (R191 item 2). -/
theorem luminance_grey (l : Byte) : luminance ⟨l, l, l⟩ = l.toNat - min 1 l.toNat := by
  have hl := l.isLt
  simp only [luminance]
  omega

/-- Settles O26: the clauses are the equation of `gray`, the bound of the luminance, and its value on a grey. -/
theorem grayscaleFacts : Obligations.GrayscaleFacts := by
  intro c
  refine ⟨gray_r_toNat c, ?_, ?_, ?_, fun l => ?_⟩
  · rw [gray_eq_luminance]
  · rw [gray_eq_luminance]
  · exact (gray_r_toNat c).trans_le (luminance_le c)
  · have hlevel : BitVec.ofNat 8 (luminance ⟨l, l, l⟩) = l - BitVec.ofNat 8 (min 1 l.toNat) := by
      rw [luminance_grey, ← BitVec.ofNat_sub_ofNat_of_le _ _ (by omega) (by omega), BitVec.ofNat_toNat,
        BitVec.setWidth_eq]
    rw [gray_eq_luminance, hlevel]

/-! ## Packing -/

/-- A Color under a mask, masked again, is itself. -/
theorem maskColor_idem (k c : Color) : maskColor k (maskColor k c) = maskColor k c := by
  simp only [maskColor, BitVec.and_assoc, BitVec.and_self]

/-- A Color agrees with itself masked on the bits of the mask (R197). -/
theorem maskEq_masked (m : Depth) (c : Color) : maskEq m (maskColor (rdMask m) c) c = true := by
  rw [maskEq, maskColor_idem, beq_self_eq_true]

/-- The two bytes of the 5-6-5 form unpack to the Color with the discarded bits zero (R193, R198). -/
theorem pack565_unpacks (c : Color) : ∃ h l, pack565 c = [h, l] ∧ unpack565 h l = maskColor (rdMask .d16) c := by
  refine ⟨_, _, rfl, ?_⟩
  simp only [unpack565, maskColor, rdMask, Color.mk.injEq]
  refine ⟨?_, ?_, ?_⟩ <;>
  · apply BitVec.eq_of_getLsbD_eq
    intro i hi
    interval_cases i <;> simp

/-- Settles O27: the 5-6-5 form gives back the masked Color, the 3-byte form the Color. -/
theorem packingRoundTrips : Obligations.PackingRoundTrips := by
  intro c
  obtain ⟨h, l, hpack, hunpack⟩ := pack565_unpacks c
  refine ⟨⟨h, l, hpack, ?_⟩, c.r, c.g, c.b, rfl, rfl⟩
  rw [hunpack]
  exact maskEq_masked .d16 c

end Sys2Proof.Machine
end

section
/-! Pixel pushes (spec/43_pixel_push.md R210 to R221, R225): what each body makes of the state on the direct path, the
DMA path and the fill path, then an operation from its start. The statements about both pushes read their fields off
these equations. -/

namespace Sys2Proof.Machine

/-! ## Strategy selection (R213) -/

theorem goesDirect_of_le {p : Config.Params} {m : Depth} {n : Nat} (h : n * depthBits m ≤ directMaxBits p) :
    goesDirect p m n = true :=
  (goesDirect_bits p m n).mpr h

theorem goesDirect_of_lt {p : Config.Params} {m : Depth} {n : Nat} (h : directMaxBits p < n * depthBits m) :
    goesDirect p m n = false :=
  Bool.eq_false_iff.mpr fun hdirect => Nat.not_le.mpr h ((goesDirect_bits p m n).mp hdirect)

theorem goesDirect_drained (s : State) (m : Depth) (n : Nat) :
    goesDirect (drained s).par m n = goesDirect s.par m n := by rw [drained_par]

/-- What lies above the threshold is at least one pixel. -/
theorem count_pos_of_lt {p : Config.Params} {m : Depth} {n : Nat} (h : directMaxBits p < n * depthBits m) : 0 < n :=
  Nat.pos_of_ne_zero fun hn => by simp [hn] at h

theorem count_ne_zero_of_lt {p : Config.Params} {m : Depth} {count : Word}
    (h : directMaxBits p < count.toNat * depthBits m) : count ≠ 0 :=
  (BitVec.ne_of_lt (count_pos_of_lt h)).symm

/-! ## The direct path (R214) -/

theorem countBurst_countDirect_countBurst (c : Counters) :
    countBurst (countDirect (countBurst c)) = { c with direct := c.direct + 1, burst := c.burst + 2 } := by
  simp only [countBurst, countDirect, BitVec.add_assoc]
  rfl

/-- The payload of `n` pixels, in one burst after the command frame. -/
theorem pushDirect_pixels {bs : List Byte} {n : Nat} {m : Depth} {s : State} (hlength : bs.length = n * depthBytes m)
    (hn : n ≠ 0) (hdirect : goesDirect s.par m n = true) :
    pushDirect bs (openWrite s) =
      { s with
        dc := some .data
        w := loadWords (s.par.cmdRamwr.zeroExtend 32 :: s.w.drop 1) bs
        bitlen := n * depthBits m
        cnt := { s.cnt with direct := s.cnt.direct + 1, burst := s.cnt.burst + 2 }
        trace := s.trace ++ (commandFrame s.par.cmdRamwr ++ dataRun bs ++ [.burstTx (n * depthBits m)])
        panel := panelAfter s ((.command, s.par.cmdRamwr) :: atData bs) } := by
  have hfits : bs.length ≤ 4 * s.par.nwords := hlength ▸ (goesDirect_iff _ _ _).mp hdirect
  have hbits : 8 * bs.length = n * depthBits m := by rw [hlength, depthBits, Nat.mul_left_comm]
  rw [pushDirect_openWrite bs s (payload_ne_nil hlength hn) hfits, countBurst_countDirect_countBurst, dataBurst, hbits,
    List.append_assoc]

/-! ## The fill path (R218 to R221) -/

theorem fillPixels_pos {count width : Nat} (hcount : 0 < count) (hwidth : 0 < width) : 0 < fillPixels count width :=
  lt_min hcount (Nat.mul_pos (by decide) hwidth)

/-- All transfers but the last are full (R220). -/
theorem fillSizes_eq {count p N : Nat} (hcount : 0 < count) (hp : 0 < p) (hN : N = (count + p - 1) / p) :
    fillSizes count p = List.replicate (N - 1) p ++ [count - p * (N - 1)] := by
  have hdiv := Nat.div_add_mod count p
  have hlength := fillSizes_length count p hp
  rw [← hN] at hlength
  unfold fillSizes at hlength ⊢
  split
  · rename_i hmod
    have hN' : count / p = N := by simpa [hmod] using hlength
    have hfull : 0 < count / p := Nat.div_pos (Nat.le_of_dvd hcount (Nat.dvd_of_mod_eq_zero hmod)) hp
    obtain ⟨k, rfl⟩ : ∃ k, N = k + 1 := Nat.exists_eq_add_one.mpr (hN' ▸ hfull)
    have hlast : count - p * k = p := by rw [hmod, hN', Nat.mul_succ] at hdiv; omega
    rw [hN', Nat.add_sub_cancel, hlast, List.append_nil, List.replicate_succ']
  · rename_i hmod
    have hN' : count / p + 1 = N := by simpa [hmod] using hlength
    rw [← hN', Nat.add_sub_cancel, show count - p * (count / p) = count % p by omega]

/-- The transfers of a fill, written out: every chunk of the buffer repeats the same pixel (R220). -/
theorem fillFrames_eq (px : List Byte) {p : Nat} {ns : List Nat} (hle : ∀ n ∈ ns, n ≤ p) :
    (ns.flatMap fun n => dmaFrame ((repeatBytes px p).take (n * px.length))) =
      ns.flatMap fun n => dmaFrame (repeatBytes px n) :=
  List.flatMap_congr fun n hn => by rw [repeatBytes_take px p n (hle n hn)]

/-- The body where no buffer is obtained (R219). -/
theorem pushRepBody_abort {color : Color} {count width : Nat} {m : Depth} {g : Bool} {s : State}
    (hfill : goesDirect s.par m count = false) (halloc : nextAlloc s.env = false) :
    pushRepBody color count (m, g, width) s =
      (.ok, { openWrite s with env := popAlloc s.env, ef := flagAlloc s.ef }) := by
  have henv : (openWrite s).env = s.env := by rw [openWrite_eq]
  have hef : (openWrite s).ef = s.ef := by rw [openWrite_eq]
  simp only [pushRepBody, hfill, pushFill, henv, hef, halloc, Bool.false_eq_true, if_false]

/-- The block as a fill finds it: the command frame sent, the buffer obtained (R218). -/
def filling (color : Color) (count width : Nat) (m : Depth) (g : Bool) (s : State) : State :=
  { openWrite s with
    env := popAlloc s.env
    scratch := some (fillPixels count width * (wireBytes m g color).length) }

theorem filling_eq (color : Color) (count width : Nat) (m : Depth) (g : Bool) (s : State) :
    filling color count width m g s =
      { s with
        dc := some .data
        w := s.par.cmdRamwr.zeroExtend 32 :: s.w.drop 1
        bitlen := 8
        cnt := countBurst s.cnt
        env := popAlloc s.env
        scratch := some (fillPixels count width * (wireBytes m g color).length)
        trace := s.trace ++ commandFrame s.par.cmdRamwr
        panel := panelAfter s [(.command, s.par.cmdRamwr)] } := by
  rw [filling, openWrite_eq]

/-- The panel hears the chunks after the command. -/
theorem panelAfter_filling {color : Color} {count width : Nat} {m : Depth} {g : Bool} {s : State} (bs : List Byte)
    (hidle : (filling color count width m g s).dma = .idle) :
    panelAfter (drained (filling color count width m g s)) (atData bs) =
      panelAfter s ((.command, s.par.cmdRamwr) :: atData bs) := by
  rw [drained_idle _ hidle, filling_eq]
  exact panelAfter_append [(.command, s.par.cmdRamwr)] (atData bs) rfl rfl rfl

/-- The body where the buffer is obtained is the chunk loop (R220). -/
theorem pushRepBody_fill {color : Color} {count width : Nat} {m : Depth} {g : Bool} {s : State}
    (hfill : goesDirect s.par m count = false) (halloc : nextAlloc s.env = true) :
    pushRepBody color count (m, g, width) s =
      fillLoop (repeatBytes (wireBytes m g color) (fillPixels count width)) (wireBytes m g color).length
        (fillSizes count (fillPixels count width)) (filling color count width m g s) := by
  have henv : (openWrite s).env = s.env := by rw [openWrite_eq]
  simp only [pushRepBody, hfill, pushFill, henv, halloc, Bool.false_eq_true, if_false, if_true, filling]

/-- A fill that ends well has sent every pixel, and its buffer is released (R220, R221). -/
theorem pushRepBody_filled {color : Color} {count width : Nat} {m : Depth} {g : Bool} {s : State}
    (hfill : goesDirect s.par m count = false) (halloc : nextAlloc s.env = true) (hidle : s.dma = .idle)
    (hp : 0 < fillPixels count width) (hok : (pushRepBody color count (m, g, width) s).1 = .ok) :
    ∃ e, (pushRepBody color count (m, g, width) s).2 =
      { s with
        dc := some .data
        w := s.par.cmdRamwr.zeroExtend 32 :: s.w.drop 1
        bitlen := 8
        cnt :=
          { s.cnt with
            dma := s.cnt.dma + BitVec.ofNat 32 (fillSizes count (fillPixels count width)).length
            burst := s.cnt.burst + 1 }
        env := e
        scratch := none
        loan := none
        trace := s.trace ++ (commandFrame s.par.cmdRamwr ++
          (fillSizes count (fillPixels count width)).flatMap fun n => dmaFrame (repeatBytes (wireBytes m g color) n))
        panel := panelAfter s
          ((.command, s.par.cmdRamwr) :: atData (repeatBytes (wireBytes m g color) count)) } := by
  have hle := fillSizes_le count _ hp
  have hready : (filling color count width m g s).dma = .idle := by rw [filling_eq, hidle]
  rw [pushRepBody_fill hfill halloc] at hok ⊢
  obtain ⟨e, hloop⟩ := fillLoop_ok _ _ _ _ hok
  refine ⟨e, hloop.trans ?_⟩
  rw [fillFrames_eq _ hle, fillChunks _ _ _ hle, fillSizes_sum, panelAfter_filling _ hready, drained_idle _ hready,
    filling_eq]
  simp only [countBurst, List.append_assoc]

/-- With no timeout the fill ends well. -/
theorem pushRepBody_filled_status {color : Color} {count width : Nat} {m : Depth} {g : Bool} {s : State}
    (hfill : goesDirect s.par m count = false) (halloc : nextAlloc s.env = true) (hidle : s.dma = .idle)
    (hends : NoTimeouts (fillSizes count (fillPixels count width)).length s) :
    (pushRepBody color count (m, g, width) s).1 = .ok := by
  have hpop : (popAlloc s.env).ends = s.env.ends := by
    unfold popAlloc
    split <;> rfl
  rw [pushRepBody_fill hfill halloc]
  refine fillLoop_status _ _ _ _ (by rw [filling_eq, hidle]) ?_
  simpa only [NoTimeouts, filling_eq, hpop] using hends

/-! ## The two bodies on the direct path, and `PUSH_BUF` on the DMA path -/

theorem pushRepBody_direct {color : Color} {count width : Nat} {m : Depth} {g : Bool} {s : State}
    (hdirect : goesDirect s.par m count = true) :
    pushRepBody color count (m, g, width) s =
      (.ok, pushDirect (repeatBytes (wireBytes m g color) count) (openWrite s)) := by
  simp only [pushRepBody, hdirect, if_true]

/-- The body of `PUSH_BUF` (R211), as `execPushBuf_run` says. -/
def pushBufBody (addr count : Nat) (wait : Bool) (mg : Depth × Bool) (s : State) : Status × State :=
  pushStream (goesDirect s.par mg.1 count) (wireStream mg.1 mg.2 (readColors addr count s)) (some (addr, 3 * count))
    wait s

theorem pushBufBody_direct {addr count : Nat} {wait : Bool} {m : Depth} {g : Bool} {s : State}
    (hdirect : goesDirect s.par m count = true) :
    pushBufBody addr count wait (m, g) s =
      (.ok, pushDirect (wireStream m g (readColors addr count s)) (openWrite s)) := by
  rw [pushBufBody, hdirect, pushStream_direct]

theorem pushBufBody_dma {addr count : Nat} {wait : Bool} {m : Depth} {g : Bool} {s : State}
    (hdma : goesDirect s.par m count = false) :
    pushBufBody addr count wait (m, g) s =
      pushStream false (wireStream m g (readColors addr count s)) (some (addr, 3 * count)) wait s := by
  rw [pushBufBody, hdma]

/-! ## Operations from their start -/

theorem execPushRep_run {color : Color} {count : Word} {wait : Bool} {s : State} {v : Depth × Bool × Nat}
    (hw : WaitCompletes s) (hcount : count ≠ 0) (hpre : pushRepPre count.toNat (drained s) = .ok v) :
    exec (.pushRep color count wait) s =
      .next (finish (pushRepBody color count.toNat v (drained s)).1
        (pushRepBody color count.toNat v (drained s)).2) := by
  rw [exec, execPushRep, if_neg hcount]
  exact opening_run v hw hpre

theorem execPushBuf_run {addr count : Word} {wait : Bool} {s : State} {mg : Depth × Bool} (hw : WaitCompletes s)
    (hcount : count ≠ 0) (hpre : pushBufPre addr.toNat count.toNat (drained s) = .ok mg) :
    exec (.pushBuf addr count wait) s =
      .next (finish (pushBufBody addr.toNat count.toNat wait mg (drained s)).1
        (pushBufBody addr.toNat count.toNat wait mg (drained s)).2) := by
  rw [exec, execPushBuf, if_neg hcount]
  exact opening_run mg hw hpre

/-- What a `PUSH_REP` of pixels that gives a next state has done, its drain having ended well. -/
theorem execPushRep_next {color : Color} {count : Word} {wait : Bool} {s t : State} {m : Depth}
    (hw : WaitCompletes s) (hm : s.cfg.depth = some m) (hcount : count ≠ 0)
    (h : exec (.pushRep color count wait) s = .next t) :
    ∃ g width, s.cfg.gray = some g ∧ (goesDirect s.par m count.toNat = false → 0 < fillPixels count.toNat width) ∧
      t = finish (pushRepBody color count.toNat (m, g, width) (drained s)).1
        (pushRepBody color count.toNat (m, g, width) (drained s)).2 := by
  rw [exec, execPushRep, if_neg hcount] at h
  rcases opening_next h with ⟨-, ⟨m', g, width⟩, hpre, rfl⟩ | ⟨bs, o, k, hd, he, -⟩
  · obtain ⟨hmode, hwidth, -⟩ := (pushRepPre_iff _ _ _ _ _).mp hpre
    obtain ⟨-, hm', hg⟩ := (pushMode_iff _ _ _).mp hmode
    rw [drained_cfg] at hm' hg
    obtain rfl : m' = m := Option.some.inj (hm'.symm.trans hm)
    refine ⟨g, width, hg, fun hfill => ?_, rfl⟩
    rw [drained_par, hfill, if_neg Bool.false_ne_true] at hwidth
    obtain ⟨w, -, hw0, rfl⟩ := (fillWidth_iff _ _).mp hwidth
    exact fillPixels_pos (Nat.pos_of_ne_zero (count_ne_zero hcount)) (BitVec.toNat_pos_of_ne_zero hw0)
  · exact (hw.no_timeout hd he).elim

/-- What a `PUSH_BUF` of pixels that gives a next state has done, its drain having ended well. -/
theorem execPushBuf_next {addr count : Word} {wait : Bool} {s t : State} {m : Depth}
    (hw : WaitCompletes s) (hm : s.cfg.depth = some m) (hcount : count ≠ 0)
    (h : exec (.pushBuf addr count wait) s = .next t) :
    ∃ g, s.cfg.gray = some g ∧
      t = finish (pushBufBody addr.toNat count.toNat wait (m, g) (drained s)).1
        (pushBufBody addr.toNat count.toNat wait (m, g) (drained s)).2 := by
  rw [exec, execPushBuf, if_neg hcount] at h
  rcases opening_next h with ⟨-, ⟨m', g⟩, hpre, rfl⟩ | ⟨bs, o, k, hd, he, -⟩
  · obtain ⟨hmode, -⟩ := (pushBufPre_iff _ _ _ _).mp hpre
    obtain ⟨-, hm', hg⟩ := (pushMode_iff _ _ _).mp hmode
    rw [drained_cfg] at hm' hg
    obtain rfl : m' = m := Option.some.inj (hm'.symm.trans hm)
    exact ⟨g, hg, rfl⟩
  · exact (hw.no_timeout hd he).elim

/-- Settles O28: a zero count ends both operations before the drain (R217). -/
theorem zeroCountPushDoesNothing : Obligations.ZeroCountPushDoesNothing := by
  intro s color addr wait
  constructor
  · rw [exec, execPushRep, if_pos rfl]
    rfl
  · rw [exec, execPushBuf, if_pos rfl]
    rfl

/-! ## `PUSH_REP`, whole state -/

theorem pushRepPre_direct {count : Nat} {m : Depth} {g : Bool} {s : State} (hsel : s.sel = some .display)
    (hm : s.cfg.depth = some m) (hg : s.cfg.gray = some g) (hdirect : goesDirect s.par m count = true)
    (hpanel : PanelTakesPush m count (drained s)) : pushRepPre count (drained s) = .ok (m, g, 0) := by
  rw [pushRepPre_iff, pushMode_iff, drained_sel, drained_cfg, drained_par, if_pos hdirect]
  exact ⟨⟨hsel, hm, hg⟩, rfl, hpanel⟩

theorem pushRepPre_fill {count : Nat} {m : Depth} {g : Bool} {width : Half} {s : State} (hsel : s.sel = some .display)
    (hm : s.cfg.depth = some m) (hg : s.cfg.gray = some g) (hwidth : s.cfg.width = some width) (hwidth0 : width ≠ 0)
    (hfill : goesDirect s.par m count = false) (hpanel : PanelTakesPush m count (drained s)) :
    pushRepPre count (drained s) = .ok (m, g, width.toNat) := by
  rw [pushRepPre_iff, pushMode_iff, fillWidth_iff, drained_sel, drained_cfg, drained_par,
    if_neg (Bool.eq_false_iff.mp hfill)]
  exact ⟨⟨hsel, hm, hg⟩, ⟨width, hwidth, hwidth0, rfl⟩, hpanel⟩

/-- Settles O29: one command frame and one burst of the repeated wire bytes. -/
theorem pushRepGoesDirect : Obligations.PushRepGoesDirect := by
  intro color count wait s m g hw hsel hm hg hcount hbits hpanel
  have hdirect := goesDirect_of_le hbits
  have hdirect' := (goesDirect_drained s m _).trans hdirect
  rw [execPushRep_run hw hcount (pushRepPre_direct hsel hm hg hdirect hpanel), pushRepBody_direct hdirect',
    pushDirect_pixels (m := m) (by simp) (count_ne_zero hcount) hdirect']
  simp only [finish, commandFrame, drained_par, drained_w, drained_cnt]

/-- Settles O34: the command frame, the refused allocation, and no more. -/
theorem pushRepAbortsSilently : Obligations.PushRepAbortsSilently := by
  intro color count wait s m g width hw hsel hm hg hwidth hwidth0 hbits hpanel halloc
  have hcount := count_ne_zero_of_lt hbits
  have hfill := goesDirect_of_lt hbits
  rw [execPushRep_run hw hcount (pushRepPre_fill hsel hm hg hwidth hwidth0 hfill hpanel),
    pushRepBody_abort ((goesDirect_drained s m _).trans hfill) halloc, openWrite_eq]
  simp only [finish, commandFrame, countBurst, flagAlloc, drained_par, drained_w, drained_cnt, drained_ef]

/-- Settles O33: the chunk loop's transfers, counted and cut as R220 says. -/
theorem pushRepFillsByDma : Obligations.PushRepFillsByDma := by
  intro color count wait s m g width P N hw hsel hm hg hwidth hwidth0 hbits hpanel halloc hP hN hends
  have hpos := count_pos_of_lt hbits
  have hfill := goesDirect_of_lt hbits
  have hfill' := (goesDirect_drained s m _).trans hfill
  have hPpos : 0 < fillPixels count.toNat width.toNat := fillPixels_pos hpos (BitVec.toNat_pos_of_ne_zero hwidth0)
  obtain rfl : P = fillPixels count.toNat width.toNat := hP
  have hlength : (fillSizes count.toNat (fillPixels count.toNat width.toNat)).length = N :=
    (fillSizes_length _ _ hPpos).trans hN.symm
  have hok : (pushRepBody color count.toNat (m, g, width.toNat) (drained s)).1 = .ok :=
    pushRepBody_filled_status hfill' halloc (drained_dma s) (by rwa [hlength])
  obtain ⟨e, hbody⟩ := pushRepBody_filled hfill' halloc (drained_dma s) hPpos hok
  refine ⟨e, ?_⟩
  rw [execPushRep_run hw (count_ne_zero_of_lt hbits) (pushRepPre_fill hsel hm hg hwidth hwidth0 hfill hpanel), hok,
    hbody, hlength, fillSizes_eq hpos hPpos hN]
  simp only [finish, commandFrame, List.flatMap_append, List.flatMap_replicate, List.flatMap_singleton,
    List.append_assoc, drained_par, drained_w, drained_cnt, drained_loan]

/-! ## `PUSH_BUF`, whole state -/

theorem pushBufPre_drained {addr count : Nat} {m : Depth} {g : Bool} {s : State} (hsel : s.sel = some .display)
    (hm : s.cfg.depth = some m) (hg : s.cfg.gray = some g) (howned : BufferOwned addr (3 * count) s)
    (hreach : goesDirect s.par m count = true ∨ BufferDmaCapable addr (3 * count) s)
    (hpanel : PanelTakesPush m count (drained s)) : pushBufPre addr count (drained s) = .ok (m, g) := by
  rw [pushBufPre_iff, pushMode_iff, bufferOwned_drained, bufferDmaCapable_drained, drained_sel, drained_cfg,
    drained_par]
  exact ⟨⟨hsel, hm, hg⟩, howned, hreach, hpanel⟩

/-- Settles O30: one command frame and one burst of the buffer's wire bytes. -/
theorem pushBufGoesDirect : Obligations.PushBufGoesDirect := by
  intro addr count wait s m g hw hsel hm hg hcount hbits howned hpanel
  have hdirect := goesDirect_of_le hbits
  have hdirect' := (goesDirect_drained s m _).trans hdirect
  rw [execPushBuf_run hw hcount (pushBufPre_drained hsel hm hg howned (.inl hdirect) hpanel),
    pushBufBody_direct hdirect', pushDirect_pixels (m := m) (by simp) (count_ne_zero hcount) hdirect']
  simp only [finish, commandFrame, drained_par, drained_w, drained_cnt, readColors_drained]

/-- Above the threshold `PUSH_BUF` takes the DMA path (R213). -/
theorem execPushBuf_dma {addr count : Word} {wait : Bool} {s : State} {m : Depth} {g : Bool} (hw : WaitCompletes s)
    (hsel : s.sel = some .display) (hm : s.cfg.depth = some m) (hg : s.cfg.gray = some g) (hcount : count ≠ 0)
    (hbits : directMaxBits s.par < count.toNat * depthBits m) (howned : BufferOwned addr.toNat (3 * count.toNat) s)
    (hreach : BufferDmaCapable addr.toNat (3 * count.toNat) s) (hpanel : PanelTakesPush m count.toNat (drained s)) :
    exec (.pushBuf addr count wait) s =
      .next (finish
        (pushStream false (wireStream m g (readColors addr.toNat count.toNat s)) (some (addr.toNat, 3 * count.toNat))
          wait (drained s)).1
        (pushStream false (wireStream m g (readColors addr.toNat count.toNat s)) (some (addr.toNat, 3 * count.toNat))
          wait (drained s)).2) := by
  have hdma := (goesDirect_drained s m _).trans (goesDirect_of_lt hbits)
  rw [execPushBuf_run hw hcount (pushBufPre_drained hsel hm hg howned (.inr hreach) hpanel), pushBufBody_dma hdma,
    readColors_drained]

/-- Settles O31: the command frame and the queued transfer. -/
theorem pushBufQueuesTransfer : Obligations.PushBufQueuesTransfer := by
  intro addr count s m g hw hsel hm hg hcount hbits howned hreach hpanel
  rw [execPushBuf_dma hw hsel hm hg hcount hbits howned hreach hpanel, pushStream_queue, wireStream_length,
    readColors_length]
  simp only [finish, commandFrame, countDma, countBurst, List.cons_append, List.nil_append, drained_par, drained_w,
    drained_cnt]

/-- Settles O32: the awaited transfer, by the two ends of its wait. -/
theorem pushBufAwaitsTransfer : Obligations.PushBufAwaitsTransfer := by
  rintro addr count s m g payload hw hsel hm hg hcount hbits howned hreach hpanel rfl
  rw [execPushBuf_dma hw hsel hm hg hcount hbits howned hreach hpanel]
  refine ⟨fun he => ?_, fun k he => ?_⟩
  · rw [pushStream_done _ _ _ he]
    simp only [finish, commandFrame, dmaFrame, countDma, countBurst, List.cons_append, List.nil_append, drained_par,
      drained_w, drained_cnt, drained_dma, drained_loan]
  · rw [pushStream_timeout _ _ _ k he]
    simp only [finish, fail, flagsAfter, commandFrame, countDma, countBurst, List.cons_append, List.nil_append,
      drained_par, drained_w, drained_cnt, drained_dma, drained_loan, drained_ef]

/-! ## The path shows in the counters (R213, R225) -/

theorem awaitDma_cnt (s : State) : (awaitDma s).2.cnt = s.cnt := by
  rcases awaitDma_cases s with ⟨-, h⟩ | ⟨_, _, k, -, -, h⟩ <;> rw [h]
  · exact drained_cnt s
  · exact abandoned_cnt k s

/-- One transfer and one burst, awaited or not. -/
theorem pushStream_dma_cnt (bs : List Byte) (loan : Option (Nat × Nat)) (wait : Bool) (s : State) :
    (pushStream false bs loan wait s).2.cnt = countDma (countBurst s.cnt) := by
  cases wait with
  | false => rw [pushStream_queue]
  | true => rw [pushStream_wait, awaitDma_cnt, pushStream_queue]

/-- Above the threshold `PUSH_REP` starts one burst, its command's, and none that is counted as direct. -/
theorem pushRepBody_fill_cnt {color : Color} {count width : Nat} {m : Depth} {g : Bool} {s : State}
    (hfill : goesDirect s.par m count = false) :
    (pushRepBody color count (m, g, width) s).2.cnt.direct = s.cnt.direct ∧
      (pushRepBody color count (m, g, width) s).2.cnt.burst = s.cnt.burst + 1 := by
  cases halloc : nextAlloc s.env with
  | true =>
    rw [pushRepBody_fill hfill halloc]
    obtain ⟨e, tr, p, n, ef, -, -, hloop⟩ := fillLoop_spec
      (repeatBytes (wireBytes m g color) (fillPixels count width)) (wireBytes m g color).length
      (fillSizes count (fillPixels count width)) (filling color count width m g s)
    rw [hloop, filling_eq]
    exact ⟨rfl, rfl⟩
  | false =>
    rw [pushRepBody_abort hfill halloc, openWrite_eq]
    exact ⟨rfl, rfl⟩

/-- Settles O35: the counters of each body, on each side of the threshold. -/
theorem pathShowsInCounters : Obligations.PathShowsInCounters := by
  intro s t m hw hm
  refine ⟨fun color count wait hcount h => ?_, fun addr count wait hcount h => ?_⟩
  · obtain ⟨g, width, -, -, rfl⟩ := execPushRep_next hw hm hcount h
    rw [finish_cnt, ← drained_cnt s]
    refine ⟨fun hbits => ?_, fun hbits => ?_⟩
    · have hdirect := (goesDirect_drained s m _).trans (goesDirect_of_le hbits)
      rw [pushRepBody_direct hdirect, pushDirect_pixels (m := m) (by simp) (count_ne_zero hcount) hdirect]
      exact ⟨rfl, rfl, rfl⟩
    · exact pushRepBody_fill_cnt ((goesDirect_drained s m _).trans (goesDirect_of_lt hbits))
  · obtain ⟨g, -, rfl⟩ := execPushBuf_next hw hm hcount h
    rw [finish_cnt, ← drained_cnt s]
    refine ⟨fun hbits => ?_, fun hbits => ?_⟩
    · have hdirect := (goesDirect_drained s m _).trans (goesDirect_of_le hbits)
      rw [pushBufBody_direct hdirect, pushDirect_pixels (m := m) (by simp) (count_ne_zero hcount) hdirect]
      exact ⟨rfl, rfl, rfl⟩
    · rw [pushBufBody_dma ((goesDirect_drained s m _).trans (goesDirect_of_lt hbits)), pushStream_dma_cnt]
      exact ⟨rfl, rfl, rfl⟩

/-! ## The wire is the same on every path (R212) -/

/-- The direct path puts the memory-write command and the payload on the wire. -/
theorem pushDirect_wire {bs : List Byte} {n : Nat} {m : Depth} {s : State} (hlength : bs.length = n * depthBytes m)
    (hn : n ≠ 0) (hdirect : goesDirect s.par m n = true) :
    wireProjection (pushDirect bs (openWrite s)).trace =
      wireProjection s.trace ++ .tx .command s.par.cmdRamwr :: dataRun bs := by
  have hburst : wireProjection [.burstTx (n * depthBits m)] = [] := rfl
  rw [pushDirect_pixels hlength hn hdirect]
  simp [hburst]

/-- A transfer that completed puts the same on the wire. -/
theorem pushStream_dma_wire {bs : List Byte} {loan : Option (Nat × Nat)} {wait : Bool} {s : State}
    (hok : (pushStream false bs loan wait s).1 = .ok) (hidle : (pushStream false bs loan wait s).2.dma = .idle) :
    wireProjection (pushStream false bs loan wait s).2.trace =
      wireProjection s.trace ++ .tx .command s.par.cmdRamwr :: dataRun bs := by
  cases wait with
  | false =>
    rw [pushStream_queue] at hidle
    cases hidle
  | true =>
    cases he : nextEnd s.env with
    | none =>
      rw [pushStream_done bs loan s he]
      simp
    | some k =>
      rw [pushStream_timeout bs loan s k he] at hok
      cases hok

/-- So does a fill that ended well. -/
theorem pushRepBody_fill_wire {color : Color} {count width : Nat} {m : Depth} {g : Bool} {s : State}
    (hfill : goesDirect s.par m count = false) (halloc : nextAlloc s.env = true) (hidle : s.dma = .idle)
    (hp : 0 < fillPixels count width) (hok : (pushRepBody color count (m, g, width) s).1 = .ok) :
    wireProjection (pushRepBody color count (m, g, width) s).2.trace =
      wireProjection s.trace ++ .tx .command s.par.cmdRamwr :: dataRun (repeatBytes (wireBytes m g color) count) := by
  have hle := fillSizes_le count _ hp
  obtain ⟨e, hbody⟩ := pushRepBody_filled hfill halloc hidle hp hok
  rw [hbody]
  simp only [← fillFrames_eq _ hle, wireProjection_append, wireProjection_commandFrame, wireProjection_dmaFrames,
    fillChunks _ _ _ hle, fillSizes_sum, List.cons_append, List.nil_append]

/-- Settles O36: each path by itself. -/
theorem wireIsTheSameOnEveryPath : Obligations.WireIsTheSameOnEveryPath := by
  intro s t m g hw hm hg hlast hidle
  refine ⟨fun color count wait hcount h hpath => ?_, fun addr count wait hcount h => ?_⟩
  · obtain ⟨g', width, hg', hp, rfl⟩ := execPushRep_next hw hm hcount h
    obtain rfl : g' = g := Option.some.inj (hg'.symm.trans hg)
    rw [finish_last] at hlast
    rw [finish_trace, wireStream_replicate, ← drained_par s]
    cases hd : goesDirect (drained s).par m count.toNat with
    | true =>
      rw [pushRepBody_direct hd]
      exact pushDirect_wire (m := m) (by simp) (count_ne_zero hcount) hd
    | false =>
      have hfill := (goesDirect_drained s m _).symm.trans hd
      have halloc := hpath.resolve_left fun hbits => Bool.false_ne_true (hfill.symm.trans (goesDirect_of_le hbits))
      exact pushRepBody_fill_wire hd halloc (drained_dma s) (hp hfill) hlast
  · obtain ⟨g', hg', rfl⟩ := execPushBuf_next hw hm hcount h
    obtain rfl : g' = g := Option.some.inj (hg'.symm.trans hg)
    rw [finish_last] at hlast
    rw [finish_dma] at hidle
    rw [finish_trace, ← drained_par s, ← readColors_drained]
    cases hd : goesDirect (drained s).par m count.toNat with
    | true =>
      rw [pushBufBody_direct hd]
      exact pushDirect_wire (m := m) (by simp) (count_ne_zero hcount) hd
    | false =>
      rw [pushBufBody_dma hd] at hlast hidle ⊢
      exact pushStream_dma_wire hlast hidle

end Sys2Proof.Machine
end

section
/-! Reads (spec/44_pixel_read.md R240 to R250): what each operation makes of its read sequence, then the statements on
how a read ends, where every acknowledge comes and on any path. -/

namespace Sys2Proof.Machine

/-! ## Preconditions after a drain -/

theorem pixelWindow_drained (x y : Half) (s : State) : pixelWindow x y (drained s) = pixelWindow x y s := by
  simp only [pixelWindow, drained_par]

theorem readClock_drained (clocks : Option (Word × Word)) (s : State) :
    readClock clocks (drained s) = readClock clocks s := by
  simp only [readClock, drained_clock, drained_par]

theorem readPre_drained_iff (w : Window) (n : Nat) (adapt : Bool) (s : State) (clocks : Option (Word × Word)) :
    readPre w n adapt (drained s) = .ok clocks ↔
      s.sel ≠ some .touch ∧ adapterClocks adapt (drained s) = .ok clocks ∧ WindowFits w s ∧
        PanelGives w n (drained s) := by
  rw [readPre_iff, drained_sel, windowFits_drained]

/-- The preconditions of a read but for the host buffer, met: the adapter works with the clocks the read found. -/
theorem readPre_drained_ok {w : Window} {n : Nat} {adapt : Bool} {s : State} (hsel : s.sel ≠ some .touch)
    (hclocks : adapt = true → s.clock ≠ none ∧ s.cfg.maxRdclock ≠ none) (hfits : WindowFits w s)
    (hpanel : PanelGives w n (drained s)) : readPre w n adapt (drained s) = .ok (readClocks adapt s) := by
  have hadapter := adapterClocks_ok adapt (drained s) (by rwa [drained_clock, drained_cfg])
  rw [readClocks_drained] at hadapter
  exact (readPre_drained_iff _ _ _ _ _).mpr ⟨hsel, hadapter, hfits, hpanel⟩

/-- What a read that passed its preconditions has checked. -/
theorem of_readPre_drained {w : Window} {n : Nat} {adapt : Bool} {s : State} {clocks : Option (Word × Word)}
    (h : readPre w n adapt (drained s) = .ok clocks) :
    clocks = readClocks adapt s ∧ s.sel ≠ some .touch ∧ WindowFits w s ∧ PanelGives w n (drained s) := by
  obtain ⟨hsel, hclocks, hfits, hpanel⟩ := (readPre_drained_iff _ _ _ _ _).mp h
  exact ⟨(adapterClocks_eq hclocks).trans (readClocks_drained adapt s), hsel, hfits, hpanel⟩

/-! ## The two operations from their start -/

theorem execReadPixels_run {w : Window} {count addr : Word} {adapt : Bool} {s : State} (hw : WaitCompletes s)
    (howned : BufferOwned addr.toNat (rawBytes count.toNat) s)
    (hpre : readPre w count.toNat adapt (drained s) = .ok (readClocks adapt s)) :
    exec (.readPixels w count addr adapt) s =
      .next (finish (readPixelsBody w count.toNat addr.toNat (readClocks adapt s) (drained s)).1
        (readPixelsBody w count.toNat addr.toNat (readClocks adapt s) (drained s)).2) := by
  refine opening_run _ hw ((bind_unit_ok_iff _ _ _).mpr ⟨?_, hpre⟩)
  exact (requireBuffer_iff _ _ _).mpr ((bufferOwned_drained _ _ _).mpr howned)

/-- What a `READ_PIXELS` that gives a next state has done. -/
theorem execReadPixels_next {w : Window} {count addr : Word} {adapt : Bool} {s t : State}
    (h : exec (.readPixels w count addr adapt) s = .next t) :
    (WaitCompletes s ∧ (s.sel ≠ some .touch ∧ WindowFits w s ∧ PanelGives w count.toNat (drained s)) ∧
      t = finish (readPixelsBody w count.toNat addr.toNat (readClocks adapt s) (drained s)).1
        (readPixelsBody w count.toNat addr.toNat (readClocks adapt s) (drained s)).2) ∨
    ∃ k, ¬ WaitCompletes s ∧
      t = fail .dmaTimeout (scrambleBuffer addr.toNat (rawBytes count.toNat) (abandoned k s)) := by
  obtain ⟨hw, clocks, hpre, rfl⟩ | ⟨bs, o, k, hd, he, rfl⟩ := opening_next h
  · obtain ⟨-, hread⟩ := (bind_unit_ok_iff _ _ _).mp hpre
    obtain ⟨rfl, hchecked⟩ := of_readPre_drained hread
    exact .inl ⟨hw, hchecked, rfl⟩
  · exact .inr ⟨k, fun hw => hw.no_timeout hd he, rfl⟩

theorem execReadPixel_run {x y : Half} {s : State} (hw : WaitCompletes s) (hx : x.toNat + s.par.rspExt ≤ 0xFFFF)
    (hy : y.toNat + s.par.rspExt ≤ 0xFFFF)
    (hpre : readPre (pixelWindow x y s) 1 true (drained s) = .ok (readClocks true s)) :
    exec (.readPixel x y) s =
      .next (finish (readPixelBody x y (readClocks true s) (drained s)).1
        (readPixelBody x y (readClocks true s) (drained s)).2) := by
  refine opening_run _ hw ((bind_unit_ok_iff _ _ _).mpr ⟨?_, by rwa [pixelWindow_drained]⟩)
  simp [hx, hy]

/-- What a `READ_PIXEL` that gives a next state has done. -/
theorem execReadPixel_next {x y : Half} {s t : State} (h : exec (.readPixel x y) s = .next t) :
    (WaitCompletes s ∧ s.sel ≠ some .touch ∧
      t = finish (readPixelBody x y (readClocks true s) (drained s)).1
        (readPixelBody x y (readClocks true s) (drained s)).2) ∨
    ∃ k, ¬ WaitCompletes s ∧ t = fail .dmaTimeout { abandoned k s with result := none } := by
  obtain ⟨hw, clocks, hpre, rfl⟩ | ⟨bs, o, k, hd, he, rfl⟩ := opening_next h
  · obtain ⟨-, hread⟩ := (bind_unit_ok_iff _ _ _).mp hpre
    obtain ⟨rfl, hsel, -⟩ := of_readPre_drained hread
    exact .inl ⟨hw, hsel, rfl⟩
  · exact .inr ⟨k, fun hw => hw.no_timeout hd he, rfl⟩

/-! ## What the bodies make of the sequence -/

/-- The body of `READ_PIXELS` where bytes were received: they are stored (R240, R245). -/
theorem readPixelsBody_received {w : Window} {count addr : Nat} {clocks : Option (Word × Word)} {s u : State}
    {st : Status} {bytes : List Byte} (h : readSequence w (rawBytes count) clocks s = (st, some bytes, u)) :
    readPixelsBody w count addr clocks s = (st, { u with mem := memWrite u.mem addr bytes }) := by
  simp only [readPixelsBody, h]

/-- The body of `READ_PIXELS`: the read sequence, but for memory and the draws that fill a failed buffer. -/
theorem readPixelsBody_eq (w : Window) (count addr : Nat) (clocks : Option (Word × Word)) (s : State) :
    ∃ m e, readPixelsBody w count addr clocks s =
      ((readSequence w (rawBytes count) clocks s).1,
        { (readSequence w (rawBytes count) clocks s).2.2 with mem := m, env := e }) := by
  unfold readPixelsBody
  split <;> rename_i h <;> rw [h]
  · exact ⟨_, _, rfl⟩
  · exact ⟨_, _, rfl⟩

/-- The body of `READ_PIXEL`: the read sequence, but for the result, of which there is one with `ST_OK` alone. -/
theorem readPixelBody_eq (x y : Half) (clocks : Option (Word × Word)) (s : State) (hn : 0 < s.par.nwords) :
    ∃ v : Option Word,
      (v.isSome = true ↔ (readSequence (pixelWindow x y s) (rawBytes 1) clocks s).1 = .ok) ∧
      readPixelBody x y clocks s =
        ((readSequence (pixelWindow x y s) (rawBytes 1) clocks s).1,
          { (readSequence (pixelWindow x y s) (rawBytes 1) clocks s).2.2 with result := v }) := by
  obtain ⟨-, hend, -⟩ := readSequence_spec (pixelWindow x y s) (rawBytes 1) clocks s hn
  unfold readPixelBody
  generalize readSequence (pixelWindow x y s) (rawBytes 1) clocks s = r at hend ⊢
  cases hend with
  | done bytes u hl =>
    match bytes, hl with
    | [_, _, _, _], _ => exact ⟨_, by simp [pixelResult], rfl⟩
  | stuck | first | unselected => exact ⟨none, by simp, rfl⟩

/-! ## How a read ends -/

/-- One of the two operations that read the panel. -/
abbrev IsRead (i : Instr) : Prop :=
  (∃ w count addr adapt, i = .readPixels w count addr adapt) ∨ ∃ x y, i = .readPixel x y

/-- The state takes status, flags, selection and clock from the outcome of a read sequence. -/
structure EndsAs (r : Status × Option (List Byte) × State) (t : State) : Prop where
  last : t.last = r.1
  ef : t.ef = flagsAfter r.1 r.2.2.ef
  sel : t.sel = r.2.2.sel
  clock : t.clock = r.2.2.clock

/-- What a read that gives a next state has done: after a drain that ended well it ends as its sequence does, and after
one that timed out the clock is as it was. -/
theorem exec_read_next {i : Instr} {s t : State} (hi : IsRead i) (hn : 0 < s.par.nwords) (h : exec i s = .next t) :
    (WaitCompletes s ∧ s.sel ≠ some .touch ∧
      ∃ w n adapt, EndsAs (readSequence w n (readClocks adapt s) (drained s)) t) ∨
    (¬ WaitCompletes s ∧ t.clock = s.clock) := by
  obtain ⟨w, count, addr, adapt, rfl⟩ | ⟨x, y, rfl⟩ := hi
  · obtain ⟨hw, ⟨hsel, -⟩, rfl⟩ | ⟨k, hw, rfl⟩ := execReadPixels_next h
    · obtain ⟨m, e, hbody⟩ := readPixelsBody_eq w count.toNat addr.toNat (readClocks adapt s) (drained s)
      rw [hbody]
      exact .inl ⟨hw, hsel, w, _, adapt, finish_last _ _, finish_ef _ _, finish_sel _ _, finish_clock _ _⟩
    · exact .inr ⟨hw, abandoned_clock k s⟩
  · obtain ⟨hw, hsel, rfl⟩ | ⟨k, hw, rfl⟩ := execReadPixel_next h
    · obtain ⟨v, -, hbody⟩ := readPixelBody_eq x y (readClocks true s) (drained s) (by rwa [drained_par])
      rw [hbody]
      exact .inl ⟨hw, hsel, _, _, true, finish_last _ _, finish_ef _ _, finish_sel _ _, finish_clock _ _⟩
    · exact .inr ⟨hw, abandoned_clock k s⟩

/-- The clock the adapter restores is the one the read found. -/
theorem readClocks_current {adapt : Bool} {s : State} {cur top : Word} (h : readClocks adapt s = some (cur, top)) :
    s.clock = some cur := by
  unfold readClocks at h
  split at h
  · next hclock _ =>
    cases h
    exact hclock
  · cases h

/-- Either read gives the clock back, however it ends. -/
theorem exec_read_clock {i : Instr} {s t : State} (hi : IsRead i) (hn : 0 < s.par.nwords)
    (hquant : ∀ hz, s.clock = some hz → quantise s.par hz = hz) (h : exec i s = .next t) : t.clock = s.clock := by
  obtain ⟨-, -, w, n, adapt, hends⟩ | ⟨-, hclock⟩ := exec_read_next hi hn h
  · obtain ⟨-, -, hseq⟩ := readSequence_spec w n (readClocks adapt s) (drained s) (by rwa [drained_par])
    rw [drained_clock, drained_par] at hseq
    obtain hkept | ⟨cur, top, hclocks, -, hrestored⟩ := hseq
    · exact hends.clock.trans hkept
    · have hcur := readClocks_current hclocks
      rw [hends.clock, hrestored, hquant cur hcur, hcur]
  · exact hclock

/-- Settles O39: the restore asks for the entry clock, which the generator gives. -/
theorem readsRestoreTheClock : Obligations.ReadsRestoreTheClock := by
  intro s t hn hquant
  exact ⟨fun w count addr adapt h => exec_read_clock (.inl ⟨w, count, addr, adapt, rfl⟩) hn hquant h,
    fun x y h => exec_read_clock (.inr ⟨x, y, rfl⟩) hn hquant h⟩

/-- Settles O40: by the four ways a read sequence ends. -/
theorem readsEndDeselected : Obligations.ReadsEndDeselected := by
  intro i s t hn hi h hw
  obtain ⟨-, htouch, w, n, adapt, hends⟩ | ⟨hno, -⟩ := exec_read_next hi hn h
  · obtain ⟨-, hend, -⟩ := readSequence_spec w n (readClocks adapt s) (drained s) (by rwa [drained_par])
    obtain ⟨hlast, hef, hsel, -⟩ := hends
    generalize readSequence w n (readClocks adapt s) (drained s) = r at hend hlast hef hsel
    cases hend with
    | done bytes u hl hs he => simp [hlast, hef, hsel, hs, he, flagsAfter]
    | stuck bytes u hl hs he => simp [hlast, hef, hsel, hs, he, flagsAfter]
    | first u hs hne he =>
      have hdisplay : s.sel = some .display := by
        rw [drained_sel] at hne
        match hx : s.sel with
        | none => exact absurd hx hne
        | some .touch => exact absurd hx htouch
        | some .display => rfl
      simp [hlast, hef, hsel, hs, he, hdisplay, flagsAfter]
    | unselected u hs he =>
      have hnone := hs (by rwa [drained_sel])
      simp [hlast, hef, hsel, hnone, he, flagsAfter]
  · exact absurd hw hno

/-- Settles O42: after the drain a result is stored with `ST_OK` alone, and a drain that times out leaves none. -/
theorem readPixelResultMeansOk : Obligations.ReadPixelResultMeansOk := by
  intro x y s t hn h
  obtain ⟨-, -, rfl⟩ | ⟨k, -, rfl⟩ := execReadPixel_next h
  · obtain ⟨v, hv, hbody⟩ := readPixelBody_eq x y (readClocks true s) (drained s) (by rwa [drained_par])
    rw [hbody, finish_result, finish_last]
    exact hv
  · simp [fail]

/-! ## Where every acknowledge comes -/

theorem addBursts_five (n : Nat) (c : Counters) :
    addBursts (5 + n) c = { c with burst := c.burst + (5 + BitVec.ofNat 32 n) } := by
  simp only [addBursts, BitVec.ofNat_add]
  rfl

/-- Settles O38: the sequence of `readSequence_acked`, from the drained state, and the store of what it received. -/
theorem readPixelsStoresReceivedBytes : Obligations.ReadPixelsStoresReceivedBytes := by
  intro w count addr adapt s hn hw hacks hsel hclocks hfits howned hpanel
  have hn' : 0 < (drained s).par.nwords := by rwa [drained_par]
  obtain ⟨cs, e, p, hsizes, -, -, hseq⟩ := readSequence_acked w (rawBytes count.toNat) (readClocks adapt s) (drained s)
    hn' (by rwa [drained_sel]) hacks
  rw [drained_par] at hsizes
  have hlength : cs.flatten.length = rawBytes count.toNat := by
    rw [List.length_flatten, hsizes, burstSizes_sum _ hn]
  refine ⟨cs, _, execReadPixels_run hw howned (readPre_drained_ok hsel hclocks hfits hpanel), hsizes, hlength, ?_⟩
  rw [readPixelsBody_received hseq]
  simp [finish, readClock_drained, addBursts_five]

/-- Four bytes received at once make one burst. -/
theorem burstSizes_four (p : Config.Params) (hn : 0 < p.nwords) : burstSizes p 4 = [4] := by
  rw [burstSizes, burstChunks_small p _ (by simp) (by rw [List.length_replicate]; omega)]
  rfl

/-- Settles O41: the same sequence with one burst of four bytes, the first of which is the dummy byte. -/
theorem readPixelReturnsColor : Obligations.ReadPixelReturnsColor := by
  intro x y s hn hw hacks hsel hclock hmax hx hy hfits hpanel
  have hn' : 0 < (drained s).par.nwords := by rwa [drained_par]
  obtain ⟨cs, e, p, hsizes, -, -, hseq⟩ := readSequence_acked (pixelWindow x y s) (rawBytes 1) (readClocks true s)
    (drained s) hn' (by rwa [drained_sel]) hacks
  rw [rawBytes, burstSizes_four _ hn'] at hsizes
  have hrun := execReadPixel_run hw hx hy (readPre_drained_ok hsel (fun _ => ⟨hclock, hmax⟩) hfits hpanel)
  match cs, hsizes with
  | [[dummy, r, g, b]], _ =>
    refine ⟨dummy, r, g, b, _, hrun, ?_⟩
    simp only [readPixelBody, pixelWindow_drained, hseq]
    simp [finish, readClock_drained, addBursts, receiveRun, pixelResult]

end Sys2Proof.Machine
end

section
/-! Reading back what was pushed (spec/44_pixel_read.md R251; 20_memory.md R92; 95_test_vectors.md T2): what
`SET_WINDOW`, a push and `READ_PIXELS` make of an attached panel, one after another. What a push still has in flight is
heard at the drain that opens the read, so the panel is looked at behind that drain. -/

namespace Sys2Proof.Machine

/-! ## The drain -/

/-- The panel behind a drain has heard the bytes that were in flight, if any were. -/
theorem drained_panel (s : State) : ∃ bytes, (drained s).panel = panelAfter s bytes := by
  cases hd : s.dma with
  | idle => exact ⟨[], by rw [drained_idle s hd, panelAfter_nil]⟩
  | inFlight bs o => exact ⟨atData bs, by rw [drained_inFlight s bs o hd]⟩

theorem drained_panel_idle {s : State} (hd : s.dma = .idle) : (drained s).panel = s.panel := by
  rw [drained_idle s hd]

/-- The end of an operation has no part in what a drain does to the panel. -/
theorem drained_finish_panel (st : Status) (s : State) : (drained (finish st s)).panel = (drained s).panel := by
  cases hd : s.dma with
  | idle => rw [drained_idle _ ((finish_dma st s).trans hd), drained_idle s hd, finish_panel]
  | inFlight bs o =>
    rw [drained_inFlight _ bs o ((finish_dma st s).trans hd), drained_inFlight s bs o hd]
    exact panelAfter_congr (finish_sel st s) (finish_par st s) (finish_panel st s) _

/-- An operation that ends with `ST_OK` has met its preconditions behind a drain that ended well, and run its body. -/
theorem opening_ok {α : Type} {late : State → State} {pre : State → Except Refusal α}
    {body : α → State → Status × State} {s t : State} (h : opening late pre body s = .next t) (hlast : t.last = .ok) :
    WaitCompletes s ∧ ∃ v, pre (drained s) = .ok v ∧ (body v (drained s)).1 = .ok ∧
      t = finish .ok (body v (drained s)).2 := by
  obtain ⟨hw, v, hpre, rfl⟩ | ⟨bs, o, k, -, -, rfl⟩ := opening_next h
  · rw [finish_last] at hlast
    exact ⟨hw, v, hpre, hlast, by rw [hlast]⟩
  · cases hlast

/-! ## What the operations leave as they found it -/

/-- Parameters, configuration, clock and host memory are the same. -/
structure SameSetup (s t : State) : Prop where
  par : t.par = s.par
  cfg : t.cfg = s.cfg
  clock : t.clock = s.clock
  mem : t.mem = s.mem

theorem SameSetup.trans {s t u : State} (h : SameSetup s t) (k : SameSetup t u) : SameSetup s u :=
  ⟨k.par.trans h.par, k.cfg.trans h.cfg, k.clock.trans h.clock, k.mem.trans h.mem⟩

/-- An operation that lists neither configuration nor clock nor memory leaves all three. -/
theorem exec_sameSetup {i : Instr} {s t : State} (h : exec i s = .next t) (hn : 0 < s.par.nwords)
    (hwrites : writes i .config = false ∧ writes i .clock = false ∧ writes i .memory = false) : SameSetup s t := by
  obtain ⟨hconfig, hclock, hmemory⟩ := hwrites
  have hframed := exec_framed h hn
  exact ⟨hframed.par, hframed.parts .config hconfig, hframed.parts .clock hclock, hframed.parts .memory hmemory⟩

theorem readingClock_sameSetup {s t : State} (h : SameSetup s t) (adapt : Bool) :
    readingClock (readClocks adapt t) t = readingClock (readClocks adapt s) s := by
  simp only [readingClock, readClocks, h.par, h.cfg, h.clock]

theorem readingClock_drained (clocks : Option (Word × Word)) (s : State) :
    readingClock clocks (drained s) = readingClock clocks s := by
  simp only [readingClock, drained_clock, drained_par]

/-! ## The window -/

/-- The panel holds the window and can be read at the clock. -/
structure HoldsWindow (w : Window) (hz : Word) (q : Panel) : Prop where
  cols : q.cols = some (w.cs, w.ce)
  rows : q.rows = some (w.rs, w.re)
  limit : hz ≤ q.rdMaxHz

/-- `SET_WINDOW` that ended well: the display is selected and idle, and its panel holds the window (20 R83). -/
theorem exec_setWindow_ok {w : Window} {s t : State} {p : Panel} {hz : Word} (hn : 0 < s.par.nwords)
    (hcmds : CommandsDiffer s.par) (hp : s.panel = some p) (hlimit : hz ≤ p.rdMaxHz)
    (h : exec (.setWindow w) s = .next t) (hlast : t.last = .ok) :
    t.sel = some .display ∧ t.dma = .idle ∧ ∃ q, t.panel = some q ∧ HoldsWindow w hz q := by
  have hn' : 0 < (drained s).par.nwords := by rwa [drained_par]
  obtain ⟨-, ⟨⟩, hpre, -, rfl⟩ := opening_ok h hlast
  obtain ⟨hsel, -⟩ := (setWindowPre_iff _ _).mp hpre
  have hsel' : s.sel = some .display := (drained_sel s).symm.trans hsel
  obtain ⟨bytes, hbytes⟩ := drained_panel s
  have hpanel : panelAfter (drained s) (windowBytes s.par w) =
      some (panelHears s.par (windowBytes s.par w) (panelHears s.par bytes p)) := by
    rw [panelAfter_append bytes _ (drained_sel s) (drained_par s) hbytes, panelAfter_some s p _ hp hsel',
      panelHears_append]
  obtain ⟨hheard, -⟩ := panelHears_keeps s.par bytes p
  simp only [finish, windowFrame_eq w _ hn', drained_par, drained_dma, hpanel]
  refine ⟨hsel, trivial, _, rfl, ?_⟩
  rw [panelHears_window _ _ _ hcmds]
  exact ⟨rfl, rfl, hheard.symm ▸ hlimit⟩

/-! ## The push -/

/-- Behind its drain `t` has the panel of `s` after the memory-write command and the wire bytes of Colors, and the panel
of `s` had the format of the mode. -/
structure WritesPixels (m : Depth) (g : Bool) (colors : List Color) (s t : State) : Prop where
  format : ∀ q, s.panel = some q → q.fmt = fmtOfDepth m
  panel : (drained t).panel = panelAfter s ((.command, s.par.cmdRamwr) :: atData (wireStream m g colors))

/-- The direct path (43 R214). -/
theorem pushDirect_writes {bs : List Byte} {n : Nat} {m : Depth} {s : State} (hlength : bs.length = n * depthBytes m)
    (hn : n ≠ 0) (hdirect : goesDirect s.par m n = true) (hidle : s.dma = .idle) :
    (drained (pushDirect bs (openWrite s))).panel = panelAfter s ((.command, s.par.cmdRamwr) :: atData bs) := by
  rw [pushDirect_pixels hlength hn hdirect]
  exact drained_panel_idle hidle

/-- The DMA path of `PUSH_BUF`, its transfer awaited by the push or by the next drain (43 R215, R216). -/
theorem pushStream_dma_writes {bs : List Byte} {loan : Option (Nat × Nat)} {wait : Bool} {s : State}
    (hok : (pushStream false bs loan wait s).1 = .ok) :
    (drained (pushStream false bs loan wait s).2).panel =
      panelAfter s ((.command, s.par.cmdRamwr) :: atData bs) := by
  cases wait with
  | false =>
    rw [pushStream_queue, drained_inFlight _ bs .caller rfl]
    exact panelAfter_append [(.command, s.par.cmdRamwr)] (atData bs) rfl rfl rfl
  | true =>
    cases he : nextEnd s.env with
    | none =>
      rw [pushStream_done bs loan s he]
      exact drained_panel_idle rfl
    | some k =>
      rw [pushStream_timeout bs loan s k he] at hok
      cases hok

/-- A fill that ended well (43 R220, R221). -/
theorem pushRepBody_fill_writes {color : Color} {count width : Nat} {m : Depth} {g : Bool} {s : State}
    (hfill : goesDirect s.par m count = false) (halloc : nextAlloc s.env = true) (hidle : s.dma = .idle)
    (hp : 0 < fillPixels count width) (hok : (pushRepBody color count (m, g, width) s).1 = .ok) :
    (drained (pushRepBody color count (m, g, width) s).2).panel =
      panelAfter s ((.command, s.par.cmdRamwr) :: atData (repeatBytes (wireBytes m g color) count)) := by
  obtain ⟨e, hbody⟩ := pushRepBody_filled hfill halloc hidle hp hok
  rw [hbody]
  exact drained_panel_idle hidle

/-- The body of `PUSH_BUF` on either path. -/
theorem pushBufBody_writes {addr count : Nat} {wait : Bool} {m : Depth} {g : Bool} {s : State} (hidle : s.dma = .idle)
    (hcount : count ≠ 0) (hok : (pushBufBody addr count wait (m, g) s).1 = .ok) :
    (drained (pushBufBody addr count wait (m, g) s).2).panel =
      panelAfter s ((.command, s.par.cmdRamwr) :: atData (wireStream m g (readColors addr count s))) := by
  cases hd : goesDirect s.par m count with
  | true =>
    rw [pushBufBody_direct hd]
    exact pushDirect_writes (by simp) hcount hd hidle
  | false =>
    rw [pushBufBody_dma hd] at hok ⊢
    exact pushStream_dma_writes hok

/-- The body of `PUSH_REP` on either path, the fill buffer obtained where there is one (43 R219). -/
theorem pushRepBody_writes {color : Color} {count width : Nat} {m : Depth} {g : Bool} {s : State}
    (hidle : s.dma = .idle) (hcount : count ≠ 0)
    (hpath : count * depthBits m ≤ directMaxBits s.par ∨ nextAlloc s.env = true)
    (hwidth : goesDirect s.par m count = false → 0 < width) (hok : (pushRepBody color count (m, g, width) s).1 = .ok) :
    (drained (pushRepBody color count (m, g, width) s).2).panel =
      panelAfter s ((.command, s.par.cmdRamwr) :: atData (wireStream m g (List.replicate count color))) := by
  rw [wireStream_replicate]
  cases hd : goesDirect s.par m count with
  | true =>
    rw [pushRepBody_direct hd]
    exact pushDirect_writes (by simp) hcount hd hidle
  | false =>
    have halloc := hpath.resolve_left fun hbits => Bool.false_ne_true (hd.symm.trans (goesDirect_of_le hbits))
    exact pushRepBody_fill_writes hd halloc hidle (fillPixels_pos (Nat.pos_of_ne_zero hcount) (hwidth hd)) hok

/-- A push that finds the bus idle writes what its body writes behind the opening drain. -/
theorem writesPixels_of_body {m : Depth} {g : Bool} {colors : List Color} {s b : State} (hidle : s.dma = .idle)
    (hformat : ∀ q, (drained s).panel = some q → q.fmt = fmtOfDepth m)
    (hbody : (drained b).panel =
      panelAfter (drained s) ((.command, (drained s).par.cmdRamwr) :: atData (wireStream m g colors))) :
    WritesPixels m g colors s (finish .ok b) where
  format := by rwa [drained_panel_idle hidle] at hformat
  panel := by
    rw [drained_finish_panel, hbody, drained_par]
    exact panelAfter_congr (drained_sel s) (drained_par s) (drained_panel_idle hidle) _

theorem exec_pushBuf_writes {addr count : Word} {wait : Bool} {s t : State} {m : Depth} {g : Bool}
    (hidle : s.dma = .idle) (hm : s.cfg.depth = some m) (hg : s.cfg.gray = some g) (hcount : count ≠ 0)
    (h : exec (.pushBuf addr count wait) s = .next t) (hlast : t.last = .ok) :
    WritesPixels m g (readColors addr.toNat count.toNat s) s t := by
  rw [exec, execPushBuf, if_neg hcount] at h
  obtain ⟨-, ⟨m', g'⟩, hpre, hok, rfl⟩ := opening_ok h hlast
  obtain ⟨hmode, -, -, hformat, -⟩ := (pushBufPre_iff _ _ _ _).mp hpre
  obtain ⟨-, hm', hg'⟩ := (pushMode_iff _ _ _).mp hmode
  rw [drained_cfg] at hm' hg'
  obtain rfl : m' = m := Option.some.inj (hm'.symm.trans hm)
  obtain rfl : g' = g := Option.some.inj (hg'.symm.trans hg)
  have hbody := pushBufBody_writes (drained_dma s) (count_ne_zero hcount) hok
  rw [readColors_drained] at hbody
  exact writesPixels_of_body hidle hformat hbody

theorem exec_pushRep_writes {color : Color} {count : Word} {wait : Bool} {s t : State} {m : Depth} {g : Bool}
    (hidle : s.dma = .idle) (hm : s.cfg.depth = some m) (hg : s.cfg.gray = some g) (hcount : count ≠ 0)
    (hpath : count.toNat * depthBits m ≤ directMaxBits s.par ∨ nextAlloc s.env = true)
    (h : exec (.pushRep color count wait) s = .next t) (hlast : t.last = .ok) :
    WritesPixels m g (List.replicate count.toNat color) s t := by
  have henv : (drained s).env = s.env := by rw [drained_idle s hidle]
  rw [exec, execPushRep, if_neg hcount] at h
  obtain ⟨-, ⟨m', g', width⟩, hpre, hok, rfl⟩ := opening_ok h hlast
  obtain ⟨hmode, hwidth, hformat, -⟩ := (pushRepPre_iff _ _ _ _ _).mp hpre
  obtain ⟨-, hm', hg'⟩ := (pushMode_iff _ _ _).mp hmode
  rw [drained_cfg] at hm' hg'
  obtain rfl : m' = m := Option.some.inj (hm'.symm.trans hm)
  obtain rfl : g' = g := Option.some.inj (hg'.symm.trans hg)
  refine writesPixels_of_body hidle hformat
    (pushRepBody_writes (drained_dma s) (count_ne_zero hcount) (by rwa [drained_par, henv]) (fun hfill => ?_) hok)
  rw [if_neg (Bool.eq_false_iff.mp hfill)] at hwidth
  obtain ⟨v, -, hv, rfl⟩ := (fillWidth_iff _ _).mp hwidth
  exact BitVec.toNat_pos_of_ne_zero hv

/-! ## The read -/

theorem select_panel (d : Dev) (s : State) : (select d s).2.panel = s.panel := by
  rcases select_cases d s with ⟨-, h⟩ | ⟨-, -, h⟩ | ⟨-, -, h⟩ <;> rw [h]

/-- A deselect leaves the panel, or the display forgets its command and arguments (20 R90). -/
theorem deselect_display_panel (s : State) :
    (deselect .display s).2.panel = s.panel ∨ (deselect .display s).2.panel = s.panel.map panelDeselect := by
  rcases deselect_cases .display s with ⟨-, h⟩ | ⟨-, -, h⟩ | ⟨-, -, h⟩ <;> rw [h]
  · exact .inl rfl
  · exact .inr rfl
  · exact .inl rfl

/-- What the opening of the adapter leaves, where it went well: the clock to read at, and the panel (R242). -/
theorem openAdapter_ok {clocks : Option (Word × Word)} {saved : Option Word} {s u : State}
    (h : openAdapter clocks s = (.ok, saved, u)) :
    u.par = s.par ∧ u.clock = readingClock clocks s ∧ (u.panel = s.panel ∨ u.panel = s.panel.map panelDeselect) := by
  have hpar := (bus_deselect .display s).par
  have hclock := deselect_clock .display s
  have hpanel := deselect_display_panel s
  rcases openAdapter_cases clocks s with ⟨rfl, ho⟩ | ⟨cur, top, rfl, hlt, -, ho⟩ | ⟨cur, top, rfl, hlt, -, ho⟩ |
    ⟨cur, top, -, -, ho⟩ <;> rw [ho] at h <;> cases h
  · exact ⟨rfl, rfl, .inl rfl⟩
  · exact ⟨hpar, by rw [hclock, readingClock, if_neg hlt], hpanel⟩
  · exact ⟨hpar, by rw [setClock_clock, hpar, readingClock, if_pos hlt], hpanel⟩

/-- A read sequence that ended well received its bytes in the frame of R240, from a state with the display selected,
the clock to read at, and the panel as it was or deselected. -/
theorem readSequence_ok {w : Window} {n : Nat} {clocks : Option (Word × Word)} {s : State}
    (hok : (readSequence w n clocks s).1 = .ok) :
    ∃ u t, readSequence w n clocks s = (.ok, some (receiveFrame w n u).1, t) ∧ u.sel = some .display ∧
      u.par = s.par ∧ u.clock = readingClock clocks s ∧
      (u.panel = s.panel ∨ u.panel = s.panel.map panelDeselect) := by
  have hopened : (openAdapter clocks s).1 = .ok := by
    rcases openAdapter_cases clocks s with ⟨-, ho⟩ | ⟨_, _, -, -, -, ho⟩ | ⟨_, _, -, -, -, ho⟩ | ⟨_, _, -, -, ho⟩
    · rw [ho]
    · rw [ho]
    · rw [ho]
    · simp [readSequence, ho] at hok
  obtain ⟨⟨st, saved, s1⟩, ho⟩ : ∃ r, openAdapter clocks s = r := ⟨_, rfl⟩
  obtain rfl : st = .ok := by rwa [ho] at hopened
  obtain ⟨hpar, hclock, hpanel⟩ := openAdapter_ok ho
  obtain ⟨hselect, hseq⟩ | ⟨-, hseq⟩ := readSequence_open w n clocks saved s s1 ho
  · obtain ⟨hsel, -⟩ := select_ok _ _ hselect
    rw [hseq] at hok
    exact ⟨(select .display s1).2, _, hseq.trans (congrArg (·, _, _) hok), hsel, (bus_select _ _).par.trans hpar,
      (select_clock _ _).trans hclock, by rwa [select_panel]⟩
  · rw [hseq] at hok
    cases hok

/-- The body of `READ_PIXELS` that ended well: host memory holds the bytes of such a frame (R240). -/
theorem readPixelsBody_ok {w : Window} {count addr : Nat} {clocks : Option (Word × Word)} {s : State}
    (hn : 0 < s.par.nwords) (hwf : Memory.wf s.mem = true) (hok : (readPixelsBody w count addr clocks s).1 = .ok) :
    ∃ u, memRead (readPixelsBody w count addr clocks s).2.mem addr (rawBytes count) =
        (receiveFrame w (rawBytes count) u).1 ∧
      u.sel = some .display ∧ u.par = s.par ∧ u.clock = readingClock clocks s ∧
      (u.panel = s.panel ∨ u.panel = s.panel.map panelDeselect) := by
  obtain ⟨m, e, hbody⟩ := readPixelsBody_eq w count addr clocks s
  rw [hbody] at hok
  obtain ⟨u, t, hseq, hsel, hpar, hclock, hpanel⟩ := readSequence_ok hok
  obtain ⟨hbus, -⟩ := readSequence_spec w (rawBytes count) clocks s hn
  rw [hseq] at hbus
  have hlength := receiveFrame_length w (rawBytes count) u (hpar ▸ hn)
  have hread := memRead_memWrite t.mem addr (receiveFrame w (rawBytes count) u).1 (hbus.mem ▸ hwf)
  rw [hlength] at hread
  refine ⟨u, ?_, hsel, hpar, hclock, hpanel⟩
  simp only [readPixelsBody_received hseq]
  exact hread

/-- The pixels of a window, received from a selected display that stores them, at a clock it reads reliably (20 R92). -/
theorem receiveFrame_returns {w : Window} {m : Depth} {colors : List Color} {n : Nat} {hz : Word} {s : State}
    {q : Panel} (hn : 0 < s.par.nwords) (hcmds : CommandsDiffer s.par) (hcols : w.cs ≤ w.ce) (hrows : w.rs ≤ w.re)
    (hfits : colors.length ≤ windowArea w) (hcount : colors.length = n) (hsel : s.sel = some .display)
    (hclock : s.clock = some hz) (hp : s.panel = some q) (hfmt : q.fmt = fmtOfDepth m) (hlimit : hz ≤ q.rdMaxHz)
    (hstored : ∀ i c, colors[i]? = some c → sparseFind (windowKey w i) q.gram = some (storedPixel s.par m c)) :
    List.Forall₂ (fun c b => maskEq m c b = true) colors (strippedPixels (receiveFrame w (rawBytes n) s).1) := by
  obtain ⟨draws, hdraws, hbytes, -⟩ := receiveFrame_panel w (rawBytes n) s q hn hp hsel
  rw [hbytes, hclock]
  exact panelGives_read s.par m w hz hcols hrows hcmds colors q draws (by rw [hdraws, hcount, rawBytes]) hlimit hfmt
    hfits hstored

/-- A deselect of the display has no part in what a panel stores and how it is read. -/
theorem panel_kept {p q : Option Panel} {r : Panel} (hp : p = some r) (hq : q = p ∨ q = p.map panelDeselect) :
    ∃ r', q = some r' ∧ r'.gram = r.gram ∧ r'.fmt = r.fmt ∧ r'.rdMaxHz = r.rdMaxHz := by
  subst hp
  rcases hq with rfl | rfl
  · exact ⟨r, rfl, rfl, rfl, rfl⟩
  · exact ⟨panelDeselect r, rfl, rfl, rfl, rfl⟩

/-- `READ_PIXELS` that ended well, where the last thing the panel heard is a write of as many pixels to the window: the
pixels in host memory agree with the ones written on the bits of the mode's mask. -/
theorem exec_readPixels_returns {w : Window} {count dst : Word} {adapt : Bool} {s t : State} {m : Depth}
    {colors : List Color} {q : Panel} {hz : Word} (hn : 0 < s.par.nwords) (hcmds : CommandsDiffer s.par)
    (hwf : Memory.wf s.mem = true) (hclock : readingClock (readClocks adapt s) s = some hz) (hq : HoldsWindow w hz q)
    (hfmt : q.fmt = fmtOfDepth m) (hcount : colors.length = count.toNat)
    (hpanel : (drained s).panel =
      some (panelHears s.par ((.command, s.par.cmdRamwr) :: atData (wireStream m false colors)) q))
    (h : exec (.readPixels w count dst adapt) s = .next t) (hlast : t.last = .ok) :
    List.Forall₂ (fun c b => maskEq m c b = true) colors
      (strippedPixels (memRead t.mem dst.toNat (rawBytes count.toNat))) := by
  obtain ⟨-, ⟨-, ⟨hcols, hrows, -⟩, hgives⟩, rfl⟩ | ⟨k, -, rfl⟩ := execReadPixels_next h
  · obtain ⟨hfits, -⟩ := hgives (by simp [hpanel])
    rw [← hcount] at hfits
    rw [finish_last] at hlast
    obtain ⟨u, hread, hsel, hpar, huclock, hupanel⟩ :=
      readPixelsBody_ok (by rwa [drained_par]) (by rwa [drained_mem]) hlast
    rw [drained_par] at hpar
    have hstored := panelHears_write s.par m w hcols hrows hcmds colors q hfmt hfits hq.cols hq.rows
    obtain ⟨q', hq', hgram, hfmt', hlimit⟩ := panel_kept hpanel hupanel
    rw [finish_mem, hread]
    refine receiveFrame_returns (hpar ▸ hn) (hpar ▸ hcmds) hcols hrows hfits hcount hsel
      (huclock.trans ((readingClock_drained _ s).trans hclock)) hq' ?_ ?_ ?_
    · exact hfmt'.trans ((panelHears_spec _ _ q).1.trans hfmt)
    · rw [hlimit, (panelHears_keeps _ _ q).1]
      exact hq.limit
    · rwa [hgram, hpar]
  · cases hlast

/-! ## All three -/

/-- The pixels of a read of none: the dummy byte is not among them. -/
theorem strippedPixels_dummy (b : List Byte) (h : b.length = rawBytes 0) : strippedPixels b = [] := by
  match b, h with
  | [_], _ => rfl

/-- The operation pushes the Colors: from a buffer `s` holds, or as repetitions of one of them. Above the threshold they
must obtain their fill buffer in `s1` (43 R219). -/
abbrev PushOf (m : Depth) (colors : List Color) (count : Word) (s s1 : State) (i : Instr) : Prop :=
  (∃ addr wait, i = .pushBuf addr count wait ∧ colors = readColors addr.toNat count.toNat s) ∨
    ∃ color wait, i = .pushRep color count wait ∧ colors = List.replicate count.toNat color ∧
      (count.toNat * depthBits m ≤ directMaxBits s.par ∨ nextAlloc s1.env = true)

theorem PushOf.length {m : Depth} {colors : List Color} {count : Word} {s s1 : State} {i : Instr}
    (h : PushOf m colors count s s1 i) : colors.length = count.toNat := by
  obtain ⟨addr, wait, -, rfl⟩ | ⟨color, wait, -, rfl, -⟩ := h
  · exact readColors_length _ _ s
  · exact List.length_replicate

/-- Either push, ended well, writes its Colors and leaves what the read goes by. -/
theorem exec_push_writes {m : Depth} {g : Bool} {colors : List Color} {count : Word} {s s1 s2 : State} {i : Instr}
    (hi : PushOf m colors count s s1 i) (hsetup : SameSetup s s1) (hn : 0 < s1.par.nwords) (hidle : s1.dma = .idle)
    (hm : s1.cfg.depth = some m) (hg : s1.cfg.gray = some g) (hcount : count ≠ 0) (h : exec i s1 = .next s2)
    (hlast : s2.last = .ok) : SameSetup s1 s2 ∧ WritesPixels m g colors s1 s2 := by
  obtain ⟨addr, wait, rfl, rfl⟩ | ⟨color, wait, rfl, rfl, hpath⟩ := hi
  · have hcolors : readColors addr.toNat count.toNat s = readColors addr.toNat count.toNat s1 := by
      rw [readColors, readColors, hsetup.mem]
    rw [hcolors]
    exact ⟨exec_sameSetup h hn (by simp [writes]), exec_pushBuf_writes hidle hm hg hcount h hlast⟩
  · rw [← hsetup.par] at hpath
    exact ⟨exec_sameSetup h hn (by simp [writes]), exec_pushRep_writes hidle hm hg hcount hpath h hlast⟩

/-- Settles O45: a read of no pixels gives none; else the window is set, the push writes its Colors there, and the read
gives them back. -/
theorem pushedPixelsReadBack : Obligations.PushedPixelsReadBack := by
  rintro s s1 s2 s3 p w i colors count dst adapt m g hz ⟨hn, -, hcmds⟩ hwf hp hm hg hclock hlimit hset hset_ok
    (hi : PushOf m colors count s s1 i) hpush hpush_ok hread hread_ok
  by_cases hcount : count = 0
  · subst hcount
    obtain rfl : colors = [] := List.length_eq_zero_iff.mp hi.length
    have hnone : strippedPixels (memRead s3.mem dst.toNat (rawBytes 0)) = [] :=
      strippedPixels_dummy _ (memRead_length _ _ _)
    exact hnone ▸ .nil
  · have hsetup1 : SameSetup s s1 := exec_sameSetup hset hn ⟨rfl, rfl, rfl⟩
    obtain ⟨hsel, hidle, q, hq, hwindow⟩ := exec_setWindow_ok hn hcmds hp hlimit hset hset_ok
    obtain ⟨hsetup2, hformat, hpanel⟩ := exec_push_writes (g := g) hi hsetup1 (hsetup1.par.symm ▸ hn) hidle
      (hsetup1.cfg.symm ▸ hm) (hsetup1.cfg.symm ▸ hg) hcount hpush hpush_ok
    have hsetup := hsetup1.trans hsetup2
    rw [panelAfter_some s1 q _ hq hsel, ← hsetup2.par, wireStream_convert] at hpanel
    have hreturned := exec_readPixels_returns (hsetup.par.symm ▸ hn) (hsetup.par.symm ▸ hcmds)
      (hsetup.mem.symm ▸ hwf) ((readingClock_sameSetup hsetup adapt).trans hclock) hwindow (hformat q hq)
      ((List.length_map _).trans hi.length) hpanel hread hread_ok
    exact List.forall₂_map_left_iff.mp hreturned

end Sys2Proof.Machine
end

section
/-! Calibration (spec/45_calibration.md R260 to R271): the operation from its start, the scan that left nothing
selected, without a buffer or without a candidate among them, and the exit and the result however the scan ends. -/

namespace Sys2Proof.Machine

/-! ## The operation from its start -/

/-- The preconditions of `FIND_MAX_RDCLK` (R271), met behind a drain that ends well, and the values it reads. -/
structure CalibrationReady (s : State) (clock : Word) (m : Depth) (g : Bool) (width height : Half) : Prop where
  wait : WaitCompletes s
  unselected : s.sel = none
  clock_eq : s.clock = some clock
  depth_eq : s.cfg.depth = some m
  gray_eq : s.cfg.gray = some g
  width_eq : s.cfg.width = some width
  height_eq : s.cfg.height = some height
  width_ne : width ≠ 0
  height_ne : height ≠ 0
  format : ∀ p, s.panel = some p → p.fmt = fmtOfDepth m

/-- The plan of a scan (R262, R264). -/
def calPlan (m : Depth) (width height : Half) : CalPlan := ⟨m, width.toNat, calWindow width height⟩

theorem CalibrationReady.exec_eq {s : State} {clock : Word} {m : Depth} {g : Bool} {width height : Half}
    (h : CalibrationReady s clock m g width height) :
    exec .findMaxRdclk s =
      .next (finish (findMaxBody (clock, g, calPlan m width height) (drained s)).1
        (findMaxBody (clock, g, calPlan m width height) (drained s)).2) :=
  opening_run _ h.wait (findMaxPre_ok h.unselected h.clock_eq h.depth_eq h.gray_eq h.width_eq h.height_eq h.width_ne
    h.height_ne h.format)

/-! ## A scan that left nothing selected (R262, R263, R269, R270) -/

/-- The grayscale flag given back (R261). -/
theorem cfg_with_gray {c : Cfg} {g : Bool} (h : c.gray = some g) : { c with gray := some g } = c := by rw [← h]

/-- The exit has no deselect to make. -/
theorem findMaxBody_unselected {clock : Word} {g : Bool} {p : CalPlan} {s u : State} {st : Status}
    {best : Option Word} (hscan : calScan clock p { s with cfg := { s.cfg with gray := some false } } = (st, best, u))
    (hsel : u.sel = none) :
    findMaxBody (clock, g, p) s =
      (st,
        { u with
          cfg := { u.cfg with gray := some g }
          clock := some (quantise u.par clock)
          trace := u.trace ++ [.clk (quantise u.par clock)]
          result := some (best.getD u.par.calDefaultHz) }) := by
  simp [findMaxBody, hscan, calRestore, hsel, calResult, setClock, emit]

/-- Where the buffers are obtained the body is the scan and that exit. -/
theorem findMaxBody_scanned {clock : Word} {g : Bool} {p : CalPlan} {s u : State} {st : Status} {best : Option Word}
    (halloc : nextAlloc s.env = true)
    (hscan : scan p (candidates s.par (calLimit s.par clock)) none
      { s with cfg := { s.cfg with gray := some false }, env := popAlloc s.env } = (st, best, u))
    (hsel : u.sel = none) :
    findMaxBody (clock, g, p) s =
      (st,
        { u with
          cfg := { u.cfg with gray := some g }
          clock := some (quantise u.par clock)
          trace := u.trace ++ [.clk (quantise u.par clock)]
          result := some (best.getD u.par.calDefaultHz) }) :=
  findMaxBody_unselected (by simp only [calScan, halloc, if_true, hscan]) hsel

/-- Where they are refused there is no scan. -/
theorem findMaxBody_refused {clock : Word} {g : Bool} {p : CalPlan} {s : State} (hsel : s.sel = none)
    (hgray : s.cfg.gray = some g) (halloc : nextAlloc s.env = false) :
    findMaxBody (clock, g, p) s =
      (.ok,
        { s with
          env := popAlloc s.env
          ef := flagAlloc s.ef
          clock := some (quantise s.par clock)
          trace := s.trace ++ [.clk (quantise s.par clock)]
          result := some s.par.calDefaultHz }) := by
  have hskip : calScan clock p { s with cfg := { s.cfg with gray := some false } } =
      (.ok, none,
        { s with cfg := { s.cfg with gray := some false }, env := popAlloc s.env, ef := flagAlloc s.ef }) := by
    simp only [calScan, halloc, Bool.false_eq_true, if_false]
  rw [findMaxBody_unselected hskip hsel]
  simp only [cfg_with_gray hgray, Option.getD_none]

/-- A floor above the limit leaves no candidate. -/
theorem candidates_of_lt {par : Config.Params} {limit : Nat} (h : limit < par.calFloorHz.toNat) :
    candidates par limit = [] := by
  rw [candidates, if_neg (Nat.not_le.mpr h)]

/-- Settles O47: the refused allocation leads straight to the exit. -/
theorem findMaxWithoutBuffers : Obligations.FindMaxWithoutBuffers := by
  intro s clock m g width height hwait hsel hclock hm hg hwidth hheight hwidth0 hheight0 hformat halloc
  have hready : CalibrationReady s clock m g width height :=
    ⟨hwait, hsel, hclock, hm, hg, hwidth, hheight, hwidth0, hheight0, hformat⟩
  rw [hready.exec_eq, findMaxBody_refused (by rwa [drained_sel]) (by rwa [drained_cfg]) halloc]
  simp only [finish, flagAlloc, drained_par, drained_ef]

/-- Settles O48: a scan of no candidates, and the exit. -/
theorem findMaxWithoutCandidates : Obligations.FindMaxWithoutCandidates := by
  intro s clock m g width height hwait hsel hclock hm hg hwidth hheight hwidth0 hheight0 hformat halloc hfloor
  have hready : CalibrationReady s clock m g width height :=
    ⟨hwait, hsel, hclock, hm, hg, hwidth, hheight, hwidth0, hheight0, hformat⟩
  have hnone : candidates (drained s).par (calLimit (drained s).par clock) = [] :=
    candidates_of_lt (by rwa [drained_par])
  rw [hready.exec_eq, findMaxBody_scanned halloc (by rw [hnone, scan]) (by rwa [drained_sel])]
  simp only [finish, drained_par, drained_cfg, cfg_with_gray hg, Option.getD_none]

/-! ## However the scan ends -/

/-- `t` ends an operation begun in `s`: the configuration `c`, the clock requested again, the result `r`, nothing
selected unless a deselect failed, nothing in flight, host memory as it was. -/
structure Restored (s : State) (c : Cfg) (clock r : Word) (t : State) : Prop where
  cfg : t.cfg = c
  clock : t.clock = some (quantise s.par clock)
  result : t.result = some r
  sel : t.sel = none ∨ t.sel = some .display ∧ t.ef.sel = true
  dma : t.dma = .idle
  op : t.op = none
  mem : t.mem = s.mem

theorem flagsAfter_sel {st : Status} {ef : ErrFlags} (h : ef.sel = true) : (flagsAfter st ef).sel = true := by
  cases st with
  | deselectFail => rfl
  | selectFail => rfl
  | _ => exact h

/-- The exit of R269 and the result of R270, whatever the status. -/
theorem finish_restored {s u : State} (c : Cfg) (clock r : Word) (st : Status) (htraffic : Traffic s u)
    (hidle : u.dma = .idle) (hsel : u.sel = none ∨ u.sel = some .display ∧ u.ef.sel = true) :
    Restored s c clock r (finish st { setClock clock u with cfg := c, result := some r }) where
  cfg := finish_cfg _ _
  clock := by rw [finish_clock, setClock_clock, htraffic.par]
  result := finish_result _ _
  sel := by
    rw [finish_sel, finish_ef]
    exact hsel.imp id (And.imp id flagsAfter_sel)
  dma := by rw [finish_dma]; exact hidle
  op := finish_op _ _
  mem := by rw [finish_mem]; exact htraffic.mem

/-- Taken up at a wait for its test line, the operation ends with what it saved. -/
theorem resume_scan_restored (clock : Word) (g : Bool) (plan : CalPlan) (f : Nat) (fs : List Nat) (best : Option Word)
    {s : State} (hn : 0 < s.par.nwords) (hsel : s.sel ≠ some .touch) :
    ∃ t r, resume .findMaxRdclk (.scan clock g plan f fs best) s = .next t ∧
      Restored s { s.cfg with gray := some g } clock r t ∧
      (r = s.par.calDefaultHz ∨ best = some r ∨ ∃ k ∈ f :: fs, r = BitVec.ofNat 32 k) := by
  obtain ⟨hscan, hidle, -, -, hends, hbest⟩ := scanRest_spec plan f fs best s hn
  obtain ⟨u, hu, -, huidle, husel, he⟩ := calRestore_spec clock g (scanRest plan f fs best (lineRest s)).2.2
  have htraffic := hscan.trans hu
  have hrestored := finish_restored { u.cfg with gray := some g } clock
    ((scanRest plan f fs best (lineRest s)).2.1.getD u.par.calDefaultHz)
    (scanRest plan f fs best (lineRest s)).1 htraffic (huidle hidle) (husel (hends hsel))
  rw [htraffic.cfg, htraffic.par] at hrestored
  refine ⟨_, _, ?_, hrestored, ?_⟩
  · simp only [resume, calResult, he, setClock_par, htraffic.par, htraffic.cfg]
  · rcases hbest with h | ⟨k, hk, h⟩
    · rw [h]
      cases best with
      | none => exact .inl rfl
      | some r => exact .inr (.inl rfl)
    · rw [h]
      exact .inr (.inr ⟨k, hk, rfl⟩)

/-- A candidate as a clock: the floor and a number of steps, at most the limit (R263). -/
theorem candidate_toNat {par : Config.Params} {clock : Word} {f : Nat}
    (hf : f ∈ candidates par (calLimit par clock)) :
    ∃ k : Nat, (BitVec.ofNat 32 f).toNat = par.calFloorHz.toNat + k * par.calStepHz.toNat ∧
      (BitVec.ofNat 32 f).toNat ≤ min par.calCeilHz.toNat clock.toNat := by
  obtain ⟨k, hk, hlimit⟩ := candidates_spec par _ f hf
  have hlimit' : f ≤ min par.calCeilHz.toNat clock.toNat := hlimit
  have hclock := clock.isLt
  rw [BitVec.toNat_ofNat, Nat.mod_eq_of_lt (by omega)]
  exact ⟨k, hk, hlimit'⟩

/-- Run from its start, the operation ends with what it found. -/
theorem exec_findMaxRdclk_restored {s : State} {clock : Word} {m : Depth} {g : Bool} {width height : Half}
    (h : CalibrationReady s clock m g width height) (hn : 0 < s.par.nwords) :
    ∃ t r, exec .findMaxRdclk s = .next t ∧ Restored s s.cfg clock r t ∧
      (r = s.par.calDefaultHz ∨
        ∃ k : Nat, r.toNat = s.par.calFloorHz.toNat + k * s.par.calStepHz.toNat ∧
          r.toNat ≤ min s.par.calCeilHz.toNat clock.toNat) := by
  obtain ⟨u, hu, -, husel, -, best, hbest, hbody⟩ := findMaxBody_spec clock g (calPlan m width height) (drained s)
    (by rwa [drained_par]) (drained_dma s) (by rw [drained_sel, h.unselected]) (by rw [drained_cfg, h.gray_eq])
  have htraffic := (bus_drained s).toTraffic.trans hu
  refine ⟨_, best.getD s.par.calDefaultHz, h.exec_eq, ?_, ?_⟩
  · rw [hbody, drained_par, ← htraffic.cfg]
    exact finish_restored u.cfg clock _ _ htraffic (hu.dma (drained_dma s)) husel
  · rcases hbest with rfl | ⟨-, f, hf, rfl⟩
    · exact .inl rfl
    · rw [drained_par] at hf
      exact .inr (candidate_toNat hf)

/-- Settles O46: the exit from a wait, and from the start. -/
theorem findMaxEndsRestored : Obligations.FindMaxEndsRestored := by
  constructor
  · intro s clock g plan f fs best hn hsel
    obtain ⟨t, r, hresume, ht, hr⟩ := resume_scan_restored clock g plan f fs best hn hsel
    exact ⟨t, r, hresume, ht.cfg, ht.clock, ht.result, hr, ht.sel, ht.dma, ht.op, ht.mem⟩
  · intro s clock m g width height hn _ hwait hsel hclock hm hg hwidth hheight hwidth0 hheight0 hformat
    obtain ⟨t, r, hexec, ht, hr⟩ := exec_findMaxRdclk_restored
      ⟨hwait, hsel, hclock, hm, hg, hwidth, hheight, hwidth0, hheight0, hformat⟩ hn
    exact ⟨t, r, hexec, ht.cfg, ht.clock, ht.result, hr, ht.sel, ht.dma, ht.op, ht.mem⟩

end Sys2Proof.Machine
end

section
/-! Calibration over the deterministic test bench (spec/45_calibration.md R272; 20_memory.md R91), which reads back what
was written up to its limit and zeros above it: one candidate, the scan of a list of them, and which candidate of R263
is the last one the bench reads reliably. -/

namespace Sys2Proof.Machine

/-! ## The plan -/

/-- The test line has pixels, and the test window holds them (R262, R264). -/
structure PlanFits (p : CalPlan) : Prop where
  width : p.width ≠ 0
  cols : p.window.cs ≤ p.window.ce
  rows : p.window.rs ≤ p.window.re
  room : p.width ≤ windowArea p.window

theorem calPlan_fits (m : Depth) {width height : Half} (hwidth : width ≠ 0) : PlanFits (calPlan m width height) := by
  have hlast : (width - 1).toNat + 1 = width.toNat := by bv_omega
  have harea : windowArea (calWindow width height) = width.toNat := by
    simp only [windowArea, calWindow, hlast, Nat.add_sub_cancel_left, Nat.mul_one]
    rfl
  exact ⟨(BitVec.toNat_pos_of_ne_zero hwidth).ne', BitVec.le_def.mpr (Nat.zero_le _), BitVec.le_refl _, harea.ge⟩

theorem calLine_length (p : CalPlan) : (calLine p).length = p.width * depthBytes p.depth := by
  rw [calLine, wireStream_length, List.length_replicate]

/-! ## The comparison (R267) -/

/-- A line whose pixels all agree with the sample colour under the mask. -/
theorem mismatch_of_agree {p : CalPlan} {n : Nat} {bytes : List Byte}
    (h : List.Forall₂ (fun c b => maskEq p.depth c b = true) (List.replicate n Config.calColor)
      (strippedPixels bytes)) : mismatch p bytes = false := by
  have hlength : n = (strippedPixels bytes).length := by rw [← h.length_eq, List.length_replicate]
  rw [hlength, ← List.map_const', List.forall₂_map_left_iff, List.forall₂_same] at h
  rw [mismatch, List.any_eq_false]
  intro c hc
  rw [h c hc]
  decide

/-- A line of zeros: no channel of the sample colour is zero under the mask. -/
theorem mismatch_zeros {p : CalPlan} (hp : PlanFits p) : mismatch p (List.replicate (rawBytes p.width) 0) = true := by
  obtain ⟨k, hk⟩ := Nat.exists_eq_succ_of_ne_zero hp.width
  have hpixels : strippedPixels (List.replicate (rawBytes p.width) 0) =
      ⟨0, 0, 0⟩ :: colorsOf (List.replicate (3 * k) 0) := by
    rw [hk, rawBytes, show 3 * (k + 1) + 1 = 3 * k + 1 + 1 + 1 + 1 by omega]
    rfl
  have hblack : maskEq p.depth Config.calColor ⟨0, 0, 0⟩ = false := by cases p.depth <;> decide
  rw [mismatch, hpixels, List.any_cons, hblack]
  rfl

/-! ## The panel of the test bench -/

/-- A test bench with the limit `K`, in the format of a depth mode. -/
structure IsBench (K : Word) (m : Depth) (q : Panel) : Prop where
  bench : q.bench = true
  limit : q.rdMaxHz = K
  format : q.fmt = fmtOfDepth m

section
variable {K : Word} {m : Depth} {q : Panel}

theorem IsBench.hears (h : IsBench K m q) (par : Config.Params) (bytes : List (DcLevel × Byte)) :
    IsBench K m (panelHears par bytes q) := by
  obtain ⟨hlimit, hbench⟩ := panelHears_keeps par bytes q
  obtain ⟨hformat, -⟩ := panelHears_spec par bytes q
  exact ⟨hbench.trans h.bench, hlimit.trans h.limit, hformat.trans h.format⟩

theorem IsBench.gives (h : IsBench K m q) (par : Config.Params) (clock : Option Word) (draws : List Byte) :
    IsBench K m (panelGives par clock draws q).2 := by
  obtain ⟨hlimit, hbench, hformat⟩ := panelGives_keeps par clock draws q
  exact ⟨hbench.trans h.bench, hlimit.trans h.limit, hformat.trans h.format⟩

theorem IsBench.deselected (h : IsBench K m q) : IsBench K m (panelDeselect q) := ⟨h.bench, h.limit, h.format⟩

theorem IsBench.after {s : State} (h : IsBench K m q) (hq : s.panel = some q) (bytes : List (DcLevel × Byte)) :
    ∃ q', panelAfter s bytes = some q' ∧ IsBench K m q' := by
  unfold panelAfter
  split
  · exact ⟨_, by rw [hq]; rfl, h.hears s.par bytes⟩
  · exact ⟨q, hq, h⟩

end

/-! ## One line, every acknowledge given and no timeout -/

/-- The acknowledge given, the display is selected and nothing else but the trace moves. -/
theorem select_display_acked {s : State} {a : Nat} (hsel : s.sel = none) (hacks : AcksNext (a + 1) s) :
    ∃ u, select .display s = (.ok, u) ∧ u.sel = some .display ∧ u.par = s.par ∧ u.clock = s.clock ∧
      u.panel = s.panel ∧ AcksNext a u ∧ u.env.ends = s.env.ends := by
  obtain ⟨hack, hpop, hrest⟩ := acks_one a s.env hacks
  refine ⟨_, select_acked .display s hsel hack, rfl, rfl, rfl, rfl, ?_, ?_⟩
  · rwa [AcksNext, hpop]
  · rw [hpop]

/-- The acknowledge given, the display is deselected and forgets its command (20 R90). -/
theorem deselect_display_acked {s : State} {a : Nat} (hsel : s.sel = some .display) (hacks : AcksNext (a + 1) s) :
    ∃ u, deselect .display s = (.ok, u) ∧ u.sel = none ∧ u.par = s.par ∧ u.clock = s.clock ∧
      u.panel = s.panel.map panelDeselect ∧ AcksNext a u ∧ u.env.ends = s.env.ends := by
  obtain ⟨hack, hpop, hrest⟩ := acks_one a s.env hacks
  refine ⟨_, deselect_acked s hsel hack, rfl, rfl, rfl, rfl, ?_, ?_⟩
  · rwa [AcksNext, hpop]
  · rw [hpop]

/-- The script of a wait that ends well, and the script after it. -/
theorem ends_one (n : Nat) (e : Env) (h : e.ends.take (n + 1) = List.replicate (n + 1) none) :
    nextEnd e = none ∧ popEnd e = { e with ends := e.ends.drop 1 } ∧
      (e.ends.drop 1).take n = List.replicate n none := by
  cases he : e.ends with
  | nil => simp [he] at h
  | cons k rest =>
    simp only [he, List.take_succ_cons, List.replicate_succ, List.cons.injEq] at h
    exact ⟨by simp [nextEnd, he, h.1], by simp [popEnd, he], by simpa using h.2⟩

theorem NoTimeouts.less {n : Nat} {s : State} (h : NoTimeouts (n + 1) s) : NoTimeouts n s := by
  have := congrArg (List.take n) h
  rwa [List.take_take, List.take_replicate, Nat.min_eq_left (Nat.le_succ n)] at this

/-- The awaited push of pixels, on either path (43 R214 to R216). -/
theorem pushStream_pixels {bs : List Byte} {m : Depth} {n k : Nat} {s : State} (hlength : bs.length = n * depthBytes m)
    (hn : n ≠ 0) (hends : NoTimeouts (k + 1) s) :
    ∃ u, pushStream (goesDirect s.par m n) bs none true s = (.ok, u) ∧ u.sel = s.sel ∧ u.par = s.par ∧
      u.clock = s.clock ∧ u.panel = panelAfter s ((.command, s.par.cmdRamwr) :: atData bs) ∧
      u.env.acks = s.env.acks ∧ NoTimeouts k u := by
  cases hd : goesDirect s.par m n with
  | true =>
    rw [pushStream_direct, pushDirect_pixels hlength hn hd]
    exact ⟨_, rfl, rfl, rfl, rfl, rfl, rfl, hends.less⟩
  | false =>
    obtain ⟨hend, hpop, hrest⟩ := ends_one k s.env hends
    rw [pushStream_done bs none s hend]
    refine ⟨_, rfl, rfl, rfl, rfl, rfl, ?_, ?_⟩
    · rw [hpop]
    · rwa [NoTimeouts, hpop]

/-- `WriteLine` (R265): the panel has heard the window, then the line. -/
theorem writeLine_acked {p : CalPlan} {s : State} {q : Panel} {a k : Nat} (hn : 0 < s.par.nwords) (hp : PlanFits p)
    (hsel : s.sel = none) (hq : s.panel = some q) (hacks : AcksNext (a + 2) s) (hends : NoTimeouts (k + 1) s) :
    ∃ u, writeLine p s = (.ok, u) ∧ u.sel = none ∧ u.par = s.par ∧ u.clock = s.clock ∧
      u.panel = some (panelDeselect (panelHears s.par ((.command, s.par.cmdRamwr) :: atData (calLine p))
        (panelHears s.par (windowBytes s.par p.window) q))) ∧
      AcksNext a u ∧ NoTimeouts k u := by
  obtain ⟨s1, hselect, hsel1, hpar1, hclock1, hpanel1, hacks1, hends1⟩ := select_display_acked hsel hacks
  have hwindow := windowFrame_eq p.window s1 (hpar1 ▸ hn)
  obtain ⟨s2, hpush, hsel2, hpar2, hclock2, hpanel2, hacks2, hends2⟩ :=
    pushStream_pixels (s := windowFrame p.window s1) (k := k) (calLine_length p) hp.width
      (by rw [hwindow]; rwa [NoTimeouts, hends1])
  rw [hwindow] at hsel2 hpar2 hclock2 hacks2
  rw [panelAfter_append (s := s1) (windowBytes s1.par p.window) _ (by rw [hwindow]) (by rw [hwindow])
    (by rw [hwindow]), panelAfter_some s1 q _ (hpanel1.trans hq) hsel1, panelHears_append] at hpanel2
  obtain ⟨u, hdeselect, hsel3, hpar3, hclock3, hpanel3, hacks3, hends3⟩ :=
    deselect_display_acked (s := s2) (a := a) (hsel2.trans hsel1) (by rwa [AcksNext, hacks2])
  refine ⟨u, ?_, hsel3, hpar3.trans (hpar2.trans hpar1), hclock3.trans (hclock2.trans hclock1), ?_, hacks3,
    by rwa [NoTimeouts, hends3]⟩
  · have hdirect : goesDirect s1.par p.depth p.width = goesDirect (windowFrame p.window s1).par p.depth p.width := by
      rw [hwindow]
    simp only [writeLine, hselect, hdirect, hpush, hdeselect]
  · rw [hpanel3, hpanel2, hwindow, hpar1]
    rfl

/-- `ReadLine` (R266): what the frame of R240 receives from the selected display. -/
theorem readLine_acked {p : CalPlan} {s : State} {K : Word} {m : Depth} {q : Panel} {a : Nat} (hn : 0 < s.par.nwords)
    (hsel : s.sel = none) (hq : s.panel = some q) (hbench : IsBench K m q) (hacks : AcksNext (a + 2) s) :
    ∃ v u, readLine p s = (.ok, some (receiveFrame p.window (rawBytes p.width) v).1, u) ∧
      (v.sel = some .display ∧ v.par = s.par ∧ v.clock = s.clock ∧ v.panel = some q) ∧
      u.sel = none ∧ u.par = s.par ∧ (∃ q', u.panel = some q' ∧ IsBench K m q') ∧
      AcksNext a u ∧ u.env.ends = s.env.ends := by
  obtain ⟨v, hselect, hsel1, hpar1, hclock1, hpanel1, hacks1, hends1⟩ := select_display_acked hsel hacks
  have hn1 : 0 < v.par.nwords := hpar1 ▸ hn
  obtain ⟨cs, env, panel, -, ⟨hackscript, -, -, hendscript⟩, -, -, hframe⟩ :=
    receiveFrame_spec p.window (rawBytes p.width) v hn1
  obtain ⟨draws, -, -, hpanel2⟩ := receiveFrame_panel p.window (rawBytes p.width) v q hn1 (hpanel1.trans hq) hsel1
  obtain ⟨u, hdeselect, hsel3, hpar3, -, hpanel3, hacks3, hends3⟩ :=
    deselect_display_acked (s := (receiveFrame p.window (rawBytes p.width) v).2) (a := a) (by rw [hframe]; exact hsel1)
      (by rw [hframe]; rwa [AcksNext, hackscript])
  refine ⟨v, u, ?_, ⟨hsel1, hpar1, hclock1, hpanel1.trans hq⟩, hsel3, ?_, ?_, hacks3, ?_⟩
  · simp only [readLine, readSequence, openAdapter, hselect, hdeselect, restoreClock]
  · rw [hpar3, hframe, hpar1]
  · rw [hpanel3, hpanel2]
    exact ⟨_, rfl, ((hbench.hears _ _).gives _ _ _).deselected⟩
  · rw [hends3, hframe]
    exact hendscript.trans hends1

/-! ## One candidate -/

/-- What the parameters and the plan must be for a scan to find what the bench can do (R272). -/
structure ScanSound (par : Config.Params) (p : CalPlan) : Prop where
  nwords : 0 < par.nwords
  commands : CommandsDiffer par
  quantise : ∀ hz, quantise par hz = hz
  fits : PlanFits p

/-- Between candidates: nothing selected, a test bench with the limit `K` attached, and acknowledges and waits that end
well for `n` candidates to come. -/
structure OnBench (par : Config.Params) (K : Word) (m : Depth) (n : Nat) (s : State) : Prop where
  par_eq : s.par = par
  unselected : s.sel = none
  panel : ∃ q, s.panel = some q ∧ IsBench K m q
  acks : AcksNext (4 * n) s
  ends : NoTimeouts n s

/-- The line read back where it was written, up to the limit of the bench (20 R92). -/
theorem receiveFrame_agrees {p : CalPlan} {hz K : Word} {v : State} {q : Panel} (hp : ScanSound v.par p)
    (hbench : IsBench K p.depth q) (hsel : v.sel = some .display) (hclock : v.clock = some hz) (hlimit : hz ≤ K)
    (hq : v.panel = some (panelDeselect (panelHears v.par ((.command, v.par.cmdRamwr) :: atData (calLine p))
      (panelHears v.par (windowBytes v.par p.window) q)))) :
    mismatch p (receiveFrame p.window (rawBytes p.width) v).1 = false := by
  have hroom : (List.replicate p.width Config.calColor).length ≤ windowArea p.window := by
    rw [List.length_replicate]
    exact hp.fits.room
  have hwindow := panelHears_window v.par p.window q hp.commands
  have hbench1 := hbench.hears v.par (windowBytes v.par p.window)
  have hbench2 := (hbench1.hears v.par ((.command, v.par.cmdRamwr) :: atData (calLine p))).deselected
  exact mismatch_of_agree (receiveFrame_returns hp.nwords hp.commands hp.fits.cols hp.fits.rows hroom
    List.length_replicate hsel hclock hq hbench2.format (hbench2.limit.symm ▸ hlimit)
    (panelHears_write v.par p.depth p.window hp.fits.cols hp.fits.rows hp.commands _ _ hbench1.format hroom
      (by rw [hwindow]) (by rw [hwindow])))

/-- Above the limit of the bench nothing but zeros comes back (20 R91). -/
theorem receiveFrame_disagrees {p : CalPlan} {hz K : Word} {v : State} {q : Panel} (hp : ScanSound v.par p)
    (hbench : IsBench K p.depth q) (hsel : v.sel = some .display) (hclock : v.clock = some hz) (hlimit : K < hz)
    (hq : v.panel = some q) : mismatch p (receiveFrame p.window (rawBytes p.width) v).1 = true := by
  obtain ⟨draws, hdraws, hbytes, -⟩ := receiveFrame_panel p.window (rawBytes p.width) v q hp.nwords hq hsel
  have hheard := hbench.hears v.par (windowBytes v.par p.window ++ [(.command, v.par.cmdRamrd)])
  rw [hbytes, hclock, panelGives_fast _ _ _ _ (hheard.limit.symm ▸ hlimit) hheard.bench, hdraws]
  exact mismatch_zeros hp.fits

/-- A candidate is tried: both lines end well, and they differ where the candidate is above the limit. -/
theorem candidate_tried {par : Config.Params} {p : CalPlan} {K hz : Word} {n : Nat} {s : State}
    (hp : ScanSound par p) (hs : OnBench par K p.depth (n + 1) s) :
    ∃ s1 bytes u, writeLine p (setClock hz s) = (.ok, s1) ∧ readLine p s1 = (.ok, some bytes, u) ∧
      mismatch p bytes = decide (K < hz) ∧ OnBench par K p.depth n u := by
  obtain ⟨rfl, hsel, ⟨q, hq, hbench⟩, hacks, hends⟩ := hs
  obtain ⟨s1, hwrite, hsel1, hpar1, hclock1, hpanel1, hacks1, hends1⟩ :=
    writeLine_acked (s := setClock hz s) (a := 4 * n + 2) (k := n) hp.nwords hp.fits hsel hq hacks hends
  have hbench1 := ((hbench.hears s.par (windowBytes s.par p.window)).hears s.par
    ((.command, s.par.cmdRamwr) :: atData (calLine p))).deselected
  obtain ⟨v, u, hread, ⟨hselv, hparv, hclockv, hpanelv⟩, hsel2, hpar2, hpanel2, hacks2, hends2⟩ :=
    readLine_acked (p := p) (a := 4 * n) (hpar1 ▸ hp.nwords) hsel1 hpanel1 hbench1 hacks1
  have hparv' : v.par = s.par := hparv.trans hpar1
  have hclockv' : v.clock = some hz := by rw [hclockv, hclock1, setClock_clock, hp.quantise]
  refine ⟨s1, _, u, hwrite, hread, ?_, hpar2.trans hpar1, hsel2, hpanel2, hacks2, by rwa [NoTimeouts, hends2]⟩
  rw [← hparv'] at hp
  by_cases hlimit : K < hz
  · rw [decide_eq_true hlimit]
    exact receiveFrame_disagrees hp hbench1 hselv hclockv' hlimit hpanelv
  · rw [decide_eq_false hlimit]
    rw [setClock_par, ← hparv'] at hpanelv
    exact receiveFrame_agrees hp hbench hselv hclockv' (BitVec.not_lt.mp hlimit) hpanelv

/-! ## The scan -/

/-- The scan takes the candidates up to the first one above the limit, and the last of them is its best (R268). -/
theorem scan_on_bench {par : Config.Params} {p : CalPlan} {K : Word} {n : Nat} {fs : List Nat} {best : Option Word}
    {s : State} (hp : ScanSound par p) (hs : OnBench par K p.depth n s) (hcount : fs.length ≤ n)
    (hfs : ∀ f ∈ fs, f < 2 ^ 32) :
    ∃ k u, OnBench par K p.depth k u ∧
      scan p fs best s =
        (.ok, ((fs.takeWhile (· ≤ K.toNat)).getLast?.map (BitVec.ofNat 32)).or best, u) := by
  induction fs generalizing best n s with
  | nil => exact ⟨n, s, hs, rfl⟩
  | cons f fs ih =>
    have hn : n ≠ 0 := by
      rintro rfl
      cases hcount
    obtain ⟨n, rfl⟩ := Nat.exists_eq_succ_of_ne_zero hn
    obtain ⟨s1, bytes, u, hwrite, hread, hmatch, hu⟩ := candidate_tried (hz := BitVec.ofNat 32 f) hp hs
    have hlimit : K < BitVec.ofNat 32 f ↔ K.toNat < f := by
      rw [BitVec.lt_def, BitVec.toNat_ofNat, Nat.mod_eq_of_lt (hfs f List.mem_cons_self)]
    by_cases hf : f ≤ K.toNat
    · rw [decide_eq_false (hlimit.not.mpr (Nat.not_lt.mpr hf))] at hmatch
      obtain ⟨k, t, ht, hscan⟩ := ih (best := some (BitVec.ofNat 32 f)) hu (Nat.le_of_succ_le_succ hcount)
        fun f' hf' => hfs f' (List.mem_cons_of_mem _ hf')
      refine ⟨k, t, ht, ?_⟩
      have hgo : scan p (f :: fs) best s = scan p fs (some (BitVec.ofNat 32 f)) u := by
        simp only [scan, hwrite, hread, Option.getD_some, hmatch, Bool.false_eq_true, if_false]
      rw [hgo, hscan, List.takeWhile_cons_of_pos (by simpa using hf), List.getLast?_cons]
      cases (fs.takeWhile (· ≤ K.toNat)).getLast? <;> rfl
    · rw [decide_eq_true (hlimit.mpr (Nat.not_le.mp hf))] at hmatch
      refine ⟨n, u, hu, ?_⟩
      rw [List.takeWhile_cons_of_neg (by simpa using hf)]
      simp only [scan, hwrite, hread, Option.getD_some, hmatch, if_true]
      rfl

/-! ## The candidates -/

/-- The candidate number `k` (R263). -/
def candidateAt (par : Config.Params) (k : Nat) : Nat := par.calFloorHz.toNat + k * par.calStepHz.toNat

/-- The candidates are those numbered below some count, and these are the ones at most the limit. -/
theorem candidates_eq {par : Config.Params} (hstep : par.calStepHz ≠ 0) (limit : Nat) :
    ∃ count, candidates par limit = (List.range count).map (candidateAt par) ∧
      ∀ k, k < count ↔ candidateAt par k ≤ limit := by
  have hpos := BitVec.toNat_pos_of_ne_zero hstep
  unfold candidates candidateAt
  by_cases hfloor : par.calFloorHz.toNat ≤ limit
  · refine ⟨_, if_pos hfloor, fun k => ?_⟩
    rw [Nat.lt_succ_iff, Nat.le_div_iff_mul_le hpos]
    omega
  · exact ⟨0, by rw [if_neg hfloor]; rfl, fun k => by omega⟩

/-- The numbers below `n` that have a property, where these are the numbers below `m`. -/
theorem takeWhile_range {m n : Nat} {q : Nat → Bool} (h : ∀ k, k < m ↔ k < n ∧ q k = true) :
    (List.range n).takeWhile q = List.range m := by
  have hle : m ≤ n := Nat.le_of_not_lt fun hlt => Nat.lt_irrefl n ((h n).mp hlt).1
  obtain ⟨d, rfl⟩ := Nat.exists_eq_add_of_le hle
  rw [List.range_add, List.takeWhile_append_of_pos fun k hk => ((h k).mp (List.mem_range.mp hk)).2]
  cases d with
  | zero => simp
  | succ d =>
    have hstop : ¬ q m = true := fun hq => Nat.lt_irrefl m ((h m).mpr ⟨by omega, hq⟩)
    simp [List.range_succ_eq_map, hstop]

/-- The candidates of a scan that a lower limit leaves are those of a scan with that limit. -/
theorem candidates_takeWhile {par : Config.Params} (hstep : par.calStepHz ≠ 0) (limit K : Nat) :
    (candidates par limit).takeWhile (· ≤ K) = candidates par (min K limit) := by
  obtain ⟨n, hn, hnle⟩ := candidates_eq hstep limit
  obtain ⟨m, hm, hmle⟩ := candidates_eq hstep (min K limit)
  rw [hn, hm, List.takeWhile_map, takeWhile_range (m := m)]
  intro k
  rw [hnle, hmle, le_min_iff, Function.comp_apply, decide_eq_true_eq, and_comm]

/-- The last candidate is the largest one at most the limit; with the floor above it there is none. -/
theorem candidates_getLast? {par : Config.Params} (hstep : par.calStepHz ≠ 0) (limit : Nat) :
    (limit < par.calFloorHz.toNat ∧ (candidates par limit).getLast? = none) ∨
      ∃ k, (candidates par limit).getLast? = some (candidateAt par k) ∧ candidateAt par k ≤ limit ∧
        limit < candidateAt par k + par.calStepHz.toNat := by
  obtain ⟨count, heq, hle⟩ := candidates_eq hstep limit
  rw [heq]
  cases count with
  | zero =>
    have hfloor := (hle 0).not.mp (Nat.lt_irrefl 0)
    exact .inl ⟨by simpa [candidateAt] using hfloor, rfl⟩
  | succ k =>
    have hnext := (hle (k + 1)).not.mp (Nat.lt_irrefl _)
    refine .inr ⟨k, by simp [List.getLast?_range], (hle k).mp (Nat.lt_succ_self k), ?_⟩
    rw [candidateAt, Nat.succ_mul] at hnext
    rw [candidateAt]
    omega

theorem candidates_length {par : Config.Params} (hstep : par.calStepHz ≠ 0) {limit n : Nat}
    (h : limit < candidateAt par n) : (candidates par limit).length ≤ n := by
  obtain ⟨count, heq, hle⟩ := candidates_eq hstep limit
  rw [heq, List.length_map, List.length_range]
  exact Nat.le_of_not_lt fun hlt => Nat.not_le.mpr h ((hle n).mp hlt)

/-- A candidate of a scan is a clock. -/
theorem candidates_lt {par : Config.Params} {clock : Word} {f : Nat} (hf : f ∈ candidates par (calLimit par clock)) :
    f < 2 ^ 32 := by
  obtain ⟨-, -, hlimit⟩ := candidates_spec par _ f hf
  exact Nat.lt_of_le_of_lt (hlimit.trans (Nat.min_le_right _ _)) clock.isLt

/-! ## The operation -/

theorem popAlloc_scripts (e : Env) : (popAlloc e).acks = e.acks ∧ (popAlloc e).ends = e.ends := by
  unfold popAlloc
  split <;> exact ⟨rfl, rfl⟩

/-- Behind its drain the operation finds the bench for its first candidate. -/
theorem onBench_drained {s : State} {K : Word} {m : Depth} {n : Nat} {q : Panel} (c : Cfg) (hsel : s.sel = none)
    (hq : s.panel = some q) (hbench : IsBench K m q) (hacks : AcksNext (4 * n) (drained s))
    (hends : NoTimeouts n (drained s)) :
    OnBench s.par K m n { drained s with cfg := c, env := popAlloc (drained s).env } := by
  obtain ⟨bytes, hbytes⟩ := drained_panel s
  obtain ⟨hackscript, hendscript⟩ := popAlloc_scripts (drained s).env
  exact ⟨drained_par s, (drained_sel s).trans hsel, hbytes ▸ hbench.after hq bytes, by rwa [AcksNext, hackscript],
    by rwa [NoTimeouts, hendscript]⟩

/-- The operation ends well, and its result is the last candidate at most the limits of block and bench. -/
theorem exec_findMaxRdclk_bench {s : State} {clock K : Word} {m : Depth} {g : Bool} {width height : Half} {n : Nat}
    {q : Panel} (h : CalibrationReady s clock m g width height) (hp : ScanSound s.par (calPlan m width height))
    (hstep : s.par.calStepHz ≠ 0) (hq : s.panel = some q) (hbench : IsBench K m q)
    (halloc : nextAlloc (drained s).env = true) (hcount : calLimit s.par clock < candidateAt s.par n)
    (hacks : AcksNext (4 * n) (drained s)) (hends : NoTimeouts n (drained s)) :
    ∃ t, exec .findMaxRdclk s = .next t ∧ t.last = .ok ∧ t.sel = none ∧
      t.result = some (((candidates s.par (min K.toNat (calLimit s.par clock))).getLast?.map
        (BitVec.ofNat 32)).getD s.par.calDefaultHz) := by
  obtain ⟨k, u, hu, hscan⟩ := scan_on_bench (best := none) hp
    (onBench_drained { (drained s).cfg with gray := some false } h.unselected hq hbench hacks hends)
    (candidates_length hstep hcount) fun f hf => candidates_lt hf
  rw [candidates_takeWhile hstep, Option.or_none, ← drained_par] at hscan
  refine ⟨_, h.exec_eq, ?_⟩
  rw [findMaxBody_scanned halloc hscan hu.unselected]
  refine ⟨rfl, hu.unselected, ?_⟩
  rw [finish_result, hu.par_eq, drained_par]

/-- Settles O49: clock and configuration are those of every exit, and the last candidate the bench reads reliably is the
result. -/
theorem findMaxFindsLargestReliableClock : Obligations.FindMaxFindsLargestReliableClock := by
  rintro s p clock m g width height top n ⟨hn, hstep, hcmds⟩ hquant hwait hsel hclock hm hg hwidth hheight hwidth0
    hheight0 hp hbench hfmt halloc hcount hacks hends (htop : top = min p.rdMaxHz.toNat (calLimit s.par clock))
  have hready : CalibrationReady s clock m g width height :=
    ⟨hwait, hsel, hclock, hm, hg, hwidth, hheight, hwidth0, hheight0, fun q hq => by
      rwa [← Option.some.inj (hp.symm.trans hq)]⟩
  obtain ⟨t, r, hexec, ht, -⟩ := exec_findMaxRdclk_restored hready hn
  obtain ⟨t', hexec', hlast, hunselected, hresult⟩ := exec_findMaxRdclk_bench hready
    ⟨hn, hcmds, hquant, calPlan_fits m hwidth0⟩ hstep hp ⟨hbench, rfl, hfmt⟩ halloc hcount hacks hends
  obtain rfl : t = t' := Host.Outcome.next.inj (hexec.symm.trans hexec')
  have hr := Option.some.inj (ht.result.symm.trans hresult)
  rw [← htop] at hr
  refine ⟨t, r, hexec, hlast, ht.result, ht.clock.trans (by rw [hquant]), ht.cfg, hunselected, ?_⟩
  obtain ⟨hfloor, hnone⟩ | ⟨k, hlargest, hle, hnext⟩ := candidates_getLast? hstep top
  · rw [hnone] at hr
    exact ⟨fun h => absurd hfloor (Nat.not_lt.mpr h), fun _ => hr⟩
  · have hclock_lt := clock.isLt
    have hle_clock : top ≤ clock.toNat := htop.le.trans ((Nat.min_le_right _ _).trans (Nat.min_le_right _ _))
    have hk : r.toNat = candidateAt s.par k := by
      rw [hr, hlargest]
      exact Nat.mod_eq_of_lt (by omega)
    rw [← hk] at hle hnext
    exact ⟨fun _ => ⟨hle, hnext, k, hk⟩, fun h => absurd (hk.ge.trans hle) (by unfold candidateAt; omega)⟩

end Sys2Proof.Machine
end

section
/-! Configuration access (spec/46_config_access.md R280 to R283): the two operations by the register that their number
names, then the statements register by register. -/

namespace Sys2Proof.Machine

/-! ## Writing a register -/

theorem cfgValueLegal_ctrl (value : Word) : cfgValueLegal .ctrl value = true ↔ value.extractLsb' 2 30 = 0 :=
  beq_iff_eq

theorem cfgValueLegal_clock (value : Word) : cfgValueLegal .clock value = true ↔ value ≠ 0 :=
  bne_iff_ne

theorem cfgValueLegal_maxRdclock (value : Word) : cfgValueLegal .maxRdclock value = true ↔ value ≠ 0 :=
  bne_iff_ne

theorem cfgValueLegal_width (value : Word) :
    cfgValueLegal .width value = true ↔ value.extractLsb' 16 16 = 0 ∧ value.extractLsb' 0 16 ≠ 0 := by
  simp only [cfgValueLegal, Bool.and_eq_true, beq_iff_eq, bne_iff_ne]

theorem cfgValueLegal_height (value : Word) :
    cfgValueLegal .height value = true ↔ value.extractLsb' 16 16 = 0 ∧ value.extractLsb' 0 16 ≠ 0 :=
  cfgValueLegal_width value

/-- A register that takes the value is the target of the write (R280). -/
theorem cfgWriteTarget_of_legal {reg : Byte} {value : Word} {r : CfgReg} (hreg : cfgRegOf reg = some r)
    (hlegal : cfgValueLegal r value = true) : cfgWriteTarget reg value = some r := by
  simp only [cfgWriteTarget, hreg, hlegal, if_true]

/-- Only the clock has a precondition (R284). -/
theorem cfgWrPre_iff (r : CfgReg) (s : State) : cfgWrPre r s = .ok () ↔ (r = .clock → s.sel = none) := by
  simp [cfgWrPre, imp_iff_not_or]

/-- An access that is not taken is rejected before the drain (R280). -/
theorem exec_cfgWr_rejected {reg : Byte} {value : Word} (s : State) (h : cfgWriteTarget reg value = none) :
    exec (.cfgWr reg value) s = .next (fail .illegal s) := by
  simp only [exec, execCfgWr, h]

/-- An access that is taken opens with the drain (R280). -/
theorem exec_cfgWr_opening {reg : Byte} {value : Word} {r : CfgReg} (s : State) (hreg : cfgRegOf reg = some r)
    (hlegal : cfgValueLegal r value = true) :
    exec (.cfgWr reg value) s = opening id (cfgWrPre r) (fun _ u => (.ok, cfgWrite r value u)) s := by
  simp only [exec, execCfgWr, cfgWriteTarget_of_legal hreg hlegal]

/-- A legal write behind a drain that ends well; for the clock, with nothing selected. -/
theorem exec_cfgWr_written (r : CfgReg) {reg : Byte} {value : Word} {s : State} (hw : WaitCompletes s)
    (hreg : cfgRegOf reg = some r) (hlegal : cfgValueLegal r value = true) (hsel : r = .clock → s.sel = none) :
    exec (.cfgWr reg value) s = .next (finish .ok (cfgWrite r value (drained s))) := by
  rw [exec_cfgWr_opening s hreg hlegal]
  exact opening_run () hw ((cfgWrPre_iff r _).mpr (by rwa [drained_sel]))

/-- The clock is not written while an endpoint is selected (R284). -/
theorem exec_cfgWr_clock_refused {value : Word} {s : State} (hw : WaitCompletes s) (hvalue : value ≠ 0)
    (hsel : s.sel ≠ none) : exec (.cfgWr 0x02 value) s = .refused .wrongSelection := by
  have hpre : cfgWrPre .clock (drained s) = .error .wrongSelection := by simp [cfgWrPre, require, hsel]
  rw [exec_cfgWr_opening s rfl ((cfgValueLegal_clock value).mpr hvalue)]
  exact opening_refused _ hw hpre

/-- Settles O50: an illegal write has no target; each legal one is the register's case of `cfgWrite` behind the drain,
which leaves the configuration. -/
theorem cfgWrReplacesRegister : Obligations.CfgWrReplacesRegister := by
  intro value s
  refine ⟨fun reg hillegal => exec_cfgWr_rejected s ((illegalWrite_iff reg value).mpr hillegal), fun hw =>
    ⟨fun hreserved => ?ctrl, fun hvalue hsel => ?clock, fun hvalue hsel => exec_cfgWr_clock_refused hw hvalue hsel,
      fun hvalue => ?maxRdclock, fun hhigh hlow => ?width, fun hhigh hlow => ?height⟩⟩
  case ctrl =>
    rw [exec_cfgWr_written .ctrl hw rfl ((cfgValueLegal_ctrl value).mpr hreserved) nofun, ← drained_cfg s]
    rfl
  case clock =>
    rw [exec_cfgWr_written .clock hw rfl ((cfgValueLegal_clock value).mpr hvalue) fun _ => hsel,
      ← drained_par s]
    rfl
  case maxRdclock =>
    rw [exec_cfgWr_written .maxRdclock hw rfl ((cfgValueLegal_maxRdclock value).mpr hvalue) nofun, ← drained_cfg s]
    rfl
  case width =>
    rw [exec_cfgWr_written .width hw rfl ((cfgValueLegal_width value).mpr ⟨hhigh, hlow⟩) nofun, ← drained_cfg s]
    rfl
  case height =>
    rw [exec_cfgWr_written .height hw rfl ((cfgValueLegal_height value).mpr ⟨hhigh, hlow⟩) nofun, ← drained_cfg s]
    rfl

/-! ## Reading a register -/

/-- `STATUS` is register 1 (R35). -/
theorem cfgRegOf_status (n : Byte) : cfgRegOf n = some .status ↔ n = 0x01 := by revert n; decide

/-- The loan's record after a read, by the register's number (70 R332). -/
theorem observeIdle_eq {n : Byte} {r : CfgReg} (s : State) (hreg : cfgRegOf n = some r) :
    observeIdle r s = if n = 0x01 ∧ s.dma = .idle then none else s.loan := by
  have hstatus : r = .status ↔ n = 0x01 := by rw [← cfgRegOf_status, hreg, Option.some.injEq]
  simp only [observeIdle, hstatus, dmaBusy_eq_false]

/-- A register with a value is read (R282). -/
theorem exec_cfgRd_value {n : Byte} {r : CfgReg} {s : State} {v : Word} (hreg : cfgRegOf n = some r)
    (hvalue : registerValue r s = .ok v) :
    exec (.cfgRd n) s = .next
      { s with
        result := some v
        loan := if n = 0x01 ∧ s.dma = .idle then none else s.loan
        last := .ok
        op := none } := by
  simp only [exec, execCfgRd, hreg, hvalue, observeIdle_eq s hreg, finish]

/-- A register with no value has nothing to read (10 R43). -/
theorem exec_cfgRd_noValue {n : Byte} {r : CfgReg} {s : State} {f : Field} (hreg : cfgRegOf n = some r)
    (hvalue : registerValue r s = .error f) : exec (.cfgRd n) s = .refused (.noValue f) := by
  simp only [exec, execCfgRd, hreg, hvalue]

/-- A reserved number is rejected (R282). -/
theorem exec_cfgRd_rejected {n : Byte} (s : State) (h : cfgRegOf n = none) :
    exec (.cfgRd n) s = .next (fail .illegal s) := by
  simp only [exec, execCfgRd, h]

/-- Settles O51: the ten registers, then the fields that hold no value, then the reserved numbers. -/
theorem cfgRdReturnsRegister : Obligations.CfgRdReturnsRegister := by
  intro s
  refine ⟨?values, fun h => ?ctrl, fun h => ?clock, fun h => ?maxRdclock, fun h => ?width, fun h => ?height,
    fun h => ?result, fun n hn => exec_cfgRd_rejected s ((cfgRegOf_none n).mpr hn)⟩
  case values =>
    rintro n v loan hvalue rfl
    obtain ⟨rfl, m, g, hm, hg, rfl⟩ | ⟨rfl, rfl⟩ | ⟨rfl, hclock⟩ | ⟨rfl, hmax⟩ | ⟨rfl, x, hwidth, rfl⟩ |
      ⟨rfl, x, hheight, rfl⟩ | ⟨rfl, hresult⟩ | ⟨rfl, rfl⟩ | ⟨rfl, rfl⟩ | ⟨rfl, rfl⟩ := hvalue
    · exact exec_cfgRd_value rfl (by simp only [registerValue, hm, hg, ctrlWord])
    · exact exec_cfgRd_value rfl rfl
    · exact exec_cfgRd_value rfl (by simp only [registerValue, hclock, Option.elim_some])
    · exact exec_cfgRd_value rfl (by simp only [registerValue, hmax, Option.elim_some])
    · exact exec_cfgRd_value rfl (by simp only [registerValue, hwidth, Option.elim_some])
    · exact exec_cfgRd_value rfl (by simp only [registerValue, hheight, Option.elim_some])
    · exact exec_cfgRd_value rfl (by simp only [registerValue, hresult, Option.elim_some])
    · exact exec_cfgRd_value rfl rfl
    · exact exec_cfgRd_value rfl rfl
    · exact exec_cfgRd_value rfl rfl
  case ctrl => exact exec_cfgRd_noValue rfl (by simp only [registerValue, h])
  case clock => exact exec_cfgRd_noValue rfl (by simp only [registerValue, h, Option.elim_none])
  case maxRdclock => exact exec_cfgRd_noValue rfl (by simp only [registerValue, h, Option.elim_none])
  case width => exact exec_cfgRd_noValue rfl (by simp only [registerValue, h, Option.elim_none])
  case height => exact exec_cfgRd_noValue rfl (by simp only [registerValue, h, Option.elim_none])
  case result => exact exec_cfgRd_noValue rfl (by simp only [registerValue, h, Option.elim_none])

end Sys2Proof.Machine
end

section
/-! Statuses (spec/60_exceptions.md R291, R297): the status of each body is one of its operation's row of the table, and
so is that of an operation run from its start or taken up at a wait. -/

namespace Sys2Proof.Machine

/-! ## Rows of the table -/

/-- A status an operation may end with: its row of the table has it (R297), and it is `ST_ILLEGAL` for an illegal
register access and for nothing else (30 R118). -/
structure InRow (i : Instr) (st : Status) : Prop where
  allowed : statusAllowed i st = true
  illegal : st = .illegal ↔ i.wf = false

/-- Every row has `ST_OK`. -/
theorem inRow_ok {i : Instr} (hwf : i.wf = true) : InRow i .ok :=
  ⟨by cases i <;> rfl, by simp [hwf]⟩

/-- An operation that drains is legal: an illegal register access is rejected before the drain (40 R145; 46 R280). -/
theorem wf_of_drains {i : Instr} (hdrains : drains i = true) : i.wf = true := by
  cases i with
  | cfgWr reg value => exact hdrains
  | cfgRd reg => cases hdrains
  | _ => rfl

/-- The row of every operation that drains has the two ends of a wait (40 R145). -/
theorem inRow_of_wait {i : Instr} {st : Status} (hdrains : drains i = true) (hst : st = .ok ∨ st = .dmaTimeout) :
    InRow i st := by
  rcases hst with rfl | rfl
  · exact inRow_ok (wf_of_drains hdrains)
  · refine ⟨?_, by simp [wf_of_drains hdrains]⟩
    cases i with
    | cfgRd reg => cases hdrains
    | _ => rfl

/-- The rows of the two reads and of the calibration have every status but `ST_ILLEGAL`. -/
theorem inRow_of_legal {i : Instr} {st : Status} (hall : statusAllowed i st = true) (hwf : i.wf = true)
    (hst : st ≠ .illegal) : InRow i st :=
  ⟨hall, by simp [hwf, hst]⟩

/-! ## Waits and bodies -/

theorem awaitDma_status (s : State) : (awaitDma s).1 = .ok ∨ (awaitDma s).1 = .dmaTimeout := by
  rcases awaitDma_cases s with ⟨-, h⟩ | ⟨_, _, _, -, -, h⟩ <;> rw [h]
  · exact .inl rfl
  · exact .inr rfl

theorem fillLoop_ends (fill : List Byte) (b : Nat) (ns : List Nat) (s : State) :
    (fillLoop fill b ns s).1 = .ok ∨ (fillLoop fill b ns s).1 = .dmaTimeout := by
  obtain ⟨_, _, _, _, _, -, hst, -⟩ := fillLoop_spec fill b ns s
  exact hst.imp And.left And.left

theorem pushStream_status (direct : Bool) (bs : List Byte) (loan : Option (Nat × Nat)) (wait : Bool) (s : State) :
    (pushStream direct bs loan wait s).1 = .ok ∨ (pushStream direct bs loan wait s).1 = .dmaTimeout := by
  cases wait with
  | true =>
    obtain ⟨-, -, hst, -⟩ := pushStream_spec direct bs loan s
    exact hst
  | false =>
    cases direct with
    | true => exact .inl (by rw [pushStream_direct])
    | false => exact .inl (by rw [pushStream_queue])

/-- A refused allocation aborts silently, that is with `ST_OK` (43 R219). -/
theorem pushRepBody_status (color : Color) (count : Nat) (v : Depth × Bool × Nat) (s : State) :
    (pushRepBody color count v s).1 = .ok ∨ (pushRepBody color count v s).1 = .dmaTimeout := by
  unfold pushRepBody
  split
  · exact .inl rfl
  · unfold pushFill
    simp only
    split
    · exact fillLoop_ends _ _ _ _
    · exact .inl rfl

/-- A select does not fail as a deselect (40 R141). -/
theorem select_inRow (d : Dev) (s : State) : InRow (.select d) (select d s).1 := by
  rcases select_cases d s with ⟨-, h⟩ | ⟨-, -, h⟩ | ⟨-, -, h⟩ <;> rw [h]
  · exact inRow_ok rfl
  · exact inRow_ok rfl
  · exact inRow_of_legal rfl rfl (by simp)

/-- A deselect does not fail as a select (40 R143). -/
theorem deselect_inRow (d : Dev) (s : State) : InRow (.deselect d) (deselect d s).1 := by
  rcases deselect_cases d s with ⟨-, h⟩ | ⟨-, -, h⟩ | ⟨-, -, h⟩ <;> rw [h]
  · exact inRow_ok rfl
  · exact inRow_ok rfl
  · exact inRow_of_legal rfl rfl (by simp)

theorem readPixelsBody_legal (w : Window) (count addr : Nat) (clocks : Option (Word × Word)) {s : State}
    (hn : 0 < s.par.nwords) : (readPixelsBody w count addr clocks s).1 ≠ .illegal := by
  obtain ⟨m, e, hbody⟩ := readPixelsBody_eq w count addr clocks s
  rw [hbody]
  exact readSequence_legal w _ clocks s hn

theorem readPixelBody_legal (x y : Half) (clocks : Option (Word × Word)) {s : State} (hn : 0 < s.par.nwords) :
    (readPixelBody x y clocks s).1 ≠ .illegal := by
  obtain ⟨v, -, hbody⟩ := readPixelBody_eq x y clocks s hn
  rw [hbody]
  exact readSequence_legal _ _ clocks s hn

/-! ## Operations -/

/-- An operation that drains ends with the status of its body, or with that of the drain that failed. -/
theorem opening_inRow {α : Type} {i : Instr} {late : State → State} {pre : State → Except Refusal α}
    {body : α → State → Status × State} {s t : State} (h : opening late pre body s = .next t)
    (hdrains : drains i = true) (hbody : ∀ v, pre (drained s) = .ok v → InRow i (body v (drained s)).1) :
    InRow i t.last := by
  rcases opening_next h with ⟨-, v, hv, rfl⟩ | ⟨_, _, _, -, -, rfl⟩
  · rw [finish_last]
    exact hbody v hv
  · exact inRow_of_wait hdrains (.inr rfl)

/-- An operation run from its start. -/
theorem exec_inRow {i : Instr} {s t : State} (h : exec i s = .next t) (hn : 0 < s.par.nwords) : InRow i t.last := by
  have hn' : 0 < (drained s).par.nwords := by rwa [drained_par]
  cases i with
  | select d => exact opening_inRow h rfl fun _ _ => select_inRow d _
  | deselect d => exact opening_inRow h rfl fun _ _ => deselect_inRow d _
  | sendCmd cmd => exact opening_inRow h rfl fun _ _ => inRow_ok rfl
  | sendCmdData cmd addr length => exact opening_inRow h rfl fun _ _ => inRow_ok rfl
  | setWindow w => exact opening_inRow h rfl fun _ _ => inRow_ok rfl
  | pushRep color count wait =>
    simp only [exec, execPushRep] at h
    split at h
    · cases h
      exact inRow_ok rfl
    · rename_i hcount
      have hdrains : drains (.pushRep color count wait) = true := bne_iff_ne.mpr hcount
      exact opening_inRow h hdrains fun _ _ => inRow_of_wait hdrains (pushRepBody_status _ _ _ _)
  | pushBuf addr count wait =>
    simp only [exec, execPushBuf] at h
    split at h
    · cases h
      exact inRow_ok rfl
    · rename_i hcount
      have hdrains : drains (.pushBuf addr count wait) = true := bne_iff_ne.mpr hcount
      exact opening_inRow h hdrains fun _ _ => inRow_of_wait hdrains (pushStream_status _ _ _ _ _)
  | readPixels w count addr adapt =>
    exact opening_inRow h rfl fun _ _ => inRow_of_legal rfl rfl (readPixelsBody_legal _ _ _ _ hn')
  | readPixel x y => exact opening_inRow h rfl fun _ _ => inRow_of_legal rfl rfl (readPixelBody_legal _ _ _ hn')
  | findMaxRdclk =>
    refine opening_inRow h rfl fun v hv => inRow_of_legal rfl rfl ?_
    obtain ⟨hsel, -⟩ := findMaxPre_values hv
    exact findMaxBody_legal v _ hn' hsel
  | wait =>
    rw [exec, execWait] at h
    exact opening_inRow h rfl fun _ _ => inRow_ok rfl
  | cfgWr reg value =>
    simp only [exec, execCfgWr] at h
    split at h
    · rename_i hr
      cases h
      exact ⟨rfl, by simp [fail, Instr.wf, hr]⟩
    · rename_i r hr
      have hdrains : drains (.cfgWr reg value) = true := by simp [drains, hr]
      exact opening_inRow h hdrains fun _ _ => inRow_ok hdrains
  | cfgRd reg =>
    simp only [exec, execCfgRd] at h
    split at h
    · rename_i hr
      cases h
      exact ⟨rfl, by simp [fail, Instr.wf, hr]⟩
    · rename_i r hr
      split at h
      · cases h
        exact inRow_ok (by simp [Instr.wf, hr])
      · cases h

/-- An operation taken up at a wait. -/
theorem resume_inRow {i : Instr} {p : Phase} {s t : State} (hstands : standsAt i p = true)
    (h : resume i p s = .next t) (hn : 0 < s.par.nwords) : InRow i t.last := by
  have hdrains := drains_of_standsAt hstands
  cases p with
  | drain => exact exec_inRow h hn
  | pushWait =>
    cases h
    rw [finish_last]
    exact inRow_of_wait hdrains (awaitDma_status s)
  | fill buffer b rest =>
    cases h
    rw [finish_last]
    exact inRow_of_wait hdrains (fillLoop_ends buffer b rest s)
  | scan clock g plan f fs best =>
    obtain rfl := findMaxRdclk_of_standsAt hstands
    cases h
    rw [finish_last]
    obtain ⟨-, -, -, hlegal, -⟩ := scanRest_spec plan f fs best s hn
    exact inRow_of_legal rfl rfl hlegal

/-- Settles O53: an operation ends in its row from its start, by its body, and from a wait, by what follows it. -/
theorem statusesAreTheTables : Obligations.StatusesAreTheTables := by
  intro i p s t hn hends
  have hrow : InRow i t.last := by
    rcases hends with ⟨-, h⟩ | ⟨hstands, h⟩
    · exact exec_inRow h hn
    · exact resume_inRow hstands h hn
  exact ⟨hrow.allowed, hrow.illegal⟩

end Sys2Proof.Machine
end

section
/-! Reset and the hazards of waiting (spec/70_reset_and_hazards.md R320 to R322, R330, R332, R340; 20_memory.md R74):
what a reset makes of the block and leaves around it, and a step of a waiting operation in which the host acts. -/

namespace Sys2Proof.Machine

/-! ## The reset -/

/-- Every field of the block that the spec gives a reset value takes it (10 R44). -/
theorem blockReset_atReset (s : State) : BlockAtReset (blockReset s) :=
  ⟨rfl, rfl, rfl, rfl, rfl, rfl, rfl, rfl, rfl, rfl, rfl, rfl, rfl, rfl⟩

@[simp] theorem blockReset_loan (s : State) : (blockReset s).loan = none := rfl

@[simp] theorem resetDma_host (s : State) : (resetDma s).host = s.host := by
  unfold resetDma
  split
  · rfl
  · simp only [dmaAbort, emit, shiftAll_eq]

@[simp] theorem resetPanel_host (s : State) : (resetPanel s).host = s.host := by
  unfold resetPanel
  split <;> rfl

/-- A reset does not reach outside the block (70 R322). -/
theorem blockReset_keeps (s : State) :
    (blockReset s).host = s.host ∧ (blockReset s).mem = s.mem ∧ (blockReset s).par = s.par := by
  obtain ⟨hpar, hmem, -⟩ := resetDma_keeps s
  obtain ⟨hpar', hmem', -⟩ := resetPanel_keeps (resetDma s)
  exact ⟨(resetPanel_host _).trans (resetDma_host s), hmem'.trans hmem, hpar'.trans hpar⟩

/-- A selected panel loses its command, arguments and position, and nothing else (70 R321). -/
theorem resetPanel_panel {α : Type} (f : Panel → α) (s : State)
    (hf : ∀ p cmd arg cur, f { p with cmd := cmd, arg := arg, cur := cur } = f p) :
    (resetPanel s).panel.map f = s.panel.map f := by
  unfold resetPanel
  split
  · simp only [Option.map_map, Function.comp_def, hf]
  · rfl

/-- With no transfer in flight there is nothing a reset could send to the panel (70 R321, R322). -/
theorem blockReset_panel {α : Type} (f : Panel → α) {s : State} (hidle : s.dma = .idle)
    (hf : ∀ p cmd arg cur, f { p with cmd := cmd, arg := arg, cur := cur } = f p) :
    (blockReset s).panel.map f = s.panel.map f := by
  have hdma : resetDma s = s := by simp only [resetDma, hidle]
  rw [← resetPanel_panel f s hf, blockReset, hdma]
  rfl

/-- Settles O12: the DMA engine's turn leaves the block's surroundings, and the reset after it does so too. -/
theorem blockResetTouchesTheBlockOnly : Obligations.BlockResetTouchesTheBlockOnly := by
  intro s rest hhost hop
  obtain ⟨-, -, -, hmem, -, hpar, -⟩ := dmaTurn_keeps s
  obtain ⟨hhost', hmem', hpar'⟩ := blockReset_keeps { dmaTurn s with host := rest }
  refine ⟨_, step_of_host_cons hop hhost, blockReset_atReset _, hhost', hmem'.trans hmem, hpar'.trans hpar,
    blockReset_loan _, fun hidle => ?_⟩
  have hturn : dmaTurn s = s := by simp only [dmaTurn, hidle]
  have hkept {α : Type} (f : Panel → α) := blockReset_panel f (s := { dmaTurn s with host := rest }) (by rwa [hturn])
  rw [hturn] at hkept ⊢
  exact ⟨hkept Panel.gram fun _ _ _ _ => rfl, hkept Panel.cols fun _ _ _ _ => rfl,
    hkept Panel.rows fun _ _ _ _ => rfl, hkept Panel.fmt fun _ _ _ _ => rfl⟩

/-! ## The host while an operation waits -/

/-- A step in which something comes from the host during a wait is that action, after the DMA engine's turn, which
leaves the operation in progress and the block's surroundings as they are. -/
theorem step_of_urgent_cons {s : State} {i : Instr} {p : Phase} {a : HostAct} {rest : List (Option HostAct)}
    (hop : s.op = some (i, p)) (hurgent : s.env.urgent = some a :: rest) :
    ∃ u, step s = hostAct a u ∧ u.op = s.op ∧ u.host = s.host ∧ u.mem = s.mem := by
  obtain ⟨hop', hhost, hurgent', hmem, -⟩ := dmaTurn_keeps s
  refine ⟨{ dmaTurn s with env := { (dmaTurn s).env with urgent := rest } }, ?_, hop', hhost, hmem⟩
  simp only [step, hop, waitTurn, hurgent', hurgent]

/-- A second operation has no meaning (70 R330). -/
theorem runDescriptor_busy (d : List Word) {s : State} (hop : s.op ≠ none) : runDescriptor d s = .refused .busy := by
  simp only [runDescriptor, Option.isSome_iff_ne_none.mpr hop, if_true]

/-- The panel's format waits for a `Ready` block (70 R334). -/
theorem setPanelFormat_busy (fmt : PanelFmt) {s : State} (hop : s.op ≠ none) :
    setPanelFormat fmt s = .refused .busy := by
  simp only [setPanelFormat, Option.isSome_iff_ne_none.mpr hop, Bool.true_or, if_true]

/-- Settles O60: an operation in progress blocks every action of the host but the reset. -/
theorem hostActsWhileAnOperationWaits : Obligations.HostActsWhileAnOperationWaits := by
  intro s i p a rest hop hurgent
  obtain ⟨u, hstep, hop', hhost, hmem⟩ := step_of_urgent_cons hop hurgent
  have hbusy : u.op ≠ none := by simp [hop', hop]
  refine ⟨?issue, ?store, ?free, ?claim, ?panelFormat, ?reset⟩
  case issue =>
    rintro d rfl
    exact hstep.trans (runDescriptor_busy d hbusy)
  case store =>
    rintro addr bytes rfl
    rw [hstep, hostAct, hostStore, hostAccess_blocked _ _ _ u hbusy]
  case free =>
    rintro addr len rfl
    rw [hstep, hostAct, hostFree, hostAccess_blocked _ _ _ u hbusy]
  case claim =>
    rintro addr len dma rfl
    rw [hstep, hostAct, hostClaim, hostAccess_blocked _ _ _ u hbusy]
  case panelFormat =>
    rintro fmt rfl
    exact hstep.trans (setPanelFormat_busy fmt hbusy)
  case reset =>
    rintro rfl
    obtain ⟨hhost', hmem', -⟩ := blockReset_keeps u
    exact ⟨_, hstep, blockReset_atReset _, hhost'.trans hhost, hmem'.trans hmem, blockReset_loan _⟩

end Sys2Proof.Machine
end
